-- ==== Sys2Proof/Word.lean ====
section
/-! DEFINITION. The word types of CGI-RXA and the identifier type (00_scope.md R13, R17). -/

namespace Sys2Proof

/-- An unsigned 8-bit value (R13). -/
abbrev Byte := BitVec 8

/-- An unsigned 16-bit value (R13). -/
abbrev U16 := BitVec 16

/-- An unsigned 32-bit value (R13). -/
abbrev U32 := BitVec 32

/-- A CAN identifier (R17): standard, 11 bits, or extended, 29 bits. Two identifiers are equal iff kind and value are. -/
inductive CanId where
  | std (v : BitVec 11)
  | ext (v : BitVec 29)
  deriving DecidableEq, Repr

end Sys2Proof
end

