-- ==== Sys2Proof/Syntax.lean ====
section
/-! DEFINITION. The instructions: one constructor for each row of spec/opcode_table.json, and the operand types. -/

namespace Sys2Proof

/-- A signal format (10_state.md R24, 43_codec.md R123). The three bytes are stored as received. -/
structure SigFmt where
  id : CanId
  start : Byte
  size : Byte
  flags : Byte
  deriving DecidableEq, Repr

/-- A CAN frame as the block handles it (R18). Its dlc is the length of its data. -/
structure CanFrame where
  id : CanId
  rtr : Bool
  data : List Byte
  deriving DecidableEq, Repr

/-- The dlc of a frame: len(data) = dlc (R18). -/
abbrev CanFrame.dlc (f : CanFrame) : Nat := f.data.length

/-- A frame operand of the command port before its checks (R66): rtr is the raw byte, dlc the number of data bytes. -/
structure FrameArg where
  id : CanId
  rtr : Byte
  data : List Byte
  deriving DecidableEq, Repr

/-- The five controller modes (R68). -/
inductive Mode where
  | config
  | normal
  | sleep
  | listenOnly
  | loopback
  deriving DecidableEq, Repr

/-- A Number (R67): a pluck result or a lookup key. -/
inductive Number where
  | u8 (v : BitVec 8)
  | u16 (v : BitVec 16)
  | u32 (v : BitVec 32)
  | i8 (v : BitVec 8)
  | i16 (v : BitVec 16)
  | i32 (v : BitVec 32)
  deriving DecidableEq, Repr

/-- The instructions. The first 28 are the commands of R61, with their operands as the command port carries them (a byte
out of its range is still an operand: R145 decodes it and the meaning answers InvalidArgument). The last six are the
frame-class rows of R72, with the received frame as operand; the class SIG_FRAME has two rows, so two constructors (log 26),
which also carry the hit. -/
inductive Instr where
  | spReset
  | spRead (a : Byte)
  | spWrite (a d : Byte)
  | spBitmod (a mask d : Byte)
  | spReadblk (a n : Byte)
  | spWriteblk (a : Byte) (d : List Byte)
  | epWren
  | epRdsr
  | epRead (addr : U32) (n : Byte)
  | epWrite (addr : U32) (d : List Byte)
  | eeWrite (addr : U32) (d : List Byte)
  | eeRead (addr : U32) (n : Byte)
  | canSetmode (m : Byte)
  | canSetbt (c1 c2 c3 : Byte)
  | canSetmask (k : Byte) (id : CanId)
  | canSetfilter (f : Byte) (id : CanId)
  | canReceive (b : Byte)
  | canTransmit (frm : FrameArg)
  | canRxstatus
  | sigPluck (fmt : SigFmt) (frm : FrameArg)
  | sigLoad (s : Byte)
  | sigStore (s : Byte) (fmt : SigFmt)
  | sigGet (s : Byte)
  | rowWrite (t i : Byte) (key : U32) (value : U16)
  | rowRead (t i : Byte)
  | tabLookup (t tag : Byte) (w : U32)
  | critEnter
  | critExit (saved : Byte)
  | tblRd (fr : CanFrame)
  | tblWr (fr : CanFrame)
  | sigRd (fr : CanFrame)
  | sigWr (fr : CanFrame)
  /-- SIG_FRAME, row match 0x02 mask 0x06: hit 2 or 3 (`h` is the hit's bit 0) -/
  | sigFrameMid (h : BitVec 1) (fr : CanFrame)
  /-- SIG_FRAME, row match 0x04 mask 0x04: hit 4 to 7 (`h` is the hit's bits 1:0) -/
  | sigFrameHigh (h : BitVec 2) (fr : CanFrame)
  deriving DecidableEq, Repr

/-- Where an instruction's bytes are decoded: the command port (R61) or the handler's class word (R72). -/
inductive Source where
  | port
  | frame
  deriving DecidableEq, Repr

end Sys2Proof
end

