-- ==== Sys2Proof/Machine/Bytes.lean ====
section
/-! DEFINITION. Byte order, bit fields, identifier words and the 7-byte wire record (R12 to R14, R65, R74, R75, R117,
R123). Pure functions. -/

namespace Sys2Proof

/-- `bits[hi:lo]` of a byte list position is written with extractLsb'; this is bit i of a byte (R12). -/
def bitOf (b : Byte) (i : Nat) : Bool := b.getLsbD i

/-- A byte with bit i set to v, the other bits kept. -/
def withBit (b : Byte) (i : Nat) (v : Bool) : Byte :=
  if v then b ||| (1#8 <<< i) else b &&& ~~~(1#8 <<< i)

/-- BE32 (R14). -/
def be32 (b0 b1 b2 b3 : Byte) : U32 := b0 ++ b1 ++ b2 ++ b3

/-- LE32 (R14). -/
def le32 (b0 b1 b2 b3 : Byte) : U32 := b3 ++ b2 ++ b1 ++ b0

/-- BE16 (R14). -/
def be16 (b0 b1 : Byte) : U16 := b0 ++ b1

/-- beBytes32 (R14). -/
def beBytes32 (v : U32) : List Byte :=
  [v.extractLsb' 24 8, v.extractLsb' 16 8, v.extractLsb' 8 8, v.extractLsb' 0 8]

/-- leBytes32 (R14). -/
def leBytes32 (v : U32) : List Byte :=
  [v.extractLsb' 0 8, v.extractLsb' 8 8, v.extractLsb' 16 8, v.extractLsb' 24 8]

/-- beBytes16 (R14). -/
def beBytes16 (v : U16) : List Byte := [v.extractLsb' 8 8, v.extractLsb' 0 8]

/-- mkStd (R17): bits above 10 are masked away. -/
def mkStd (w : U32) : CanId := .std (w.extractLsb' 0 11)

/-- mkExt (R17): bits above 28 are masked away. -/
def mkExt (w : U32) : CanId := .ext (w.extractLsb' 0 29)

/-- val(id) (R17), as a 32-bit word. -/
def CanId.val : CanId → U32
  | .std v => v.setWidth 32
  | .ext v => v.setWidth 32

/-- Is the identifier extended (R17). -/
def CanId.isExt : CanId → Bool
  | .std _ => false
  | .ext _ => true

/-- packIdWord (R117): bit 31 is the extended flag, every bit outside the value is 0. -/
def packIdWord : CanId → U32
  | .std v => v.setWidth 32
  | .ext v => 0x80000000#32 ||| v.setWidth 32

/-- unpackIdWord (R117): bits outside the flag and the value are ignored. -/
def unpackIdWord (w : U32) : CanId := if w.getLsbD 31 then mkExt w else mkStd w

/-- serWire (R123): the 7-byte Signal-Control payload. -/
def serWire (f : SigFmt) : List Byte := beBytes32 (packIdWord f.id) ++ [f.start, f.size, f.flags]

/-- deserWire (R123) of the seven bytes of a list; its callers give it exactly seven. -/
def deserWire (b : List Byte) : SigFmt where
  id := unpackIdWord (be32 (b.getD 0 0) (b.getD 1 0) (b.getD 2 0) (b.getD 3 0))
  start := b.getD 4 0
  size := b.getD 5 0
  flags := b.getD 6 0

end Sys2Proof
end

