-- ==== Sys2Proof/Config.lean ====
section
/-! DEFINITION. The fixed values of R9, the parameters of R10 as data, and the one free value of the model.
The parameters are no constants of Lean: State holds one instance (R10: the model takes each as an argument). -/

namespace Sys2Proof

/-- Rows of a calibration table (R9). -/
abbrev tableRows : Nat := 32

/-- Bytes of a table row in EEPROM and on the wire (R9). -/
abbrev rowBytes : Nat := 6

/-- EEPROM page size in bytes (R9). -/
abbrev pageSize : Nat := 16

/-- Bytes of a SigFmt record in EEPROM (R9). -/
abbrev sigRecBytes : Nat := 8

/-- Bytes of a Signal-Control payload (R9). -/
abbrev sigWireBytes : Nat := 7

/-- Largest data length code (R9). -/
abbrev maxDlc : Nat := 8

/-- The byte order of the identifier word in an EEPROM record (R10, OPEN: D14). -/
inductive ByteOrder where
  | le
  | be
  deriving DecidableEq, Repr

/-- Addresses of the controller registers the block uses (10_state.md R35). A base names the first of its registers. -/
structure RegMap where
  rxf0 : Nat
  rxf1 : Nat
  rxf2 : Nat
  rxf3 : Nat
  rxf4 : Nat
  rxf5 : Nat
  canstat : Nat
  canctrl : Nat
  rxm0 : Nat
  rxm1 : Nat
  cnf1 : Nat
  cnf2 : Nat
  cnf3 : Nat
  caninte : Nat
  canintf : Nat
  txb0ctrl : Nat
  /-- TXB0SIDH: the identifier registers at +0..+3, TXB0DLC at +4, TXB0D0..D7 at +5.. (R35, R114) -/
  txb0sidh : Nat
  /-- RXB0SIDH, with the same layout -/
  rxb0sidh : Nat
  /-- RXB1SIDH, with the same layout -/
  rxb1sidh : Nat
  deriving DecidableEq, Repr

/-- The parameters of the external parts (R4, R10): register addresses, bit positions (R36), serial command bytes and
EEPROM status bits (R70), mode codes (R68). -/
structure DevParams where
  map : RegMap
  /-- EXIDE/IDE bit of a SIDL register -/
  exideBit : Nat
  /-- RTR bit of a DLC register -/
  rtrBit : Nat
  txreqBit : Nat
  txerrBit : Nat
  /-- mask of the mode-request bits of CANCTRL -/
  modeMask : Byte
  codeConfig : BitVec 3
  codeNormal : BitVec 3
  codeSleep : BitVec 3
  codeListenOnly : BitVec 3
  codeLoopback : BitVec 3
  opReset : Byte
  opRead : Byte
  opWrite : Byte
  opBitmod : Byte
  opRxStatus : Byte
  eopRead : Byte
  eopWrite : Byte
  eopWren : Byte
  eopRdsr : Byte
  wipBit : Nat
  welBit : Nat
  deriving DecidableEq, Repr

/-- The default register map of R35 (MCP2515 values, general knowledge of the spec). -/
def RegMap.mcp2515 : RegMap where
  rxf0 := 0x00
  rxf1 := 0x04
  rxf2 := 0x08
  rxf3 := 0x10
  rxf4 := 0x14
  rxf5 := 0x18
  canstat := 0x0E
  canctrl := 0x0F
  rxm0 := 0x20
  rxm1 := 0x24
  cnf1 := 0x2A
  cnf2 := 0x29
  cnf3 := 0x28
  caninte := 0x2B
  canintf := 0x2C
  txb0ctrl := 0x30
  txb0sidh := 0x31
  rxb0sidh := 0x61
  rxb1sidh := 0x71

/-- The default device parameters of R36, R68 and R70. -/
def DevParams.standard : DevParams where
  map := .mcp2515
  exideBit := 3
  rtrBit := 6
  txreqBit := 3
  txerrBit := 4
  modeMask := 0xE0
  codeConfig := 0b100
  codeNormal := 0b000
  codeSleep := 0b001
  codeListenOnly := 0b011
  codeLoopback := 0b010
  opReset := 0xC0
  opRead := 0x03
  opWrite := 0x02
  opBitmod := 0x05
  opRxStatus := 0xB0
  eopRead := 0x03
  eopWrite := 0x02
  eopWren := 0x06
  eopRdsr := 0x05
  wipBit := 0
  welBit := 1

/-- The implementation parameters of R10. A machine's instance never changes while it runs. -/
structure Params where
  numSignals : Nat
  eeSize : Nat
  eeAddrBytes : Nat
  sigRecBase : Nat
  /-- TABLE_BASE(t), one entry a table -/
  tableBases : List Nat
  eeBailout : Nat
  txRetries : Nat
  idRecOrder : ByteOrder
  tableCtrlId : CanId
  sigCtrlId : CanId
  ctrlMask : CanId
  cnf1 : Byte
  cnf2 : Byte
  cnf3 : Byte
  rtrDlcTable : Nat
  rtrDlcSignal : Nat
  /-- EE_POLL_DELAY, TX_POLL_DELAY, RESET_DELAY: lengths of waits, without effect (R15, R188) -/
  eePollDelay : Nat
  txPollDelay : Nat
  resetDelay : Nat
  dev : DevParams
  deriving DecidableEq, Repr

/-- The test instance of R10 (the defaults) with the bindings 95_test_vectors.md section 1 gives the OPEN parameters
(EE_BAILOUT 3, TX_RETRIES 3, CNF 00 90 02, ID_REC_ORDER BE). DESIGN CHOICE, unsafe: the binding of the reset state only;
every meaning reads the instance State holds (log 3). -/
def Params.testInstance : Params where
  numSignals := 4
  eeSize := 2048
  eeAddrBytes := 2
  sigRecBase := 0
  tableBases := [0x0080, 0x0140, 0x0200, 0x02C0]
  eeBailout := 3
  txRetries := 3
  idRecOrder := .be
  tableCtrlId := .std 0x200
  sigCtrlId := .std 0x400
  ctrlMask := .std 0x600
  cnf1 := 0x00
  cnf2 := 0x90
  cnf3 := 0x02
  rtrDlcTable := 6
  rtrDlcSignal := 7
  eePollDelay := 0
  txPollDelay := 0
  resetDelay := 0
  dev := .standard

/-- The FREE VALUE of the model: the n-th byte that the spec leaves to the environment (logs 5, 12, 14). No body: nothing
can be proved of its value. State.freeN counts how many have been taken. -/
opaque Config.freeByte : Nat → BitVec 8

end Sys2Proof
end

