-- ==== Sys2Proof/WellFormed.lean ====
section
/-! DEFINITION. Which terms of Instr an encoding can hold: counts fit their count byte (R61), a received frame has at most
8 data bytes (R18), and a class row's frame has the remote bit the class asks for (R72). -/

namespace Sys2Proof

/-- A count byte holds the number of data bytes (R61). -/
def countOk (d : List Byte) : Bool := d.length < 256

/-- A received frame: dlc never exceeds 8 (R18). -/
def CanFrame.ok (f : CanFrame) : Bool := f.data.length ≤ maxDlc

/-- The source an instruction is decoded from. -/
def Instr.source : Instr → Source
  | .tblRd _ | .tblWr _ | .sigRd _ | .sigWr _ | .sigFrameMid _ _ | .sigFrameHigh _ _ => .frame
  | _ => .port

/-- A term that some byte list encodes. -/
def Instr.wellFormed : Instr → Bool
  | .spWriteblk _ d => countOk d
  | .epWrite _ d => countOk d
  | .eeWrite _ d => countOk d
  | .canTransmit frm => countOk frm.data
  | .sigPluck _ frm => countOk frm.data
  | .tblRd fr => fr.ok && fr.rtr
  | .tblWr fr => fr.ok && !fr.rtr
  | .sigRd fr => fr.ok && fr.rtr
  | .sigWr fr => fr.ok && !fr.rtr
  | .sigFrameMid _ fr => fr.ok
  | .sigFrameHigh _ fr => fr.ok
  | _ => true

end Sys2Proof
end

