-- ==== Sys2Proof/Decode.lean ====
section
/-! DEFINITION. The two decoders of the block and their encoder: the command port (R61, R63, R64) and the class word of a
received frame (R72, R73). Total on any bytes; a rejection is by name. -/

namespace Sys2Proof

/-- Why a byte list is no instruction. -/
inductive DecodeError where
  /-- The op byte is not in the table of R61 (R64); also the empty list, which has none (log 16). -/
  | unknownOp
  /-- The list is shorter or longer than its command (R63). -/
  | badCommandLength
  /-- A class word whose identifier or data bytes are missing or too many (log 11). -/
  | badFrameLength
  deriving DecidableEq, Repr

/-- The op bytes of R61. -/
def opBytes : List Byte :=
  [0x01, 0x02, 0x03, 0x04, 0x05, 0x06, 0x08, 0x09, 0x0A, 0x0B, 0x10, 0x11,
    0x20, 0x21, 0x22, 0x23, 0x24, 0x25, 0x26, 0x30, 0x31, 0x32, 0x33, 0x40, 0x41, 0x42, 0x50, 0x51]

/-- One operand byte and the rest. -/
def readByte : List Byte → Option (Byte × List Byte)
  | b :: r => some (b, r)
  | [] => none

/-- A big-endian u16 operand and the rest (R61). -/
def readU16 : List Byte → Option (U16 × List Byte)
  | b0 :: b1 :: r => some (be16 b0 b1, r)
  | _ => none

/-- A big-endian u32 operand and the rest (R61). -/
def readU32 : List Byte → Option (U32 × List Byte)
  | b0 :: b1 :: b2 :: b3 :: r => some (be32 b0 b1 b2 b3, r)
  | _ => none

/-- An identifier word operand (R65). -/
def readId (bs : List Byte) : Option (CanId × List Byte) :=
  (readU32 bs).map fun p => (unpackIdWord p.1, p.2)

/-- n data bytes and the rest (R61). -/
def readN (n : Nat) (bs : List Byte) : Option (List Byte × List Byte) :=
  if n ≤ bs.length then some (bs.take n, bs.drop n) else none

/-- A count byte n, then n data bytes (R61). -/
def readCounted (bs : List Byte) : Option (List Byte × List Byte) :=
  (readByte bs).bind fun p => readN p.1.toNat p.2

/-- A 7-byte format operand (R75). -/
def readFmt (bs : List Byte) : Option (SigFmt × List Byte) :=
  (readN sigWireBytes bs).map fun p => (deserWire p.1, p.2)

/-- A frame operand (R66): identifier word, rtr, dlc, dlc data bytes. It is 6 + dlc bytes whatever the dlc (R63). -/
def readFrame (bs : List Byte) : Option (FrameArg × List Byte) :=
  (readId bs).bind fun p =>
  (readByte p.2).bind fun q =>
  (readCounted q.2).map fun d => (⟨p.1, q.1, d.1⟩, d.2)

/-- The operands that follow an op byte (R61): the instruction and the bytes that are left, or none when the list ends
inside the command or the op byte is none of R61. -/
def readOperands (op : Byte) (bs : List Byte) : Option (Instr × List Byte) :=
  match op with
  | 0x01#8 => some (.spReset, bs)
  | 0x02#8 => (readByte bs).map fun a => (.spRead a.1, a.2)
  | 0x03#8 => (readByte bs).bind fun a => (readByte a.2).map fun d => (.spWrite a.1 d.1, d.2)
  | 0x04#8 => (readByte bs).bind fun a => (readByte a.2).bind fun m => (readByte m.2).map fun d =>
      (.spBitmod a.1 m.1 d.1, d.2)
  | 0x05#8 => (readByte bs).bind fun a => (readByte a.2).map fun n => (.spReadblk a.1 n.1, n.2)
  | 0x06#8 => (readByte bs).bind fun a => (readCounted a.2).map fun d => (.spWriteblk a.1 d.1, d.2)
  | 0x08#8 => some (.epWren, bs)
  | 0x09#8 => some (.epRdsr, bs)
  | 0x0A#8 => (readU32 bs).bind fun a => (readByte a.2).map fun n => (.epRead a.1 n.1, n.2)
  | 0x0B#8 => (readU32 bs).bind fun a => (readCounted a.2).map fun d => (.epWrite a.1 d.1, d.2)
  | 0x10#8 => (readU32 bs).bind fun a => (readCounted a.2).map fun d => (.eeWrite a.1 d.1, d.2)
  | 0x11#8 => (readU32 bs).bind fun a => (readByte a.2).map fun n => (.eeRead a.1 n.1, n.2)
  | 0x20#8 => (readByte bs).map fun m => (.canSetmode m.1, m.2)
  | 0x21#8 => (readByte bs).bind fun a => (readByte a.2).bind fun b => (readByte b.2).map fun c =>
      (.canSetbt a.1 b.1 c.1, c.2)
  | 0x22#8 => (readByte bs).bind fun k => (readId k.2).map fun i => (.canSetmask k.1 i.1, i.2)
  | 0x23#8 => (readByte bs).bind fun k => (readId k.2).map fun i => (.canSetfilter k.1 i.1, i.2)
  | 0x24#8 => (readByte bs).map fun b => (.canReceive b.1, b.2)
  | 0x25#8 => (readFrame bs).map fun f => (.canTransmit f.1, f.2)
  | 0x26#8 => some (.canRxstatus, bs)
  | 0x30#8 => (readFmt bs).bind fun m => (readFrame m.2).map fun f => (.sigPluck m.1 f.1, f.2)
  | 0x31#8 => (readByte bs).map fun s => (.sigLoad s.1, s.2)
  | 0x32#8 => (readByte bs).bind fun s => (readFmt s.2).map fun m => (.sigStore s.1 m.1, m.2)
  | 0x33#8 => (readByte bs).map fun s => (.sigGet s.1, s.2)
  | 0x40#8 => (readByte bs).bind fun t => (readByte t.2).bind fun i => (readU32 i.2).bind fun k =>
      (readU16 k.2).map fun v => (.rowWrite t.1 i.1 k.1 v.1, v.2)
  | 0x41#8 => (readByte bs).bind fun t => (readByte t.2).map fun i => (.rowRead t.1 i.1, i.2)
  | 0x42#8 => (readByte bs).bind fun t => (readByte t.2).bind fun g => (readU32 g.2).map fun w =>
      (.tabLookup t.1 g.1 w.1, w.2)
  | 0x50#8 => some (.critEnter, bs)
  | 0x51#8 => (readByte bs).map fun s => (.critExit s.1, s.2)
  | _ => none

/-- The command-port decoder (R63, R64, R145): the op byte first, then the length, which must be the command's exactly. -/
def decodeCommand : List Byte → Except DecodeError Instr
  | [] => .error .unknownOp
  | op :: bs =>
    if op ∈ opBytes then
      match readOperands op bs with
      | some (i, []) => .ok i
      | _ => .error .badCommandLength
    else .error .unknownOp

/-- The five classes of R72. -/
inductive FrameClass where
  | tblRd
  | tblWr
  | sigRd
  | sigWr
  | sigFrame
  deriving DecidableEq, Repr

/-- The class word CW = dlc[3:0], rtr, hit[2:0] (R72). -/
def classWord (h : BitVec 3) (fr : CanFrame) : Byte :=
  BitVec.ofNat 4 fr.dlc ++ BitVec.ofBool fr.rtr ++ h

/-- classify (R134): by the hit and the remote bit alone. -/
def classify (h : BitVec 3) (rtr : Bool) : FrameClass :=
  if h = 0 then (if rtr then .tblRd else .tblWr)
  else if h = 1 then (if rtr then .sigRd else .sigWr)
  else .sigFrame

/-- The instruction that a received frame with hit h stands for (R72): hits 6 and 7, which both rows of SIG_FRAME match,
go to the second row (log 26). -/
def frameInstr (h : BitVec 3) (fr : CanFrame) : Instr :=
  match classify h fr.rtr with
  | .tblRd => .tblRd fr
  | .tblWr => .tblWr fr
  | .sigRd => .sigRd fr
  | .sigWr => .sigWr fr
  | .sigFrame => if h.getLsbD 2 then .sigFrameHigh (h.extractLsb' 0 2) fr else .sigFrameMid (h.extractLsb' 0 1) fr

/-- The data bytes a DLC field asks for: a field of 9 to 15 counts as 8 (R79, R113). -/
def clampDlc (dlc : BitVec 4) : Nat := min dlc.toNat maxDlc

/-- A class word with its operand bytes, the frame's identifier word and its data (log 11): the instruction and the rest. -/
def readClass (cw : Byte) (bs : List Byte) : Option (Instr × List Byte) :=
  (readId bs).bind fun p =>
  (readN (clampDlc (cw.extractLsb' 4 4)) p.2).map fun d =>
    (frameInstr (cw.extractLsb' 0 3) ⟨p.1, bitOf cw 3, d.1⟩, d.2)

/-- The class-word decoder (R72). -/
def decodeFrame : List Byte → Except DecodeError Instr
  | [] => .error .badFrameLength
  | cw :: bs =>
    match readClass cw bs with
    | some (i, []) => .ok i
    | _ => .error .badFrameLength

/-- Decoding, at the command port or in the handler. -/
def decode : Source → List Byte → Except DecodeError Instr
  | .port => decodeCommand
  | .frame => decodeFrame

/-- A frame operand's bytes (R66). -/
def encodeFrameArg (f : FrameArg) : List Byte :=
  beBytes32 (packIdWord f.id) ++ [f.rtr, BitVec.ofNat 8 f.data.length] ++ f.data

/-- Count byte and data (R61). -/
def encodeCounted (d : List Byte) : List Byte := BitVec.ofNat 8 d.length :: d

/-- A class instruction's bytes: the class word, the identifier word, the data (log 11). -/
def encodeClass (h : BitVec 3) (fr : CanFrame) : List Byte :=
  classWord h fr :: (beBytes32 (packIdWord fr.id) ++ fr.data)

/-- The bytes of an instruction (R61, R65, R66, R72, R75). Ignored bits are written 0. -/
def encode : Instr → List Byte
  | .spReset => [0x01]
  | .spRead a => [0x02, a]
  | .spWrite a d => [0x03, a, d]
  | .spBitmod a m d => [0x04, a, m, d]
  | .spReadblk a n => [0x05, a, n]
  | .spWriteblk a d => 0x06 :: a :: encodeCounted d
  | .epWren => [0x08]
  | .epRdsr => [0x09]
  | .epRead a n => 0x0A :: (beBytes32 a ++ [n])
  | .epWrite a d => 0x0B :: (beBytes32 a ++ encodeCounted d)
  | .eeWrite a d => 0x10 :: (beBytes32 a ++ encodeCounted d)
  | .eeRead a n => 0x11 :: (beBytes32 a ++ [n])
  | .canSetmode m => [0x20, m]
  | .canSetbt a b c => [0x21, a, b, c]
  | .canSetmask k i => 0x22 :: k :: beBytes32 (packIdWord i)
  | .canSetfilter f i => 0x23 :: f :: beBytes32 (packIdWord i)
  | .canReceive b => [0x24, b]
  | .canTransmit f => 0x25 :: encodeFrameArg f
  | .canRxstatus => [0x26]
  | .sigPluck m f => 0x30 :: (serWire m ++ encodeFrameArg f)
  | .sigLoad s => [0x31, s]
  | .sigStore s m => 0x32 :: s :: serWire m
  | .sigGet s => [0x33, s]
  | .rowWrite t i k v => 0x40 :: t :: i :: (beBytes32 k ++ beBytes16 v)
  | .rowRead t i => [0x41, t, i]
  | .tabLookup t g w => 0x42 :: t :: g :: beBytes32 w
  | .critEnter => [0x50]
  | .critExit s => [0x51, s]
  | .tblRd fr => encodeClass 0 fr
  | .tblWr fr => encodeClass 0 fr
  | .sigRd fr => encodeClass 1 fr
  | .sigWr fr => encodeClass 1 fr
  | .sigFrameMid h fr => encodeClass (1#2 ++ h) fr
  | .sigFrameHigh h fr => encodeClass (1#1 ++ h) fr

/-- Enough zero bytes for the longest instruction's operands (SIG_PLUCK: 14 + 255 bytes). -/
def operandZeros : List Byte := List.replicate 280 0

/-- The bytes of a table word: byte k is bits 8k+7..8k of w, for the bytes that nbits covers; the operands are zeros. -/
def tableBytes (nbits w : Nat) : List Byte :=
  (List.range (nbits / 8)).map (fun k => BitVec.ofNat 8 (w >>> (8 * k))) ++ operandZeros

/-- A table word read by the two decoders: by the command port's if its first byte is an op byte of R61, else by the class
word's (the table numbers the words of both in the same way: log 10). The second part is what is left of the bytes. -/
def readTableWord (nbits w : Nat) : Option (Instr × List Byte) :=
  match tableBytes nbits w with
  | [] => none
  | b :: bs => if b ∈ opBytes then readOperands b bs else readClass b bs

/-- The instruction that the decoder reads from a table word (host's name). -/
def decodeTableWord (nbits w : Nat) : Option Instr := (readTableWord nbits w).map (·.1)

end Sys2Proof
end

