-- ==== Sys2Proof/Machine/State.lean ====
section
/-! DEFINITION. The state of CGI-RXA and of the external devices whose state its rules read or write (10_state.md), the
model's own fields, the ways a step can stop, and the state after reset. -/

namespace Sys2Proof.Machine

/-- The block sequencer state (R23). -/
inductive Phase where
  | boot
  | run
  | resetDelay
  deriving DecidableEq, Repr

/-- The running context (R28). -/
inductive Ctx where
  | foreground
  | handler
  deriving DecidableEq, Repr

/-- The position in the boot sequence (R22, R172): the next line of boot(). `load s` is line 11 at slot s. -/
inductive BootPos where
  | reset
  | setConfig
  | bitTiming
  | mask0
  | mask1
  | filter0
  | filter1
  | stdFilters
  | extFilters
  | setNormal
  | load (s : Nat)
  | clearLatch
  | enableInt
  | enterRun
  deriving DecidableEq, Repr

/-- The two devices on the serial bus (R15). -/
inductive Dev where
  | can
  | ee
  deriving DecidableEq, Repr

/-- The forms of a serial transaction (R69), with their operands. -/
inductive Xfer where
  | canReset
  | canRead (a n : Nat)
  | canWrite (a : Nat) (d : List Byte)
  | canBitmod (a : Nat) (mask data : Byte)
  | canRxStatus
  | eeWren
  | eeRdsr
  | eeRead (addr n : Nat)
  | eeWrite (addr : Nat) (d : List Byte)
  deriving DecidableEq, Repr

/-- A frame on the CAN bus (R108): the DLC field is 4 bits; a remote frame has no data. -/
structure BusFrame where
  id : CanId
  rtr : Bool
  dlcField : BitVec 4
  data : List Byte
  deriving DecidableEq, Repr

/-- The observable events (R169): a serial transaction with the bytes sent and received, an actuator call (R142), the
handler's result (R133), a frame sent by the controller (R104). -/
inductive Event where
  | xfer (dev : Dev) (out inp : List Byte)
  | actuate (ch : Nat) (v : U16)
  | irqDone (h : Bool)
  | tx (f : BusFrame)
  deriving DecidableEq, Repr

/-- The moves of the agents outside the block (R104, R95, R143). A move that is not enabled has no effect. -/
inductive EnvMove where
  | modeChange
  | receive
  | discard
  | txOk
  | txErr
  | cycleEnd
  | busAppend (f : BusFrame)
  | busConsume
  deriving DecidableEq, Repr

/-- The set of model faults recorded so far (R32, R154). -/
structure ModelFaults where
  unloadedMirror : Bool
  busConflict : Bool
  protocolViolation : Bool
  deriving DecidableEq, Repr

/-- The errors an operation returns (R153, R62). -/
inductive Err where
  | badIndex
  | badLength
  | badAddress
  | badValue
  | busy
  | welNotSet
  | txError
  | retriesExhausted
  | span
  | size
  | order
  | unknownOp
  | badCommandLength
  deriving DecidableEq, Repr

/-- The EEPROM array (R40) as its listed cells in the canonical form of Machine/Ops.lean (`Memory.wf`). -/
abbrev Memory := List Host.Cell

/-- The state of the machine. -/
structure State where
  /-- the parameters (R10); no step changes them -/
  cfg : Params
  /-- R23 -/
  phase : Phase
  /-- R22, R172 -/
  boot : BootPos
  /-- R24; slots 0..NUM_SIGNALS-1 exist, none is Invalid -/
  mirror : Vector (Option SigFmt) 16
  /-- R25 -/
  gie : Bool
  /-- R26 -/
  latch : Bool
  /-- R27 -/
  intPrev : Bool
  /-- R28 -/
  ctx : Ctx
  /-- R29 -/
  csCan : Bool
  /-- R29 -/
  csEe : Bool
  /-- R30 -/
  modeShadow : Option Mode
  /-- R31 -/
  hErr : Bool
  /-- R32 -/
  faults : ModelFaults
  /-- R33 -/
  lastResult : Option (List Byte)
  /-- a command is in progress (R145) -/
  cmdBusy : Bool
  /-- the command in progress has issued a transaction (R54, R158) -/
  cmdIssued : Bool
  /-- the controller's registers (R35) -/
  ctl : Vector Byte 128
  /-- R43, R108 -/
  lastHit : BitVec 3
  /-- R108 -/
  lastType : BitVec 2
  /-- the EEPROM array (R40) -/
  ee : Memory
  /-- R34, R40 -/
  wip : Bool
  /-- R34, R40 -/
  wel : Bool
  /-- the bytes of the burst being written (R40, R95) -/
  pageBuf : List Host.Cell
  /-- the EEPROM is held write-protected, WEL stuck at 0 (R99, log 21) -/
  eeProtect : Bool
  /-- the DAC outputs (R41); channels 0..NUM_SIGNALS-1 exist -/
  out : Vector U16 16
  /-- the bus input stream (R42), its head first -/
  busIn : List BusFrame
  /-- the bus output stream (R42), oldest first -/
  busOut : List BusFrame
  /-- MODEL: the commands the presenter will present (R152) -/
  script : List (List Byte)
  /-- MODEL: the moves the other agents will take, one list for each gap between block steps (R104, R152; log 2) -/
  sched : List (List EnvMove)
  /-- MODEL: after `sched`, ModeChange is taken when enabled (R104 fairness); else no move is (log 2) -/
  modeFair : Bool
  /-- MODEL: the observable events so far, oldest first (R169) -/
  events : List Event
  /-- MODEL: how many free values have been taken (log 14) -/
  freeN : Nat
  deriving DecidableEq, Repr

/-- Why the machine stops. -/
inductive Fault where
  /-- Raised by setMode (CAN_SETMODE and boot lines 2 and 10): the environment has no move left, so the controller never
  reports the mode and the unbounded poll never ends (R109, R182; R150 calls it a hang). Safe: the block makes no
  progress either. -/
  | modeWaitHang
  deriving DecidableEq, Repr

/-- Why a step has no meaning. -/
inductive Refusal where
  /-- Raised by Dispatch.lean for an instruction without a meaning. No arm raises it. Safe. -/
  | notModelled (mnemonic : String)
  /-- Raised by step: the parameters break a constraint of R10, R11 or R126, which the model rejects (R11, log 23). Safe. -/
  | badInstance
  deriving DecidableEq, Repr

/-- The machine right after reset at launch (R44, R152): the values the spec gives, and for what it leaves open the values
of logs 3, 4, 6, 7, 8, 14, 21 and 22 (DESIGN CHOICE, unsafe). -/
def State.reset : State where
  cfg := .testInstance
  phase := .boot
  boot := .reset
  mirror := Vector.replicate 16 none
  gie := false
  latch := false
  intPrev := false
  ctx := .foreground
  csCan := false
  csEe := false
  modeShadow := none
  hErr := false
  faults := ⟨false, false, false⟩
  lastResult := none
  cmdBusy := false
  cmdIssued := false
  ctl := Vector.replicate 128 0
  lastHit := 0
  lastType := 0
  ee := []
  wip := false
  wel := false
  pageBuf := []
  eeProtect := false
  out := Vector.replicate 16 0
  busIn := []
  busOut := []
  script := []
  sched := []
  modeFair := true
  events := []
  freeN := 0

end Sys2Proof.Machine
end

