-- ==== Sys2Proof/Machine/Memory.lean ====
section
/-! DEFINITION. The EEPROM array as a canonical cell list, and the accessors of the register files: controller registers
(R35), mirror (R24), DAC outputs (R41). Every read and write of these goes through here. -/

namespace Sys2Proof.Machine

/-- What an unlisted EEPROM byte reads as. The spec: the array content at launch is any bytes (R40, R152). DESIGN CHOICE,
unsafe: 0x00, the EEPROM of S0 in 95_test_vectors.md (log 6). -/
def Memory.unlisted : Byte := 0

/-- One byte of the array. -/
def Memory.read : Memory → Nat → Byte
  | [], _ => Memory.unlisted
  | c :: m, a => if c.1 = a then c.2 else Memory.read m a

/-- The array with one byte written, in canonical form: a byte equal to the unlisted value leaves the list. -/
def Memory.write : Memory → Nat → Byte → Memory
  | [], a, v => if v = Memory.unlisted then [] else [(a, v)]
  | c :: m, a, v =>
    if a < c.1 then (if v = Memory.unlisted then c :: m else (a, v) :: c :: m)
    else if a = c.1 then (if v = Memory.unlisted then m else (a, v) :: m)
    else c :: Memory.write m a v

/-- The canonical form: addresses strictly rising, no entry equal to what an unlisted address reads as. -/
def Memory.wf (m : Memory) : Bool :=
  decide (m.Pairwise fun c d => c.1 < d.1) && m.all fun c => c.2 != Memory.unlisted

/-- The bytes at the addresses a, a+1, ..., each taken modulo the array size (R95). -/
def Memory.readBytes (m : Memory) (size a n : Nat) : List Byte :=
  (List.range n).map fun j => m.read ((a + j) % size)

/-- The array after a list of cells is written in order; a cell outside the array of `size` bytes has no place (log 17). -/
def Memory.writeCells (size : Nat) (cells : List Host.Cell) (m : Memory) : Memory :=
  cells.foldl (fun m c => if c.1 < size then m.write c.1 c.2 else m) m

/-- Controller register a (R35). Addresses end at 0x7F. -/
def State.reg (s : State) (a : Nat) : Byte := (s.ctl[a]?).getD 0

/-- Controller register a set to v. -/
def State.setReg (s : State) (a : Nat) (v : Byte) : State := { s with ctl := s.ctl.setIfInBounds a v }

/-- Consecutive controller registers set from a on. -/
def State.setRegs (s : State) (a : Nat) : List Byte → State
  | [] => s
  | b :: bs => State.setRegs (s.setReg a b) (a + 1) bs

/-- mirror[s] (R24), none for Invalid. -/
def State.mirrorAt (s : State) (slot : Nat) : Option SigFmt := (s.mirror[slot]?).getD none

/-- mirror[s] set (R24). -/
def State.setMirror (s : State) (slot : Nat) (f : SigFmt) : State :=
  { s with mirror := s.mirror.setIfInBounds slot (some f) }

/-- out[ch] (R41). -/
def State.outAt (s : State) (ch : Nat) : U16 := (s.out[ch]?).getD 0

/-- setChannel(ch, v) (R142). -/
def State.setChannel (s : State) (ch : Nat) (v : U16) : State := { s with out := s.out.setIfInBounds ch v }

/-- The next n free values (log 14). -/
def State.freeBytes (s : State) (n : Nat) : List Byte := (List.range n).map fun j => Config.freeByte (s.freeN + j)

/-- The state after n free values have been taken. -/
def State.takeFree (s : State) (n : Nat) : State := { s with freeN := s.freeN + n }

end Sys2Proof.Machine
end

