-- ==== Sys2Proof/Machine/Flags.lean ====
section
/-! DEFINITION. Every status flag of 10_state.md R34 and R36: modes, TXREQ and TXERR, receive flags, the rxStatus byte, the
EEPROM status byte, the interrupt line and its edge detector, the model faults. -/

namespace Sys2Proof.Machine

/-- MODE_CODE(m) (R68). -/
def modeCode (d : DevParams) : Mode → BitVec 3
  | .config => d.codeConfig
  | .normal => d.codeNormal
  | .sleep => d.codeSleep
  | .listenOnly => d.codeListenOnly
  | .loopback => d.codeLoopback

/-- The mode field of a CANCTRL or CANSTAT byte: bits 7:5 (R36). -/
def modeBits (b : Byte) : BitVec 3 := b.extractLsb' 5 3

/-- A byte with its mode field replaced. -/
def withModeBits (b : Byte) (c : BitVec 3) : Byte := c ++ b.extractLsb' 0 5

/-- OPMOD, the reported mode (R36). -/
def State.opmod (s : State) : BitVec 3 := modeBits (s.reg s.cfg.dev.map.canstat)

/-- REQOP, the requested mode (R36). -/
def State.reqop (s : State) : BitVec 3 := modeBits (s.reg s.cfg.dev.map.canctrl)

/-- Does the controller report mode m. -/
def State.inMode (s : State) (m : Mode) : Bool := s.opmod == modeCode s.cfg.dev m

/-- Is a mode code one of the five (R68). -/
def isModeCode (d : DevParams) (c : BitVec 3) : Bool :=
  c == d.codeConfig || c == d.codeNormal || c == d.codeSleep || c == d.codeListenOnly || c == d.codeLoopback

/-- TXREQ (R34). -/
def State.txreq (s : State) : Bool := bitOf (s.reg s.cfg.dev.map.txb0ctrl) s.cfg.dev.txreqBit

/-- TXERR (R34). -/
def State.txerr (s : State) : Bool := bitOf (s.reg s.cfg.dev.map.txb0ctrl) s.cfg.dev.txerrBit

/-- RXbIF, bit b of CANINTF (R34). -/
def State.rxFlag (s : State) (b : Nat) : Bool := bitOf (s.reg s.cfg.dev.map.canintf) b

/-- The rxStatus byte (R71, R115): RX1IF, RX0IF, 0, lastType, lastHit. -/
def State.rxStatusByte (s : State) : Byte :=
  BitVec.ofBool (s.rxFlag 1) ++ BitVec.ofBool (s.rxFlag 0) ++ 0#1 ++ s.lastType ++ s.lastHit

/-- The EEPROM status byte (R95): bit WIP_BIT, bit WEL_BIT, other bits 0. -/
def State.eeStatus (s : State) : Byte :=
  withBit (withBit 0 s.cfg.dev.wipBit s.wip) s.cfg.dev.welBit s.wel

/-- The interrupt line (R38). -/
def State.intLine (s : State) : Bool :=
  (s.reg s.cfg.dev.map.canintf &&& s.reg s.cfg.dev.map.caninte) != 0

/-- The edge detector (R26, R27, R144), run after every step of any agent. -/
def sample (s : State) : State :=
  { s with latch := s.latch || (s.intLine && !s.intPrev), intPrev := s.intLine }

/-- Handler entry is enabled (R158). -/
def entryEnabled (s : State) : Bool :=
  s.latch && s.gie && s.ctx == .foreground && s.phase == .run

/-- Record UnloadedMirror (R154). -/
def State.addUnloadedMirror (s : State) : State := { s with faults := { s.faults with unloadedMirror := true } }

/-- Record BusConflict (R154). -/
def State.addBusConflict (s : State) : State := { s with faults := { s.faults with busConflict := true } }

/-- Record ProtocolViolation (R154). -/
def State.addProtocolViolation (s : State) : State := { s with faults := { s.faults with protocolViolation := true } }

end Sys2Proof.Machine
end

