-- ==== Sys2Proof/Machine/Layout.lean ====
section
/-! DEFINITION. The EEPROM map (R51), EEPROM address bytes (R69), the register groups of the controller (R35), and which
instances of the parameters the model accepts (R10, R11). -/

namespace Sys2Proof

/-- The address of slot s's SigFmt record (R51). -/
def Params.sigAddr (p : Params) (slot : Nat) : Nat := p.sigRecBase + sigRecBytes * slot

/-- TABLE_BASE(t) (R10). -/
def Params.tableBase (p : Params) (t : Nat) : Nat := p.tableBases.getD t 0

/-- rowAddr(t, i) (R128). -/
def Params.rowAddr (p : Params) (t i : Nat) : Nat := p.tableBase t + rowBytes * i

/-- addrBytes(addr) (R69): the low EE_ADDR_BYTES bytes, most significant first. -/
def addrBytes (p : Params) (addr : Nat) : List Byte :=
  ((List.range p.eeAddrBytes).reverse).map fun k => BitVec.ofNat 8 (addr >>> (8 * k))

/-- The address the EEPROM receives: the low EE_ADDR_BYTES bytes of addr (log 17). -/
def deviceAddr (p : Params) (addr : Nat) : Nat := addr % 256 ^ p.eeAddrBytes

/-- The register base of filter n (R35). -/
def RegMap.filter (m : RegMap) : Nat → Nat
  | 0 => m.rxf0
  | 1 => m.rxf1
  | 2 => m.rxf2
  | 3 => m.rxf3
  | 4 => m.rxf4
  | _ => m.rxf5

/-- The register base of mask k (R35). -/
def RegMap.mask (m : RegMap) : Nat → Nat
  | 0 => m.rxm0
  | _ => m.rxm1

/-- The register base of receive buffer b (R35). -/
def RegMap.rxBuf (m : RegMap) : Nat → Nat
  | 0 => m.rxb0sidh
  | _ => m.rxb1sidh

/-- Is a in the group of n registers from base on. -/
def inGroup (base n a : Nat) : Bool := base ≤ a && a < base + n

/-- The configuration registers CNF1..3, RXM0..1, RXF0..5 (R105). -/
def RegMap.isConfig (m : RegMap) (a : Nat) : Bool :=
  a == m.cnf1 || a == m.cnf2 || a == m.cnf3 || inGroup m.rxm0 4 a || inGroup m.rxm1 4 a ||
    inGroup m.rxf0 4 a || inGroup m.rxf1 4 a || inGroup m.rxf2 4 a || inGroup m.rxf3 4 a ||
    inGroup m.rxf4 4 a || inGroup m.rxf5 4 a

/-- The regions (start, length) of the EEPROM map (R51): every record and every table. -/
def Params.regions (p : Params) : List (Nat × Nat) :=
  (List.range p.numSignals).map (fun k => (p.sigAddr k, sigRecBytes)) ++
    (List.range p.numSignals).map (fun t => (p.tableBase t, rowBytes * tableRows))

/-- Two regions share no address. -/
def apart (x y : Nat × Nat) : Bool := x.1 + x.2 ≤ y.1 || y.1 + y.2 ≤ x.1

/-- Does a group of n registers from base on lie in the controller's register space 0x00..0x7F (R45). -/
def inRegSpace (base n : Nat) : Bool := base + n ≤ 0x80

/-- The register groups of R35, with their lengths. -/
def RegMap.groups (m : RegMap) : List (Nat × Nat) :=
  [(m.rxf0, 4), (m.rxf1, 4), (m.rxf2, 4), (m.rxf3, 4), (m.rxf4, 4), (m.rxf5, 4), (m.canstat, 1), (m.canctrl, 1),
    (m.rxm0, 4), (m.rxm1, 4), (m.cnf1, 1), (m.cnf2, 1), (m.cnf3, 1), (m.caninte, 1), (m.canintf, 1), (m.txb0ctrl, 1),
    (m.txb0sidh, 13), (m.rxb0sidh, 13), (m.rxb1sidh, 13)]

/-- The ranges of the device parameters (R10): every register group in the register space, every bit position in a byte. -/
def DevParams.rangesOk (d : DevParams) : Bool :=
  d.map.groups.all (fun g => inRegSpace g.1 g.2) &&
    [d.exideBit, d.rtrBit, d.txreqBit, d.txerrBit, d.wipBit, d.welBit].all (· < 8)

/-- The ranges of R10. -/
def Params.rangesOk (p : Params) : Bool :=
  1 ≤ p.numSignals && p.numSignals ≤ 16 && p.tableBases.length == p.numSignals &&
    1 ≤ p.eeAddrBytes && p.eeAddrBytes ≤ 3 && 1 ≤ p.eeBailout && 1 ≤ p.txRetries &&
    p.rtrDlcTable ≤ maxDlc && p.rtrDlcSignal ≤ maxDlc && p.dev.rangesOk

/-- The constraints of R11 on the three identifiers. -/
def Params.idsOk (p : Params) : Bool :=
  p.tableCtrlId.val.extractLsb' 0 9 == 0 && p.sigCtrlId.val.extractLsb' 0 4 == 0 &&
    p.ctrlMask.val.extractLsb' 0 9 == 0 &&
    (((p.tableCtrlId.val ^^^ p.sigCtrlId.val) &&& p.ctrlMask.val) != 0 ||
      p.tableCtrlId.isExt != p.sigCtrlId.isExt)

/-- The constraints on the map: inside the array, no overlap (R11), and SIG_REC_BASE a multiple of 8, so that a record never
crosses a page and is stored in one burst (R126). -/
def Params.mapOk (p : Params) : Bool :=
  p.sigRecBase % sigRecBytes == 0 && p.regions.all (fun r => r.1 + r.2 ≤ p.eeSize) && decide (p.regions.Pairwise fun x y => apart x y = true)

/-- An instance the model accepts (R10, R11, R126). -/
def Params.valid (p : Params) : Bool := p.rangesOk && p.idsOk && p.mapOk

end Sys2Proof
end

