-- ==== Sys2Proof/Machine/Identifier.lean ====
section
/-! DEFINITION. Identifiers in controller registers (R106), frame acceptance (R107) and buffering (R108). -/

namespace Sys2Proof.Machine

/-- std11(r) (R106), of the first two bytes of a group. -/
def std11 (h l : Byte) : BitVec 11 := h ++ l.extractLsb' 5 3

/-- ext29(r) (R106). -/
def ext29 (h l e8 e0 : Byte) : BitVec 29 := h ++ l.extractLsb' 5 3 ++ l.extractLsb' 0 2 ++ e8 ++ e0

/-- packId (R106): SIDH, SIDL, EID8, EID0. -/
def packId (exideBit : Nat) : CanId → List Byte
  | .std v => [v.extractLsb' 3 8, v.extractLsb' 0 3 ++ 0#5, 0, 0]
  | .ext v =>
    [v.extractLsb' 21 8, (v.extractLsb' 18 3 ++ 0#3 ++ v.extractLsb' 16 2) ||| (1#8 <<< exideBit),
      v.extractLsb' 8 8, v.extractLsb' 0 8]

/-- unpackId (R106). -/
def unpackId (exideBit : Nat) (h l e8 e0 : Byte) : CanId :=
  if bitOf l exideBit then .ext (ext29 h l e8 e0) else .std (std11 h l)

/-- The mask of filter n (R107). -/
def maskOf (n : Nat) : Nat := if n < 2 then 0 else 1

/-- The buffer of filter n (R107). -/
def bufferOf (n : Nat) : Nat := if n < 2 then 0 else 1

/-- matches(n, f) (R107). -/
def State.filterMatches (s : State) (n : Nat) (id : CanId) : Bool :=
  let f := s.cfg.dev.map.filter n
  let m := s.cfg.dev.map.mask (maskOf n)
  match id with
  | .std v =>
    !bitOf (s.reg (f + 1)) s.cfg.dev.exideBit &&
      ((v ^^^ std11 (s.reg f) (s.reg (f + 1))) &&& std11 (s.reg m) (s.reg (m + 1))) == 0
  | .ext v =>
    bitOf (s.reg (f + 1)) s.cfg.dev.exideBit &&
      ((v ^^^ ext29 (s.reg f) (s.reg (f + 1)) (s.reg (f + 2)) (s.reg (f + 3))) &&&
        ext29 (s.reg m) (s.reg (m + 1)) (s.reg (m + 2)) (s.reg (m + 3))) == 0

/-- hit(f) (R107): the least filter that matches. -/
def State.acceptHit (s : State) (id : CanId) : Option Nat := [0, 1, 2, 3, 4, 5].find? fun n => s.filterMatches n id

/-- The data bytes of a bus frame (R108): none for a remote frame, min(dlcField, 8) for a data frame. -/
def busData (f : BusFrame) : List Byte := if f.rtr then [] else f.data.take (min f.dlcField.toNat maxDlc)

/-- A DLC register: RTR in bit RTR_BIT, the DLC field in bits 3:0 (R108, R114). -/
def dlcByte (rtrBit : Nat) (rtr : Bool) (dlc : BitVec 4) : Byte := withBit (dlc.setWidth 8) rtrBit rtr

/-- lastType of a stored frame: 2*isExt + rtr (R108). -/
def frameType (id : CanId) (rtr : Bool) : BitVec 2 := BitVec.ofBool id.isExt ++ BitVec.ofBool rtr

/-- store(f, h) (R108). -/
def State.storeFrame (s : State) (f : BusFrame) (h : Nat) : State :=
  let b := bufferOf h
  if s.rxFlag b then s
  else
    let base := s.cfg.dev.map.rxBuf b
    let s1 := s.setRegs base (packId s.cfg.dev.exideBit f.id ++ [dlcByte s.cfg.dev.rtrBit f.rtr f.dlcField] ++ busData f)
    let s2 := s1.setReg s.cfg.dev.map.canintf (withBit (s1.reg s.cfg.dev.map.canintf) b true)
    { s2 with lastHit := BitVec.ofNat 3 h, lastType := frameType f.id f.rtr }

/-- A frame offered to acceptance (R107): stored if some filter matches, else without a trace. -/
def State.offerFrame (s : State) (f : BusFrame) : State :=
  match s.acceptHit f.id with
  | some h => s.storeFrame f h
  | none => s

end Sys2Proof.Machine
end

