-- ==== Sys2Proof/Machine/Ops.lean ====
section
/-! DEFINITION. The shared operations: the device contracts (R83, R95), the controller's own steps (R104), the serial
transaction (R82), the gap between block steps in which the other agents move (R143, R144), and taking the one exception
of the block, handler entry, with its return (R158, R159). -/

namespace Sys2Proof.Machine

/-! ### The controller's response (R83, R104, R105) -/

/-- The byte a block write of v leaves in register a (R83; log 18). OPMOD and TXERR are the controller's (R36), and TXREQ going
from 0 to 1 clears TXERR (R104). RX0IF and RX1IF, bits 1:0 of CANINTF, are set by the controller only (R34): a write clears
them and never sets them. -/
def State.writable (s : State) (a : Nat) (v : Byte) : Byte :=
  let d := s.cfg.dev
  let old := s.reg a
  if a = d.map.canstat then withModeBits v (modeBits old)
  else if a = d.map.txb0ctrl then
    withBit v d.txerrBit (bitOf old d.txerrBit && !(bitOf v d.txreqBit && !bitOf old d.txreqBit))
  else if a = d.map.canintf then v &&& (old ||| 0xFC)
  else v

/-- A block write of one register (R83): configuration registers change only in Config mode (R105). -/
def State.ctlWrite (s : State) (a : Nat) (v : Byte) : State :=
  if s.cfg.dev.map.isConfig a && !s.inMode .config then s else s.setReg a (s.writable a v)

/-- A block write of consecutive registers (R83). -/
def State.ctlWrites (s : State) (a : Nat) : List Byte → State
  | [] => s
  | b :: bs => State.ctlWrites (s.ctlWrite a b) (a + 1) bs

/-- BIT MODIFY (R58, R83). -/
def State.ctlBitmod (s : State) (a : Nat) (mask data : Byte) : State :=
  s.ctlWrite a ((s.reg a &&& ~~~mask) ||| (data &&& mask))

/-- Register a after the RESET command (R37): Config in OPMOD and REQOP, CANINTE, CANINTF and TXB0CTRL 0 (R84); every
other bit is a free value (log 5). -/
def State.resetReg (s : State) (a : Nat) : Byte :=
  let m := s.cfg.dev.map
  let free := Config.freeByte (s.freeN + a)
  if a = m.canstat || a = m.canctrl then withModeBits free s.cfg.dev.codeConfig
  else if a = m.caninte || a = m.canintf || a = m.txb0ctrl then 0 else free

/-- The controller executes RESET (R37, R83). -/
def State.controllerReset (s : State) : State :=
  { s with ctl := Vector.ofFn fun a : Fin 128 => s.resetReg a.val, freeN := s.freeN + 128 }

/-! ### The EEPROM's response (R95) -/

/-- The cells a burst of d at a writes: inside a's page, wrapping at its end (R95). -/
def burstCells (a : Nat) (d : List Byte) : List Host.Cell :=
  d.zipIdx.map fun c => (a - a % pageSize + (a % pageSize + c.2) % pageSize, c.1)

/-- EE-READ (R95). While WIP = 1 it is a ProtocolViolation and the bytes are free values (log 12). -/
def State.eeReadCmd (s : State) (addr n : Nat) : List Byte × State :=
  if s.wip then (s.freeBytes n, (s.takeFree n).addProtocolViolation)
  else (s.ee.readBytes s.cfg.eeSize (deviceAddr s.cfg addr) n, s)

/-- EE-WREN (R95). In a write-protected device WEL is stuck at 0 (R99). DESIGN CHOICE (log 21): the protection is the bit
`eeProtect`, and if WEL is still 1 when a protected device meets EE-WREN, this clears it. -/
def State.eeWrenCmd (s : State) : State :=
  if s.wip then s.addProtocolViolation else { s with wel := !s.eeProtect }

/-- EE-WRITE (R95): ignored with WEL = 0; else the write cycle starts. -/
def State.eeWriteCmd (s : State) (addr : Nat) (d : List Byte) : State :=
  if s.wip then s.addProtocolViolation
  else if s.wel then { s with wip := true, pageBuf := burstCells (deviceAddr s.cfg addr) d }
  else s

/-- The write cycle ends (R95). -/
def State.cycleEnd (s : State) : State :=
  if s.wip then
    { s with ee := s.ee.writeCells s.cfg.eeSize s.pageBuf, wip := false, wel := false, pageBuf := [] }
  else s

/-! ### The controller's own steps (R104) -/

/-- ModeChange. -/
def State.modeChange (s : State) : State :=
  if s.opmod != s.reqop && isModeCode s.cfg.dev s.reqop then
    s.setReg s.cfg.dev.map.canstat (withModeBits (s.reg s.cfg.dev.map.canstat) s.reqop)
  else s

/-- Receive: the frame at the head of the bus is offered to acceptance. -/
def State.receiveStep (s : State) : State :=
  match s.busIn with
  | f :: fs =>
    if s.inMode .normal || s.inMode .listenOnly then State.offerFrame { s with busIn := fs } f else s
  | [] => s

/-- Discard: the frame at the head of the bus is consumed. -/
def State.discardStep (s : State) : State :=
  match s.busIn with
  | _ :: fs =>
    if s.inMode .config || s.inMode .sleep || s.inMode .loopback then { s with busIn := fs } else s
  | [] => s

/-- The frame TXB0 holds now (R104): a remote frame carries no data, a DLC field above 8 sends 8 bytes (log 19). -/
def State.txFrame (s : State) : BusFrame :=
  let b := s.cfg.dev.map.txb0sidh
  let dlc := s.reg (b + 4)
  let rtr := bitOf dlc s.cfg.dev.rtrBit
  { id := unpackId s.cfg.dev.exideBit (s.reg b) (s.reg (b + 1)) (s.reg (b + 2)) (s.reg (b + 3))
    rtr := rtr
    dlcField := dlc.extractLsb' 0 4
    data := if rtr then [] else
      (List.range (min (dlc.extractLsb' 0 4).toNat maxDlc)).map fun j => s.reg (b + 5 + j) }

/-- TXREQ cleared by the controller. -/
def State.clearTxreq (s : State) : State :=
  s.setReg s.cfg.dev.map.txb0ctrl (withBit (s.reg s.cfg.dev.map.txb0ctrl) s.cfg.dev.txreqBit false)

/-- TxOk: in Normal the frame goes to the bus output, in Loopback to acceptance; then TXREQ is 0. -/
def State.txOk (s : State) : State :=
  if s.txreq then
    if s.inMode .normal then
      State.clearTxreq { s with busOut := s.busOut ++ [s.txFrame], events := s.events ++ [.tx s.txFrame] }
    else if s.inMode .loopback then (s.offerFrame s.txFrame).clearTxreq
    else s
  else s

/-- TxErr: TXERR is 1, TXREQ stays. -/
def State.txErr (s : State) : State :=
  if s.txreq && s.inMode .normal then
    s.setReg s.cfg.dev.map.txb0ctrl (withBit (s.reg s.cfg.dev.map.txb0ctrl) s.cfg.dev.txerrBit true)
  else s

/-! ### The gap between block steps (R104, R143, R144) -/

/-- One move of another agent, without the edge detector. -/
def State.move (s : State) : EnvMove → State
  | .modeChange => s.modeChange
  | .receive => s.receiveStep
  | .discard => s.discardStep
  | .txOk => s.txOk
  | .txErr => s.txErr
  | .cycleEnd => s.cycleEnd
  | .busAppend f => { s with busIn := s.busIn ++ [f] }
  | .busConsume => { s with busOut := s.busOut.drop 1 }

/-- Is a move enabled (R104, R95). -/
def State.canMove (s : State) : EnvMove → Bool
  | .modeChange => s.opmod != s.reqop && isModeCode s.cfg.dev s.reqop
  | .receive => !s.busIn.isEmpty && (s.inMode .normal || s.inMode .listenOnly)
  | .discard => !s.busIn.isEmpty && (s.inMode .config || s.inMode .sleep || s.inMode .loopback)
  | .txOk => s.txreq && (s.inMode .normal || s.inMode .loopback)
  | .txErr => s.txreq && s.inMode .normal
  | .cycleEnd => s.wip
  | .busAppend _ => true
  | .busConsume => !s.busOut.isEmpty

/-- One step of another agent: its move, then the edge detector (R144). A move that is not enabled is no step. -/
def envMove (s : State) (m : EnvMove) : State := if s.canMove m then sample (s.move m) else s

/-- The gap after a block step: the moves that `sched` gives it; once `sched` is used up, ModeChange if the environment is
fair (R104), and nothing else (log 2). -/
def envGap (s : State) : State :=
  match s.sched with
  | ms :: rest => ms.foldl envMove { s with sched := rest }
  | [] => if s.modeFair then envMove s .modeChange else s

/-- What happens between two steps of an operation: in the handler `envGap`, in the foreground `fgGap` (Handler.lean),
which also enters the handler. Every operation takes it as an argument. -/
abbrev Pause := State → State

/-- An internal step has been taken (R144): the edge detector, then the gap. -/
def tick (g : Pause) (s : State) : State := g (sample s)

/-! ### The serial transaction (R82) -/

/-- The device of a transaction (R69). -/
def Xfer.dev : Xfer → Dev
  | .canReset | .canRead _ _ | .canWrite _ _ | .canBitmod _ _ _ | .canRxStatus => .can
  | .eeWren | .eeRdsr | .eeRead _ _ | .eeWrite _ _ => .ee

/-- The bytes the block sends (R69). -/
def Xfer.out (p : Params) : Xfer → List Byte
  | .canReset => [p.dev.opReset]
  | .canRead a _ => [p.dev.opRead, BitVec.ofNat 8 a]
  | .canWrite a d => [p.dev.opWrite, BitVec.ofNat 8 a] ++ d
  | .canBitmod a m d => [p.dev.opBitmod, BitVec.ofNat 8 a, m, d]
  | .canRxStatus => [p.dev.opRxStatus]
  | .eeWren => [p.dev.eopWren]
  | .eeRdsr => [p.dev.eopRdsr]
  | .eeRead a _ => p.dev.eopRead :: addrBytes p a
  | .eeWrite a d => p.dev.eopWrite :: addrBytes p a ++ d

/-- The device acts on the whole frame (R82): the bytes it returns and the state after (R83, R95). -/
def State.device (s : State) : Xfer → List Byte × State
  | .canReset => ([], s.controllerReset)
  | .canRead a n => ((List.range n).map fun j => s.reg (a + j), s)
  | .canWrite a d => ([], s.ctlWrites a d)
  | .canBitmod a m d => ([], s.ctlBitmod a m d)
  | .canRxStatus => ([s.rxStatusByte], s)
  | .eeWren => ([], s.eeWrenCmd)
  | .eeRdsr => ([s.eeStatus], s)
  | .eeRead a n => s.eeReadCmd a n
  | .eeWrite a d => ([], s.eeWriteCmd a d)

/-- Chip select asserted (R82). -/
def State.assertCs (s : State) : Dev → State
  | .can => { s with csCan := true }
  | .ee => { s with csEe := true }

/-- Chip selects released; the command in progress has issued a transaction; the transaction is an event (R169). -/
def State.endXfer (s : State) (x : Xfer) (inp : List Byte) : State :=
  { s with
    csCan := false
    csEe := false
    cmdIssued := s.cmdIssued || (s.cmdBusy && s.ctx == .foreground)
    events := s.events ++ [.xfer x.dev (x.out s.cfg) inp] }

/-- One transaction, without the edge detector. -/
def State.transact (s : State) (x : Xfer) : List Byte × State :=
  let r := (s.assertCs x.dev).device x
  (r.1, r.2.endXfer x r.1)

/-- Xfer (R82): one block step that is a transaction, and the gap after it. -/
def xfer (g : Pause) (x : Xfer) (s : State) : List Byte × State :=
  ((s.transact x).1, tick g (s.transact x).2)

/-- Delay(P) (R15): no effect on state. -/
def delay (_length : Nat) (s : State) : State := s

/-- An observable event that is not a transaction (R15). -/
def State.emit (s : State) (e : Event) : State := { s with events := s.events ++ [e] }

/-! ### Taking the interrupt (R158) and returning from it (R159) -/

/-- Handler entry, one internal step (R158): BusConflict if a foreground command has issued a transaction; only the context
changes, nothing is saved. -/
def enterHandler (s : State) : State :=
  let s1 := if s.cmdBusy && s.cmdIssued then s.addBusConflict else s
  sample { s1 with ctx := .handler }

/-- Handler return, the handler's last step (R159): only the context changes. -/
def leaveHandler (s : State) : State := sample { s with ctx := .foreground }

end Sys2Proof.Machine
end

