-- ==== Sys2Proof/Machine/Operands.lean ====
section
/-! DEFINITION. Operation results (R16, R62), operand decoding of the command port (R66 to R68), and the frame every
command runs in (R145). -/

namespace Sys2Proof.Machine

/-- The outcome of an operation with the state it leaves (R16). -/
abbrev Res (α : Type) := Except Err α × State

/-- The next step of an operation: an error ends it at once (R155). -/
def Res.bind {α β : Type} (r : Res α) (k : α → State → Res β) : Res β :=
  match r with
  | (.ok a, s) => k a s
  | (.error e, s) => (.error e, s)

/-- Status and cause codes of an error (R62). -/
def Err.code : Err → List Byte
  | .badIndex => [0x01, 0x01]
  | .badLength => [0x01, 0x02]
  | .badAddress => [0x01, 0x03]
  | .badValue => [0x01, 0x04]
  | .busy => [0x02, 0x01]
  | .welNotSet => [0x02, 0x02]
  | .txError => [0x03, 0x01]
  | .retriesExhausted => [0x03, 0x02]
  | .span => [0x04, 0x01]
  | .size => [0x04, 0x02]
  | .order => [0x04, 0x03]
  | .unknownOp => [0x05, 0x01]
  | .badCommandLength => [0x05, 0x02]

/-- encodeResult (R62): result bytes only with status Ok. -/
def encodeResult : Except Err (List Byte) → List Byte
  | .ok bytes => [0x00, 0x00] ++ bytes
  | .error e => e.code

/-- A command is in progress from its first step (R145). -/
def beginCommand (s : State) : State := { s with cmdBusy := true, cmdIssued := false }

/-- The last step of a command (R145): its result is recorded and no command is in progress. -/
def endCommand (r : Res (List Byte)) : State :=
  sample { r.2 with lastResult := some (encodeResult r.1), cmdBusy := false, cmdIssued := false }

/-- A command of the port, run from its first step to its result (R145). -/
def command (body : State → Res (List Byte)) (s : State) : Host.Outcome State Fault Refusal :=
  .next (endCommand (body (beginCommand s)))

/-- The result of an operation that returns no bytes (R61). -/
def Res.unit (r : Res Unit) : Res (List Byte) := r.bind fun _ s => (.ok [], s)

/-- A frame operand's checks (R66): rtr first, then dlc (log 15). -/
def frameOperand (f : FrameArg) : Except Err CanFrame :=
  if f.rtr = 0 ∨ f.rtr = 1 then
    if f.data.length ≤ maxDlc then .ok ⟨f.id, f.rtr = 1, f.data⟩ else .error .badLength
  else .error .badValue

/-- A Number operand (R67): bits above the container are ignored. -/
def numberOperand (tag : Byte) (w : U32) : Except Err Number :=
  match tag with
  | 0#8 => .ok (.u8 (w.extractLsb' 0 8))
  | 1#8 => .ok (.u16 (w.extractLsb' 0 16))
  | 2#8 => .ok (.u32 w)
  | 3#8 => .ok (.i8 (w.extractLsb' 0 8))
  | 4#8 => .ok (.i16 (w.extractLsb' 0 16))
  | 5#8 => .ok (.i32 w)
  | _ => .error .badValue

/-- A mode operand (R68). -/
def modeOperand (m : Byte) : Except Err Mode :=
  match m with
  | 0#8 => .ok .config
  | 1#8 => .ok .normal
  | 2#8 => .ok .sleep
  | 3#8 => .ok .listenOnly
  | 4#8 => .ok .loopback
  | _ => .error .badIndex

/-- The bytes of a Number result (R67): the tag, then the value in 32 bits. -/
def encodeNumber : Number → List Byte
  | .u8 v => 0x00 :: beBytes32 (v.setWidth 32)
  | .u16 v => 0x01 :: beBytes32 (v.setWidth 32)
  | .u32 v => 0x02 :: beBytes32 v
  | .i8 v => 0x03 :: beBytes32 (v.signExtend 32)
  | .i16 v => 0x04 :: beBytes32 (v.signExtend 32)
  | .i32 v => 0x05 :: beBytes32 v

/-- The bytes of a frame result (R66). -/
def encodeFrame (f : CanFrame) : List Byte :=
  beBytes32 (packIdWord f.id) ++ [if f.rtr then 1 else 0, BitVec.ofNat 8 f.dlc] ++ f.data

end Sys2Proof.Machine
end

