-- ==== Sys2Proof/Machine/Codec.lean ====
section
/-! DEFINITION. The bit-field extractor and the EEPROM record codec (R118 to R122, R124). Pure functions. -/

namespace Sys2Proof.Machine

/-- order(fl) (R118): 1 is big-endian extraction. -/
def flagOrder (fl : Byte) : Bool := bitOf fl 0

/-- signed(fl) (R118). -/
def flagSigned (fl : Byte) : Bool := bitOf fl 1

/-- The byte holding the first bit of a field (R119). -/
def startByte (start : Nat) : Nat := start / 8

/-- The byte holding the last bit of a field (R119). -/
def endByte (start size : Nat) : Nat := (start + size - 1) / 8

/-- The lowest bit of byte i inside the field (R119). -/
def segLo (start i : Nat) : Nat := if i = startByte start then start % 8 else 0

/-- How many bits of byte i are inside the field (R119). -/
def segWidth (start size i : Nat) : Nat :=
  (if i = endByte start size then (start + size - 1) % 8 else 7) - segLo start i + 1

/-- The bytes a field touches, from the start byte upward (R119). -/
def segBytes (start size : Nat) : List Nat :=
  List.range' (startByte start) (endByte start size + 1 - startByte start)

/-- The field bits of byte i (R119). -/
def segField (data : List Byte) (start size i : Nat) : Nat :=
  ((data.getD i 0).toNat >>> segLo start i) % 2 ^ segWidth start size i

/-- One round of extract's loop on (acc, wacc) (R119). -/
def extractStep (data : List Byte) (start size : Nat) (be : Bool) (a : Nat × Nat) (i : Nat) : Nat × Nat :=
  (if be then (a.1 <<< segWidth start size i) ||| segField data start size i
    else a.1 ||| (segField data start size i <<< a.2),
    a.2 + segWidth start size i)

/-- extract (R119). -/
def extract (data : List Byte) (start size : Nat) (be : Bool) : Nat :=
  ((segBytes start size).foldl (extractStep data start size be) (0, 0)).1

/-- narrow (R120): the tag depends on size and signedness only. -/
def narrow (raw size : Nat) (sg : Bool) : Number :=
  let v : Int := if raw.testBit (size - 1) then (raw : Int) - 2 ^ size else raw
  if size ≤ 8 then (if sg then .i8 (BitVec.ofInt 8 v) else .u8 (BitVec.ofNat 8 raw))
  else if size ≤ 16 then (if sg then .i16 (BitVec.ofInt 16 v) else .u16 (BitVec.ofNat 16 raw))
  else (if sg then .i32 (BitVec.ofInt 32 v) else .u32 (BitVec.ofNat 32 raw))

/-- pluck (R121): Order, then Size, then Span. -/
def pluck (f : SigFmt) (fr : CanFrame) : Except Err Number :=
  let start := f.start.toNat
  let size := f.size.toNat
  if f.flags.extractLsb' 2 6 ≠ 0 then .error .order
  else if size = 0 ∨ size > 32 then .error .size
  else if start ≥ 8 * fr.dlc ∨ start + size > 8 * fr.dlc then .error .span
  else .ok (narrow (extract fr.data start size (flagOrder f.flags)) size (flagSigned f.flags))

/-- One round of insert's loop on (data, r) (R122). -/
def insertStep (start size : Nat) (a : List Byte × Nat) (i : Nat) : List Byte × Nat :=
  let lo := segLo start i
  let w := segWidth start size i
  (a.1.set i (((a.1.getD i 0) &&& ~~~(BitVec.ofNat 8 ((2 ^ w - 1) <<< lo))) ||| BitVec.ofNat 8 ((a.2 % 2 ^ w) <<< lo)),
    a.2 >>> w)

/-- insert (R122), the inverse of extract; the block never calls it. -/
def insert (data : List Byte) (start size : Nat) (be : Bool) (raw : Nat) : List Byte :=
  ((if be then (segBytes start size).reverse else segBytes start size).foldl (insertStep start size) (data, raw)).1

/-- ord32 (R124). -/
def ord32 : ByteOrder → U32 → List Byte
  | .be => beBytes32
  | .le => leBytes32

/-- unord32 (R124). -/
def unord32 : ByteOrder → Byte → Byte → Byte → Byte → U32
  | .be => be32
  | .le => le32

/-- serRec (R124): the 8-byte EEPROM record, its pad byte 0. -/
def serRec (o : ByteOrder) (f : SigFmt) : List Byte := ord32 o (packIdWord f.id) ++ [f.start, f.size, f.flags, 0]

/-- deserRec (R124) of the eight bytes of a list; the pad byte is ignored. -/
def deserRec (o : ByteOrder) (b : List Byte) : SigFmt where
  id := unpackIdWord (unord32 o (b.getD 0 0) (b.getD 1 0) (b.getD 2 0) (b.getD 3 0))
  start := b.getD 4 0
  size := b.getD 5 0
  flags := b.getD 6 0

/-- serRow (R128). -/
def serRow (key : U32) (value : U16) : List Byte := beBytes32 key ++ beBytes16 value

/-- deserRow (R128) of the six bytes of a list. -/
def deserRow (b : List Byte) : U32 × U16 :=
  (be32 (b.getD 0 0) (b.getD 1 0) (b.getD 2 0) (b.getD 3 0), be16 (b.getD 4 0) (b.getD 5 0))

end Sys2Proof.Machine
end

