-- ==== Sys2Proof/Machine/Rpc.lean ====
section
/-! DEFINITION. The serial register protocol controller: the controller primitives and the raw EEPROM primitives
(40_serial_protocol.md R84 to R94), without their port checks. -/

namespace Sys2Proof.Machine

/-- An Xfer that answers no bytes. -/
def xferOut (g : Pause) (x : Xfer) (s : State) : State := (xfer g x s).2

/-- reset() (R84): the RESET transaction; the block no longer knows the mode. -/
def resetOp (g : Pause) (s : State) : State :=
  tick g { (s.transact .canReset).2 with modeShadow := none }

/-- readReg(a) (R85). -/
def readReg (g : Pause) (a : Nat) (s : State) : Byte × State :=
  let r := xfer g (.canRead a 1) s
  (r.1.headD 0, r.2)

/-- writeReg(a, d) (R86). -/
def writeReg (g : Pause) (a : Nat) (d : Byte) (s : State) : State := xferOut g (.canWrite a [d]) s

/-- bitModify(a, mask, d) (R87). -/
def bitModify (g : Pause) (a : Nat) (mask d : Byte) (s : State) : State := xferOut g (.canBitmod a mask d) s

/-- readBlock(a, n) (R88). -/
def readBlock (g : Pause) (a n : Nat) (s : State) : List Byte × State := xfer g (.canRead a n) s

/-- writeBlock(a, d) (R89). -/
def writeBlock (g : Pause) (a : Nat) (d : List Byte) (s : State) : State := xferOut g (.canWrite a d) s

/-- epRdsr() (R92): the EEPROM status byte. -/
def readStatus (g : Pause) (s : State) : Byte × State :=
  let r := xfer g .eeRdsr s
  (r.1.headD 0, r.2)

end Sys2Proof.Machine
end

