-- ==== Sys2Proof/Machine/Eag.lean ====
section
/-! DEFINITION. The EEPROM address generator and the storage discipline (41_eeprom.md R96 to R101). -/

namespace Sys2Proof.Machine

/-- The range check (R96). -/
def eeInRange (p : Params) (addr len : Nat) : Bool := addr + len ≤ p.eeSize

/-- The loop of chunks (R97) on (a, r), at most `fuel` rounds; each round takes at least one byte. -/
def chunkLoop : Nat → Nat → Nat → List (Nat × Nat)
  | 0, _, _ => []
  | fuel + 1, a, r =>
    if r = 0 then []
    else
      let l := min r (pageSize - a % pageSize)
      (a, l) :: chunkLoop fuel (a + l) (r - l)

/-- chunks(addr, n) (R97). -/
def chunks (addr n : Nat) : List (Nat × Nat) := chunkLoop n addr n

/-- The polls of waitIdle (R98), `n` of them left. -/
def waitIdleLoop (g : Pause) : Nat → State → Res Unit
  | 0, s => (.error .busy, s)
  | n + 1, s =>
    let r := readStatus g s
    if bitOf r.1 s.cfg.dev.wipBit then waitIdleLoop g n (delay s.cfg.eePollDelay r.2) else (.ok (), r.2)

/-- waitIdle() (R98). -/
def waitIdle (g : Pause) (s : State) : Res Unit := waitIdleLoop g s.cfg.eeBailout s

/-- writeEnable() (R99). -/
def writeEnable (g : Pause) (s : State) : Res Unit :=
  let r := readStatus g (xferOut g .eeWren s)
  if bitOf r.1 s.cfg.dev.welBit then (.ok (), r.2) else (.error .welNotSet, r.2)

/-- One chunk of write (R100): busy wait, write-enable, one burst. -/
def writeChunk (g : Pause) (a : Nat) (d : List Byte) (s : State) : Res Unit :=
  Res.bind (waitIdle g s) fun _ s1 =>
  Res.bind (writeEnable g s1) fun _ s2 =>
  (.ok (), xferOut g (.eeWrite a d) s2)

/-- The chunks of write in order (R100); d holds the bytes not yet written. -/
def writeChunks (g : Pause) : List (Nat × Nat) → List Byte → State → Res Unit
  | [], _, s => (.ok (), s)
  | c :: cs, d, s =>
    Res.bind (writeChunk g c.1 (d.take c.2) s) fun _ s1 => writeChunks g cs (d.drop c.2) s1

/-- write(addr, d) (R100). -/
def eeWriteOp (g : Pause) (addr : Nat) (d : List Byte) (s : State) : Res Unit :=
  if eeInRange s.cfg addr d.length then writeChunks g (chunks addr d.length) d s else (.error .badAddress, s)

/-- read(addr, n) (R101): one burst; nothing at all for n = 0 (R96). -/
def eeReadOp (g : Pause) (addr n : Nat) (s : State) : Res (List Byte) :=
  if eeInRange s.cfg addr n then
    if n = 0 then (.ok [], s)
    else Res.bind (waitIdle g s) fun _ s1 =>
      let r := xfer g (.eeRead addr n) s1
      (.ok r.1, r.2)
  else (.error .badAddress, s)

end Sys2Proof.Machine
end

