-- ==== Sys2Proof/Machine/Rxa.lean ====
section
/-! DEFINITION. The controller operations (42_can_controller.md R109 to R115), without their port checks. -/

namespace Sys2Proof.Machine

/-- The polls of setMode (R109), `n` of them left. none: no poll ever matches. -/
def modePoll (g : Pause) (m : Mode) : Nat → State → Option State
  | 0, _ => none
  | n + 1, s =>
    let r := readReg g s.cfg.dev.map.canstat s
    if modeBits r.1 = modeCode s.cfg.dev m then some r.2 else modePoll g m n r.2

/-- How many polls setMode can need: the environment's moves are used up after one poll for each gap left, the fair
environment's last move comes after the next poll, and a poll after that which does not match is followed by the same for
ever (R109 polls without bound; log 13). -/
def modePollBound (s : State) : Nat := s.sched.length + 2

/-- setMode(m) (R109). none: the poll never ends (R182). -/
def setModeOp (g : Pause) (m : Mode) (s : State) : Option State :=
  let s1 := bitModify g s.cfg.dev.map.canctrl s.cfg.dev.modeMask (modeCode s.cfg.dev m ++ 0#5) s
  (modePoll g m (modePollBound s1) s1).map fun s2 => { s2 with modeShadow := some m }

/-- setBitTiming(c1, c2, c3) (R110). -/
def setBitTiming (g : Pause) (c1 c2 c3 : Byte) (s : State) : State :=
  let m := s.cfg.dev.map
  writeReg g m.cnf3 c3 (writeReg g m.cnf2 c2 (writeReg g m.cnf1 c1 s))

/-- setMask(k, id) (R111). -/
def setMask (g : Pause) (k : Nat) (id : CanId) (s : State) : State :=
  writeBlock g (s.cfg.dev.map.mask k) (packId s.cfg.dev.exideBit id) s

/-- setFilter(n, id) (R112). -/
def setFilter (g : Pause) (n : Nat) (id : CanId) (s : State) : State :=
  writeBlock g (s.cfg.dev.map.filter n) (packId s.cfg.dev.exideBit id) s

/-- receive(b) (R113): five registers, then dlc data bytes when dlc > 0. -/
def receive (g : Pause) (b : Nat) (s : State) : CanFrame × State :=
  let d := s.cfg.dev
  let base := d.map.rxBuf b
  let r := readBlock g base 5 s
  let id := unpackId d.exideBit (r.1.getD 0 0) (r.1.getD 1 0) (r.1.getD 2 0) (r.1.getD 3 0)
  let rtr := bitOf (r.1.getD 4 0) d.rtrBit
  let dlc := min ((r.1.getD 4 0).extractLsb' 0 4).toNat maxDlc
  if dlc > 0 then
    let q := readBlock g (base + 5) dlc r.2
    (⟨id, rtr, q.1⟩, q.2)
  else (⟨id, rtr, []⟩, r.2)

/-- A mask byte with bit i set (R114). -/
def oneBit (i : Nat) : Byte := 1#8 <<< i

/-- The polls of transmit (R114), `n` of them left: TXERR first, then TXREQ. -/
def txPoll (g : Pause) : Nat → State → Res Unit
  | 0, s => (.error .retriesExhausted, s)
  | n + 1, s =>
    let d := s.cfg.dev
    let r := readReg g d.map.txb0ctrl s
    if bitOf r.1 d.txerrBit then (.error .txError, bitModify g d.map.txb0ctrl (oneBit d.txreqBit) 0 r.2)
    else if bitOf r.1 d.txreqBit then txPoll g n (delay s.cfg.txPollDelay r.2)
    else (.ok (), r.2)

/-- The bytes transmit loads into TXB0 (R114). -/
def txBytes (d : DevParams) (f : CanFrame) : List Byte :=
  packId d.exideBit f.id ++ [dlcByte d.rtrBit f.rtr (BitVec.ofNat 4 f.dlc)] ++ f.data

/-- transmit(f) (R114). -/
def transmit (g : Pause) (f : CanFrame) (s : State) : Res Unit :=
  let d := s.cfg.dev
  let s1 := writeBlock g d.map.txb0sidh (txBytes d f) s
  let s2 := bitModify g d.map.txb0ctrl (oneBit d.txreqBit) (oneBit d.txreqBit) s1
  txPoll g s.cfg.txRetries s2

/-- rxStatus() (R115). -/
def rxStatus (g : Pause) (s : State) : Byte × State :=
  let r := xfer g .canRxStatus s
  (r.1.headD 0, r.2)

end Sys2Proof.Machine
end

