-- ==== Sys2Proof/Machine/Tbe.lean ====
section
/-! DEFINITION. The calibration table engine (44_table.md R128 to R132) and the signal-slot operations of the codec
(43_codec.md R125 to R127). -/

namespace Sys2Proof.Machine

/-- writeRow(t, i, key, value) (R129). -/
def writeRow (g : Pause) (t i : Nat) (key : U32) (value : U16) (s : State) : Res Unit :=
  if t ≥ s.cfg.numSignals then (.error .badIndex, s)
  else if i ≥ tableRows then (.error .badIndex, s)
  else eeWriteOp g (s.cfg.rowAddr t i) (serRow key value) s

/-- readRow(t, i) (R130). -/
def readRow (g : Pause) (t i : Nat) (s : State) : Res (U32 × U16) :=
  if t ≥ s.cfg.numSignals then (.error .badIndex, s)
  else if i ≥ tableRows then (.error .badIndex, s)
  else Res.bind (eeReadOp g (s.cfg.rowAddr t i) rowBytes s) fun b s1 => (.ok (deserRow b), s1)

/-- keyVal (R131). -/
def keyVal : Number → Int
  | .u8 v => v.toNat
  | .u16 v => v.toNat
  | .u32 v => v.toNat
  | .i8 v => v.toInt
  | .i16 v => v.toInt
  | .i32 v => v.toInt

/-- Is a Number of an unsigned type. -/
def Number.isUnsigned : Number → Bool
  | .u8 _ | .u16 _ | .u32 _ => true
  | .i8 _ | .i16 _ | .i32 _ => false

/-- rowVal(k, key) (R131): the row key read in the type of the supplied key. -/
def rowVal (k : U32) (key : Number) : Int := if Number.isUnsigned key then k.toNat else k.toInt

/-- The interpolated value between the rows (k1, v1) and (k2, v2) at x (R132): exact integers, rounded toward zero. -/
def interpolate (k1 v1 k2 v2 x : Int) : Int := v1 + Int.tdiv ((v2 - v1) * (x - k1)) (k2 - k1)

/-- What lookup does with a row of compared key kc and value v, given the row before (R132): answer a value, or go on. -/
def lookupRow (x : Int) (prev : Option (Int × U16)) (kc : Int) (v : U16) : Option U16 :=
  if kc = x then some v
  else if kc > x then
    match prev with
    | none => some v
    | some (k1, v1) => some (BitVec.ofInt 16 (interpolate k1 v1.toNat kc v.toNat x))
  else none

/-- The scan of lookup (R132) from row i on, `n` rows left. -/
def lookupLoop (g : Pause) (t : Nat) (key : Number) : Nat → Nat → Option (Int × U16) → State → Res U16
  | 0, _, prev, s => (.ok ((prev.map (·.2)).getD 0), s)
  | n + 1, i, prev, s =>
    Res.bind (readRow g t i s) fun r s1 =>
      match lookupRow (keyVal key) prev (rowVal r.1 key) r.2 with
      | some v => (.ok v, s1)
      | none => lookupLoop g t key n (i + 1) (some (rowVal r.1 key, r.2)) s1

/-- lookup(t, key) (R132). -/
def lookup (g : Pause) (t : Nat) (key : Number) (s : State) : Res U16 :=
  if t ≥ s.cfg.numSignals then (.error .badIndex, s) else lookupLoop g t key tableRows 0 none s

/-- sigLoad(s) (R125), after its index check: the mirror write is a step of its own (R144). -/
def sigLoad (g : Pause) (slot : Nat) (s : State) : Res Unit :=
  Res.bind (eeReadOp g (s.cfg.sigAddr slot) sigRecBytes s) fun r s1 =>
    (.ok (), tick g (s1.setMirror slot (deserRec s.cfg.idRecOrder r)))

/-- sigStore(s, fmt) (R126): persist, then the mirror. -/
def sigStore (g : Pause) (slot : Nat) (f : SigFmt) (s : State) : Res Unit :=
  if slot ≥ s.cfg.numSignals then (.error .badIndex, s)
  else Res.bind (eeWriteOp g (s.cfg.sigAddr slot) (serRec s.cfg.idRecOrder f) s) fun _ s1 =>
    (.ok (), tick g (s1.setMirror slot f))

/-- A read of mirror[s] (R24). Of an Invalid element it records UnloadedMirror, and the format is made of free values
(log 12). -/
def readMirror (slot : Nat) (s : State) : SigFmt × State :=
  match s.mirrorAt slot with
  | some f => (f, s)
  | none => (deserWire (s.freeBytes sigWireBytes), (s.takeFree sigWireBytes).addUnloadedMirror)

/-- sigGet(s) (R127): the four fields are read in four steps, id, start, size, flags (R145). -/
def sigGet (g : Pause) (slot : Nat) (s : State) : Res (List Byte) :=
  if slot ≥ s.cfg.numSignals then (.error .badIndex, s)
  else
    let r1 := readMirror slot s
    let r2 := readMirror slot (tick g r1.2)
    let r3 := readMirror slot (tick g r2.2)
    let r4 := readMirror slot (tick g r3.2)
    (.ok (serWire ⟨r1.1.id, r2.1.start, r3.1.size, r4.1.flags⟩), tick g r4.2)

end Sys2Proof.Machine
end

