-- ==== Sys2Proof/Machine/Handler.lean ====
section
/-! DEFINITION. The frame arbiter: the five class rules (R135 to R139), the handler (R133, R141), and the gap between the
steps of a foreground operation, in which the handler is entered (R158, R161). -/

namespace Sys2Proof.Machine

/-- `fail e` in a class rule (R135, R140): hErr is 1; the code is not kept. -/
def failClass {α : Type} (r : Res α) : State :=
  match r with
  | (.ok _, s) => s
  | (.error _, s) => { s with hErr := true }

/-- The table field of a Table-Control identifier (R73). -/
def ctrlTable (id : CanId) : Nat := (id.val.extractLsb' 5 4).toNat

/-- The row field of a Table-Control identifier (R73). -/
def ctrlRow (id : CanId) : Nat := (id.val.extractLsb' 0 5).toNat

/-- The slot field of a Signal-Control identifier (R73). -/
def ctrlSlot (id : CanId) : Nat := (id.val.extractLsb' 0 4).toNat

/-- tblRd(fr) (R135), in the handler's context. -/
def tblRd (fr : CanFrame) (s : State) : State :=
  if fr.dlc ≠ s.cfg.rtrDlcTable then failClass (α := Unit) (.error .badLength, s)
  else if ctrlTable fr.id ≥ s.cfg.numSignals then failClass (α := Unit) (.error .badIndex, s)
  else failClass (Res.bind (readRow envGap (ctrlTable fr.id) (ctrlRow fr.id) s) fun r s1 =>
    transmit envGap ⟨fr.id, false, serRow r.1 r.2⟩ s1)

/-- tblWr(fr) (R136). -/
def tblWr (fr : CanFrame) (s : State) : State :=
  if fr.dlc ≠ rowBytes then failClass (α := Unit) (.error .badLength, s)
  else if ctrlTable fr.id ≥ s.cfg.numSignals then failClass (α := Unit) (.error .badIndex, s)
  else failClass (writeRow envGap (ctrlTable fr.id) (ctrlRow fr.id) (deserRow fr.data).1 (deserRow fr.data).2 s)

/-- sigRd(fr) (R137). -/
def sigRd (fr : CanFrame) (s : State) : State :=
  if fr.dlc ≠ s.cfg.rtrDlcSignal then failClass (α := Unit) (.error .badLength, s)
  else if ctrlSlot fr.id ≥ s.cfg.numSignals then failClass (α := Unit) (.error .badIndex, s)
  else
    let r := readMirror (ctrlSlot fr.id) s
    failClass (transmit envGap ⟨fr.id, false, serWire r.1⟩ r.2)

/-- sigWr(fr) (R138). -/
def sigWr (fr : CanFrame) (s : State) : State :=
  if fr.dlc ≠ sigWireBytes then failClass (α := Unit) (.error .badLength, s)
  else failClass (sigStore envGap (ctrlSlot fr.id) (deserWire fr.data) s)

/-- emit Actuate(ch, v), one internal step (R142, R144). -/
def actuate (g : Pause) (ch : Nat) (v : U16) (s : State) : State :=
  tick g ((s.setChannel ch v).emit (.actuate ch v))

/-- One slot of sigFrame's loop (R139). -/
def signalSlot (fr : CanFrame) (slot : Nat) (s : State) : State :=
  let r := readMirror slot s
  if r.1.id = fr.id then
    match pluck r.1 fr with
    | .error _ => { r.2 with hErr := true }
    | .ok key =>
      match lookup envGap slot key r.2 with
      | (.error _, s1) => { s1 with hErr := true }
      | (.ok v, s1) => actuate envGap slot v s1
  else r.2

/-- sigFrame(fr) (R139): the slots in ascending order; a failing slot does not stop the later ones. -/
def sigFrame (fr : CanFrame) (s : State) : State :=
  (List.range s.cfg.numSignals).foldl (fun st slot => signalSlot fr slot st) s

/-- The class rule of a class (R133). -/
def runClass (c : FrameClass) (fr : CanFrame) (s : State) : State :=
  match c with
  | .tblRd => tblRd fr s
  | .tblWr => tblWr fr s
  | .sigRd => sigRd fr s
  | .sigWr => sigWr fr s
  | .sigFrame => sigFrame fr s

/-- The hit of an rxStatus byte (R71). -/
def hitOf (st : Byte) : BitVec 3 := st.extractLsb' 0 3

/-- The buffer a hit belongs to (R133). -/
def hitBuffer (h : BitVec 3) : Nat := if h = 0 ∨ h = 1 then 0 else 1

/-- What the handler has read before it classifies: the hit and the frame. -/
structure Fetched where
  hit : BitVec 3
  frame : CanFrame
  deriving DecidableEq, Repr

/-- The handler up to its classification (R133): hErr is 0, the hit is read, then the frame. -/
def handlerFetch (s : State) : Fetched × State :=
  let r := rxStatus envGap { s with hErr := false }
  let q := receive envGap (hitBuffer (hitOf r.1)) r.2
  (⟨hitOf r.1, q.1⟩, q.2)

/-- clearFlag(buf) with latch cleared in the same step, before the edge detector samples (R141, R144). -/
def clearStep (buf : Nat) (s : State) : State :=
  tick envGap { (s.transact (.canBitmod s.cfg.dev.map.canintf (oneBit buf) 0)).2 with latch := false }

/-- The handler after its class rule (R133): the clear, IrqDone, the return. -/
def handlerTail (buf : Nat) (s : State) : State :=
  let s1 := clearStep buf s
  let s2 := tick envGap (s1.emit (.irqDone s1.hErr))
  leaveHandler s2

/-- handler() (R133), from its first step to its return. -/
def handlerRun (s : State) : State :=
  let r := handlerFetch s
  handlerTail (hitBuffer r.1.hit) (runClass (classify r.1.hit r.1.frame.rtr) r.1.frame r.2)

/-- Handler invocations one after another, at most `n`, while entry is enabled (R158, R159): entry, the handler, and the gaps
after each. -/
def serveHandlers : Nat → State → State
  | 0, s => s
  | n + 1, s =>
    if entryEnabled s then serveHandlers n (envGap (handlerRun (envGap (enterHandler s)))) else s

/-- The gap between two steps of a foreground operation (R158): the other agents move, and the handler runs for as long as
its entry is enabled. A further invocation needs an edge, which needs a move of the environment, so the moves left bound
their number (R161). -/
def fgGap (s : State) : State :=
  let s1 := envGap s
  serveHandlers (s1.sched.length + 1) s1

end Sys2Proof.Machine
end

