-- ==== Sys2Proof/Machine/Can.lean ====
section
/-! DEFINITION. The meanings of the CAN_ commands, with their port checks (42_can_controller.md). -/

namespace Sys2Proof.Machine

/-- CAN_SETMODE (R109). A poll that can never end is the stop modeWaitHang (R182, log 13). -/
def execCanSetmode (m : Byte) (s : State) : Host.Outcome State Fault Refusal :=
  match modeOperand m with
  | .error e => command (fun s => (.error e, s)) s
  | .ok md =>
    match setModeOp fgGap md (beginCommand s) with
    | some t => .next (endCommand (.ok [], t))
    | none => .fault .modeWaitHang

/-- CAN_SETBT (R110). -/
def execCanSetbt (c1 c2 c3 : Byte) (s : State) : Host.Outcome State Fault Refusal :=
  command (fun s => (.ok [], setBitTiming fgGap c1 c2 c3 s)) s

/-- CAN_SETMASK (R111). -/
def execCanSetmask (k : Byte) (id : CanId) (s : State) : Host.Outcome State Fault Refusal :=
  command (fun s => if k.toNat > 1 then (.error .badIndex, s) else (.ok [], setMask fgGap k.toNat id s)) s

/-- CAN_SETFILTER (R112). -/
def execCanSetfilter (f : Byte) (id : CanId) (s : State) : Host.Outcome State Fault Refusal :=
  command (fun s => if f.toNat > 5 then (.error .badIndex, s) else (.ok [], setFilter fgGap f.toNat id s)) s

/-- CAN_RECEIVE (R113). -/
def execCanReceive (b : Byte) (s : State) : Host.Outcome State Fault Refusal :=
  command (fun s =>
    if b.toNat > 1 then (.error .badIndex, s)
    else
      let r := receive fgGap b.toNat s
      (.ok (encodeFrame r.1), r.2)) s

/-- CAN_TRANSMIT (R114). -/
def execCanTransmit (frm : FrameArg) (s : State) : Host.Outcome State Fault Refusal :=
  command (fun s =>
    match frameOperand frm with
    | .error e => (.error e, s)
    | .ok f => (transmit fgGap f s).unit) s

/-- CAN_RXSTATUS (R115). -/
def execCanRxstatus (s : State) : Host.Outcome State Fault Refusal :=
  command (fun s =>
    let r := rxStatus fgGap s
    (.ok [r.1], r.2)) s

end Sys2Proof.Machine
end

