-- ==== Sys2Proof/Machine/Eeprom.lean ====
section
/-! DEFINITION. The meanings of EE_WRITE and EE_READ (41_eeprom.md). -/

namespace Sys2Proof.Machine

/-- EE_WRITE (R100). -/
def execEeWrite (addr : U32) (d : List Byte) (s : State) : Host.Outcome State Fault Refusal :=
  command (fun s => (eeWriteOp fgGap addr.toNat d s).unit) s

/-- EE_READ (R101). -/
def execEeRead (addr : U32) (n : Byte) (s : State) : Host.Outcome State Fault Refusal :=
  command (fun s => eeReadOp fgGap addr.toNat n.toNat s) s

end Sys2Proof.Machine
end

