-- ==== Sys2Proof/Machine/Frames.lean ====
section
/-! DEFINITION. The meanings of the frame-class rows (45_dispatcher.md): what the handler does with a classified frame,
between its fetch and its clear. -/

namespace Sys2Proof.Machine

/-- TBL_RD (R135). -/
def execTblRd (fr : CanFrame) (s : State) : Host.Outcome State Fault Refusal := .next (tblRd fr s)

/-- TBL_WR (R136). -/
def execTblWr (fr : CanFrame) (s : State) : Host.Outcome State Fault Refusal := .next (tblWr fr s)

/-- SIG_RD (R137). -/
def execSigRd (fr : CanFrame) (s : State) : Host.Outcome State Fault Refusal := .next (sigRd fr s)

/-- SIG_WR (R138). -/
def execSigWr (fr : CanFrame) (s : State) : Host.Outcome State Fault Refusal := .next (sigWr fr s)

/-- SIG_FRAME, hits 2 and 3 (R139): the rule does not depend on the hit. -/
def execSigFrameMid (_h : BitVec 1) (fr : CanFrame) (s : State) : Host.Outcome State Fault Refusal :=
  .next (sigFrame fr s)

/-- SIG_FRAME, hits 4 to 7 (R139): the rule does not depend on the hit. -/
def execSigFrameHigh (_h : BitVec 2) (fr : CanFrame) (s : State) : Host.Outcome State Fault Refusal :=
  .next (sigFrame fr s)

end Sys2Proof.Machine
end

