-- ==== Sys2Proof/Machine/Serial.lean ====
section
/-! DEFINITION. The meanings of the SP_ and EP_ commands, with their port checks (40_serial_protocol.md). -/

namespace Sys2Proof.Machine

/-- The size of the controller register space (R45). -/
abbrev regSpace : Nat := 0x80

/-- SP_RESET (R84). -/
def execSpReset (s : State) : Host.Outcome State Fault Refusal :=
  command (fun s => (.ok [], resetOp fgGap s)) s

/-- SP_READ (R85). -/
def execSpRead (a : Byte) (s : State) : Host.Outcome State Fault Refusal :=
  command (fun s =>
    if a.toNat ≥ regSpace then (.error .badAddress, s)
    else
      let r := readReg fgGap a.toNat s
      (.ok [r.1], r.2)) s

/-- SP_WRITE (R86). -/
def execSpWrite (a d : Byte) (s : State) : Host.Outcome State Fault Refusal :=
  command (fun s =>
    if a.toNat ≥ regSpace then (.error .badAddress, s) else (.ok [], writeReg fgGap a.toNat d s)) s

/-- SP_BITMOD (R87). -/
def execSpBitmod (a mask d : Byte) (s : State) : Host.Outcome State Fault Refusal :=
  command (fun s =>
    if a.toNat ≥ regSpace then (.error .badAddress, s) else (.ok [], bitModify fgGap a.toNat mask d s)) s

/-- SP_READBLK (R88). -/
def execSpReadblk (a n : Byte) (s : State) : Host.Outcome State Fault Refusal :=
  command (fun s =>
    if n = 0 then (.error .badLength, s)
    else if a.toNat + n.toNat > regSpace then (.error .badAddress, s)
    else
      let r := readBlock fgGap a.toNat n.toNat s
      (.ok r.1, r.2)) s

/-- SP_WRITEBLK (R89). -/
def execSpWriteblk (a : Byte) (d : List Byte) (s : State) : Host.Outcome State Fault Refusal :=
  command (fun s =>
    if d.length = 0 then (.error .badLength, s)
    else if a.toNat + d.length > regSpace then (.error .badAddress, s)
    else (.ok [], writeBlock fgGap a.toNat d s)) s

/-- EP_WREN (R91). -/
def execEpWren (s : State) : Host.Outcome State Fault Refusal :=
  command (fun s => (.ok [], xferOut fgGap .eeWren s)) s

/-- EP_RDSR (R92). -/
def execEpRdsr (s : State) : Host.Outcome State Fault Refusal :=
  command (fun s =>
    let r := readStatus fgGap s
    (.ok [r.1], r.2)) s

/-- EP_READ (R93). -/
def execEpRead (addr : U32) (n : Byte) (s : State) : Host.Outcome State Fault Refusal :=
  command (fun s =>
    if n = 0 then (.error .badLength, s)
    else if addr.toNat + n.toNat > s.cfg.eeSize then (.error .badAddress, s)
    else
      let r := xfer fgGap (.eeRead addr.toNat n.toNat) s
      (.ok r.1, r.2)) s

/-- EP_WRITE (R94): one burst never crosses a page. -/
def execEpWrite (addr : U32) (d : List Byte) (s : State) : Host.Outcome State Fault Refusal :=
  command (fun s =>
    if d.length = 0 ∨ d.length > pageSize then (.error .badLength, s)
    else if addr.toNat + d.length > s.cfg.eeSize then (.error .badAddress, s)
    else if addr.toNat / pageSize ≠ (addr.toNat + d.length - 1) / pageSize then (.error .badAddress, s)
    else (.ok [], xferOut fgGap (.eeWrite addr.toNat d) s)) s

end Sys2Proof.Machine
end

