-- ==== Sys2Proof/Machine/Signal.lean ====
section
/-! DEFINITION. The meanings of the SIG_ commands (43_codec.md). -/

namespace Sys2Proof.Machine

/-- SIG_PLUCK (R121): no transaction, no state but the result. -/
def execSigPluck (fmt : SigFmt) (frm : FrameArg) (s : State) : Host.Outcome State Fault Refusal :=
  command (fun s =>
    match frameOperand frm with
    | .error e => (.error e, s)
    | .ok f =>
      match pluck fmt f with
      | .error e => (.error e, s)
      | .ok n => (.ok (encodeNumber n), s)) s

/-- SIG_LOAD (R125). -/
def execSigLoad (slot : Byte) (s : State) : Host.Outcome State Fault Refusal :=
  command (fun s =>
    if slot.toNat ≥ s.cfg.numSignals then (.error .badIndex, s) else (sigLoad fgGap slot.toNat s).unit) s

/-- SIG_STORE (R126). -/
def execSigStore (slot : Byte) (fmt : SigFmt) (s : State) : Host.Outcome State Fault Refusal :=
  command (fun s => (sigStore fgGap slot.toNat fmt s).unit) s

/-- SIG_GET (R127). -/
def execSigGet (slot : Byte) (s : State) : Host.Outcome State Fault Refusal :=
  command (fun s => sigGet fgGap slot.toNat s) s

end Sys2Proof.Machine
end

