-- ==== Sys2Proof/Machine/System.lean ====
section
/-! DEFINITION. The meanings of CRIT_ENTER and CRIT_EXIT (46_system.md). -/

namespace Sys2Proof.Machine

/-- CRIT_ENTER (R146). -/
def execCritEnter (s : State) : Host.Outcome State Fault Refusal :=
  command (fun s => (.ok [if s.gie then 1 else 0], { s with gie := false })) s

/-- CRIT_EXIT (R147). -/
def execCritExit (saved : Byte) (s : State) : Host.Outcome State Fault Refusal :=
  command (fun s =>
    if saved = 0 ∨ saved = 1 then (.ok [], { s with gie := saved = 1 }) else (.error .badValue, s)) s

end Sys2Proof.Machine
end

