-- ==== Sys2Proof/Machine/Table.lean ====
section
/-! DEFINITION. The meanings of ROW_WRITE, ROW_READ and TAB_LOOKUP (44_table.md). -/

namespace Sys2Proof.Machine

/-- ROW_WRITE (R129). -/
def execRowWrite (t i : Byte) (key : U32) (value : U16) (s : State) : Host.Outcome State Fault Refusal :=
  command (fun s => (writeRow fgGap t.toNat i.toNat key value s).unit) s

/-- ROW_READ (R130). -/
def execRowRead (t i : Byte) (s : State) : Host.Outcome State Fault Refusal :=
  command (fun s => Res.bind (readRow fgGap t.toNat i.toNat s) fun r s1 => (.ok (serRow r.1 r.2), s1)) s

/-- TAB_LOOKUP (R132): the operand is decoded before the operation's own check (R145). -/
def execTabLookup (t tag : Byte) (w : U32) (s : State) : Host.Outcome State Fault Refusal :=
  command (fun s =>
    match numberOperand tag w with
    | .error e => (.error e, s)
    | .ok key => Res.bind (lookup fgGap t.toNat key s) fun v s1 => (.ok (beBytes16 v), s1)) s

end Sys2Proof.Machine
end

