-- ==== Sys2Proof/Machine/Dispatch.lean ====
section
/-! DEFINITION. One arm for each instruction. -/

namespace Sys2Proof.Machine

def exec (i : Instr) (s : State) : Host.Outcome State Fault Refusal :=
  match i with
  | .spReset => Sys2Proof.Machine.execSpReset s
  | .spRead a => Sys2Proof.Machine.execSpRead a s
  | .spWrite a d => Sys2Proof.Machine.execSpWrite a d s
  | .spBitmod a mask d => Sys2Proof.Machine.execSpBitmod a mask d s
  | .spReadblk a n => Sys2Proof.Machine.execSpReadblk a n s
  | .spWriteblk a d => Sys2Proof.Machine.execSpWriteblk a d s
  | .epWren => Sys2Proof.Machine.execEpWren s
  | .epRdsr => Sys2Proof.Machine.execEpRdsr s
  | .epRead addr n => Sys2Proof.Machine.execEpRead addr n s
  | .epWrite addr d => Sys2Proof.Machine.execEpWrite addr d s
  | .eeWrite addr d => Sys2Proof.Machine.execEeWrite addr d s
  | .eeRead addr n => Sys2Proof.Machine.execEeRead addr n s
  | .canSetmode m => Sys2Proof.Machine.execCanSetmode m s
  | .canSetbt a b c => Sys2Proof.Machine.execCanSetbt a b c s
  | .canSetmask k id => Sys2Proof.Machine.execCanSetmask k id s
  | .canSetfilter f id => Sys2Proof.Machine.execCanSetfilter f id s
  | .canReceive b => Sys2Proof.Machine.execCanReceive b s
  | .canTransmit frm => Sys2Proof.Machine.execCanTransmit frm s
  | .canRxstatus => Sys2Proof.Machine.execCanRxstatus s
  | .sigPluck fmt frm => Sys2Proof.Machine.execSigPluck fmt frm s
  | .sigLoad slot => Sys2Proof.Machine.execSigLoad slot s
  | .sigStore slot fmt => Sys2Proof.Machine.execSigStore slot fmt s
  | .sigGet slot => Sys2Proof.Machine.execSigGet slot s
  | .rowWrite t n key value => Sys2Proof.Machine.execRowWrite t n key value s
  | .rowRead t n => Sys2Proof.Machine.execRowRead t n s
  | .tabLookup t tag w => Sys2Proof.Machine.execTabLookup t tag w s
  | .critEnter => Sys2Proof.Machine.execCritEnter s
  | .critExit saved => Sys2Proof.Machine.execCritExit saved s
  | .tblRd fr => Sys2Proof.Machine.execTblRd fr s
  | .tblWr fr => Sys2Proof.Machine.execTblWr fr s
  | .sigRd fr => Sys2Proof.Machine.execSigRd fr s
  | .sigWr fr => Sys2Proof.Machine.execSigWr fr s
  | .sigFrameMid h fr => Sys2Proof.Machine.execSigFrameMid h fr s
  | .sigFrameHigh h fr => Sys2Proof.Machine.execSigFrameHigh h fr s

end Sys2Proof.Machine
end

