-- ==== Sys2Proof/Machine/Boot.lean ====
section
/-! DEFINITION. The boot sequence (R172), its escalation and the device reset (R163, R171). -/

namespace Sys2Proof.Machine

/-- The state with the boot sequence at its next line. -/
def State.at (s : State) (p : BootPos) : State := { s with boot := p }

/-- A boot line that cannot stop. -/
def bootLine (p : BootPos) (s : State) : Host.Outcome State Fault Refusal := .next (s.at p)

/-- A boot line that is a setMode: its wait has no bound (R182). -/
def bootMode (m : Mode) (p : BootPos) (s : State) : Host.Outcome State Fault Refusal :=
  match setModeOp envGap m s with
  | some t => .next (t.at p)
  | none => .fault .modeWaitHang

/-- A failing boot step (R163): no further boot step runs. -/
def escalate (s : State) : State := tick envGap { s with phase := .resetDelay }

/-- Line 11 at slot k (R172): load the slot, or go on when there is none left; a failure escalates. -/
def bootLoad (k : Nat) (s : State) : Host.Outcome State Fault Refusal :=
  if k < s.cfg.numSignals then
    match sigLoad envGap k s with
    | (.ok _, t) => .next (t.at (.load (k + 1)))
    | (.error _, t) => .next (escalate t)
  else .next (s.at .clearLatch)

/-- The line of boot() at a position (R172), run in the foreground with gie = 0, so no handler is entered (R158). Before the
first line stands the gap in which the other agents may move at launch (R143, R152). -/
def bootStep (s : State) : Host.Outcome State Fault Refusal :=
  match s.boot with
  | .reset => bootLine .setConfig (resetOp envGap (envGap s))
  | .setConfig => bootMode .config .bitTiming s
  | .bitTiming => bootLine .mask0 (setBitTiming envGap s.cfg.cnf1 s.cfg.cnf2 s.cfg.cnf3 s)
  | .mask0 => bootLine .mask1 (setMask envGap 0 s.cfg.ctrlMask s)
  | .mask1 => bootLine .filter0 (setMask envGap 1 (.std 0) s)
  | .filter0 => bootLine .filter1 (setFilter envGap 0 s.cfg.tableCtrlId s)
  | .filter1 => bootLine .stdFilters (setFilter envGap 1 s.cfg.sigCtrlId s)
  | .stdFilters => bootLine .extFilters (setFilter envGap 3 (.std 0) (setFilter envGap 2 (.std 0) s))
  | .extFilters => bootLine .setNormal (setFilter envGap 5 (.ext 0) (setFilter envGap 4 (.ext 0) s))
  | .setNormal => bootMode .normal (.load 0) s
  | .load k => bootLoad k s
  | .clearLatch => bootLine .enableInt (tick envGap { s with latch := false })
  | .enableInt => bootLine .enterRun (writeReg envGap s.cfg.dev.map.caninte 0x03 s)
  | .enterRun => .next (tick envGap { s with phase := .run, gie := true })

/-- The device reset (R163): every block state element to its value of R44, except fault; the controller, the EEPROM, the
DAC and the environment are external and unchanged. -/
def deviceReset (s : State) : State :=
  { s with
    phase := .boot
    boot := .reset
    mirror := Vector.replicate 16 none
    gie := false
    latch := false
    intPrev := false
    ctx := .foreground
    csCan := false
    csEe := false
    modeShadow := none
    hErr := false
    lastResult := none
    cmdBusy := false
    cmdIssued := false }

/-- The ResetDelay phase (R163): the wait is one internal step, the device reset another. -/
def resetDelayStep (s : State) : State :=
  tick envGap (deviceReset (tick envGap (delay s.cfg.resetDelay s)))

end Sys2Proof.Machine
end

