-- ==== Sys2Proof/Machine/Fetch.lean ====
section
/-! DEFINITION. Where an instruction comes from: the command port (R145) and the handler's fetch (R133), and how the bytes
of a table word are placed there. -/

namespace Sys2Proof.Machine

/-- The result of a command that is not decoded (R63, R64). -/
def decodeErr : DecodeError → Err
  | .unknownOp => .unknownOp
  | .badCommandLength => .badCommandLength
  | .badFrameLength => .badCommandLength

/-- A command that is not decoded: it issues no transaction and changes no state but the result (R64, R145). -/
def rejectCommand (e : DecodeError) (s : State) : State :=
  sample { s with lastResult := some (encodeResult (.error (decodeErr e))) }

/-- The instruction the handler has fetched (R72, R134). -/
def Fetched.instr (f : Fetched) : Instr := frameInstr f.hit f.frame

/-- The bytes of a table word that its command takes up (log 10): those before what the decoder leaves. -/
def tableCommand (nbits w : Nat) : List Byte :=
  let bs := tableBytes nbits w
  match readTableWord nbits w with
  | some (_, rest) => bs.take (bs.length - rest.length)
  | none => bs

/-- Is a table word one of the command port (log 10). -/
def isPortWord (nbits w : Nat) : Bool :=
  match tableBytes nbits w with
  | b :: _ => b ∈ opBytes
  | [] => true

/-- A command placed as the presenter's next, the block ready to accept it: phase Run, foreground, no handler entry
(R145, R158). -/
def placeCommand (cmd : List Byte) (s : State) : State :=
  { s with phase := .run, ctx := .foreground, latch := false, script := cmd :: s.script }

/-- A received frame placed where the handler fetches it: in the buffer of its hit, the handler entered (R108, R133). The
list is the class word, the identifier word and the data. -/
def placeFrame (bs : List Byte) (s : State) : State :=
  let cw := bs.headD 0
  let h : BitVec 3 := cw.extractLsb' 0 3
  let buf := hitBuffer h
  let m := s.cfg.dev.map
  let id := unpackIdWord (be32 (bs.getD 1 0) (bs.getD 2 0) (bs.getD 3 0) (bs.getD 4 0))
  let dlc := cw.extractLsb' 4 4
  let s1 := s.setRegs (m.rxBuf buf)
    (packId s.cfg.dev.exideBit id ++ [dlcByte s.cfg.dev.rtrBit (bitOf cw 3) dlc] ++ bs.drop 5)
  let s2 := s1.setReg m.canintf (withBit (s1.reg m.canintf) buf true)
  { s2 with phase := .run, ctx := .handler, lastHit := h, lastType := frameType id (bitOf cw 3) }

end Sys2Proof.Machine
end

