-- ==== Sys2Proof/Machine/Step.lean ====
section
/-! DEFINITION. One step of the machine (R22, R143 to R145, R158, R163; log 1), and a table word placed as the next
instruction. -/

namespace Sys2Proof.Machine

/-- The outcome of an instruction, with what the step does after it. -/
def andThen (o : Host.Outcome State Fault Refusal) (f : State → State) : Host.Outcome State Fault Refusal :=
  match o with
  | .next s => .next (f s)
  | .fault r => .fault r
  | .refused r => .refused r

/-- A command presented at the port (R145), and the gap after it. -/
def presentStep (cmd : List Byte) (s : State) : Host.Outcome State Fault Refusal :=
  match decode .port cmd with
  | .ok i => andThen (exec i s) envGap
  | .error e => .next (envGap (rejectCommand e s))

/-- The foreground in phase Run: handler entry first (R158), else the next command, else idle (R148). -/
def foregroundStep (s : State) : Host.Outcome State Fault Refusal :=
  if entryEnabled s then .next (envGap (enterHandler s))
  else
    match s.script with
    | cmd :: rest => presentStep cmd { s with script := rest }
    | [] => .next (envGap s)

/-- One handler invocation (R133): fetch, the class instruction, the clear and the return, and the gap after it. -/
def handlerStep (s : State) : Host.Outcome State Fault Refusal :=
  let r := handlerFetch s
  andThen (exec r.1.instr r.2) fun t => envGap (handlerTail (hitBuffer r.1.hit) t)

/-- One step of the machine: a line of the boot sequence, the ResetDelay phase, a handler invocation, a handler entry, a
command, or an idle gap. An instance that breaks R11 is refused. -/
def step (s : State) : Host.Outcome State Fault Refusal :=
  if s.cfg.valid then
    match s.phase with
    | .boot => bootStep s
    | .resetDelay => .next (resetDelayStep s)
    | .run =>
      match s.ctx with
      | .handler => handlerStep s
      | .foreground => foregroundStep s
  else .refused .badInstance

/-- The instruction of a table word placed as the next one that step runs (host's name; logs 9 and 10). -/
def State.withFetchWord (s : State) (nbits w : Nat) : State :=
  if isPortWord nbits w then placeCommand (tableCommand nbits w) s else placeFrame (tableCommand nbits w) s

end Sys2Proof.Machine
end

