-- ==== Sys2Proof/Safety.lean ====
section
/-! DEFINITION. What the statements speak of: a still environment, the parts of State a frame names, the invariant of the
machine, final and stuck states (46_system.md R150). -/

namespace Sys2Proof.Machine

/-- The environment takes no move: nothing scheduled, and no fair ModeChange either. -/
def Still (s : State) : Prop := s.sched = [] ∧ s.modeFair = false

/-- A foreground operation runs alone: no handler entry (a critical section, R55) and a still environment. -/
def Alone (s : State) : Prop := s.gie = false ∧ Still s

/-- The edge detector has sampled the line as it is now, as it has after every step (R144). -/
def Sampled (s : State) : Prop := s.intPrev = s.intLine

/-- A state between two steps: the line sampled (R144), no chip select asserted (R29). -/
def Ready (s : State) : Prop := Sampled s ∧ s.csCan = false ∧ s.csEe = false

/-- In each of the next gaps the EEPROM's write cycle ends (environment choice E3 of 95_test_vectors.md). -/
def Prompt (n : Nat) (s : State) : Prop := ∃ rest, s.sched = List.replicate n [EnvMove.cycleEnd] ++ rest

/-- The array as it is once the running write cycle, if any, has ended (R95). -/
def State.settled (s : State) : Memory := s.cycleEnd.ee

/-- The block's own state but for what every command writes (its result, the edge detector): unchanged. -/
def SameBlock (s t : State) : Prop :=
  t.cfg = s.cfg ∧ t.phase = s.phase ∧ t.boot = s.boot ∧ t.mirror = s.mirror ∧ t.gie = s.gie ∧ t.ctx = s.ctx ∧
    t.csCan = s.csCan ∧ t.csEe = s.csEe ∧ t.modeShadow = s.modeShadow ∧ t.hErr = s.hErr ∧ t.faults = s.faults

/-- The latch and the edge detector's memory: unchanged. -/
def SameLatch (s t : State) : Prop := t.latch = s.latch ∧ t.intPrev = s.intPrev

/-- Every controller register and the record of the last hit: unchanged. -/
def SameController (s t : State) : Prop :=
  (∀ a, t.reg a = s.reg a) ∧ t.lastHit = s.lastHit ∧ t.lastType = s.lastType

/-- Every byte of the EEPROM array, its status and its page buffer: unchanged. -/
def SameEeprom (s t : State) : Prop :=
  (∀ a, t.ee.read a = s.ee.read a) ∧ t.wip = s.wip ∧ t.wel = s.wel ∧ t.pageBuf = s.pageBuf ∧
    t.eeProtect = s.eeProtect

/-- The DAC outputs, the bus and the environment to come: unchanged. -/
def SameWorld (s t : State) : Prop :=
  t.out = s.out ∧ t.busIn = s.busIn ∧ t.busOut = s.busOut ∧ t.script = s.script ∧ t.sched = s.sched ∧
    t.modeFair = s.modeFair

/-- No transaction was issued and nothing was emitted. -/
def SameEvents (s t : State) : Prop := t.events = s.events

/-- Everything but the result of a command is unchanged. -/
def OnlyResult (s t : State) : Prop :=
  SameBlock s t ∧ SameLatch s t ∧ SameController s t ∧ SameEeprom s t ∧ SameWorld s t ∧ SameEvents s t ∧ t.freeN = s.freeN

/-- The commands of block writes: registers may change, and with them the line; nothing else does. -/
def RegistersOnly (s t : State) : Prop :=
  SameBlock s t ∧ t.lastHit = s.lastHit ∧ t.lastType = s.lastType ∧ SameEeprom s t ∧ SameWorld s t ∧ t.freeN = s.freeN ∧
    t.latch = (s.latch || (t.intLine && !s.intLine)) ∧ t.intPrev = t.intLine

/-- What a block write of v leaves in register a of the standard map (R83): the controller ignores it for a configuration
register outside Config mode (R105); OPMOD (CANSTAT 7:5) and TXERR (TXB0CTRL 4) are not the block's (R36), and TXREQ
(TXB0CTRL 3) going from 0 to 1 clears TXERR (R104); RX0IF and RX1IF (CANINTF 1:0) are cleared and never set (R34); every
other bit is v's. -/
def WritesByte (s t : State) (a : Nat) (v : Byte) : Prop :=
  if s.cfg.dev.map.isConfig a = true ∧ s.inMode .config = false then t.reg a = s.reg a
  else if a = 0x0E then t.reg a = (s.reg a).extractLsb' 5 3 ++ v.extractLsb' 0 5
  else if a = 0x30 then
    ∀ i, i < 8 → bitOf (t.reg a) i =
      if i = 4 then bitOf (s.reg a) 4 && !(bitOf v 3 && !bitOf (s.reg a) 3) else bitOf v i
  else if a = 0x2C then
    ∀ i, i < 8 → bitOf (t.reg a) i = if i < 2 then bitOf v i && bitOf (s.reg a) i else bitOf v i
  else t.reg a = v

/-- The status bits have places of their own in the status byte (R34, R70). -/
def StatusBits (p : Params) : Prop := p.dev.wipBit < 8 ∧ p.dev.welBit < 8 ∧ p.dev.wipBit ≠ p.dev.welBit

/-- The address bytes reach the whole array (R69). -/
def AddressFits (p : Params) : Prop := p.eeSize ≤ 256 ^ p.eeAddrBytes

/-- The EEPROM can serve the block: idle, reachable, its status readable, and at least one poll allowed (R10, R98). -/
def EepromReady (s : State) : Prop := s.wip = false ∧ StatusBits s.cfg ∧ AddressFits s.cfg ∧ s.cfg.valid = true

/-- The array of t is that of s with the bytes d at addr (R102). -/
def Stored (s : State) (m : Memory) (addr : Nat) (d : List Byte) : Prop :=
  ∀ x, m.read x = if addr ≤ x ∧ x < addr + d.length then d.getD (x - addr) 0 else s.settled.read x

/-- n bytes of the array from addr on. -/
def State.eeBytes (s : State) (addr n : Nat) : List Byte := (List.range n).map fun j => s.ee.read (addr + j)

/-- Row i of table t as it stands in the array (R128). -/
def State.rowOf (s : State) (t i : Nat) : U32 × U16 := deserRow (s.eeBytes (s.cfg.rowAddr t i) rowBytes)

/-- The value R132 gives for a key in table t: the row of an equal key; below the first row its value; between two rows the
interpolation, rounded toward zero; above every row the last value. -/
def TableAnswer (s : State) (t : Nat) (key : Number) (v : U16) : Prop :=
  let x := keyVal key
  let k := fun i => rowVal (s.rowOf t i).1 key
  let y := fun i => ((s.rowOf t i).2.toNat : Int)
  (∃ j, j < tableRows ∧ (∀ i, i < j → k i < x) ∧ k j = x ∧ v = (s.rowOf t j).2) ∨
    (x < k 0 ∧ v = (s.rowOf t 0).2) ∨
    (∃ j, j + 1 < tableRows ∧ (∀ i, i ≤ j → k i < x) ∧ x < k (j + 1) ∧
      (v.toNat : Int) = y j + Int.tdiv ((y (j + 1) - y j) * (x - k j)) (k (j + 1) - k j)) ∨
    ((∀ i, i < tableRows → k i < x) ∧ v = (s.rowOf t 31).2)

/-- The frame receive buffer b holds (R113), in the standard map. -/
def State.bufferFrame (s : State) (b : Nat) : CanFrame where
  id := unpackId 3 (s.reg (0x61 + 16 * b)) (s.reg (0x62 + 16 * b)) (s.reg (0x63 + 16 * b)) (s.reg (0x64 + 16 * b))
  rtr := bitOf (s.reg (0x65 + 16 * b)) 6
  data := (List.range (min ((s.reg (0x65 + 16 * b)).extractLsb' 0 4).toNat maxDlc)).map fun j => s.reg (0x66 + 16 * b + j)

/-- Slot k drives its actuator for a frame (R139): loaded, its identifier the frame's, its field in the payload. -/
def State.drives (s : State) (fr : CanFrame) (k : Nat) : Bool :=
  match s.mirrorAt k with
  | some f => f.id == fr.id && (pluck f fr).isOk
  | none => false

/-- Slot k fails for a frame (R139, R140). -/
def State.failsOn (s : State) (fr : CanFrame) (k : Nat) : Bool :=
  match s.mirrorAt k with
  | some f => f.id == fr.id && !(pluck f fr).isOk
  | none => false

/-- The actuator calls among the events, oldest first (R142). -/
def actuations (es : List Event) : List (Nat × U16) :=
  es.filterMap fun e => match e with
    | .actuate ch v => some (ch, v)
    | .xfer _ _ _ | .irqDone _ | .tx _ => none

/-- A command that reads by one transaction: its result is what the transaction answers, in any environment; run alone, it
leaves everything else as it was. -/
def ReadsByOneTransaction (i : Instr) (s : State) (dev : Dev) (out inp : List Byte) : Prop :=
  ∃ t, exec i s = .next t ∧ t.lastResult = some ([0x00, 0x00] ++ inp) ∧
    (Alone s → Ready s →
      SameBlock s t ∧ SameLatch s t ∧ SameController s t ∧ SameEeprom s t ∧ SameWorld s t ∧ t.freeN = s.freeN ∧
        t.events = s.events ++ [.xfer dev out inp])

/-- The checks on a frame operand (R66). -/
def frameCheck (f : FrameArg) : Option Err :=
  if f.rtr.toNat > 1 then some .badValue else if f.data.length > 8 then some .badLength else none

/-- The checks that come before an operation does anything: the table of R153, InvalidArgument rows. -/
def portCheck (p : Params) : Instr → Option Err
  | .spRead a | .spWrite a _ | .spBitmod a _ _ => if a.toNat ≥ 0x80 then some .badAddress else none
  | .spReadblk a n =>
    if n = 0 then some .badLength else if a.toNat + n.toNat > 0x80 then some .badAddress else none
  | .spWriteblk a d =>
    if d = [] then some .badLength else if a.toNat + d.length > 0x80 then some .badAddress else none
  | .epRead a n =>
    if n = 0 then some .badLength else if a.toNat + n.toNat > p.eeSize then some .badAddress else none
  | .epWrite a d =>
    if d = [] ∨ d.length > 16 then some .badLength
    else if a.toNat + d.length > p.eeSize ∨ a.toNat / 16 ≠ (a.toNat + d.length - 1) / 16 then some .badAddress else none
  | .eeWrite a d => if a.toNat + d.length > p.eeSize then some .badAddress else none
  | .eeRead a n => if a.toNat + n.toNat > p.eeSize then some .badAddress else none
  | .canSetmode m => if m.toNat > 4 then some .badIndex else none
  | .canSetmask k _ => if k.toNat > 1 then some .badIndex else none
  | .canSetfilter f _ => if f.toNat > 5 then some .badIndex else none
  | .canReceive b => if b.toNat > 1 then some .badIndex else none
  | .canTransmit f | .sigPluck _ f => frameCheck f
  | .sigLoad k | .sigStore k _ | .sigGet k => if k.toNat ≥ p.numSignals then some .badIndex else none
  | .rowWrite t i _ _ | .rowRead t i => if t.toNat ≥ p.numSignals ∨ i.toNat ≥ 32 then some .badIndex else none
  | .tabLookup t tag _ =>
    if tag.toNat > 5 then some .badValue else if t.toNat ≥ p.numSignals then some .badIndex else none
  | .critExit v => if v.toNat > 1 then some .badValue else none
  | .spReset | .epWren | .epRdsr | .canSetbt _ _ _ | .canRxstatus | .critEnter => none
  | .tblRd _ | .tblWr _ | .sigRd _ | .sigWr _ | .sigFrameMid _ _ | .sigFrameHigh _ _ => none

/-- The checks of a control frame in its class rule (R135 to R138): a failing frame is silently ignored (R140). -/
def malformed (p : Params) : Instr → Bool
  | .tblRd fr => fr.dlc ≠ p.rtrDlcTable || (fr.id.val.extractLsb' 5 4).toNat ≥ p.numSignals
  | .tblWr fr => fr.dlc ≠ 6 || (fr.id.val.extractLsb' 5 4).toNat ≥ p.numSignals
  | .sigRd fr => fr.dlc ≠ p.rtrDlcSignal || (fr.id.val.extractLsb' 0 4).toNat ≥ p.numSignals
  | .sigWr fr => fr.dlc ≠ 7 || (fr.id.val.extractLsb' 0 4).toNat ≥ p.numSignals
  | _ => false

/-- The outcome of a step, with what is run from its next state. -/
def continueWith (f : State → Host.Outcome State Fault Refusal) :
    Host.Outcome State Fault Refusal → Host.Outcome State Fault Refusal
  | .next t => f t
  | .fault r => .fault r
  | .refused r => .refused r

/-- k steps of the machine, while each gives a next state. -/
def steps : Nat → State → Host.Outcome State Fault Refusal
  | 0, s => .next s
  | k + 1, s => continueWith (steps k) (step s)

/-- The slots 0..n-1 are loaded (R24). -/
def LoadedTo (s : State) (n : Nat) : Prop := ∀ k, k < n → s.mirrorAt k ≠ none

/-- How many slots a position of the boot sequence has loaded (R172). -/
def bootLoaded (s : State) : Nat :=
  match s.boot with
  | .load k => k
  | .clearLatch | .enableInt | .enterRun => s.cfg.numSignals
  | _ => 0

/-- The invariant of the machine between steps: an accepted instance (R11); the EEPROM list canonical and inside the array;
no chip select asserted (R29); the line sampled (R144); no command in progress (R145); the handler runs, and interrupts are
enabled, only in phase Run (R23, R25, R158); the slots the boot has loaded, and in phase Run all of them, hold a format
(R24, R172). -/
structure Inv (s : State) : Prop where
  instance_ok : s.cfg.valid = true
  memory_wf : s.ee.wf = true
  memory_in : ∀ c ∈ s.ee, c.1 < s.cfg.eeSize
  no_cs : s.csCan = false ∧ s.csEe = false
  sampled : Sampled s
  idle : s.cmdBusy = false ∧ s.cmdIssued = false
  handler_run : s.ctx = .handler → s.phase = .run
  gie_run : s.gie = true → s.phase = .run
  boot_loaded : s.phase = .boot → LoadedTo s (min (bootLoaded s) s.cfg.numSignals)
  run_loaded : s.phase = .run → LoadedTo s s.cfg.numSignals

/-- A final state (R150). -/
def State.final (s : State) : Prop :=
  s.phase = .run ∧ s.ctx = .foreground ∧ s.cmdBusy = false ∧ s.latch = false ∧ s.intLine = false ∧ s.busIn = [] ∧
    s.txreq = false ∧ s.wip = false ∧ s.faults = ⟨false, false, false⟩

/-- A run ends here (R150): the state is final and the presenter presents no further command. -/
def State.ended (s : State) : Prop := s.final ∧ s.script = []

/-- The hang of an endless setMode (R150, R182): the step has no next state. -/
def State.modeHang (s : State) : Prop := step s = .fault .modeWaitHang

/-- The hang of endlessly failing boots (R150, R163): every number of steps has a next state, none of them is in phase Run, and
ResetDelay comes again and again. -/
def State.bootHang (s : State) : Prop :=
  (∀ k, ∃ t, steps k s = .next t ∧ t.phase ≠ .run) ∧
    ∀ k, ∃ j t, k ≤ j ∧ steps j s = .next t ∧ t.phase = .resetDelay

/-- A stuck state (R150, R176): the foreground idles in phase Run and no entry is enabled, yet the line is asserted or the
latch is set. -/
def State.stuck (s : State) : Prop :=
  s.phase = .run ∧ s.ctx = .foreground ∧ s.cmdBusy = false ∧ entryEnabled s = false ∧
    (s.intLine = true ∨ s.latch = true)

/-- A launch state (R152): the block state of R44; the parameters, the EEPROM, the controller and the environment are any. -/
def State.launch (s : State) : Prop :=
  s.cfg.valid = true ∧ s.phase = .boot ∧ s.boot = .reset ∧ s.mirror = Vector.replicate 16 none ∧ s.gie = false ∧
    s.latch = false ∧ s.intPrev = false ∧ s.ctx = .foreground ∧ s.csCan = false ∧ s.csEe = false ∧
    s.modeShadow = none ∧ s.hErr = false ∧ s.faults = ⟨false, false, false⟩ ∧ s.lastResult = none ∧
    s.cmdBusy = false ∧ s.cmdIssued = false

/-- The bits of an identifier mask that a standard identifier is compared under (R106, R107): the first two mask registers. -/
def maskStd : CanId → BitVec 11
  | .std m => m
  | .ext m => m.extractLsb' 18 11

/-- The bits of an identifier mask that an extended identifier is compared under (R106, R107): all four mask registers. -/
def maskExt : CanId → BitVec 29
  | .std m => m ++ 0#18
  | .ext m => m

/-- Does a filter of identifier a under mask m take an identifier (R107): the same kind, equal in the bits of the mask. -/
def filterTakes (m a id : CanId) : Bool :=
  match a, id with
  | .std x, .std v => (v ^^^ x) &&& maskStd m == 0
  | .ext x, .ext v => (v ^^^ x) &&& maskExt m == 0
  | _, _ => false

/-- The configuration registers the boot programs (R172), seen by acceptance (R107): under the standard device parameters. -/
def Programmed (s : State) : Prop :=
  s.cfg.dev = .standard ∧
    (∀ j, j < 4 → s.reg (0x20 + j) = (packId 3 s.cfg.ctrlMask).getD j 0) ∧
    (∀ j, j < 4 → s.reg (0x24 + j) = 0) ∧
    (∀ j, j < 4 → s.reg (0x00 + j) = (packId 3 s.cfg.tableCtrlId).getD j 0) ∧
    (∀ j, j < 4 → s.reg (0x04 + j) = (packId 3 s.cfg.sigCtrlId).getD j 0) ∧
    (∀ j, j < 4 → s.reg (0x08 + j) = 0 ∧ s.reg (0x10 + j) = 0) ∧
    (∀ j, j < 4 → s.reg (0x14 + j) = (packId 3 (.ext 0)).getD j 0 ∧ s.reg (0x18 + j) = (packId 3 (.ext 0)).getD j 0)

end Sys2Proof.Machine
end

