-- ==== Sys2Proof/Certificates/Slice0/Obligations.lean ====
section
/-! DEFINITION. The statements for the provers, from the numbered rules of spec/. Each holds for every instance of the
parameters that its hypotheses admit; `dev = .standard` asks for the default register map and bit positions of R35, R36, R68
and R70 (log 3). `Still`, `Prompt` and the explicit `sched` say what the other agents do in the gaps; a statement without one
of them holds for every environment. -/

open Sys2Proof Sys2Proof.Machine

/-! ## Encoding -/

/-- Decoding undoes encoding, for every well-formed instruction of both decoders: every operand at every value its bytes admit
(R61 to R66, R72, R75). The bytes of a class instruction after its class word are the model's choice (log 11). -/
def Obligations.DecodeEncode : Prop :=
  ∀ i : Instr, i.wellFormed = true → decode i.source (encode i) = .ok i

/-- Words written out from the tables of R61, R65, R66 and R72 decode to the instructions they stand for (the bytes after a
class word: the model's choice, log 11). -/
def Obligations.DecodesSpecWords : Prop :=
  decode .port [0x04, 0x2C, 0x01, 0x00] = .ok (.spBitmod 0x2C 0x01 0x00) ∧
    decode .port [0x0B, 0x00, 0x00, 0x00, 0x10, 0x02, 0xAA, 0x55] = .ok (.epWrite 0x10 [0xAA, 0x55]) ∧
    decode .port [0x23, 0x04, 0x80, 0x00, 0x00, 0x00] = .ok (.canSetfilter 4 (.ext 0)) ∧
    decode .port [0x32, 0x02, 0x98, 0xFE, 0xF1, 0x00, 0x08, 0x10, 0x01] =
      .ok (.sigStore 2 ⟨.ext 0x18FEF100, 0x08, 0x10, 0x01⟩) ∧
    decode .port [0x40, 0x00, 0x02, 0x00, 0x00, 0x00, 0xC8, 0x0B, 0xB8] = .ok (.rowWrite 0 2 0xC8 0x0BB8) ∧
    decode .port [0x51, 0x01] = .ok (.critExit 1) ∧
    decode .frame [0x08, 0x00, 0x00, 0x02, 0x45] = .ok (.tblRd ⟨.std 0x245, true, []⟩) ∧
    decode .frame [0x14, 0x80, 0x00, 0x00, 0x05, 0x32] = .ok (.sigFrameHigh 0 ⟨.ext 5, false, [0x32]⟩)

/-- R64: an op byte that is not listed is UnknownOp whatever follows it, and a step that meets one writes the result only. -/
def Obligations.UnlistedOpIsRejected : Prop :=
  ∀ (op : Byte) (bs : List Byte) (s : State) (rest : List (List Byte)),
    (op = 0x00 ∨ op = 0x07 ∨ (0x0C ≤ op ∧ op ≤ 0x0F) ∨ (0x12 ≤ op ∧ op ≤ 0x1F) ∨ (0x27 ≤ op ∧ op ≤ 0x2F) ∨
      (0x34 ≤ op ∧ op ≤ 0x3F) ∨ (0x43 ≤ op ∧ op ≤ 0x4F) ∨ 0x52 ≤ op) →
    decode .port (op :: bs) = .error .unknownOp ∧
      (s.cfg.valid = true → s.phase = .run → s.ctx = .foreground → entryEnabled s = false →
        s.script = (op :: bs) :: rest → Sampled s → Still s →
        ∃ t, step s = .next t ∧ t.lastResult = some [0x05, 0x01] ∧ OnlyResult { s with script := rest } t)

/-- R63: a command longer than its length, or a proper beginning of one, is BadCommandLength; a step that meets a command of
a wrong length writes the result only. -/
def Obligations.WrongLengthIsRejected : Prop :=
  (∀ (i : Instr) (bs : List Byte), i.wellFormed = true → i.source = .port → bs ≠ [] →
    decode .port (encode i ++ bs) = .error .badCommandLength) ∧
  (∀ (i : Instr) (n : Nat), i.wellFormed = true → i.source = .port → 0 < n → n < (encode i).length →
    decode .port ((encode i).take n) = .error .badCommandLength) ∧
  (∀ (cmd : List Byte) (s : State) (rest : List (List Byte)), decode .port cmd = .error .badCommandLength →
    s.cfg.valid = true → s.phase = .run → s.ctx = .foreground → entryEnabled s = false → s.script = cmd :: rest →
    Sampled s → Still s →
    ∃ t, step s = .next t ∧ t.lastResult = some [0x05, 0x02] ∧ OnlyResult { s with script := rest } t)

/-- R72, R134: the class of a received frame is the row of the class table that its class word matches. -/
def Obligations.ClassFollowsClassWord : Prop :=
  ∀ (h : BitVec 3) (fr : CanFrame), fr.ok = true →
    (classify h fr.rtr = .tblRd ↔ classWord h fr &&& 0x0F = 0x08) ∧
      (classify h fr.rtr = .tblWr ↔ classWord h fr &&& 0x0F = 0x00) ∧
      (classify h fr.rtr = .sigRd ↔ classWord h fr &&& 0x0F = 0x09) ∧
      (classify h fr.rtr = .sigWr ↔ classWord h fr &&& 0x0F = 0x01) ∧
      (classify h fr.rtr = .sigFrame ↔ classWord h fr &&& 0x06 = 0x02 ∨ classWord h fr &&& 0x04 = 0x04) ∧
      (classWord h fr).toNat = 16 * fr.dlc + 8 * fr.rtr.toNat + h.toNat

/-! ## The bit-field extractor and the records -/

/-- R119: bit by bit, where extract takes the bits of the payload from. Little-endian keeps the order of the payload bits;
big-endian concatenates the byte fields with the first byte in the high bits. -/
def Obligations.ExtractTakesTheFieldBits : Prop :=
  ∀ (data : List Byte) (start size : Nat), 1 ≤ size → start + size ≤ 8 * data.length →
    extract data start size false < 2 ^ size ∧ extract data start size true < 2 ^ size ∧
      ∀ k, start ≤ k → k < start + size →
        (extract data start size false).testBit (k - start) = bitOf (data.getD (k / 8) 0) (k % 8) ∧
          (extract data start size true).testBit
              ((k - max start (8 * (k / 8))) + (start + size - min (start + size) (8 * (k / 8) + 8))) =
            bitOf (data.getD (k / 8) 0) (k % 8)

/-- R122: extract undoes insert, in both byte orders, and insert leaves every bit outside the field alone. -/
def Obligations.ExtractUndoesInsert : Prop :=
  ∀ (data : List Byte) (start size raw : Nat) (be : Bool), 1 ≤ size → start + size ≤ 8 * data.length →
    extract (insert data start size be raw) start size be = raw % 2 ^ size ∧
      (insert data start size be raw).length = data.length ∧
      ∀ k, k < start ∨ start + size ≤ k →
        bitOf ((insert data start size be raw).getD (k / 8) 0) (k % 8) = bitOf (data.getD (k / 8) 0) (k % 8)

/-- R120: the container is the smallest that fits the size, the tag depends on size and signedness only, and the value is the
raw field, sign-extended from bit size-1 when signed. -/
def Obligations.NarrowKeepsTheValue : Prop :=
  ∀ (raw size : Nat) (sg : Bool), 1 ≤ size → size ≤ 32 → raw < 2 ^ size →
    keyVal (narrow raw size sg) = (if sg = true ∧ 2 ^ (size - 1) ≤ raw then (raw : Int) - 2 ^ size else (raw : Int)) ∧
      (encodeNumber (narrow raw size sg)).head? =
        some (if size ≤ 8 then (if sg then 0x03 else 0x00)
          else if size ≤ 16 then (if sg then 0x04 else 0x01) else if sg then 0x05 else 0x02)

/-- SIG_PLUCK (R121, R66): the operand checks, then Order, Size and Span in that order, then the extracted and narrowed
number; nothing but the result changes, with any environment. That an rtr out of range is reported before a dlc out of range is
the model's reading (log 15). -/
def Obligations.SigPluck : Prop :=
  ∀ (s : State) (fmt : SigFmt) (frm : FrameArg), Sampled s →
    ∃ t, exec (.sigPluck fmt frm) s = .next t ∧ OnlyResult s t ∧
      t.lastResult =
        (if frm.rtr.toNat > 1 then some [0x01, 0x04]
        else if frm.data.length > 8 then some [0x01, 0x02]
        else if fmt.flags.toNat ≥ 4 then some [0x04, 0x03]
        else if fmt.size = 0 ∨ fmt.size.toNat > 32 then some [0x04, 0x02]
        else if fmt.start.toNat + fmt.size.toNat > 8 * frm.data.length then some [0x04, 0x01]
        else some ([0x00, 0x00] ++ encodeNumber (narrow
          (extract frm.data fmt.start.toNat fmt.size.toNat (bitOf fmt.flags 0)) fmt.size.toNat (bitOf fmt.flags 1))))

/-- The records and words the block writes read back as what they were written from: the Signal-Control payload (R123), the
EEPROM record in both byte orders (R124), the table row (R128) both ways, the Number (R67), the identifier word (R117) and the
four identifier registers (R106). -/
def Obligations.RecordsReadBack : Prop :=
  (∀ f, deserWire (serWire f) = f ∧ (serWire f).length = 7) ∧
    (∀ o f, deserRec o (serRec o f) = f ∧ (serRec o f).length = 8 ∧ (serRec o f).getD 7 1 = 0) ∧
    (∀ k v, deserRow (serRow k v) = (k, v)) ∧
    (∀ b : List Byte, b.length = 6 → serRow (deserRow b).1 (deserRow b).2 = b) ∧
    (∀ n, ∃ tag b0 b1 b2 b3, encodeNumber n = [tag, b0, b1, b2, b3] ∧ numberOperand tag (be32 b0 b1 b2 b3) = .ok n) ∧
    (∀ id, unpackIdWord (packIdWord id) = id) ∧
    (∀ w : U32, packIdWord (unpackIdWord w) = w ↔
      (if w.getLsbD 31 then w.extractLsb' 29 2 = 0 else w.extractLsb' 11 20 = 0)) ∧
    (∀ id, ∃ h l e8 e0, packId 3 id = [h, l, e8, e0] ∧ unpackId 3 h l e8 e0 = id)

/-! ## The serial register protocol -/

/-- SP_RESET (R84, R37): Config in REQOP and OPMOD, the interrupt and transmit-control registers 0, the line deasserted, the
mode forgotten; the EEPROM, the bus and the rest of the block as before. lastHit and lastType are kept, for they change only
when a frame is stored (R108). -/
def Obligations.SpReset : Prop :=
  ∀ s : State, s.cfg.dev = .standard → Alone s → Ready s →
    ∃ t, exec .spReset s = .next t ∧ t.lastResult = some [0x00, 0x00] ∧ t.modeShadow = none ∧
      t.inMode .config = true ∧ t.reqop = 0b100 ∧ t.reg 0x2B = 0 ∧ t.reg 0x2C = 0 ∧ t.reg 0x30 = 0 ∧
      t.txreq = false ∧ t.txerr = false ∧ t.intLine = false ∧ t.latch = s.latch ∧ SameBlock { s with modeShadow := none } t ∧ t.lastHit = s.lastHit ∧
      t.lastType = s.lastType ∧ SameEeprom s t ∧ SameWorld s t ∧ t.events = s.events ++ [.xfer .can [0xC0] []]

/-- SP_READ, SP_READBLK, CAN_RXSTATUS, EP_RDSR and EP_READ (R85, R88, R115, R92, R93). -/
def Obligations.PortReads : Prop :=
  ∀ (s : State) (a n : Byte) (addr : U32),
    (a.toNat < 0x80 → ReadsByOneTransaction (.spRead a) s .can [s.cfg.dev.opRead, a] [s.reg a.toNat]) ∧
      (n ≠ 0 → a.toNat + n.toNat ≤ 0x80 →
        ReadsByOneTransaction (.spReadblk a n) s .can [s.cfg.dev.opRead, a]
          ((List.range n.toNat).map fun j => s.reg (a.toNat + j))) ∧
      (∃ b : Byte, b.toNat = 128 * (s.rxFlag 1).toNat + 64 * (s.rxFlag 0).toNat + 8 * s.lastType.toNat + s.lastHit.toNat ∧
        ReadsByOneTransaction .canRxstatus s .can [s.cfg.dev.opRxStatus] [b]) ∧
      (StatusBits s.cfg →
        ∃ b : Byte, b.toNat = 2 ^ s.cfg.dev.wipBit * s.wip.toNat + 2 ^ s.cfg.dev.welBit * s.wel.toNat ∧
          ReadsByOneTransaction .epRdsr s .ee [s.cfg.dev.eopRdsr] [b]) ∧
      (s.wip = false → AddressFits s.cfg → n ≠ 0 → addr.toNat + n.toNat ≤ s.cfg.eeSize →
        ReadsByOneTransaction (.epRead addr n) s .ee (s.cfg.dev.eopRead :: addrBytes s.cfg addr.toNat)
          (s.eeBytes addr.toNat n.toNat))

/-- SP_WRITE and SP_BITMOD (R86, R87, R58, R83): the one register, as the controller takes the write; no other register. Which
bits the controller keeps for itself (OPMOD and TXERR; RX0IF and RX1IF, which a write can only clear), and that every other bit of
every register takes the written value, the receive buffers' too, is the model's reading (log 18). -/
def Obligations.SpWriteAndBitmod : Prop :=
  ∀ (s : State) (a m d : Byte), s.cfg.dev = .standard → Alone s → Ready s → a.toNat < 0x80 →
    (∃ t, exec (.spWrite a d) s = .next t ∧ t.lastResult = some [0x00, 0x00] ∧ WritesByte s t a.toNat d ∧
      (∀ r, r ≠ a.toNat → t.reg r = s.reg r) ∧ RegistersOnly s t ∧
      t.events = s.events ++ [.xfer .can [0x02, a, d] []]) ∧
    (∃ t, exec (.spBitmod a m d) s = .next t ∧ t.lastResult = some [0x00, 0x00] ∧
      WritesByte s t a.toNat ((s.reg a.toNat &&& ~~~m) ||| (d &&& m)) ∧
      (∀ r, r ≠ a.toNat → t.reg r = s.reg r) ∧ RegistersOnly s t ∧
      t.events = s.events ++ [.xfer .can [0x05, a, m, d] []])

/-- SP_WRITEBLK (R89, R83): byte j in register a+j, in one transaction; no other register. Which bits the controller keeps for
itself (OPMOD and TXERR; RX0IF and RX1IF, which a write can only clear), and that every other bit of every register takes the
written value, the receive buffers' too, is the model's reading (log 18). -/
def Obligations.SpWriteblk : Prop :=
  ∀ (s : State) (a : Byte) (d : List Byte), s.cfg.dev = .standard → Alone s → Ready s → d ≠ [] →
    a.toNat + d.length ≤ 0x80 →
    ∃ t, exec (.spWriteblk a d) s = .next t ∧ t.lastResult = some [0x00, 0x00] ∧
      (∀ j, j < d.length → WritesByte s t (a.toNat + j) (d.getD j 0)) ∧
      (∀ r, r < a.toNat ∨ a.toNat + d.length ≤ r → t.reg r = s.reg r) ∧ RegistersOnly s t ∧
      t.events = s.events ++ [.xfer .can ([0x02, a] ++ d) []]

/-- R153: every operand an operation checks before it starts, for all commands: the error, no transaction, and nothing changed
but the result, in any environment. The order of the two checks of a frame operand is the model's reading (log 15). -/
def Obligations.PortChecks : Prop :=
  ∀ (s : State) (i : Instr) (e : Err), Sampled s → portCheck s.cfg i = some e →
    ∃ t, exec i s = .next t ∧ t.lastResult = some e.code ∧ OnlyResult s t

/-- EP_WREN (R91, R95): with no write cycle running, the latch is set, but for a write-protected device (R99; the state bit that
says so is the model's choice, log 21). -/
def Obligations.EpWren : Prop :=
  ∀ s : State, Alone s → Ready s → s.wip = false →
    ∃ t, exec .epWren s = .next t ∧ t.lastResult = some [0x00, 0x00] ∧ t.wel = !s.eeProtect ∧
      SameEeprom { s with wel := !s.eeProtect } t ∧ SameBlock s t ∧ SameLatch s t ∧ SameController s t ∧ SameWorld s t ∧
      t.freeN = s.freeN ∧ t.events = s.events ++ [.xfer .ee [s.cfg.dev.eopWren] []]

/-- EP_WRITE (R94, R95): with WEL = 1 a write cycle starts, and when it ends the array holds the burst and is otherwise as it
was; with WEL = 0 the device ignores the burst. -/
def Obligations.EpWrite : Prop :=
  ∀ (s : State) (addr : U32) (d : List Byte), Alone s → Ready s → s.wip = false → s.ee.wf = true → AddressFits s.cfg →
    portCheck s.cfg (.epWrite addr d) = none →
    ∃ t, exec (.epWrite addr d) s = .next t ∧ t.lastResult = some [0x00, 0x00] ∧ SameBlock s t ∧ SameLatch s t ∧
      SameController s t ∧ SameWorld s t ∧ t.freeN = s.freeN ∧ t.ee = s.ee ∧ t.wel = s.wel ∧ t.wip = s.wel ∧
      (s.wel = true → Stored s t.settled addr.toNat d) ∧ (s.wel = false → SameEeprom s t) ∧
      t.events = s.events ++ [.xfer .ee (s.cfg.dev.eopWrite :: addrBytes s.cfg addr.toNat ++ d) []]

/-- R95, R180: a raw EEPROM command other than RDSR while WIP = 1 records ProtocolViolation. That the command then ends with Ok, a
read with free values, and leaves the EEPROM alone is the model's choice (log 12): the spec gives the run no meaning. -/
def Obligations.ProtocolViolation : Prop :=
  ∀ (s : State) (i : Instr), Alone s → Ready s → s.wip = true →
    (i = .epWren ∨ (∃ a n, i = .epRead a n) ∨ ∃ a d, i = .epWrite a d) → portCheck s.cfg i = none →
    ∃ t, exec i s = .next t ∧ t.faults = { s.faults with protocolViolation := true } ∧
      (∃ b, t.lastResult = some ([0x00, 0x00] ++ b)) ∧ SameBlock { s with faults := t.faults } t ∧ SameEeprom s t ∧
      SameController s t ∧ SameLatch s t ∧ SameWorld s t

/-! ## The EEPROM storage discipline -/

/-- R97: the properties of the address generator, and that its chunks follow one another from addr on. -/
def Obligations.ChunksSplitAtPages : Prop :=
  ∀ addr n : Nat,
    (∀ c ∈ chunks addr n, 0 < c.2 ∧ c.1 / 16 = (c.1 + c.2 - 1) / 16) ∧
      ((chunks addr n).map (·.2)).sum = n ∧
      (0 < n → (chunks addr n).head?.map (·.1) = some addr) ∧
      (∀ k c d, (chunks addr n)[k]? = some c → (chunks addr n)[k + 1]? = some d →
        c.1 + c.2 = d.1 ∧ d.1 % 16 = 0) ∧
      (chunks addr n).length = if n = 0 then 0 else (addr % 16 + n + 15) / 16

/-- R98: while a write cycle runs on, every storage command polls exactly EE_BAILOUT times, answers StorageTimeout/Busy and
changes nothing else. -/
def Obligations.BusyBailout : Prop :=
  ∀ (s : State) (i : Instr), Alone s → Ready s → s.wip = true → StatusBits s.cfg → s.cfg.valid = true →
    ((∃ a d, i = .eeWrite a d ∧ d ≠ []) ∨ (∃ a n, i = .eeRead a n ∧ n ≠ 0) ∨ (∃ k, i = .sigLoad k) ∨
      (∃ k f, i = .sigStore k f) ∨ (∃ t r k v, i = .rowWrite t r k v) ∨ (∃ t r, i = .rowRead t r) ∨
      ∃ t g w, i = .tabLookup t g w) →
    portCheck s.cfg i = none →
    ∃ t, exec i s = .next t ∧ t.lastResult = some [0x02, 0x01] ∧ SameBlock s t ∧ SameLatch s t ∧ SameController s t ∧
      SameEeprom s t ∧ SameWorld s t ∧ t.freeN = s.freeN ∧
      t.events = s.events ++ List.replicate s.cfg.eeBailout (.xfer .ee [s.cfg.dev.eopRdsr] [s.eeStatus])

/-- R99: a device held write-protected makes every write fail with WelNotSet and nothing is written (the state bit that holds it so is
the model's choice, log 21). -/
def Obligations.WelNotSet : Prop :=
  ∀ (s : State) (i : Instr), Alone s → Ready s → s.wip = false → s.eeProtect = true → StatusBits s.cfg →
    s.cfg.valid = true →
    ((∃ a d, i = .eeWrite a d ∧ d ≠ []) ∨ (∃ k f, i = .sigStore k f) ∨ ∃ t r k v, i = .rowWrite t r k v) →
    portCheck s.cfg i = none →
    ∃ t, exec i s = .next t ∧ t.lastResult = some [0x02, 0x02] ∧ SameBlock s t ∧ SameLatch s t ∧ SameController s t ∧
      SameEeprom { s with wel := false } t ∧ SameWorld s t ∧ t.freeN = s.freeN

/-- EE_READ (R101): inside a critical section and with no write cycle running, the n bytes from addr on; with a still environment
nothing else changes, and the transactions are one status read and one burst. -/
def Obligations.EeRead : Prop :=
  ∀ (s : State) (addr : U32) (n : Byte), s.gie = false → Ready s → EepromReady s →
    addr.toNat + n.toNat ≤ s.cfg.eeSize →
    ∃ t, exec (.eeRead addr n) s = .next t ∧ t.lastResult = some ([0x00, 0x00] ++ s.eeBytes addr.toNat n.toNat) ∧
      SameBlock s t ∧ SameEeprom s t ∧
      (Still s → SameLatch s t ∧ SameController s t ∧ SameWorld s t ∧ t.freeN = s.freeN ∧
        t.events = s.events ++ (if n = 0 then [] else
          [.xfer .ee [s.cfg.dev.eopRdsr] [s.eeStatus],
            .xfer .ee (s.cfg.dev.eopRead :: addrBytes s.cfg addr.toNat) (s.eeBytes addr.toNat n.toNat)]))

/-- R102: whatever the write cycles do in the gaps, an EE_WRITE that answers Ok has stored exactly d at addr once its cycles
have ended. -/
def Obligations.PagingTransparency : Prop :=
  ∀ (s t : State) (addr : U32) (d : List Byte), s.gie = false → s.ee.wf = true → StatusBits s.cfg → AddressFits s.cfg →
    exec (.eeWrite addr d) s = .next t → t.lastResult = some [0x00, 0x00] → Stored s t.settled addr.toNat d

/-- EE_WRITE (R100): inside a critical section, with write cycles that end promptly, the write answers Ok and the array holds
it. -/
def Obligations.EeWrite : Prop :=
  ∀ (s : State) (addr : U32) (d : List Byte), s.gie = false → Ready s → EepromReady s → s.ee.wf = true →
    s.eeProtect = false → addr.toNat + d.length ≤ s.cfg.eeSize → Prompt (4 * (chunks addr.toNat d.length).length) s →
    ∃ t, exec (.eeWrite addr d) s = .next t ∧ t.lastResult = some [0x00, 0x00] ∧ Stored s t.ee addr.toNat d ∧
      t.wip = false ∧ SameBlock s t ∧ SameLatch s t ∧ SameController s t ∧ t.out = s.out ∧ t.busIn = s.busIn ∧
      t.busOut = s.busOut ∧ t.freeN = s.freeN

/-! ## The controller operations -/

/-- CAN_SETMODE (R109, R116, R182): with a fair environment, or with the mode already reported, it ends in the mode asked for
and remembers it; if no environment step will change the mode, the wait never ends, which the model says by a fault (log 13). -/
def Obligations.CanSetmode : Prop :=
  ∀ (s : State) (m : Byte) (md : Mode), s.cfg.dev = .standard → s.gie = false → Ready s →
    [Mode.config, .normal, .sleep, .listenOnly, .loopback][m.toNat]? = some md →
    ((s.sched = [] ∧ s.modeFair = true ∨ Still s ∧ s.inMode md = true) →
      ∃ t, exec (.canSetmode m) s = .next t ∧ t.lastResult = some [0x00, 0x00] ∧ t.modeShadow = some md ∧
        t.inMode md = true ∧ t.reqop = modeCode s.cfg.dev md ∧ (∀ a, a ≠ 0x0E → a ≠ 0x0F → t.reg a = s.reg a) ∧
        SameBlock { s with modeShadow := some md } t ∧ SameLatch s t ∧ t.lastHit = s.lastHit ∧
        t.lastType = s.lastType ∧ SameEeprom s t ∧ SameWorld s t ∧ t.freeN = s.freeN) ∧
    (Still s → s.inMode md = false → exec (.canSetmode m) s = .fault .modeWaitHang)

/-- CAN_SETBT (R110, R105): the three registers in Config mode; none outside it, and no error either. -/
def Obligations.CanSetbt : Prop :=
  ∀ (s : State) (c1 c2 c3 : Byte), s.cfg.dev = .standard → Alone s → Ready s →
    ∃ t, exec (.canSetbt c1 c2 c3) s = .next t ∧ t.lastResult = some [0x00, 0x00] ∧
      (∀ a, t.reg a =
        if s.inMode .config = true then
          (if a = 0x2A then c1 else if a = 0x29 then c2 else if a = 0x28 then c3 else s.reg a)
        else s.reg a) ∧
      RegistersOnly s t ∧
      t.events = s.events ++ [.xfer .can [0x02, 0x2A, c1] [], .xfer .can [0x02, 0x29, c2] [],
        .xfer .can [0x02, 0x28, c3] []]

/-- CAN_SETMASK and CAN_SETFILTER (R111, R112, R105): the four registers of the mask or filter in Config mode; none outside
it, and no error either. -/
def Obligations.CanSetmaskAndSetfilter : Prop :=
  ∀ (s : State) (i : Instr) (base : Nat) (id : CanId), s.cfg.dev = .standard → Alone s → Ready s →
    ((∃ k : Byte, i = .canSetmask k id ∧ [0x20, 0x24][k.toNat]? = some base) ∨
      ∃ k : Byte, i = .canSetfilter k id ∧ [0x00, 0x04, 0x08, 0x10, 0x14, 0x18][k.toNat]? = some base) →
    ∃ t, exec i s = .next t ∧ t.lastResult = some [0x00, 0x00] ∧
      (∀ a, t.reg a =
        if s.inMode .config = true ∧ base ≤ a ∧ a < base + 4 then (packId 3 id).getD (a - base) 0 else s.reg a) ∧
      RegistersOnly s t ∧ t.events = s.events ++ [.xfer .can ([0x02, BitVec.ofNat 8 base] ++ packId 3 id) []]

/-- CAN_RECEIVE (R113): the frame the buffer holds. A full buffer is stable inside a critical section, whatever the other
agents do between the two transactions. -/
def Obligations.CanReceive : Prop :=
  ∀ (s : State) (b : Byte), s.cfg.dev = .standard → s.gie = false → b.toNat ≤ 1 →
    (s.rxFlag b.toNat = true ∨ Still s) →
    ∃ t, exec (.canReceive b) s = .next t ∧
      t.lastResult = some ([0x00, 0x00] ++ encodeFrame (s.bufferFrame b.toNat)) ∧
      (Still s → Ready s → SameBlock s t ∧ SameLatch s t ∧ SameController s t ∧ SameEeprom s t ∧ SameWorld s t ∧
        t.freeN = s.freeN)

/-- R107, R108, R113: a data frame that the controller accepts into an empty buffer is the frame CAN_RECEIVE answers; for a
full buffer the frame is lost without a trace. -/
def Obligations.AcceptedFrameIsReceived : Prop :=
  ∀ (s : State) (f : BusFrame) (fs : List BusFrame) (h : Nat) (b : Byte), s.cfg.dev = .standard → s.gie = false →
    s.busIn = f :: fs → (s.inMode .normal = true ∨ s.inMode .listenOnly = true) → s.acceptHit f.id = some h →
    f.rtr = false → f.data.length = min f.dlcField.toNat 8 → b.toNat = bufferOf h →
    (s.rxFlag b.toNat = false →
      (envMove s .receive).rxFlag b.toNat = true ∧ (envMove s .receive).lastHit = BitVec.ofNat 3 h ∧
        (envMove s .receive).busIn = fs ∧
        ∃ t, exec (.canReceive b) (envMove s .receive) = .next t ∧
          t.lastResult = some ([0x00, 0x00] ++ encodeFrame ⟨f.id, false, f.data⟩)) ∧
    (s.rxFlag b.toNat = true → SameController s (envMove s .receive) ∧ (envMove s .receive).busIn = fs)

/-- R107 under the boot programming of R172, for a mask and control identifiers of either kind: which filter takes which
identifier; every frame is accepted. -/
def Obligations.BootFiltersClassify : Prop :=
  ∀ (s : State) (id : CanId), Programmed s →
    s.acceptHit id = some
      (if filterTakes s.cfg.ctrlMask s.cfg.tableCtrlId id = true then 0
      else if filterTakes s.cfg.ctrlMask s.cfg.sigCtrlId id = true then 1
      else if id.isExt = true then 4 else 2)

/-- CAN_TRANSMIT (R114, R104, R181), under three schedules: TxOk before the first poll, and the frame goes out and TXREQ is 0; TxErr
before the first poll, and the request is cancelled; no move at all, and the polls run out and the request stays. The transmit
buffer holds the frame in each case; nothing else in the controller changes. That a remote frame goes out with its DLC field and
no data is the model's reading (log 19). -/
def Obligations.CanTransmit : Prop :=
  ∀ (s : State) (frm : FrameArg), s.cfg.dev = .standard → s.gie = false → Ready s → frameCheck frm = none →
    s.txreq = false → s.modeFair = false → 1 ≤ s.cfg.txRetries →
    (s.sched = [] ∨ s.inMode .normal = true ∧ (s.sched = [[], [.txOk]] ∨ s.sched = [[], [.txErr]])) →
    ∃ t, exec (.canTransmit frm) s = .next t ∧ SameBlock s t ∧ SameLatch s t ∧ SameEeprom s t ∧ t.out = s.out ∧
      t.busIn = s.busIn ∧ t.script = s.script ∧ t.freeN = s.freeN ∧ t.lastHit = s.lastHit ∧ t.lastType = s.lastType ∧
      (∀ a, a < 0x30 ∨ 0x3E ≤ a → t.reg a = s.reg a) ∧
      (∀ j, j < 4 → t.reg (0x31 + j) = (packId 3 frm.id).getD j 0) ∧
      (t.reg 0x35).toNat = 64 * frm.rtr.toNat + frm.data.length ∧
      (∀ j, j < frm.data.length → t.reg (0x36 + j) = frm.data.getD j 0) ∧
      (s.sched = [[], [.txOk]] → t.lastResult = some [0x00, 0x00] ∧ t.txreq = false ∧
        t.busOut = s.busOut ++ [⟨frm.id, frm.rtr = 1, BitVec.ofNat 4 frm.data.length,
          if frm.rtr = 1 then [] else frm.data⟩]) ∧
      (s.sched = [[], [.txErr]] → t.lastResult = some [0x03, 0x01] ∧ t.txreq = false ∧ t.txerr = true ∧
        t.busOut = s.busOut) ∧
      (s.sched = [] → t.lastResult = some [0x03, 0x02] ∧ t.txreq = true ∧ t.busOut = s.busOut ∧
        t.events.length = s.events.length + 2 + s.cfg.txRetries)

/-! ## Signal slots and tables -/

/-- SIG_LOAD (R125): the slot's record as it stands in the array; the other slots as before. -/
def Obligations.SigLoad : Prop :=
  ∀ (s : State) (k : Byte), s.gie = false → Ready s → EepromReady s → k.toNat < s.cfg.numSignals →
    ∃ t, exec (.sigLoad k) s = .next t ∧ t.lastResult = some [0x00, 0x00] ∧
      t.mirrorAt k.toNat = some (deserRec s.cfg.idRecOrder (s.eeBytes (s.cfg.sigAddr k.toNat) 8)) ∧
      (∀ j, j ≠ k.toNat → t.mirrorAt j = s.mirrorAt j) ∧ SameBlock { s with mirror := t.mirror } t ∧ SameEeprom s t ∧
      (Still s → SameLatch s t ∧ SameController s t ∧ SameWorld s t ∧ t.freeN = s.freeN)

/-- SIG_STORE (R126, R155): the mirror changes exactly when the record was written; with write cycles that end promptly the
store succeeds. -/
def Obligations.SigStore : Prop :=
  ∀ (s : State) (k : Byte) (f : SigFmt), s.gie = false → Ready s → StatusBits s.cfg → AddressFits s.cfg →
    s.cfg.valid = true → s.ee.wf = true → k.toNat < s.cfg.numSignals →
    ∃ t, exec (.sigStore k f) s = .next t ∧ SameBlock { s with mirror := t.mirror } t ∧
      (∀ j, j ≠ k.toNat → t.mirrorAt j = s.mirrorAt j) ∧
      (t.lastResult = some [0x00, 0x00] → t.mirrorAt k.toNat = some f ∧
        Stored s t.settled (s.cfg.sigAddr k.toNat) (serRec s.cfg.idRecOrder f)) ∧
      (t.lastResult ≠ some [0x00, 0x00] → t.mirror = s.mirror) ∧
      (s.wip = false → s.eeProtect = false → Prompt 9 s → t.lastResult = some [0x00, 0x00] ∧ t.wip = false ∧
        SameLatch s t ∧ SameController s t ∧ t.out = s.out ∧ t.busIn = s.busIn ∧ t.busOut = s.busOut)

/-- SIG_GET (R127, R56): inside a critical section the slot's format, whole, in any environment and without a transaction; of
an Invalid slot the fault UnloadedMirror; that the run goes on with free values is the model's choice (log 12). -/
def Obligations.SigGet : Prop :=
  ∀ (s : State) (k : Byte), s.gie = false → k.toNat < s.cfg.numSignals →
    (∀ f, s.mirrorAt k.toNat = some f →
      ∃ t, exec (.sigGet k) s = .next t ∧ t.lastResult = some ([0x00, 0x00] ++ serWire f) ∧ SameBlock s t ∧
        (Still s → Sampled s → OnlyResult s t)) ∧
    (s.mirrorAt k.toNat = none →
      ∃ t r, exec (.sigGet k) s = .next t ∧ t.lastResult = some ([0x00, 0x00] ++ r) ∧ r.length = 7 ∧
        t.faults = { s.faults with unloadedMirror := true } ∧ SameBlock { s with faults := t.faults } t)

/-- ROW_WRITE (R129, R128): the six bytes of the row, and nothing else in the array. -/
def Obligations.RowWrite : Prop :=
  ∀ (s : State) (t i : Byte) (key : U32) (value : U16), s.gie = false → Ready s → EepromReady s → s.ee.wf = true →
    s.eeProtect = false → t.toNat < s.cfg.numSignals → i.toNat < 32 → Prompt 8 s →
    ∃ u, exec (.rowWrite t i key value) s = .next u ∧ u.lastResult = some [0x00, 0x00] ∧
      Stored s u.ee (s.cfg.tableBase t.toNat + 6 * i.toNat) (beBytes32 key ++ beBytes16 value) ∧ u.wip = false ∧
      SameBlock s u ∧ SameLatch s u ∧ SameController s u ∧ u.out = s.out ∧ u.busIn = s.busIn ∧ u.busOut = s.busOut

/-- ROW_READ (R130): the row as it stands in the array. -/
def Obligations.RowRead : Prop :=
  ∀ (s : State) (t i : Byte), s.gie = false → Ready s → EepromReady s → t.toNat < s.cfg.numSignals → i.toNat < 32 →
    ∃ u, exec (.rowRead t i) s = .next u ∧
      u.lastResult = some ([0x00, 0x00] ++ beBytes32 (s.rowOf t.toNat i.toNat).1 ++ beBytes16 (s.rowOf t.toNat i.toNat).2) ∧
      SameBlock s u ∧ SameEeprom s u ∧
      (Still s → SameLatch s u ∧ SameController s u ∧ SameWorld s u ∧ u.freeN = s.freeN)

/-- TAB_LOOKUP (R132, R131): the value of the calibration table at the key: exact row, clamp low, interpolation, clamp
high. -/
def Obligations.TabLookup : Prop :=
  ∀ (s : State) (t tag : Byte) (w : U32) (key : Number), s.gie = false → Ready s → EepromReady s →
    t.toNat < s.cfg.numSignals → numberOperand tag w = .ok key →
    ∃ u v, exec (.tabLookup t tag w) s = .next u ∧ u.lastResult = some ([0x00, 0x00] ++ beBytes16 v) ∧
      TableAnswer s t.toNat key v ∧ SameBlock s u ∧ SameEeprom s u ∧
      (Still s → SameLatch s u ∧ SameController s u ∧ SameWorld s u ∧ u.freeN = s.freeN)

/-- R132: an interpolated value lies between the values of the two rows, so it fits the value's 16 bits. -/
def Obligations.InterpolationStaysBetween : Prop :=
  ∀ (k1 k2 x : Int) (v1 v2 : U16), k1 < x → x < k2 →
    min (v1.toNat : Int) v2.toNat ≤ interpolate k1 v1.toNat k2 v2.toNat x ∧
      interpolate k1 v1.toNat k2 v2.toNat x ≤ max (v1.toNat : Int) v2.toNat ∧
      ((BitVec.ofInt 16 (interpolate k1 v1.toNat k2 v2.toNat x)).toNat : Int) = interpolate k1 v1.toNat k2 v2.toNat x

/-- R132: over a table whose keys and values do not decrease, a greater key never gets a smaller value. -/
def Obligations.LookupIsMonotone : Prop :=
  ∀ (s u1 u2 : State) (t tag1 tag2 : Byte) (w1 w2 : U32) (key1 key2 : Number) (v1 v2 : U16), s.gie = false → Ready s →
    EepromReady s → t.toNat < s.cfg.numSignals → numberOperand tag1 w1 = .ok key1 → numberOperand tag2 w2 = .ok key2 →
    Machine.Number.isUnsigned key1 = Machine.Number.isUnsigned key2 → keyVal key1 < keyVal key2 →
    (∀ i, i + 1 < 32 → rowVal (s.rowOf t.toNat i).1 key1 ≤ rowVal (s.rowOf t.toNat (i + 1)).1 key1 ∧
      (s.rowOf t.toNat i).2.toNat ≤ (s.rowOf t.toNat (i + 1)).2.toNat) →
    exec (.tabLookup t tag1 w1) s = .next u1 → exec (.tabLookup t tag2 w2) s = .next u2 →
    u1.lastResult = some ([0x00, 0x00] ++ beBytes16 v1) → u2.lastResult = some ([0x00, 0x00] ++ beBytes16 v2) →
    v1.toNat ≤ v2.toNat

/-! ## The critical section -/

/-- CRIT_ENTER and CRIT_EXIT (R146, R147): the saved bit, the new gie, nothing else, in any environment. -/
def Obligations.CriticalSection : Prop :=
  ∀ s : State, Sampled s →
    (∃ t, exec .critEnter s = .next t ∧ t.lastResult = some [0x00, 0x00, if s.gie then 1 else 0] ∧
      OnlyResult { s with gie := false } t) ∧
    (∀ saved : Byte, saved = 0 ∨ saved = 1 → ∃ t, exec (.critExit saved) s = .next t ∧
      t.lastResult = some [0x00, 0x00] ∧ OnlyResult { s with gie := saved = 1 } t) ∧
    (∀ saved : Byte, saved ≠ 0 → saved ≠ 1 → ∃ t, exec (.critExit saved) s = .next t ∧
      t.lastResult = some [0x01, 0x04] ∧ OnlyResult s t)

/-! ## The frame classes -/

/-- TBL_RD (R135): the row of the request, sent back under the request's identifier; if the controller never completes the
transmission, hErr is set and the request stays pending. -/
def Obligations.TblRd : Prop :=
  ∀ (s : State) (fr : CanFrame), s.cfg.dev = .standard → Ready s → EepromReady s → s.txreq = false →
    s.modeFair = false → malformed s.cfg (.tblRd fr) = false →
    (s.sched = [] ∨ s.inMode .normal = true ∧ s.sched = [[], [], [], [.txOk]]) →
    ∃ t, exec (.tblRd fr) s = .next t ∧ SameEeprom s t ∧ SameLatch s t ∧ SameBlock { s with hErr := t.hErr } t ∧
      (∀ a, a < 0x30 ∨ 0x3E ≤ a → t.reg a = s.reg a) ∧ t.lastHit = s.lastHit ∧ t.lastType = s.lastType ∧ t.out = s.out ∧
      t.busIn = s.busIn ∧ (s.sched ≠ [] → t.hErr = s.hErr ∧ t.txreq = false ∧
        t.busOut = s.busOut ++ [⟨fr.id, false, 6,
          beBytes32 (s.rowOf (ctrlTable fr.id) (ctrlRow fr.id)).1 ++
            beBytes16 (s.rowOf (ctrlTable fr.id) (ctrlRow fr.id)).2⟩]) ∧
      (s.sched = [] → t.hErr = true ∧ t.txreq = true ∧ t.busOut = s.busOut)

/-- TBL_WR (R136): the row of the frame's payload, in the array; nothing is sent. -/
def Obligations.TblWr : Prop :=
  ∀ (s : State) (fr : CanFrame), Ready s → EepromReady s → s.ee.wf = true → s.eeProtect = false → Prompt 8 s →
    malformed s.cfg (.tblWr fr) = false →
    ∃ t, exec (.tblWr fr) s = .next t ∧
      Stored s t.ee (s.cfg.tableBase (ctrlTable fr.id) + 6 * ctrlRow fr.id) fr.data ∧ t.wip = false ∧ SameBlock s t ∧
      SameLatch s t ∧ SameController s t ∧ t.out = s.out ∧ t.busIn = s.busIn ∧ t.busOut = s.busOut

/-- SIG_RD (R137): the slot's format, from the mirror, sent back under the request's identifier; if the controller never completes
the transmission, hErr is set and the request stays pending. -/
def Obligations.SigRd : Prop :=
  ∀ (s : State) (fr : CanFrame) (f : SigFmt), s.cfg.dev = .standard → Ready s → s.txreq = false → s.modeFair = false →
    1 ≤ s.cfg.txRetries → malformed s.cfg (.sigRd fr) = false → s.mirrorAt (ctrlSlot fr.id) = some f →
    (s.sched = [] ∨ s.inMode .normal = true ∧ s.sched = [[], [.txOk]]) →
    ∃ t, exec (.sigRd fr) s = .next t ∧ SameEeprom s t ∧ SameLatch s t ∧ SameBlock { s with hErr := t.hErr } t ∧
      (∀ a, a < 0x30 ∨ 0x3E ≤ a → t.reg a = s.reg a) ∧ t.lastHit = s.lastHit ∧ t.lastType = s.lastType ∧ t.out = s.out ∧
      t.busIn = s.busIn ∧ (s.sched ≠ [] → t.hErr = s.hErr ∧ t.txreq = false ∧ t.busOut = s.busOut ++ [⟨fr.id, false, 7, serWire f⟩]) ∧
      (s.sched = [] → t.hErr = true ∧ t.txreq = true ∧ t.busOut = s.busOut)

/-- SIG_WR (R138): the format of the frame's payload, in the slot's record and in its mirror; nothing is sent. -/
def Obligations.SigWr : Prop :=
  ∀ (s : State) (fr : CanFrame), Ready s → EepromReady s → s.ee.wf = true → s.eeProtect = false → Prompt 9 s →
    malformed s.cfg (.sigWr fr) = false →
    ∃ t, exec (.sigWr fr) s = .next t ∧ t.mirrorAt (ctrlSlot fr.id) = some (deserWire fr.data) ∧
      (∀ j, j ≠ ctrlSlot fr.id → t.mirrorAt j = s.mirrorAt j) ∧
      Stored s t.ee (s.cfg.sigAddr (ctrlSlot fr.id)) (serRec s.cfg.idRecOrder (deserWire fr.data)) ∧ t.wip = false ∧
      SameBlock { s with mirror := t.mirror } t ∧ SameLatch s t ∧ SameController s t ∧ t.out = s.out ∧
      t.busIn = s.busIn ∧ t.busOut = s.busOut

/-- SIG_FRAME, both rows of R72 (R139, R140, R142): every slot of the frame's identifier whose field is in the payload drives its
actuator with its table's value, in slot order; a slot that fails sets hErr and stops no other. -/
def Obligations.SigFrame : Prop :=
  ∀ (s : State) (fr : CanFrame) (h1 : BitVec 1) (h2 : BitVec 2), Still s → Ready s → EepromReady s →
    LoadedTo s s.cfg.numSignals →
    ∃ t, exec (.sigFrameMid h1 fr) s = .next t ∧ exec (.sigFrameHigh h2 fr) s = .next t ∧
      (∀ k f key, k < s.cfg.numSignals → s.mirrorAt k = some f → f.id = fr.id → pluck f fr = .ok key →
        TableAnswer s k key (t.outAt k)) ∧
      (∀ k, ¬ (k < s.cfg.numSignals ∧ s.drives fr k = true) → t.outAt k = s.outAt k) ∧
      (t.hErr = true ↔ s.hErr = true ∨ ∃ k, k < s.cfg.numSignals ∧ s.failsOn fr k = true) ∧
      actuations t.events = actuations s.events ++
        ((List.range s.cfg.numSignals).filter (s.drives fr)).map (fun k => (k, t.outAt k)) ∧
      SameBlock { s with hErr := t.hErr } t ∧ SameLatch s t ∧ SameController s t ∧ SameEeprom s t ∧
      t.busIn = s.busIn ∧ t.busOut = s.busOut ∧ t.freeN = s.freeN

/-- R135 to R138, R140: a malformed control frame sets hErr and does nothing else: no transaction, no reply. -/
def Obligations.MalformedControlFrames : Prop :=
  ∀ (s : State) (i : Instr), malformed s.cfg i = true → exec i s = .next { s with hErr := true }

/-! ## The interrupt -/

/-- R26, R108, R161: a frame stored while the line is deasserted sets the latch; a frame stored while the line is asserted
makes no edge. -/
def Obligations.FrameArrivalLatches : Prop :=
  ∀ (s : State) (f : BusFrame) (fs : List BusFrame) (h : Nat), s.cfg.dev = .standard → Sampled s → s.reg 0x2B = 0x03 →
    s.busIn = f :: fs → (s.inMode .normal = true ∨ s.inMode .listenOnly = true) → s.acceptHit f.id = some h →
    s.rxFlag (bufferOf h) = false →
    (envMove s .receive).intLine = true ∧ (envMove s .receive).intPrev = true ∧
      (s.rxFlag 0 = false ∧ s.rxFlag 1 = false → (envMove s .receive).latch = true) ∧
      (s.rxFlag 0 = true ∨ s.rxFlag 1 = true → (envMove s .receive).latch = s.latch) ∧
      SameBlock s (envMove s .receive)

/-- R158: an enabled entry is the next step, before any presented command; it changes the context and nothing else. -/
def Obligations.HandlerEntry : Prop :=
  ∀ s : State, s.cfg.valid = true → s.phase = .run → s.ctx = .foreground → s.latch = true → s.gie = true → Ready s →
    Still s → s.cmdBusy = false →
    ∃ t, step s = .next t ∧ t.ctx = .handler ∧ SameBlock { s with ctx := .handler } t ∧ SameLatch s t ∧
      SameController s t ∧ SameEeprom s t ∧ SameWorld s t ∧ SameEvents s t ∧ t.lastResult = s.lastResult

/-- R133, R141, R159: whatever the frame, the handler ends with the flag of the buffer it served cleared and no other bit of
the interrupt flags, the latch cleared, IrqDone its last event, and the foreground running. -/
def Obligations.HandlerClearsAndReturns : Prop :=
  ∀ s : State, s.cfg.valid = true → s.cfg.dev = .standard → s.phase = .run → s.ctx = .handler → Ready s → Still s →
    ∃ t, step s = .next t ∧ t.ctx = .foreground ∧ t.latch = false ∧ t.gie = s.gie ∧ t.phase = .run ∧
      (∀ i, i < 8 → bitOf (t.reg 0x2C) i = (bitOf (s.reg 0x2C) i && !decide (i = hitBuffer s.lastHit))) ∧
      t.events.getLast? = some (.irqDone t.hErr) ∧ t.cmdBusy = s.cmdBusy ∧ t.script = s.script

/-- R176, R161: with both buffers full when the handler runs, it leaves the other flag set, the line asserted and the latch
clear: a stuck state, which no step of the other agents ends. -/
def Obligations.StrandedInterrupt : Prop :=
  ∀ s : State, s.cfg.valid = true → s.cfg.dev = .standard → s.phase = .run → s.ctx = .handler → s.cmdBusy = false →
    Ready s → Still s → s.reg 0x2B = 0x03 → s.rxFlag 0 = true → s.rxFlag 1 = true →
    ∃ t, step s = .next t ∧ t.stuck ∧
      ∀ ms : List EnvMove, (ms.foldl envMove t).stuck ∧ (ms.foldl envMove t).intLine = true

/-- R54, R145, R158: from a state in which the block accepts a command, a frame that arrives in the gap after the command's first
transaction enters the handler there and records BusConflict, for commands of one transaction and of more (and the run goes on:
the model's choice, log 12). The four commands without a transaction record no fault, whatever the other agents do and however
often the handler runs meanwhile. -/
def Obligations.BusConflict : Prop :=
  (∀ (s : State) (i : Instr) (f : BusFrame) (fs : List BusFrame) (h : Nat) (rest : List (List EnvMove)), Inv s →
    s.cfg.dev = .standard → s.phase = .run → s.ctx = .foreground → entryEnabled s = false → s.gie = true →
    s.reg 0x2B = 0x03 → s.rxFlag 0 = false → s.rxFlag 1 = false → s.busIn = f :: fs →
    (s.inMode .normal = true ∨ s.inMode .listenOnly = true) → s.acceptHit f.id = some h → s.sched = [.receive] :: rest →
    portCheck s.cfg i = none →
    ((∃ a, i = .spRead a) ∨ i = .canRxstatus ∨ i = .epRdsr ∨ (∃ b, i = .canReceive b) ∨ (∃ a b c, i = .canSetbt a b c) ∨
      (∃ frm, i = .canTransmit frm) ∨ (∃ a n, i = .eeRead a n ∧ n ≠ 0) ∨ ∃ t r, i = .rowRead t r) →
    ∃ t, exec i s = .next t ∧ t.faults.busConflict = true) ∧
  ∀ (s : State) (i : Instr), Inv s → s.phase = .run → s.ctx = .foreground → entryEnabled s = false → StatusBits s.cfg →
    ((∃ m f, i = .sigPluck m f) ∨ (∃ k, i = .sigGet k) ∨ i = .critEnter ∨ ∃ v, i = .critExit v) →
    ∃ t, exec i s = .next t ∧ t.faults = s.faults

/-! ## The machine -/

/-- R145: in phase Run with no entry enabled, the step runs the command presented: exec of the instruction it decodes to, and
the gap after it. -/
def Obligations.StepRunsTheCommand : Prop :=
  ∀ (s : State) (cmd : List Byte) (rest : List (List Byte)) (i : Instr), s.cfg.valid = true → s.phase = .run →
    s.ctx = .foreground → entryEnabled s = false → s.script = cmd :: rest → decode .port cmd = .ok i →
    step s = andThen (exec i { s with script := rest }) envGap

/-- R133, R134, R72: the step of the handler runs the class instruction of the frame it fetches, then clears and returns. With
a still environment the fetch is the reported hit and the frame of its buffer, and the class word of that frame decodes to that
instruction (the bytes after the class word: the model's choice, log 11). -/
def Obligations.StepRunsTheFrame : Prop :=
  ∀ s : State, s.cfg.valid = true → s.cfg.dev = .standard → s.phase = .run → s.ctx = .handler → Still s →
    ∃ u, step s = andThen (exec (frameInstr s.lastHit (s.bufferFrame (hitBuffer s.lastHit))) u)
        (fun t => envGap (handlerTail (hitBuffer s.lastHit) t)) ∧
      u.hErr = false ∧ SameController s u ∧ SameEeprom s u ∧ SameWorld s u ∧ u.mirror = s.mirror ∧ u.cfg = s.cfg ∧
      decode .frame (encodeClass s.lastHit (s.bufferFrame (hitBuffer s.lastHit))) =
        .ok (frameInstr s.lastHit (s.bufferFrame (hitBuffer s.lastHit)))

/-- R172, lines 1, 2, 10 and 11, with R109 and R125. Lines 1 and 2: the controller is reset and reports Config at the first poll.
Line 10: Normal mode, if a fair environment changes the mode or it is reported already; if no environment step ever will, the
wait never ends, which the model says by a fault (log 13). Line 11: each slot is loaded from its record as it stands in the
array, one after the other, and after the last slot the sequence goes on. -/
def Obligations.BootSetsModesAndLoads : Prop :=
  ∀ s : State, s.cfg.valid = true → s.cfg.dev = .standard → s.phase = .boot → s.csCan = false → s.csEe = false →
    (s.boot = .reset → s.sched = [] →
      ∃ t b, steps 2 s = .next t ∧ t.inMode .config = true ∧ t.reqop = 0b100 ∧ t.reg 0x2B = 0 ∧ t.reg 0x2C = 0 ∧
        t.reg 0x30 = 0 ∧ t.intPrev = false ∧ SameBlock { s with boot := .bitTiming, modeShadow := some .config } t ∧
        t.lastHit = s.lastHit ∧ t.lastType = s.lastType ∧ SameEeprom s t ∧ SameWorld s t ∧
        t.events = s.events ++ [.xfer .can [0xC0] [], .xfer .can [0x05, 0x0F, 0xE0, 0x80] [], .xfer .can [0x03, 0x0E] [b]]) ∧
    (s.boot = .setNormal → Sampled s → (s.sched = [] ∧ s.modeFair = true ∨ Still s ∧ s.inMode .normal = true) →
      ∃ t, step s = .next t ∧ t.inMode .normal = true ∧ t.reqop = 0b000 ∧
        (∀ a, a ≠ 0x0E → a ≠ 0x0F → t.reg a = s.reg a) ∧
        SameBlock { s with boot := .load 0, modeShadow := some .normal } t ∧ SameLatch s t ∧ t.lastHit = s.lastHit ∧
        t.lastType = s.lastType ∧ SameEeprom s t ∧ SameWorld s t ∧ t.freeN = s.freeN) ∧
    (s.boot = .setNormal → Still s → s.inMode .normal = false → s.modeHang) ∧
    (∀ k, s.boot = .load k → k < s.cfg.numSignals → EepromReady s →
      ∃ t, step s = .next t ∧
        t.mirrorAt k = some (deserRec s.cfg.idRecOrder (s.eeBytes (s.cfg.sigAddr k) 8)) ∧
        (∀ j, j ≠ k → t.mirrorAt j = s.mirrorAt j) ∧ SameBlock { s with boot := .load (k + 1), mirror := t.mirror } t ∧
        SameEeprom s t ∧
        (Still s → Sampled s → SameLatch s t ∧ SameController s t ∧ SameWorld s t ∧ t.freeN = s.freeN)) ∧
    ∀ k, s.boot = .load k → s.cfg.numSignals ≤ k → step s = .next { s with boot := .clearLatch }

/-- R172, lines 3 to 9: from Config mode, seven steps program bit timing, masks and filters as the boot sequence says. -/
def Obligations.BootProgramsTheController : Prop :=
  ∀ s : State, s.cfg.valid = true → s.cfg.dev = .standard → s.phase = .boot → s.boot = .bitTiming → Ready s → Still s →
    s.inMode .config = true →
    ∃ t, steps 7 s = .next t ∧ t.boot = .setNormal ∧ Programmed t ∧ t.reg 0x2A = s.cfg.cnf1 ∧ t.reg 0x29 = s.cfg.cnf2 ∧
      t.reg 0x28 = s.cfg.cnf3 ∧ SameBlock { s with boot := .setNormal } t ∧ SameEeprom s t

/-- R172, lines 12 to 14: an old latch is discarded, the receive interrupts are enabled, and a frame buffered before then is an
edge; the block is in phase Run with gie = 1. -/
def Obligations.BootEntersRun : Prop :=
  ∀ s : State, s.cfg.valid = true → s.cfg.dev = .standard → s.phase = .boot → s.boot = .clearLatch → Ready s → Still s →
    s.reg 0x2B = 0 →
    ∃ t, steps 3 s = .next t ∧ t.phase = .run ∧ t.gie = true ∧ t.reg 0x2B = 0x03 ∧
      t.latch = (s.rxFlag 0 || s.rxFlag 1) ∧ (∀ a, a ≠ 0x2B → t.reg a = s.reg a) ∧ t.mirror = s.mirror ∧ SameEeprom s t

/-- R163, R44: a boot load that fails (a write cycle that does not end) goes to ResetDelay, and the device reset puts every
block state element but fault at its reset value; the edge detector then samples the line as it is, so that an asserted line is
an edge (R144). The controller, the EEPROM and the DAC are unchanged. -/
def Obligations.BootFailureResets : Prop :=
  ∀ (s : State) (k : Nat), s.cfg.valid = true → StatusBits s.cfg → s.phase = .boot → s.boot = .load k →
    k < s.cfg.numSignals → s.wip = true → Ready s → Still s →
    ∃ t u, step s = .next t ∧ t.phase = .resetDelay ∧ t.mirror = s.mirror ∧ step t = .next u ∧ u.phase = .boot ∧
      u.boot = .reset ∧ u.mirror = Vector.replicate 16 none ∧ u.gie = false ∧ u.ctx = .foreground ∧
      u.csCan = false ∧ u.csEe = false ∧ u.modeShadow = none ∧ u.hErr = false ∧ u.lastResult = none ∧
      u.latch = u.intLine ∧ u.intPrev = u.intLine ∧ u.faults = s.faults ∧ u.cfg = s.cfg ∧ SameController s u ∧ SameEeprom s u ∧ u.out = s.out

/-- Every step keeps the invariant: an accepted instance, the EEPROM list canonical and inside the array, no chip select left
asserted, the line sampled, the handler and interrupts only in phase Run, and every slot loaded there. -/
def Obligations.StepKeepsInv : Prop :=
  ∀ s t : State, Inv s → step s = .next t → Inv t

/-- The reset state is a launch state and has the invariant (R44, R152). The values the spec leaves open at launch are the
model's choice (logs 3, 4, 6, 7, 8, 14, 21, 22). -/
def Obligations.ResetIsLaunch : Prop :=
  State.reset.launch ∧ Inv State.reset

/-- R32: no step clears a fault, and none changes the parameters (R10). -/
def Obligations.FaultsAreKept : Prop :=
  ∀ s t : State, step s = .next t →
    t.cfg = s.cfg ∧ (s.faults.unloadedMirror = true → t.faults.unloadedMirror = true) ∧
      (s.faults.busConflict = true → t.faults.busConflict = true) ∧
      (s.faults.protocolViolation = true → t.faults.protocolViolation = true)
end

