-- ==== Sys2Proof/Laws/State.lean ====
section
/-! SUPPORT. One lemma for each field of State and each named update: what the update leaves in the field. All hold by rfl, so
no later proof unfolds an update. -/

namespace Sys2Proof.Machine

variable (s : State)

/-! ### setReg -/

@[simp] theorem State.setReg_cfg (a : Nat) (v : Byte) : (s.setReg a v).cfg = s.cfg := rfl
@[simp] theorem State.setReg_phase (a : Nat) (v : Byte) : (s.setReg a v).phase = s.phase := rfl
@[simp] theorem State.setReg_boot (a : Nat) (v : Byte) : (s.setReg a v).boot = s.boot := rfl
@[simp] theorem State.setReg_mirror (a : Nat) (v : Byte) : (s.setReg a v).mirror = s.mirror := rfl
@[simp] theorem State.setReg_gie (a : Nat) (v : Byte) : (s.setReg a v).gie = s.gie := rfl
@[simp] theorem State.setReg_latch (a : Nat) (v : Byte) : (s.setReg a v).latch = s.latch := rfl
@[simp] theorem State.setReg_intPrev (a : Nat) (v : Byte) : (s.setReg a v).intPrev = s.intPrev := rfl
@[simp] theorem State.setReg_ctx (a : Nat) (v : Byte) : (s.setReg a v).ctx = s.ctx := rfl
@[simp] theorem State.setReg_csCan (a : Nat) (v : Byte) : (s.setReg a v).csCan = s.csCan := rfl
@[simp] theorem State.setReg_csEe (a : Nat) (v : Byte) : (s.setReg a v).csEe = s.csEe := rfl
@[simp] theorem State.setReg_modeShadow (a : Nat) (v : Byte) : (s.setReg a v).modeShadow = s.modeShadow := rfl
@[simp] theorem State.setReg_hErr (a : Nat) (v : Byte) : (s.setReg a v).hErr = s.hErr := rfl
@[simp] theorem State.setReg_faults (a : Nat) (v : Byte) : (s.setReg a v).faults = s.faults := rfl
@[simp] theorem State.setReg_lastResult (a : Nat) (v : Byte) : (s.setReg a v).lastResult = s.lastResult := rfl
@[simp] theorem State.setReg_cmdBusy (a : Nat) (v : Byte) : (s.setReg a v).cmdBusy = s.cmdBusy := rfl
@[simp] theorem State.setReg_cmdIssued (a : Nat) (v : Byte) : (s.setReg a v).cmdIssued = s.cmdIssued := rfl
@[simp] theorem State.setReg_ctl (a : Nat) (v : Byte) : (s.setReg a v).ctl = s.ctl.setIfInBounds a v := rfl
@[simp] theorem State.setReg_lastHit (a : Nat) (v : Byte) : (s.setReg a v).lastHit = s.lastHit := rfl
@[simp] theorem State.setReg_lastType (a : Nat) (v : Byte) : (s.setReg a v).lastType = s.lastType := rfl
@[simp] theorem State.setReg_ee (a : Nat) (v : Byte) : (s.setReg a v).ee = s.ee := rfl
@[simp] theorem State.setReg_wip (a : Nat) (v : Byte) : (s.setReg a v).wip = s.wip := rfl
@[simp] theorem State.setReg_wel (a : Nat) (v : Byte) : (s.setReg a v).wel = s.wel := rfl
@[simp] theorem State.setReg_pageBuf (a : Nat) (v : Byte) : (s.setReg a v).pageBuf = s.pageBuf := rfl
@[simp] theorem State.setReg_eeProtect (a : Nat) (v : Byte) : (s.setReg a v).eeProtect = s.eeProtect := rfl
@[simp] theorem State.setReg_out (a : Nat) (v : Byte) : (s.setReg a v).out = s.out := rfl
@[simp] theorem State.setReg_busIn (a : Nat) (v : Byte) : (s.setReg a v).busIn = s.busIn := rfl
@[simp] theorem State.setReg_busOut (a : Nat) (v : Byte) : (s.setReg a v).busOut = s.busOut := rfl
@[simp] theorem State.setReg_script (a : Nat) (v : Byte) : (s.setReg a v).script = s.script := rfl
@[simp] theorem State.setReg_sched (a : Nat) (v : Byte) : (s.setReg a v).sched = s.sched := rfl
@[simp] theorem State.setReg_modeFair (a : Nat) (v : Byte) : (s.setReg a v).modeFair = s.modeFair := rfl
@[simp] theorem State.setReg_events (a : Nat) (v : Byte) : (s.setReg a v).events = s.events := rfl
@[simp] theorem State.setReg_freeN (a : Nat) (v : Byte) : (s.setReg a v).freeN = s.freeN := rfl

/-! ### setMirror -/

@[simp] theorem State.setMirror_cfg (n : Nat) (f : SigFmt) : (s.setMirror n f).cfg = s.cfg := rfl
@[simp] theorem State.setMirror_phase (n : Nat) (f : SigFmt) : (s.setMirror n f).phase = s.phase := rfl
@[simp] theorem State.setMirror_boot (n : Nat) (f : SigFmt) : (s.setMirror n f).boot = s.boot := rfl
@[simp] theorem State.setMirror_mirror (n : Nat) (f : SigFmt) : (s.setMirror n f).mirror = s.mirror.setIfInBounds n (some f) := rfl
@[simp] theorem State.setMirror_gie (n : Nat) (f : SigFmt) : (s.setMirror n f).gie = s.gie := rfl
@[simp] theorem State.setMirror_latch (n : Nat) (f : SigFmt) : (s.setMirror n f).latch = s.latch := rfl
@[simp] theorem State.setMirror_intPrev (n : Nat) (f : SigFmt) : (s.setMirror n f).intPrev = s.intPrev := rfl
@[simp] theorem State.setMirror_ctx (n : Nat) (f : SigFmt) : (s.setMirror n f).ctx = s.ctx := rfl
@[simp] theorem State.setMirror_csCan (n : Nat) (f : SigFmt) : (s.setMirror n f).csCan = s.csCan := rfl
@[simp] theorem State.setMirror_csEe (n : Nat) (f : SigFmt) : (s.setMirror n f).csEe = s.csEe := rfl
@[simp] theorem State.setMirror_modeShadow (n : Nat) (f : SigFmt) : (s.setMirror n f).modeShadow = s.modeShadow := rfl
@[simp] theorem State.setMirror_hErr (n : Nat) (f : SigFmt) : (s.setMirror n f).hErr = s.hErr := rfl
@[simp] theorem State.setMirror_faults (n : Nat) (f : SigFmt) : (s.setMirror n f).faults = s.faults := rfl
@[simp] theorem State.setMirror_lastResult (n : Nat) (f : SigFmt) : (s.setMirror n f).lastResult = s.lastResult := rfl
@[simp] theorem State.setMirror_cmdBusy (n : Nat) (f : SigFmt) : (s.setMirror n f).cmdBusy = s.cmdBusy := rfl
@[simp] theorem State.setMirror_cmdIssued (n : Nat) (f : SigFmt) : (s.setMirror n f).cmdIssued = s.cmdIssued := rfl
@[simp] theorem State.setMirror_ctl (n : Nat) (f : SigFmt) : (s.setMirror n f).ctl = s.ctl := rfl
@[simp] theorem State.setMirror_lastHit (n : Nat) (f : SigFmt) : (s.setMirror n f).lastHit = s.lastHit := rfl
@[simp] theorem State.setMirror_lastType (n : Nat) (f : SigFmt) : (s.setMirror n f).lastType = s.lastType := rfl
@[simp] theorem State.setMirror_ee (n : Nat) (f : SigFmt) : (s.setMirror n f).ee = s.ee := rfl
@[simp] theorem State.setMirror_wip (n : Nat) (f : SigFmt) : (s.setMirror n f).wip = s.wip := rfl
@[simp] theorem State.setMirror_wel (n : Nat) (f : SigFmt) : (s.setMirror n f).wel = s.wel := rfl
@[simp] theorem State.setMirror_pageBuf (n : Nat) (f : SigFmt) : (s.setMirror n f).pageBuf = s.pageBuf := rfl
@[simp] theorem State.setMirror_eeProtect (n : Nat) (f : SigFmt) : (s.setMirror n f).eeProtect = s.eeProtect := rfl
@[simp] theorem State.setMirror_out (n : Nat) (f : SigFmt) : (s.setMirror n f).out = s.out := rfl
@[simp] theorem State.setMirror_busIn (n : Nat) (f : SigFmt) : (s.setMirror n f).busIn = s.busIn := rfl
@[simp] theorem State.setMirror_busOut (n : Nat) (f : SigFmt) : (s.setMirror n f).busOut = s.busOut := rfl
@[simp] theorem State.setMirror_script (n : Nat) (f : SigFmt) : (s.setMirror n f).script = s.script := rfl
@[simp] theorem State.setMirror_sched (n : Nat) (f : SigFmt) : (s.setMirror n f).sched = s.sched := rfl
@[simp] theorem State.setMirror_modeFair (n : Nat) (f : SigFmt) : (s.setMirror n f).modeFair = s.modeFair := rfl
@[simp] theorem State.setMirror_events (n : Nat) (f : SigFmt) : (s.setMirror n f).events = s.events := rfl
@[simp] theorem State.setMirror_freeN (n : Nat) (f : SigFmt) : (s.setMirror n f).freeN = s.freeN := rfl

/-! ### setChannel -/

@[simp] theorem State.setChannel_cfg (n : Nat) (v : U16) : (s.setChannel n v).cfg = s.cfg := rfl
@[simp] theorem State.setChannel_phase (n : Nat) (v : U16) : (s.setChannel n v).phase = s.phase := rfl
@[simp] theorem State.setChannel_boot (n : Nat) (v : U16) : (s.setChannel n v).boot = s.boot := rfl
@[simp] theorem State.setChannel_mirror (n : Nat) (v : U16) : (s.setChannel n v).mirror = s.mirror := rfl
@[simp] theorem State.setChannel_gie (n : Nat) (v : U16) : (s.setChannel n v).gie = s.gie := rfl
@[simp] theorem State.setChannel_latch (n : Nat) (v : U16) : (s.setChannel n v).latch = s.latch := rfl
@[simp] theorem State.setChannel_intPrev (n : Nat) (v : U16) : (s.setChannel n v).intPrev = s.intPrev := rfl
@[simp] theorem State.setChannel_ctx (n : Nat) (v : U16) : (s.setChannel n v).ctx = s.ctx := rfl
@[simp] theorem State.setChannel_csCan (n : Nat) (v : U16) : (s.setChannel n v).csCan = s.csCan := rfl
@[simp] theorem State.setChannel_csEe (n : Nat) (v : U16) : (s.setChannel n v).csEe = s.csEe := rfl
@[simp] theorem State.setChannel_modeShadow (n : Nat) (v : U16) : (s.setChannel n v).modeShadow = s.modeShadow := rfl
@[simp] theorem State.setChannel_hErr (n : Nat) (v : U16) : (s.setChannel n v).hErr = s.hErr := rfl
@[simp] theorem State.setChannel_faults (n : Nat) (v : U16) : (s.setChannel n v).faults = s.faults := rfl
@[simp] theorem State.setChannel_lastResult (n : Nat) (v : U16) : (s.setChannel n v).lastResult = s.lastResult := rfl
@[simp] theorem State.setChannel_cmdBusy (n : Nat) (v : U16) : (s.setChannel n v).cmdBusy = s.cmdBusy := rfl
@[simp] theorem State.setChannel_cmdIssued (n : Nat) (v : U16) : (s.setChannel n v).cmdIssued = s.cmdIssued := rfl
@[simp] theorem State.setChannel_ctl (n : Nat) (v : U16) : (s.setChannel n v).ctl = s.ctl := rfl
@[simp] theorem State.setChannel_lastHit (n : Nat) (v : U16) : (s.setChannel n v).lastHit = s.lastHit := rfl
@[simp] theorem State.setChannel_lastType (n : Nat) (v : U16) : (s.setChannel n v).lastType = s.lastType := rfl
@[simp] theorem State.setChannel_ee (n : Nat) (v : U16) : (s.setChannel n v).ee = s.ee := rfl
@[simp] theorem State.setChannel_wip (n : Nat) (v : U16) : (s.setChannel n v).wip = s.wip := rfl
@[simp] theorem State.setChannel_wel (n : Nat) (v : U16) : (s.setChannel n v).wel = s.wel := rfl
@[simp] theorem State.setChannel_pageBuf (n : Nat) (v : U16) : (s.setChannel n v).pageBuf = s.pageBuf := rfl
@[simp] theorem State.setChannel_eeProtect (n : Nat) (v : U16) : (s.setChannel n v).eeProtect = s.eeProtect := rfl
@[simp] theorem State.setChannel_out (n : Nat) (v : U16) : (s.setChannel n v).out = s.out.setIfInBounds n v := rfl
@[simp] theorem State.setChannel_busIn (n : Nat) (v : U16) : (s.setChannel n v).busIn = s.busIn := rfl
@[simp] theorem State.setChannel_busOut (n : Nat) (v : U16) : (s.setChannel n v).busOut = s.busOut := rfl
@[simp] theorem State.setChannel_script (n : Nat) (v : U16) : (s.setChannel n v).script = s.script := rfl
@[simp] theorem State.setChannel_sched (n : Nat) (v : U16) : (s.setChannel n v).sched = s.sched := rfl
@[simp] theorem State.setChannel_modeFair (n : Nat) (v : U16) : (s.setChannel n v).modeFair = s.modeFair := rfl
@[simp] theorem State.setChannel_events (n : Nat) (v : U16) : (s.setChannel n v).events = s.events := rfl
@[simp] theorem State.setChannel_freeN (n : Nat) (v : U16) : (s.setChannel n v).freeN = s.freeN := rfl

/-! ### takeFree -/

@[simp] theorem State.takeFree_cfg (n : Nat) : (s.takeFree n).cfg = s.cfg := rfl
@[simp] theorem State.takeFree_phase (n : Nat) : (s.takeFree n).phase = s.phase := rfl
@[simp] theorem State.takeFree_boot (n : Nat) : (s.takeFree n).boot = s.boot := rfl
@[simp] theorem State.takeFree_mirror (n : Nat) : (s.takeFree n).mirror = s.mirror := rfl
@[simp] theorem State.takeFree_gie (n : Nat) : (s.takeFree n).gie = s.gie := rfl
@[simp] theorem State.takeFree_latch (n : Nat) : (s.takeFree n).latch = s.latch := rfl
@[simp] theorem State.takeFree_intPrev (n : Nat) : (s.takeFree n).intPrev = s.intPrev := rfl
@[simp] theorem State.takeFree_ctx (n : Nat) : (s.takeFree n).ctx = s.ctx := rfl
@[simp] theorem State.takeFree_csCan (n : Nat) : (s.takeFree n).csCan = s.csCan := rfl
@[simp] theorem State.takeFree_csEe (n : Nat) : (s.takeFree n).csEe = s.csEe := rfl
@[simp] theorem State.takeFree_modeShadow (n : Nat) : (s.takeFree n).modeShadow = s.modeShadow := rfl
@[simp] theorem State.takeFree_hErr (n : Nat) : (s.takeFree n).hErr = s.hErr := rfl
@[simp] theorem State.takeFree_faults (n : Nat) : (s.takeFree n).faults = s.faults := rfl
@[simp] theorem State.takeFree_lastResult (n : Nat) : (s.takeFree n).lastResult = s.lastResult := rfl
@[simp] theorem State.takeFree_cmdBusy (n : Nat) : (s.takeFree n).cmdBusy = s.cmdBusy := rfl
@[simp] theorem State.takeFree_cmdIssued (n : Nat) : (s.takeFree n).cmdIssued = s.cmdIssued := rfl
@[simp] theorem State.takeFree_ctl (n : Nat) : (s.takeFree n).ctl = s.ctl := rfl
@[simp] theorem State.takeFree_lastHit (n : Nat) : (s.takeFree n).lastHit = s.lastHit := rfl
@[simp] theorem State.takeFree_lastType (n : Nat) : (s.takeFree n).lastType = s.lastType := rfl
@[simp] theorem State.takeFree_ee (n : Nat) : (s.takeFree n).ee = s.ee := rfl
@[simp] theorem State.takeFree_wip (n : Nat) : (s.takeFree n).wip = s.wip := rfl
@[simp] theorem State.takeFree_wel (n : Nat) : (s.takeFree n).wel = s.wel := rfl
@[simp] theorem State.takeFree_pageBuf (n : Nat) : (s.takeFree n).pageBuf = s.pageBuf := rfl
@[simp] theorem State.takeFree_eeProtect (n : Nat) : (s.takeFree n).eeProtect = s.eeProtect := rfl
@[simp] theorem State.takeFree_out (n : Nat) : (s.takeFree n).out = s.out := rfl
@[simp] theorem State.takeFree_busIn (n : Nat) : (s.takeFree n).busIn = s.busIn := rfl
@[simp] theorem State.takeFree_busOut (n : Nat) : (s.takeFree n).busOut = s.busOut := rfl
@[simp] theorem State.takeFree_script (n : Nat) : (s.takeFree n).script = s.script := rfl
@[simp] theorem State.takeFree_sched (n : Nat) : (s.takeFree n).sched = s.sched := rfl
@[simp] theorem State.takeFree_modeFair (n : Nat) : (s.takeFree n).modeFair = s.modeFair := rfl
@[simp] theorem State.takeFree_events (n : Nat) : (s.takeFree n).events = s.events := rfl
@[simp] theorem State.takeFree_freeN (n : Nat) : (s.takeFree n).freeN = s.freeN + n := rfl

/-! ### addUnloadedMirror -/

@[simp] theorem State.addUnloadedMirror_cfg : (s.addUnloadedMirror).cfg = s.cfg := rfl
@[simp] theorem State.addUnloadedMirror_phase : (s.addUnloadedMirror).phase = s.phase := rfl
@[simp] theorem State.addUnloadedMirror_boot : (s.addUnloadedMirror).boot = s.boot := rfl
@[simp] theorem State.addUnloadedMirror_mirror : (s.addUnloadedMirror).mirror = s.mirror := rfl
@[simp] theorem State.addUnloadedMirror_gie : (s.addUnloadedMirror).gie = s.gie := rfl
@[simp] theorem State.addUnloadedMirror_latch : (s.addUnloadedMirror).latch = s.latch := rfl
@[simp] theorem State.addUnloadedMirror_intPrev : (s.addUnloadedMirror).intPrev = s.intPrev := rfl
@[simp] theorem State.addUnloadedMirror_ctx : (s.addUnloadedMirror).ctx = s.ctx := rfl
@[simp] theorem State.addUnloadedMirror_csCan : (s.addUnloadedMirror).csCan = s.csCan := rfl
@[simp] theorem State.addUnloadedMirror_csEe : (s.addUnloadedMirror).csEe = s.csEe := rfl
@[simp] theorem State.addUnloadedMirror_modeShadow : (s.addUnloadedMirror).modeShadow = s.modeShadow := rfl
@[simp] theorem State.addUnloadedMirror_hErr : (s.addUnloadedMirror).hErr = s.hErr := rfl
@[simp] theorem State.addUnloadedMirror_faults : (s.addUnloadedMirror).faults = { s.faults with unloadedMirror := true } := rfl
@[simp] theorem State.addUnloadedMirror_lastResult : (s.addUnloadedMirror).lastResult = s.lastResult := rfl
@[simp] theorem State.addUnloadedMirror_cmdBusy : (s.addUnloadedMirror).cmdBusy = s.cmdBusy := rfl
@[simp] theorem State.addUnloadedMirror_cmdIssued : (s.addUnloadedMirror).cmdIssued = s.cmdIssued := rfl
@[simp] theorem State.addUnloadedMirror_ctl : (s.addUnloadedMirror).ctl = s.ctl := rfl
@[simp] theorem State.addUnloadedMirror_lastHit : (s.addUnloadedMirror).lastHit = s.lastHit := rfl
@[simp] theorem State.addUnloadedMirror_lastType : (s.addUnloadedMirror).lastType = s.lastType := rfl
@[simp] theorem State.addUnloadedMirror_ee : (s.addUnloadedMirror).ee = s.ee := rfl
@[simp] theorem State.addUnloadedMirror_wip : (s.addUnloadedMirror).wip = s.wip := rfl
@[simp] theorem State.addUnloadedMirror_wel : (s.addUnloadedMirror).wel = s.wel := rfl
@[simp] theorem State.addUnloadedMirror_pageBuf : (s.addUnloadedMirror).pageBuf = s.pageBuf := rfl
@[simp] theorem State.addUnloadedMirror_eeProtect : (s.addUnloadedMirror).eeProtect = s.eeProtect := rfl
@[simp] theorem State.addUnloadedMirror_out : (s.addUnloadedMirror).out = s.out := rfl
@[simp] theorem State.addUnloadedMirror_busIn : (s.addUnloadedMirror).busIn = s.busIn := rfl
@[simp] theorem State.addUnloadedMirror_busOut : (s.addUnloadedMirror).busOut = s.busOut := rfl
@[simp] theorem State.addUnloadedMirror_script : (s.addUnloadedMirror).script = s.script := rfl
@[simp] theorem State.addUnloadedMirror_sched : (s.addUnloadedMirror).sched = s.sched := rfl
@[simp] theorem State.addUnloadedMirror_modeFair : (s.addUnloadedMirror).modeFair = s.modeFair := rfl
@[simp] theorem State.addUnloadedMirror_events : (s.addUnloadedMirror).events = s.events := rfl
@[simp] theorem State.addUnloadedMirror_freeN : (s.addUnloadedMirror).freeN = s.freeN := rfl

/-! ### addBusConflict -/

@[simp] theorem State.addBusConflict_cfg : (s.addBusConflict).cfg = s.cfg := rfl
@[simp] theorem State.addBusConflict_phase : (s.addBusConflict).phase = s.phase := rfl
@[simp] theorem State.addBusConflict_boot : (s.addBusConflict).boot = s.boot := rfl
@[simp] theorem State.addBusConflict_mirror : (s.addBusConflict).mirror = s.mirror := rfl
@[simp] theorem State.addBusConflict_gie : (s.addBusConflict).gie = s.gie := rfl
@[simp] theorem State.addBusConflict_latch : (s.addBusConflict).latch = s.latch := rfl
@[simp] theorem State.addBusConflict_intPrev : (s.addBusConflict).intPrev = s.intPrev := rfl
@[simp] theorem State.addBusConflict_ctx : (s.addBusConflict).ctx = s.ctx := rfl
@[simp] theorem State.addBusConflict_csCan : (s.addBusConflict).csCan = s.csCan := rfl
@[simp] theorem State.addBusConflict_csEe : (s.addBusConflict).csEe = s.csEe := rfl
@[simp] theorem State.addBusConflict_modeShadow : (s.addBusConflict).modeShadow = s.modeShadow := rfl
@[simp] theorem State.addBusConflict_hErr : (s.addBusConflict).hErr = s.hErr := rfl
@[simp] theorem State.addBusConflict_faults : (s.addBusConflict).faults = { s.faults with busConflict := true } := rfl
@[simp] theorem State.addBusConflict_lastResult : (s.addBusConflict).lastResult = s.lastResult := rfl
@[simp] theorem State.addBusConflict_cmdBusy : (s.addBusConflict).cmdBusy = s.cmdBusy := rfl
@[simp] theorem State.addBusConflict_cmdIssued : (s.addBusConflict).cmdIssued = s.cmdIssued := rfl
@[simp] theorem State.addBusConflict_ctl : (s.addBusConflict).ctl = s.ctl := rfl
@[simp] theorem State.addBusConflict_lastHit : (s.addBusConflict).lastHit = s.lastHit := rfl
@[simp] theorem State.addBusConflict_lastType : (s.addBusConflict).lastType = s.lastType := rfl
@[simp] theorem State.addBusConflict_ee : (s.addBusConflict).ee = s.ee := rfl
@[simp] theorem State.addBusConflict_wip : (s.addBusConflict).wip = s.wip := rfl
@[simp] theorem State.addBusConflict_wel : (s.addBusConflict).wel = s.wel := rfl
@[simp] theorem State.addBusConflict_pageBuf : (s.addBusConflict).pageBuf = s.pageBuf := rfl
@[simp] theorem State.addBusConflict_eeProtect : (s.addBusConflict).eeProtect = s.eeProtect := rfl
@[simp] theorem State.addBusConflict_out : (s.addBusConflict).out = s.out := rfl
@[simp] theorem State.addBusConflict_busIn : (s.addBusConflict).busIn = s.busIn := rfl
@[simp] theorem State.addBusConflict_busOut : (s.addBusConflict).busOut = s.busOut := rfl
@[simp] theorem State.addBusConflict_script : (s.addBusConflict).script = s.script := rfl
@[simp] theorem State.addBusConflict_sched : (s.addBusConflict).sched = s.sched := rfl
@[simp] theorem State.addBusConflict_modeFair : (s.addBusConflict).modeFair = s.modeFair := rfl
@[simp] theorem State.addBusConflict_events : (s.addBusConflict).events = s.events := rfl
@[simp] theorem State.addBusConflict_freeN : (s.addBusConflict).freeN = s.freeN := rfl

/-! ### addProtocolViolation -/

@[simp] theorem State.addProtocolViolation_cfg : (s.addProtocolViolation).cfg = s.cfg := rfl
@[simp] theorem State.addProtocolViolation_phase : (s.addProtocolViolation).phase = s.phase := rfl
@[simp] theorem State.addProtocolViolation_boot : (s.addProtocolViolation).boot = s.boot := rfl
@[simp] theorem State.addProtocolViolation_mirror : (s.addProtocolViolation).mirror = s.mirror := rfl
@[simp] theorem State.addProtocolViolation_gie : (s.addProtocolViolation).gie = s.gie := rfl
@[simp] theorem State.addProtocolViolation_latch : (s.addProtocolViolation).latch = s.latch := rfl
@[simp] theorem State.addProtocolViolation_intPrev : (s.addProtocolViolation).intPrev = s.intPrev := rfl
@[simp] theorem State.addProtocolViolation_ctx : (s.addProtocolViolation).ctx = s.ctx := rfl
@[simp] theorem State.addProtocolViolation_csCan : (s.addProtocolViolation).csCan = s.csCan := rfl
@[simp] theorem State.addProtocolViolation_csEe : (s.addProtocolViolation).csEe = s.csEe := rfl
@[simp] theorem State.addProtocolViolation_modeShadow : (s.addProtocolViolation).modeShadow = s.modeShadow := rfl
@[simp] theorem State.addProtocolViolation_hErr : (s.addProtocolViolation).hErr = s.hErr := rfl
@[simp] theorem State.addProtocolViolation_faults : (s.addProtocolViolation).faults = { s.faults with protocolViolation := true } := rfl
@[simp] theorem State.addProtocolViolation_lastResult : (s.addProtocolViolation).lastResult = s.lastResult := rfl
@[simp] theorem State.addProtocolViolation_cmdBusy : (s.addProtocolViolation).cmdBusy = s.cmdBusy := rfl
@[simp] theorem State.addProtocolViolation_cmdIssued : (s.addProtocolViolation).cmdIssued = s.cmdIssued := rfl
@[simp] theorem State.addProtocolViolation_ctl : (s.addProtocolViolation).ctl = s.ctl := rfl
@[simp] theorem State.addProtocolViolation_lastHit : (s.addProtocolViolation).lastHit = s.lastHit := rfl
@[simp] theorem State.addProtocolViolation_lastType : (s.addProtocolViolation).lastType = s.lastType := rfl
@[simp] theorem State.addProtocolViolation_ee : (s.addProtocolViolation).ee = s.ee := rfl
@[simp] theorem State.addProtocolViolation_wip : (s.addProtocolViolation).wip = s.wip := rfl
@[simp] theorem State.addProtocolViolation_wel : (s.addProtocolViolation).wel = s.wel := rfl
@[simp] theorem State.addProtocolViolation_pageBuf : (s.addProtocolViolation).pageBuf = s.pageBuf := rfl
@[simp] theorem State.addProtocolViolation_eeProtect : (s.addProtocolViolation).eeProtect = s.eeProtect := rfl
@[simp] theorem State.addProtocolViolation_out : (s.addProtocolViolation).out = s.out := rfl
@[simp] theorem State.addProtocolViolation_busIn : (s.addProtocolViolation).busIn = s.busIn := rfl
@[simp] theorem State.addProtocolViolation_busOut : (s.addProtocolViolation).busOut = s.busOut := rfl
@[simp] theorem State.addProtocolViolation_script : (s.addProtocolViolation).script = s.script := rfl
@[simp] theorem State.addProtocolViolation_sched : (s.addProtocolViolation).sched = s.sched := rfl
@[simp] theorem State.addProtocolViolation_modeFair : (s.addProtocolViolation).modeFair = s.modeFair := rfl
@[simp] theorem State.addProtocolViolation_events : (s.addProtocolViolation).events = s.events := rfl
@[simp] theorem State.addProtocolViolation_freeN : (s.addProtocolViolation).freeN = s.freeN := rfl

/-! ### emit -/

@[simp] theorem State.emit_cfg (e : Event) : (s.emit e).cfg = s.cfg := rfl
@[simp] theorem State.emit_phase (e : Event) : (s.emit e).phase = s.phase := rfl
@[simp] theorem State.emit_boot (e : Event) : (s.emit e).boot = s.boot := rfl
@[simp] theorem State.emit_mirror (e : Event) : (s.emit e).mirror = s.mirror := rfl
@[simp] theorem State.emit_gie (e : Event) : (s.emit e).gie = s.gie := rfl
@[simp] theorem State.emit_latch (e : Event) : (s.emit e).latch = s.latch := rfl
@[simp] theorem State.emit_intPrev (e : Event) : (s.emit e).intPrev = s.intPrev := rfl
@[simp] theorem State.emit_ctx (e : Event) : (s.emit e).ctx = s.ctx := rfl
@[simp] theorem State.emit_csCan (e : Event) : (s.emit e).csCan = s.csCan := rfl
@[simp] theorem State.emit_csEe (e : Event) : (s.emit e).csEe = s.csEe := rfl
@[simp] theorem State.emit_modeShadow (e : Event) : (s.emit e).modeShadow = s.modeShadow := rfl
@[simp] theorem State.emit_hErr (e : Event) : (s.emit e).hErr = s.hErr := rfl
@[simp] theorem State.emit_faults (e : Event) : (s.emit e).faults = s.faults := rfl
@[simp] theorem State.emit_lastResult (e : Event) : (s.emit e).lastResult = s.lastResult := rfl
@[simp] theorem State.emit_cmdBusy (e : Event) : (s.emit e).cmdBusy = s.cmdBusy := rfl
@[simp] theorem State.emit_cmdIssued (e : Event) : (s.emit e).cmdIssued = s.cmdIssued := rfl
@[simp] theorem State.emit_ctl (e : Event) : (s.emit e).ctl = s.ctl := rfl
@[simp] theorem State.emit_lastHit (e : Event) : (s.emit e).lastHit = s.lastHit := rfl
@[simp] theorem State.emit_lastType (e : Event) : (s.emit e).lastType = s.lastType := rfl
@[simp] theorem State.emit_ee (e : Event) : (s.emit e).ee = s.ee := rfl
@[simp] theorem State.emit_wip (e : Event) : (s.emit e).wip = s.wip := rfl
@[simp] theorem State.emit_wel (e : Event) : (s.emit e).wel = s.wel := rfl
@[simp] theorem State.emit_pageBuf (e : Event) : (s.emit e).pageBuf = s.pageBuf := rfl
@[simp] theorem State.emit_eeProtect (e : Event) : (s.emit e).eeProtect = s.eeProtect := rfl
@[simp] theorem State.emit_out (e : Event) : (s.emit e).out = s.out := rfl
@[simp] theorem State.emit_busIn (e : Event) : (s.emit e).busIn = s.busIn := rfl
@[simp] theorem State.emit_busOut (e : Event) : (s.emit e).busOut = s.busOut := rfl
@[simp] theorem State.emit_script (e : Event) : (s.emit e).script = s.script := rfl
@[simp] theorem State.emit_sched (e : Event) : (s.emit e).sched = s.sched := rfl
@[simp] theorem State.emit_modeFair (e : Event) : (s.emit e).modeFair = s.modeFair := rfl
@[simp] theorem State.emit_events (e : Event) : (s.emit e).events = s.events ++ [e] := rfl
@[simp] theorem State.emit_freeN (e : Event) : (s.emit e).freeN = s.freeN := rfl

/-! ### at -/

@[simp] theorem State.at_cfg (p : BootPos) : (s.at p).cfg = s.cfg := rfl
@[simp] theorem State.at_phase (p : BootPos) : (s.at p).phase = s.phase := rfl
@[simp] theorem State.at_boot (p : BootPos) : (s.at p).boot = p := rfl
@[simp] theorem State.at_mirror (p : BootPos) : (s.at p).mirror = s.mirror := rfl
@[simp] theorem State.at_gie (p : BootPos) : (s.at p).gie = s.gie := rfl
@[simp] theorem State.at_latch (p : BootPos) : (s.at p).latch = s.latch := rfl
@[simp] theorem State.at_intPrev (p : BootPos) : (s.at p).intPrev = s.intPrev := rfl
@[simp] theorem State.at_ctx (p : BootPos) : (s.at p).ctx = s.ctx := rfl
@[simp] theorem State.at_csCan (p : BootPos) : (s.at p).csCan = s.csCan := rfl
@[simp] theorem State.at_csEe (p : BootPos) : (s.at p).csEe = s.csEe := rfl
@[simp] theorem State.at_modeShadow (p : BootPos) : (s.at p).modeShadow = s.modeShadow := rfl
@[simp] theorem State.at_hErr (p : BootPos) : (s.at p).hErr = s.hErr := rfl
@[simp] theorem State.at_faults (p : BootPos) : (s.at p).faults = s.faults := rfl
@[simp] theorem State.at_lastResult (p : BootPos) : (s.at p).lastResult = s.lastResult := rfl
@[simp] theorem State.at_cmdBusy (p : BootPos) : (s.at p).cmdBusy = s.cmdBusy := rfl
@[simp] theorem State.at_cmdIssued (p : BootPos) : (s.at p).cmdIssued = s.cmdIssued := rfl
@[simp] theorem State.at_ctl (p : BootPos) : (s.at p).ctl = s.ctl := rfl
@[simp] theorem State.at_lastHit (p : BootPos) : (s.at p).lastHit = s.lastHit := rfl
@[simp] theorem State.at_lastType (p : BootPos) : (s.at p).lastType = s.lastType := rfl
@[simp] theorem State.at_ee (p : BootPos) : (s.at p).ee = s.ee := rfl
@[simp] theorem State.at_wip (p : BootPos) : (s.at p).wip = s.wip := rfl
@[simp] theorem State.at_wel (p : BootPos) : (s.at p).wel = s.wel := rfl
@[simp] theorem State.at_pageBuf (p : BootPos) : (s.at p).pageBuf = s.pageBuf := rfl
@[simp] theorem State.at_eeProtect (p : BootPos) : (s.at p).eeProtect = s.eeProtect := rfl
@[simp] theorem State.at_out (p : BootPos) : (s.at p).out = s.out := rfl
@[simp] theorem State.at_busIn (p : BootPos) : (s.at p).busIn = s.busIn := rfl
@[simp] theorem State.at_busOut (p : BootPos) : (s.at p).busOut = s.busOut := rfl
@[simp] theorem State.at_script (p : BootPos) : (s.at p).script = s.script := rfl
@[simp] theorem State.at_sched (p : BootPos) : (s.at p).sched = s.sched := rfl
@[simp] theorem State.at_modeFair (p : BootPos) : (s.at p).modeFair = s.modeFair := rfl
@[simp] theorem State.at_events (p : BootPos) : (s.at p).events = s.events := rfl
@[simp] theorem State.at_freeN (p : BootPos) : (s.at p).freeN = s.freeN := rfl

/-! ### controllerReset -/

@[simp] theorem State.controllerReset_cfg : (s.controllerReset).cfg = s.cfg := by simp only [State.controllerReset]
@[simp] theorem State.controllerReset_phase : (s.controllerReset).phase = s.phase := by simp only [State.controllerReset]
@[simp] theorem State.controllerReset_boot : (s.controllerReset).boot = s.boot := by simp only [State.controllerReset]
@[simp] theorem State.controllerReset_mirror : (s.controllerReset).mirror = s.mirror := by simp only [State.controllerReset]
@[simp] theorem State.controllerReset_gie : (s.controllerReset).gie = s.gie := by simp only [State.controllerReset]
@[simp] theorem State.controllerReset_latch : (s.controllerReset).latch = s.latch := by simp only [State.controllerReset]
@[simp] theorem State.controllerReset_intPrev : (s.controllerReset).intPrev = s.intPrev := by simp only [State.controllerReset]
@[simp] theorem State.controllerReset_ctx : (s.controllerReset).ctx = s.ctx := by simp only [State.controllerReset]
@[simp] theorem State.controllerReset_csCan : (s.controllerReset).csCan = s.csCan := by simp only [State.controllerReset]
@[simp] theorem State.controllerReset_csEe : (s.controllerReset).csEe = s.csEe := by simp only [State.controllerReset]
@[simp] theorem State.controllerReset_modeShadow : (s.controllerReset).modeShadow = s.modeShadow := by simp only [State.controllerReset]
@[simp] theorem State.controllerReset_hErr : (s.controllerReset).hErr = s.hErr := by simp only [State.controllerReset]
@[simp] theorem State.controllerReset_faults : (s.controllerReset).faults = s.faults := by simp only [State.controllerReset]
@[simp] theorem State.controllerReset_lastResult : (s.controllerReset).lastResult = s.lastResult := by simp only [State.controllerReset]
@[simp] theorem State.controllerReset_cmdBusy : (s.controllerReset).cmdBusy = s.cmdBusy := by simp only [State.controllerReset]
@[simp] theorem State.controllerReset_cmdIssued : (s.controllerReset).cmdIssued = s.cmdIssued := by simp only [State.controllerReset]
@[simp] theorem State.controllerReset_ctl : (s.controllerReset).ctl = Vector.ofFn fun a : Fin 128 => s.resetReg a.val := by simp only [State.controllerReset]
@[simp] theorem State.controllerReset_lastHit : (s.controllerReset).lastHit = s.lastHit := by simp only [State.controllerReset]
@[simp] theorem State.controllerReset_lastType : (s.controllerReset).lastType = s.lastType := by simp only [State.controllerReset]
@[simp] theorem State.controllerReset_ee : (s.controllerReset).ee = s.ee := by simp only [State.controllerReset]
@[simp] theorem State.controllerReset_wip : (s.controllerReset).wip = s.wip := by simp only [State.controllerReset]
@[simp] theorem State.controllerReset_wel : (s.controllerReset).wel = s.wel := by simp only [State.controllerReset]
@[simp] theorem State.controllerReset_pageBuf : (s.controllerReset).pageBuf = s.pageBuf := by simp only [State.controllerReset]
@[simp] theorem State.controllerReset_eeProtect : (s.controllerReset).eeProtect = s.eeProtect := by simp only [State.controllerReset]
@[simp] theorem State.controllerReset_out : (s.controllerReset).out = s.out := by simp only [State.controllerReset]
@[simp] theorem State.controllerReset_busIn : (s.controllerReset).busIn = s.busIn := by simp only [State.controllerReset]
@[simp] theorem State.controllerReset_busOut : (s.controllerReset).busOut = s.busOut := by simp only [State.controllerReset]
@[simp] theorem State.controllerReset_script : (s.controllerReset).script = s.script := by simp only [State.controllerReset]
@[simp] theorem State.controllerReset_sched : (s.controllerReset).sched = s.sched := by simp only [State.controllerReset]
@[simp] theorem State.controllerReset_modeFair : (s.controllerReset).modeFair = s.modeFair := by simp only [State.controllerReset]
@[simp] theorem State.controllerReset_events : (s.controllerReset).events = s.events := by simp only [State.controllerReset]
@[simp] theorem State.controllerReset_freeN : (s.controllerReset).freeN = s.freeN + 128 := by simp only [State.controllerReset]

/-! ### endXfer -/

@[simp] theorem State.endXfer_cfg (x : Xfer) (bs : List Byte) : (s.endXfer x bs).cfg = s.cfg := rfl
@[simp] theorem State.endXfer_phase (x : Xfer) (bs : List Byte) : (s.endXfer x bs).phase = s.phase := rfl
@[simp] theorem State.endXfer_boot (x : Xfer) (bs : List Byte) : (s.endXfer x bs).boot = s.boot := rfl
@[simp] theorem State.endXfer_mirror (x : Xfer) (bs : List Byte) : (s.endXfer x bs).mirror = s.mirror := rfl
@[simp] theorem State.endXfer_gie (x : Xfer) (bs : List Byte) : (s.endXfer x bs).gie = s.gie := rfl
@[simp] theorem State.endXfer_latch (x : Xfer) (bs : List Byte) : (s.endXfer x bs).latch = s.latch := rfl
@[simp] theorem State.endXfer_intPrev (x : Xfer) (bs : List Byte) : (s.endXfer x bs).intPrev = s.intPrev := rfl
@[simp] theorem State.endXfer_ctx (x : Xfer) (bs : List Byte) : (s.endXfer x bs).ctx = s.ctx := rfl
@[simp] theorem State.endXfer_csCan (x : Xfer) (bs : List Byte) : (s.endXfer x bs).csCan = false := rfl
@[simp] theorem State.endXfer_csEe (x : Xfer) (bs : List Byte) : (s.endXfer x bs).csEe = false := rfl
@[simp] theorem State.endXfer_modeShadow (x : Xfer) (bs : List Byte) : (s.endXfer x bs).modeShadow = s.modeShadow := rfl
@[simp] theorem State.endXfer_hErr (x : Xfer) (bs : List Byte) : (s.endXfer x bs).hErr = s.hErr := rfl
@[simp] theorem State.endXfer_faults (x : Xfer) (bs : List Byte) : (s.endXfer x bs).faults = s.faults := rfl
@[simp] theorem State.endXfer_lastResult (x : Xfer) (bs : List Byte) : (s.endXfer x bs).lastResult = s.lastResult := rfl
@[simp] theorem State.endXfer_cmdBusy (x : Xfer) (bs : List Byte) : (s.endXfer x bs).cmdBusy = s.cmdBusy := rfl
@[simp] theorem State.endXfer_cmdIssued (x : Xfer) (bs : List Byte) : (s.endXfer x bs).cmdIssued = (s.cmdIssued || (s.cmdBusy && s.ctx == .foreground)) := rfl
@[simp] theorem State.endXfer_ctl (x : Xfer) (bs : List Byte) : (s.endXfer x bs).ctl = s.ctl := rfl
@[simp] theorem State.endXfer_lastHit (x : Xfer) (bs : List Byte) : (s.endXfer x bs).lastHit = s.lastHit := rfl
@[simp] theorem State.endXfer_lastType (x : Xfer) (bs : List Byte) : (s.endXfer x bs).lastType = s.lastType := rfl
@[simp] theorem State.endXfer_ee (x : Xfer) (bs : List Byte) : (s.endXfer x bs).ee = s.ee := rfl
@[simp] theorem State.endXfer_wip (x : Xfer) (bs : List Byte) : (s.endXfer x bs).wip = s.wip := rfl
@[simp] theorem State.endXfer_wel (x : Xfer) (bs : List Byte) : (s.endXfer x bs).wel = s.wel := rfl
@[simp] theorem State.endXfer_pageBuf (x : Xfer) (bs : List Byte) : (s.endXfer x bs).pageBuf = s.pageBuf := rfl
@[simp] theorem State.endXfer_eeProtect (x : Xfer) (bs : List Byte) : (s.endXfer x bs).eeProtect = s.eeProtect := rfl
@[simp] theorem State.endXfer_out (x : Xfer) (bs : List Byte) : (s.endXfer x bs).out = s.out := rfl
@[simp] theorem State.endXfer_busIn (x : Xfer) (bs : List Byte) : (s.endXfer x bs).busIn = s.busIn := rfl
@[simp] theorem State.endXfer_busOut (x : Xfer) (bs : List Byte) : (s.endXfer x bs).busOut = s.busOut := rfl
@[simp] theorem State.endXfer_script (x : Xfer) (bs : List Byte) : (s.endXfer x bs).script = s.script := rfl
@[simp] theorem State.endXfer_sched (x : Xfer) (bs : List Byte) : (s.endXfer x bs).sched = s.sched := rfl
@[simp] theorem State.endXfer_modeFair (x : Xfer) (bs : List Byte) : (s.endXfer x bs).modeFair = s.modeFair := rfl
@[simp] theorem State.endXfer_events (x : Xfer) (bs : List Byte) : (s.endXfer x bs).events = s.events ++ [.xfer x.dev (x.out s.cfg) bs] := rfl
@[simp] theorem State.endXfer_freeN (x : Xfer) (bs : List Byte) : (s.endXfer x bs).freeN = s.freeN := rfl

/-! ### sample -/

@[simp] theorem sample_cfg : (sample s).cfg = s.cfg := rfl
@[simp] theorem sample_phase : (sample s).phase = s.phase := rfl
@[simp] theorem sample_boot : (sample s).boot = s.boot := rfl
@[simp] theorem sample_mirror : (sample s).mirror = s.mirror := rfl
@[simp] theorem sample_gie : (sample s).gie = s.gie := rfl
@[simp] theorem sample_latch : (sample s).latch = (s.latch || (s.intLine && !s.intPrev)) := rfl
@[simp] theorem sample_intPrev : (sample s).intPrev = s.intLine := rfl
@[simp] theorem sample_ctx : (sample s).ctx = s.ctx := rfl
@[simp] theorem sample_csCan : (sample s).csCan = s.csCan := rfl
@[simp] theorem sample_csEe : (sample s).csEe = s.csEe := rfl
@[simp] theorem sample_modeShadow : (sample s).modeShadow = s.modeShadow := rfl
@[simp] theorem sample_hErr : (sample s).hErr = s.hErr := rfl
@[simp] theorem sample_faults : (sample s).faults = s.faults := rfl
@[simp] theorem sample_lastResult : (sample s).lastResult = s.lastResult := rfl
@[simp] theorem sample_cmdBusy : (sample s).cmdBusy = s.cmdBusy := rfl
@[simp] theorem sample_cmdIssued : (sample s).cmdIssued = s.cmdIssued := rfl
@[simp] theorem sample_ctl : (sample s).ctl = s.ctl := rfl
@[simp] theorem sample_lastHit : (sample s).lastHit = s.lastHit := rfl
@[simp] theorem sample_lastType : (sample s).lastType = s.lastType := rfl
@[simp] theorem sample_ee : (sample s).ee = s.ee := rfl
@[simp] theorem sample_wip : (sample s).wip = s.wip := rfl
@[simp] theorem sample_wel : (sample s).wel = s.wel := rfl
@[simp] theorem sample_pageBuf : (sample s).pageBuf = s.pageBuf := rfl
@[simp] theorem sample_eeProtect : (sample s).eeProtect = s.eeProtect := rfl
@[simp] theorem sample_out : (sample s).out = s.out := rfl
@[simp] theorem sample_busIn : (sample s).busIn = s.busIn := rfl
@[simp] theorem sample_busOut : (sample s).busOut = s.busOut := rfl
@[simp] theorem sample_script : (sample s).script = s.script := rfl
@[simp] theorem sample_sched : (sample s).sched = s.sched := rfl
@[simp] theorem sample_modeFair : (sample s).modeFair = s.modeFair := rfl
@[simp] theorem sample_events : (sample s).events = s.events := rfl
@[simp] theorem sample_freeN : (sample s).freeN = s.freeN := rfl

/-! ### beginCommand -/

@[simp] theorem beginCommand_cfg : (beginCommand s).cfg = s.cfg := rfl
@[simp] theorem beginCommand_phase : (beginCommand s).phase = s.phase := rfl
@[simp] theorem beginCommand_boot : (beginCommand s).boot = s.boot := rfl
@[simp] theorem beginCommand_mirror : (beginCommand s).mirror = s.mirror := rfl
@[simp] theorem beginCommand_gie : (beginCommand s).gie = s.gie := rfl
@[simp] theorem beginCommand_latch : (beginCommand s).latch = s.latch := rfl
@[simp] theorem beginCommand_intPrev : (beginCommand s).intPrev = s.intPrev := rfl
@[simp] theorem beginCommand_ctx : (beginCommand s).ctx = s.ctx := rfl
@[simp] theorem beginCommand_csCan : (beginCommand s).csCan = s.csCan := rfl
@[simp] theorem beginCommand_csEe : (beginCommand s).csEe = s.csEe := rfl
@[simp] theorem beginCommand_modeShadow : (beginCommand s).modeShadow = s.modeShadow := rfl
@[simp] theorem beginCommand_hErr : (beginCommand s).hErr = s.hErr := rfl
@[simp] theorem beginCommand_faults : (beginCommand s).faults = s.faults := rfl
@[simp] theorem beginCommand_lastResult : (beginCommand s).lastResult = s.lastResult := rfl
@[simp] theorem beginCommand_cmdBusy : (beginCommand s).cmdBusy = true := rfl
@[simp] theorem beginCommand_cmdIssued : (beginCommand s).cmdIssued = false := rfl
@[simp] theorem beginCommand_ctl : (beginCommand s).ctl = s.ctl := rfl
@[simp] theorem beginCommand_lastHit : (beginCommand s).lastHit = s.lastHit := rfl
@[simp] theorem beginCommand_lastType : (beginCommand s).lastType = s.lastType := rfl
@[simp] theorem beginCommand_ee : (beginCommand s).ee = s.ee := rfl
@[simp] theorem beginCommand_wip : (beginCommand s).wip = s.wip := rfl
@[simp] theorem beginCommand_wel : (beginCommand s).wel = s.wel := rfl
@[simp] theorem beginCommand_pageBuf : (beginCommand s).pageBuf = s.pageBuf := rfl
@[simp] theorem beginCommand_eeProtect : (beginCommand s).eeProtect = s.eeProtect := rfl
@[simp] theorem beginCommand_out : (beginCommand s).out = s.out := rfl
@[simp] theorem beginCommand_busIn : (beginCommand s).busIn = s.busIn := rfl
@[simp] theorem beginCommand_busOut : (beginCommand s).busOut = s.busOut := rfl
@[simp] theorem beginCommand_script : (beginCommand s).script = s.script := rfl
@[simp] theorem beginCommand_sched : (beginCommand s).sched = s.sched := rfl
@[simp] theorem beginCommand_modeFair : (beginCommand s).modeFair = s.modeFair := rfl
@[simp] theorem beginCommand_events : (beginCommand s).events = s.events := rfl
@[simp] theorem beginCommand_freeN : (beginCommand s).freeN = s.freeN := rfl

/-! ### leaveHandler -/

@[simp] theorem leaveHandler_cfg : (leaveHandler s).cfg = s.cfg := rfl
@[simp] theorem leaveHandler_phase : (leaveHandler s).phase = s.phase := rfl
@[simp] theorem leaveHandler_boot : (leaveHandler s).boot = s.boot := rfl
@[simp] theorem leaveHandler_mirror : (leaveHandler s).mirror = s.mirror := rfl
@[simp] theorem leaveHandler_gie : (leaveHandler s).gie = s.gie := rfl
@[simp] theorem leaveHandler_latch : (leaveHandler s).latch = (s.latch || (s.intLine && !s.intPrev)) := rfl
@[simp] theorem leaveHandler_intPrev : (leaveHandler s).intPrev = s.intLine := rfl
@[simp] theorem leaveHandler_ctx : (leaveHandler s).ctx = .foreground := rfl
@[simp] theorem leaveHandler_csCan : (leaveHandler s).csCan = s.csCan := rfl
@[simp] theorem leaveHandler_csEe : (leaveHandler s).csEe = s.csEe := rfl
@[simp] theorem leaveHandler_modeShadow : (leaveHandler s).modeShadow = s.modeShadow := rfl
@[simp] theorem leaveHandler_hErr : (leaveHandler s).hErr = s.hErr := rfl
@[simp] theorem leaveHandler_faults : (leaveHandler s).faults = s.faults := rfl
@[simp] theorem leaveHandler_lastResult : (leaveHandler s).lastResult = s.lastResult := rfl
@[simp] theorem leaveHandler_cmdBusy : (leaveHandler s).cmdBusy = s.cmdBusy := rfl
@[simp] theorem leaveHandler_cmdIssued : (leaveHandler s).cmdIssued = s.cmdIssued := rfl
@[simp] theorem leaveHandler_ctl : (leaveHandler s).ctl = s.ctl := rfl
@[simp] theorem leaveHandler_lastHit : (leaveHandler s).lastHit = s.lastHit := rfl
@[simp] theorem leaveHandler_lastType : (leaveHandler s).lastType = s.lastType := rfl
@[simp] theorem leaveHandler_ee : (leaveHandler s).ee = s.ee := rfl
@[simp] theorem leaveHandler_wip : (leaveHandler s).wip = s.wip := rfl
@[simp] theorem leaveHandler_wel : (leaveHandler s).wel = s.wel := rfl
@[simp] theorem leaveHandler_pageBuf : (leaveHandler s).pageBuf = s.pageBuf := rfl
@[simp] theorem leaveHandler_eeProtect : (leaveHandler s).eeProtect = s.eeProtect := rfl
@[simp] theorem leaveHandler_out : (leaveHandler s).out = s.out := rfl
@[simp] theorem leaveHandler_busIn : (leaveHandler s).busIn = s.busIn := rfl
@[simp] theorem leaveHandler_busOut : (leaveHandler s).busOut = s.busOut := rfl
@[simp] theorem leaveHandler_script : (leaveHandler s).script = s.script := rfl
@[simp] theorem leaveHandler_sched : (leaveHandler s).sched = s.sched := rfl
@[simp] theorem leaveHandler_modeFair : (leaveHandler s).modeFair = s.modeFair := rfl
@[simp] theorem leaveHandler_events : (leaveHandler s).events = s.events := rfl
@[simp] theorem leaveHandler_freeN : (leaveHandler s).freeN = s.freeN := rfl

end Sys2Proof.Machine
end

