-- ==== Sys2Proof/Laws/Views.lean ====
section
/-! SUPPORT. One lemma for each view of State (a register, a mode, a flag) and each named update that leaves it alone. -/

namespace Sys2Proof.Machine

variable (s : State)

/-- The array once the running write cycle has ended. -/
theorem settled_eq : s.settled = if s.wip then s.ee.writeCells s.cfg.eeSize s.pageBuf else s.ee := by
  unfold State.settled State.cycleEnd
  split <;> rfl

@[simp] theorem State.setReg_mirrorAt (a : Nat) (v : Byte) (k : Nat) : (s.setReg a v).mirrorAt k = s.mirrorAt k := rfl
@[simp] theorem State.setReg_outAt (a : Nat) (v : Byte) (k : Nat) : (s.setReg a v).outAt k = s.outAt k := rfl
@[simp] theorem State.setReg_eeStatus (a : Nat) (v : Byte) : (s.setReg a v).eeStatus = s.eeStatus := rfl
@[simp] theorem State.setReg_settled (a : Nat) (v : Byte) : (s.setReg a v).settled = s.settled := by simp only [settled_eq]; rfl
@[simp] theorem State.setMirror_reg (n : Nat) (f : SigFmt) (a' : Nat) : (s.setMirror n f).reg a' = s.reg a' := rfl
@[simp] theorem State.setMirror_outAt (n : Nat) (f : SigFmt) (k : Nat) : (s.setMirror n f).outAt k = s.outAt k := rfl
@[simp] theorem State.setMirror_opmod (n : Nat) (f : SigFmt) : (s.setMirror n f).opmod = s.opmod := rfl
@[simp] theorem State.setMirror_reqop (n : Nat) (f : SigFmt) : (s.setMirror n f).reqop = s.reqop := rfl
@[simp] theorem State.setMirror_inMode (n : Nat) (f : SigFmt) (m : Mode) : (s.setMirror n f).inMode m = s.inMode m := rfl
@[simp] theorem State.setMirror_txreq (n : Nat) (f : SigFmt) : (s.setMirror n f).txreq = s.txreq := rfl
@[simp] theorem State.setMirror_txerr (n : Nat) (f : SigFmt) : (s.setMirror n f).txerr = s.txerr := rfl
@[simp] theorem State.setMirror_rxFlag (n : Nat) (f : SigFmt) (b : Nat) : (s.setMirror n f).rxFlag b = s.rxFlag b := rfl
@[simp] theorem State.setMirror_intLine (n : Nat) (f : SigFmt) : (s.setMirror n f).intLine = s.intLine := rfl
@[simp] theorem State.setMirror_rxStatusByte (n : Nat) (f : SigFmt) : (s.setMirror n f).rxStatusByte = s.rxStatusByte := rfl
@[simp] theorem State.setMirror_eeStatus (n : Nat) (f : SigFmt) : (s.setMirror n f).eeStatus = s.eeStatus := rfl
@[simp] theorem State.setMirror_settled (n : Nat) (f : SigFmt) : (s.setMirror n f).settled = s.settled := by simp only [settled_eq]; rfl
@[simp] theorem State.setChannel_reg (n : Nat) (v : U16) (a' : Nat) : (s.setChannel n v).reg a' = s.reg a' := rfl
@[simp] theorem State.setChannel_mirrorAt (n : Nat) (v : U16) (k : Nat) : (s.setChannel n v).mirrorAt k = s.mirrorAt k := rfl
@[simp] theorem State.setChannel_opmod (n : Nat) (v : U16) : (s.setChannel n v).opmod = s.opmod := rfl
@[simp] theorem State.setChannel_reqop (n : Nat) (v : U16) : (s.setChannel n v).reqop = s.reqop := rfl
@[simp] theorem State.setChannel_inMode (n : Nat) (v : U16) (m : Mode) : (s.setChannel n v).inMode m = s.inMode m := rfl
@[simp] theorem State.setChannel_txreq (n : Nat) (v : U16) : (s.setChannel n v).txreq = s.txreq := rfl
@[simp] theorem State.setChannel_txerr (n : Nat) (v : U16) : (s.setChannel n v).txerr = s.txerr := rfl
@[simp] theorem State.setChannel_rxFlag (n : Nat) (v : U16) (b : Nat) : (s.setChannel n v).rxFlag b = s.rxFlag b := rfl
@[simp] theorem State.setChannel_intLine (n : Nat) (v : U16) : (s.setChannel n v).intLine = s.intLine := rfl
@[simp] theorem State.setChannel_rxStatusByte (n : Nat) (v : U16) : (s.setChannel n v).rxStatusByte = s.rxStatusByte := rfl
@[simp] theorem State.setChannel_eeStatus (n : Nat) (v : U16) : (s.setChannel n v).eeStatus = s.eeStatus := rfl
@[simp] theorem State.setChannel_settled (n : Nat) (v : U16) : (s.setChannel n v).settled = s.settled := by simp only [settled_eq]; rfl
@[simp] theorem State.takeFree_reg (n : Nat) (a' : Nat) : (s.takeFree n).reg a' = s.reg a' := rfl
@[simp] theorem State.takeFree_mirrorAt (n : Nat) (k : Nat) : (s.takeFree n).mirrorAt k = s.mirrorAt k := rfl
@[simp] theorem State.takeFree_outAt (n : Nat) (k : Nat) : (s.takeFree n).outAt k = s.outAt k := rfl
@[simp] theorem State.takeFree_opmod (n : Nat) : (s.takeFree n).opmod = s.opmod := rfl
@[simp] theorem State.takeFree_reqop (n : Nat) : (s.takeFree n).reqop = s.reqop := rfl
@[simp] theorem State.takeFree_inMode (n : Nat) (m : Mode) : (s.takeFree n).inMode m = s.inMode m := rfl
@[simp] theorem State.takeFree_txreq (n : Nat) : (s.takeFree n).txreq = s.txreq := rfl
@[simp] theorem State.takeFree_txerr (n : Nat) : (s.takeFree n).txerr = s.txerr := rfl
@[simp] theorem State.takeFree_rxFlag (n : Nat) (b : Nat) : (s.takeFree n).rxFlag b = s.rxFlag b := rfl
@[simp] theorem State.takeFree_intLine (n : Nat) : (s.takeFree n).intLine = s.intLine := rfl
@[simp] theorem State.takeFree_rxStatusByte (n : Nat) : (s.takeFree n).rxStatusByte = s.rxStatusByte := rfl
@[simp] theorem State.takeFree_eeStatus (n : Nat) : (s.takeFree n).eeStatus = s.eeStatus := rfl
@[simp] theorem State.takeFree_settled (n : Nat) : (s.takeFree n).settled = s.settled := by simp only [settled_eq]; rfl
@[simp] theorem State.addUnloadedMirror_reg (a' : Nat) : (s.addUnloadedMirror).reg a' = s.reg a' := rfl
@[simp] theorem State.addUnloadedMirror_mirrorAt (k : Nat) : (s.addUnloadedMirror).mirrorAt k = s.mirrorAt k := rfl
@[simp] theorem State.addUnloadedMirror_outAt (k : Nat) : (s.addUnloadedMirror).outAt k = s.outAt k := rfl
@[simp] theorem State.addUnloadedMirror_opmod : (s.addUnloadedMirror).opmod = s.opmod := rfl
@[simp] theorem State.addUnloadedMirror_reqop : (s.addUnloadedMirror).reqop = s.reqop := rfl
@[simp] theorem State.addUnloadedMirror_inMode (m : Mode) : (s.addUnloadedMirror).inMode m = s.inMode m := rfl
@[simp] theorem State.addUnloadedMirror_txreq : (s.addUnloadedMirror).txreq = s.txreq := rfl
@[simp] theorem State.addUnloadedMirror_txerr : (s.addUnloadedMirror).txerr = s.txerr := rfl
@[simp] theorem State.addUnloadedMirror_rxFlag (b : Nat) : (s.addUnloadedMirror).rxFlag b = s.rxFlag b := rfl
@[simp] theorem State.addUnloadedMirror_intLine : (s.addUnloadedMirror).intLine = s.intLine := rfl
@[simp] theorem State.addUnloadedMirror_rxStatusByte : (s.addUnloadedMirror).rxStatusByte = s.rxStatusByte := rfl
@[simp] theorem State.addUnloadedMirror_eeStatus : (s.addUnloadedMirror).eeStatus = s.eeStatus := rfl
@[simp] theorem State.addUnloadedMirror_settled : (s.addUnloadedMirror).settled = s.settled := by simp only [settled_eq]; rfl
@[simp] theorem State.addBusConflict_reg (a' : Nat) : (s.addBusConflict).reg a' = s.reg a' := rfl
@[simp] theorem State.addBusConflict_mirrorAt (k : Nat) : (s.addBusConflict).mirrorAt k = s.mirrorAt k := rfl
@[simp] theorem State.addBusConflict_outAt (k : Nat) : (s.addBusConflict).outAt k = s.outAt k := rfl
@[simp] theorem State.addBusConflict_opmod : (s.addBusConflict).opmod = s.opmod := rfl
@[simp] theorem State.addBusConflict_reqop : (s.addBusConflict).reqop = s.reqop := rfl
@[simp] theorem State.addBusConflict_inMode (m : Mode) : (s.addBusConflict).inMode m = s.inMode m := rfl
@[simp] theorem State.addBusConflict_txreq : (s.addBusConflict).txreq = s.txreq := rfl
@[simp] theorem State.addBusConflict_txerr : (s.addBusConflict).txerr = s.txerr := rfl
@[simp] theorem State.addBusConflict_rxFlag (b : Nat) : (s.addBusConflict).rxFlag b = s.rxFlag b := rfl
@[simp] theorem State.addBusConflict_intLine : (s.addBusConflict).intLine = s.intLine := rfl
@[simp] theorem State.addBusConflict_rxStatusByte : (s.addBusConflict).rxStatusByte = s.rxStatusByte := rfl
@[simp] theorem State.addBusConflict_eeStatus : (s.addBusConflict).eeStatus = s.eeStatus := rfl
@[simp] theorem State.addBusConflict_settled : (s.addBusConflict).settled = s.settled := by simp only [settled_eq]; rfl
@[simp] theorem State.addProtocolViolation_reg (a' : Nat) : (s.addProtocolViolation).reg a' = s.reg a' := rfl
@[simp] theorem State.addProtocolViolation_mirrorAt (k : Nat) : (s.addProtocolViolation).mirrorAt k = s.mirrorAt k := rfl
@[simp] theorem State.addProtocolViolation_outAt (k : Nat) : (s.addProtocolViolation).outAt k = s.outAt k := rfl
@[simp] theorem State.addProtocolViolation_opmod : (s.addProtocolViolation).opmod = s.opmod := rfl
@[simp] theorem State.addProtocolViolation_reqop : (s.addProtocolViolation).reqop = s.reqop := rfl
@[simp] theorem State.addProtocolViolation_inMode (m : Mode) : (s.addProtocolViolation).inMode m = s.inMode m := rfl
@[simp] theorem State.addProtocolViolation_txreq : (s.addProtocolViolation).txreq = s.txreq := rfl
@[simp] theorem State.addProtocolViolation_txerr : (s.addProtocolViolation).txerr = s.txerr := rfl
@[simp] theorem State.addProtocolViolation_rxFlag (b : Nat) : (s.addProtocolViolation).rxFlag b = s.rxFlag b := rfl
@[simp] theorem State.addProtocolViolation_intLine : (s.addProtocolViolation).intLine = s.intLine := rfl
@[simp] theorem State.addProtocolViolation_rxStatusByte : (s.addProtocolViolation).rxStatusByte = s.rxStatusByte := rfl
@[simp] theorem State.addProtocolViolation_eeStatus : (s.addProtocolViolation).eeStatus = s.eeStatus := rfl
@[simp] theorem State.addProtocolViolation_settled : (s.addProtocolViolation).settled = s.settled := by simp only [settled_eq]; rfl
@[simp] theorem State.emit_reg (e : Event) (a' : Nat) : (s.emit e).reg a' = s.reg a' := rfl
@[simp] theorem State.emit_mirrorAt (e : Event) (k : Nat) : (s.emit e).mirrorAt k = s.mirrorAt k := rfl
@[simp] theorem State.emit_outAt (e : Event) (k : Nat) : (s.emit e).outAt k = s.outAt k := rfl
@[simp] theorem State.emit_opmod (e : Event) : (s.emit e).opmod = s.opmod := rfl
@[simp] theorem State.emit_reqop (e : Event) : (s.emit e).reqop = s.reqop := rfl
@[simp] theorem State.emit_inMode (e : Event) (m : Mode) : (s.emit e).inMode m = s.inMode m := rfl
@[simp] theorem State.emit_txreq (e : Event) : (s.emit e).txreq = s.txreq := rfl
@[simp] theorem State.emit_txerr (e : Event) : (s.emit e).txerr = s.txerr := rfl
@[simp] theorem State.emit_rxFlag (e : Event) (b : Nat) : (s.emit e).rxFlag b = s.rxFlag b := rfl
@[simp] theorem State.emit_intLine (e : Event) : (s.emit e).intLine = s.intLine := rfl
@[simp] theorem State.emit_rxStatusByte (e : Event) : (s.emit e).rxStatusByte = s.rxStatusByte := rfl
@[simp] theorem State.emit_eeStatus (e : Event) : (s.emit e).eeStatus = s.eeStatus := rfl
@[simp] theorem State.emit_settled (e : Event) : (s.emit e).settled = s.settled := by simp only [settled_eq]; rfl
@[simp] theorem State.at_reg (p : BootPos) (a' : Nat) : (s.at p).reg a' = s.reg a' := rfl
@[simp] theorem State.at_mirrorAt (p : BootPos) (k : Nat) : (s.at p).mirrorAt k = s.mirrorAt k := rfl
@[simp] theorem State.at_outAt (p : BootPos) (k : Nat) : (s.at p).outAt k = s.outAt k := rfl
@[simp] theorem State.at_opmod (p : BootPos) : (s.at p).opmod = s.opmod := rfl
@[simp] theorem State.at_reqop (p : BootPos) : (s.at p).reqop = s.reqop := rfl
@[simp] theorem State.at_inMode (p : BootPos) (m : Mode) : (s.at p).inMode m = s.inMode m := rfl
@[simp] theorem State.at_txreq (p : BootPos) : (s.at p).txreq = s.txreq := rfl
@[simp] theorem State.at_txerr (p : BootPos) : (s.at p).txerr = s.txerr := rfl
@[simp] theorem State.at_rxFlag (p : BootPos) (b : Nat) : (s.at p).rxFlag b = s.rxFlag b := rfl
@[simp] theorem State.at_intLine (p : BootPos) : (s.at p).intLine = s.intLine := rfl
@[simp] theorem State.at_rxStatusByte (p : BootPos) : (s.at p).rxStatusByte = s.rxStatusByte := rfl
@[simp] theorem State.at_eeStatus (p : BootPos) : (s.at p).eeStatus = s.eeStatus := rfl
@[simp] theorem State.at_settled (p : BootPos) : (s.at p).settled = s.settled := by simp only [settled_eq]; rfl
@[simp] theorem State.controllerReset_mirrorAt (k : Nat) : (s.controllerReset).mirrorAt k = s.mirrorAt k := by simp only [State.mirrorAt, State.controllerReset]
@[simp] theorem State.controllerReset_outAt (k : Nat) : (s.controllerReset).outAt k = s.outAt k := by simp only [State.outAt, State.controllerReset]
@[simp] theorem State.controllerReset_eeStatus : (s.controllerReset).eeStatus = s.eeStatus := by simp only [State.eeStatus, State.controllerReset]
@[simp] theorem State.controllerReset_settled : (s.controllerReset).settled = s.settled := by simp only [settled_eq, State.controllerReset_ee, State.controllerReset_wip, State.controllerReset_pageBuf, State.controllerReset_cfg]
@[simp] theorem State.endXfer_reg (x : Xfer) (bs : List Byte) (a' : Nat) : (s.endXfer x bs).reg a' = s.reg a' := rfl
@[simp] theorem State.endXfer_mirrorAt (x : Xfer) (bs : List Byte) (k : Nat) : (s.endXfer x bs).mirrorAt k = s.mirrorAt k := rfl
@[simp] theorem State.endXfer_outAt (x : Xfer) (bs : List Byte) (k : Nat) : (s.endXfer x bs).outAt k = s.outAt k := rfl
@[simp] theorem State.endXfer_opmod (x : Xfer) (bs : List Byte) : (s.endXfer x bs).opmod = s.opmod := rfl
@[simp] theorem State.endXfer_reqop (x : Xfer) (bs : List Byte) : (s.endXfer x bs).reqop = s.reqop := rfl
@[simp] theorem State.endXfer_inMode (x : Xfer) (bs : List Byte) (m : Mode) : (s.endXfer x bs).inMode m = s.inMode m := rfl
@[simp] theorem State.endXfer_txreq (x : Xfer) (bs : List Byte) : (s.endXfer x bs).txreq = s.txreq := rfl
@[simp] theorem State.endXfer_txerr (x : Xfer) (bs : List Byte) : (s.endXfer x bs).txerr = s.txerr := rfl
@[simp] theorem State.endXfer_rxFlag (x : Xfer) (bs : List Byte) (b : Nat) : (s.endXfer x bs).rxFlag b = s.rxFlag b := rfl
@[simp] theorem State.endXfer_intLine (x : Xfer) (bs : List Byte) : (s.endXfer x bs).intLine = s.intLine := rfl
@[simp] theorem State.endXfer_rxStatusByte (x : Xfer) (bs : List Byte) : (s.endXfer x bs).rxStatusByte = s.rxStatusByte := rfl
@[simp] theorem State.endXfer_eeStatus (x : Xfer) (bs : List Byte) : (s.endXfer x bs).eeStatus = s.eeStatus := rfl
@[simp] theorem State.endXfer_settled (x : Xfer) (bs : List Byte) : (s.endXfer x bs).settled = s.settled := by simp only [settled_eq]; rfl
@[simp] theorem sample_reg (a' : Nat) : (sample s).reg a' = s.reg a' := rfl
@[simp] theorem sample_mirrorAt (k : Nat) : (sample s).mirrorAt k = s.mirrorAt k := rfl
@[simp] theorem sample_outAt (k : Nat) : (sample s).outAt k = s.outAt k := rfl
@[simp] theorem sample_opmod : (sample s).opmod = s.opmod := rfl
@[simp] theorem sample_reqop : (sample s).reqop = s.reqop := rfl
@[simp] theorem sample_inMode (m : Mode) : (sample s).inMode m = s.inMode m := rfl
@[simp] theorem sample_txreq : (sample s).txreq = s.txreq := rfl
@[simp] theorem sample_txerr : (sample s).txerr = s.txerr := rfl
@[simp] theorem sample_rxFlag (b : Nat) : (sample s).rxFlag b = s.rxFlag b := rfl
@[simp] theorem sample_intLine : (sample s).intLine = s.intLine := rfl
@[simp] theorem sample_rxStatusByte : (sample s).rxStatusByte = s.rxStatusByte := rfl
@[simp] theorem sample_eeStatus : (sample s).eeStatus = s.eeStatus := rfl
@[simp] theorem sample_settled : (sample s).settled = s.settled := by simp only [settled_eq]; rfl
@[simp] theorem beginCommand_reg (a' : Nat) : (beginCommand s).reg a' = s.reg a' := rfl
@[simp] theorem beginCommand_mirrorAt (k : Nat) : (beginCommand s).mirrorAt k = s.mirrorAt k := rfl
@[simp] theorem beginCommand_outAt (k : Nat) : (beginCommand s).outAt k = s.outAt k := rfl
@[simp] theorem beginCommand_opmod : (beginCommand s).opmod = s.opmod := rfl
@[simp] theorem beginCommand_reqop : (beginCommand s).reqop = s.reqop := rfl
@[simp] theorem beginCommand_inMode (m : Mode) : (beginCommand s).inMode m = s.inMode m := rfl
@[simp] theorem beginCommand_txreq : (beginCommand s).txreq = s.txreq := rfl
@[simp] theorem beginCommand_txerr : (beginCommand s).txerr = s.txerr := rfl
@[simp] theorem beginCommand_rxFlag (b : Nat) : (beginCommand s).rxFlag b = s.rxFlag b := rfl
@[simp] theorem beginCommand_intLine : (beginCommand s).intLine = s.intLine := rfl
@[simp] theorem beginCommand_rxStatusByte : (beginCommand s).rxStatusByte = s.rxStatusByte := rfl
@[simp] theorem beginCommand_eeStatus : (beginCommand s).eeStatus = s.eeStatus := rfl
@[simp] theorem beginCommand_settled : (beginCommand s).settled = s.settled := by simp only [settled_eq]; rfl
@[simp] theorem leaveHandler_reg (a' : Nat) : (leaveHandler s).reg a' = s.reg a' := rfl
@[simp] theorem leaveHandler_mirrorAt (k : Nat) : (leaveHandler s).mirrorAt k = s.mirrorAt k := rfl
@[simp] theorem leaveHandler_outAt (k : Nat) : (leaveHandler s).outAt k = s.outAt k := rfl
@[simp] theorem leaveHandler_opmod : (leaveHandler s).opmod = s.opmod := rfl
@[simp] theorem leaveHandler_reqop : (leaveHandler s).reqop = s.reqop := rfl
@[simp] theorem leaveHandler_inMode (m : Mode) : (leaveHandler s).inMode m = s.inMode m := rfl
@[simp] theorem leaveHandler_txreq : (leaveHandler s).txreq = s.txreq := rfl
@[simp] theorem leaveHandler_txerr : (leaveHandler s).txerr = s.txerr := rfl
@[simp] theorem leaveHandler_rxFlag (b : Nat) : (leaveHandler s).rxFlag b = s.rxFlag b := rfl
@[simp] theorem leaveHandler_intLine : (leaveHandler s).intLine = s.intLine := rfl
@[simp] theorem leaveHandler_rxStatusByte : (leaveHandler s).rxStatusByte = s.rxStatusByte := rfl
@[simp] theorem leaveHandler_eeStatus : (leaveHandler s).eeStatus = s.eeStatus := rfl
@[simp] theorem leaveHandler_settled : (leaveHandler s).settled = s.settled := by simp only [settled_eq]; rfl

end Sys2Proof.Machine
end

