-- ==== Sys2Proof/Laws/Registers.lean ====
section
/-! SUPPORT. Register reads after register writes, the mode field, single bits, and what a block write leaves (R83, R104,
R105). -/

namespace Sys2Proof.Machine

/-! ### Bytes -/

@[simp] theorem modeBits_withModeBits (b : Byte) (c : BitVec 3) : modeBits (withModeBits b c) = c := by
  unfold modeBits withModeBits
  ext i hi
  simp only [BitVec.getElem_extractLsb', BitVec.getLsbD_append]
  have : ¬ (5 + i < 5) := by omega
  simp [this, BitVec.getLsbD_eq_getElem hi]

theorem bitOf_withBit (b : Byte) (i j : Nat) (v : Bool) (hi : i < 8) :
    bitOf (withBit b i v) j = if j = i then v else bitOf b j := by
  unfold bitOf withBit
  split
  · rename_i hv
    simp only [BitVec.getLsbD_or, BitVec.getLsbD_shiftLeft, BitVec.getLsbD_one]
    by_cases h : j = i
    · subst h; simp [hi, hv]
    · simp only [h, if_false]
      have : ¬ (j - i = 0 ∧ ¬ j < i) := by omega
      by_cases h2 : j < i
      · simp [h2]
      · have : j - i ≠ 0 := by omega
        simp [this]
  · rename_i hv
    simp only [BitVec.getLsbD_and, BitVec.getLsbD_not, BitVec.getLsbD_shiftLeft, BitVec.getLsbD_one]
    by_cases h : j = i
    · subst h; simp [hi, hv]
    · simp only [h, if_false]
      by_cases h2 : j < i
      · by_cases h3 : j < 8
        · simp [h2, h3]
        · omega
      · have : j - i ≠ 0 := by omega
        by_cases h3 : j < 8
        · simp [this, h3]
        · simp [h3, BitVec.getLsbD_of_ge b j (by omega)]

@[simp] theorem bitOf_withBit_self (b : Byte) (i : Nat) (v : Bool) (hi : i < 8) : bitOf (withBit b i v) i = v := by
  rw [bitOf_withBit b i i v hi, if_pos rfl]

theorem bitOf_withBit_ne (b : Byte) (i j : Nat) (v : Bool) (hi : i < 8) (h : j ≠ i) :
    bitOf (withBit b i v) j = bitOf b j := by
  rw [bitOf_withBit b i j v hi, if_neg h]

/-! ### One register -/

theorem reg_setReg (s : State) (a b : Nat) (v : Byte) :
    (s.setReg a v).reg b = if a = b ∧ b < 128 then v else s.reg b := by
  unfold State.reg State.setReg
  simp only [Vector.getElem?_setIfInBounds]
  by_cases h : a = b
  · subst h
    by_cases h2 : a < 128 <;> simp [h2]
  · simp [h]

@[simp] theorem reg_setReg_same (s : State) (a : Nat) (v : Byte) (h : a < 128) : (s.setReg a v).reg a = v := by
  rw [reg_setReg, if_pos ⟨rfl, h⟩]

theorem reg_setReg_ne (s : State) (a b : Nat) (v : Byte) (h : a ≠ b) : (s.setReg a v).reg b = s.reg b := by
  rw [reg_setReg, if_neg (fun x => h x.1)]

theorem mirrorAt_setMirror (s : State) (a b : Nat) (f : SigFmt) :
    (s.setMirror a f).mirrorAt b = if a = b ∧ b < 16 then some f else s.mirrorAt b := by
  unfold State.mirrorAt State.setMirror
  simp only [Vector.getElem?_setIfInBounds]
  by_cases h : a = b
  · subst h
    by_cases h2 : a < 16 <;> simp [h2]
  · simp [h]

theorem outAt_setChannel (s : State) (a b : Nat) (v : U16) :
    (s.setChannel a v).outAt b = if a = b ∧ b < 16 then v else s.outAt b := by
  unfold State.outAt State.setChannel
  simp only [Vector.getElem?_setIfInBounds]
  by_cases h : a = b
  · subst h
    by_cases h2 : a < 16 <;> simp [h2]
  · simp [h]

/-! ### Consecutive registers -/

theorem reg_setRegs (d : List Byte) (s : State) (a b : Nat) :
    (s.setRegs a d).reg b = if a ≤ b ∧ b < a + d.length ∧ b < 128 then d.getD (b - a) 0 else s.reg b := by
  induction d generalizing s a with
  | nil => simp [State.setRegs]; omega
  | cons v d ih =>
    simp only [State.setRegs, ih, reg_setReg, List.length_cons]
    by_cases h : a = b
    · subst h
      by_cases h2 : a < 128 <;> simp [h2]
    · by_cases h3 : a + 1 ≤ b ∧ b < a + 1 + d.length ∧ b < 128
      · rw [if_pos h3, if_pos (by omega)]
        obtain ⟨k, hk⟩ : ∃ k, b - a = k + 1 := ⟨b - a - 1, by omega⟩
        rw [hk, List.getD_cons_succ]
        congr 1; omega
      · rw [if_neg h3, if_neg (by omega), if_neg (by omega)]

end Sys2Proof.Machine
end

