-- ==== Sys2Proof/Laws/Env.lean ====
section
/-! SUPPORT. What the other agents can change between two block steps (R104, R95, R143): one lemma for each part of State. -/

namespace Sys2Proof.Machine

/-- The part of State that no move of another agent touches. -/
structure BlockPart where
  cfg : Params
  phase : Phase
  boot : BootPos
  mirror : Vector (Option SigFmt) 16
  gie : Bool
  ctx : Ctx
  csCan : Bool
  csEe : Bool
  modeShadow : Option Mode
  hErr : Bool
  faults : ModelFaults
  lastResult : Option (List Byte)
  cmdBusy : Bool
  cmdIssued : Bool
  eeProtect : Bool
  out : Vector U16 16
  script : List (List Byte)
  modeFair : Bool
  freeN : Nat

/-- The block's part of a state. -/
def State.blockPart (s : State) : BlockPart :=
  ⟨s.cfg, s.phase, s.boot, s.mirror, s.gie, s.ctx, s.csCan, s.csEe, s.modeShadow, s.hErr, s.faults, s.lastResult, s.cmdBusy,
    s.cmdIssued, s.eeProtect, s.out, s.script, s.modeFair, s.freeN⟩

/-- The EEPROM's part of a state, but for its write protection. -/
def State.eePart (s : State) : Memory × Bool × Bool × List Host.Cell := (s.ee, s.wip, s.wel, s.pageBuf)

/-- The controller's part of a state. -/
def State.ctlPart (s : State) : Vector Byte 128 × BitVec 3 × BitVec 2 := (s.ctl, s.lastHit, s.lastType)

/-- The bus, the environment to come and the events. -/
def State.worldPart (s : State) : List BusFrame × List BusFrame × List (List EnvMove) × List Event :=
  (s.busIn, s.busOut, s.sched, s.events)

/-- The latch and the edge detector. -/
def State.edgePart (s : State) : Bool × Bool := (s.latch, s.intPrev)

/-- Two states with equal parts are equal. -/
theorem State.ext_parts {s t : State} (h1 : t.blockPart = s.blockPart) (h2 : t.eePart = s.eePart)
    (h3 : t.ctlPart = s.ctlPart) (h4 : t.worldPart = s.worldPart) (h5 : t.edgePart = s.edgePart) : t = s := by
  cases s; cases t
  simp only [State.blockPart, State.eePart, State.ctlPart, State.worldPart, State.edgePart, BlockPart.mk.injEq,
    Prod.mk.injEq] at *
  simp only [State.mk.injEq]
  simp [h1, h2, h3, h4, h5]

/-! ### setRegs and the controller's own operations -/

theorem setRegs_ctl_only (d : List Byte) (s : State) (a : Nat) : ∃ c, s.setRegs a d = { s with ctl := c } := by
  induction d generalizing s a with
  | nil => exact ⟨s.ctl, rfl⟩
  | cons v d ih =>
    obtain ⟨c, hc⟩ := ih (s.setReg a v) (a + 1)
    exact ⟨c, hc⟩

theorem storeFrame_ctl_only (s : State) (f : BusFrame) (h : Nat) :
    ∃ c x y, s.storeFrame f h = { s with ctl := c, lastHit := x, lastType := y } := by
  unfold State.storeFrame
  simp only
  split
  · exact ⟨s.ctl, s.lastHit, s.lastType, rfl⟩
  · obtain ⟨c, hc⟩ := setRegs_ctl_only
      (packId s.cfg.dev.exideBit f.id ++ [dlcByte s.cfg.dev.rtrBit f.rtr f.dlcField] ++ busData f) s
      (s.cfg.dev.map.rxBuf (bufferOf h))
    rw [hc]
    exact ⟨_, _, _, rfl⟩

theorem offerFrame_ctl_only (s : State) (f : BusFrame) :
    ∃ c x y, s.offerFrame f = { s with ctl := c, lastHit := x, lastType := y } := by
  unfold State.offerFrame
  split
  · exact storeFrame_ctl_only _ _ _
  · exact ⟨s.ctl, s.lastHit, s.lastType, rfl⟩

/-- One move of another agent, said once: it is the end of the write cycle, or it changes the controller, the bus and the
events only. -/
theorem move_cases (s : State) (m : EnvMove) :
    (m = .cycleEnd ∧ s.move m = s.cycleEnd) ∨
      ∃ c x y bi bo ev,
        s.move m = { s with ctl := c, lastHit := x, lastType := y, busIn := bi, busOut := bo, events := ev } := by
  cases m with
  | cycleEnd => exact .inl ⟨rfl, rfl⟩
  | modeChange =>
    refine .inr ?_
    simp only [State.move, State.modeChange]
    split
    · exact ⟨_, _, _, _, _, _, rfl⟩
    · exact ⟨s.ctl, s.lastHit, s.lastType, s.busIn, s.busOut, s.events, rfl⟩
  | receive =>
    refine .inr ?_
    simp only [State.move, State.receiveStep]
    split
    · split
      · rename_i f fs _ _
        obtain ⟨c, x, y, h⟩ := offerFrame_ctl_only { s with busIn := fs } f
        exact ⟨c, x, y, fs, s.busOut, s.events, h⟩
      · exact ⟨s.ctl, s.lastHit, s.lastType, s.busIn, s.busOut, s.events, rfl⟩
    · exact ⟨s.ctl, s.lastHit, s.lastType, s.busIn, s.busOut, s.events, rfl⟩
  | discard =>
    refine .inr ?_
    simp only [State.move, State.discardStep]
    split
    · split
      · exact ⟨s.ctl, s.lastHit, s.lastType, _, s.busOut, s.events, rfl⟩
      · exact ⟨s.ctl, s.lastHit, s.lastType, s.busIn, s.busOut, s.events, rfl⟩
    · exact ⟨s.ctl, s.lastHit, s.lastType, s.busIn, s.busOut, s.events, rfl⟩
  | txOk =>
    refine .inr ?_
    simp only [State.move, State.txOk]
    split
    · split
      · exact ⟨_, _, _, _, _, _, rfl⟩
      · split
        · obtain ⟨c, x, y, h⟩ := offerFrame_ctl_only s s.txFrame
          rw [h]
          exact ⟨_, _, _, _, _, _, rfl⟩
        · exact ⟨s.ctl, s.lastHit, s.lastType, s.busIn, s.busOut, s.events, rfl⟩
    · exact ⟨s.ctl, s.lastHit, s.lastType, s.busIn, s.busOut, s.events, rfl⟩
  | txErr =>
    refine .inr ?_
    simp only [State.move, State.txErr]
    split
    · exact ⟨_, _, _, _, _, _, rfl⟩
    · exact ⟨s.ctl, s.lastHit, s.lastType, s.busIn, s.busOut, s.events, rfl⟩
  | busAppend f => exact .inr ⟨s.ctl, s.lastHit, s.lastType, _, s.busOut, s.events, rfl⟩
  | busConsume => exact .inr ⟨s.ctl, s.lastHit, s.lastType, s.busIn, _, s.events, rfl⟩

/-- A move that is not enabled changes nothing. -/
theorem move_of_not_canMove {s : State} {m : EnvMove} (h : s.canMove m = false) : s.move m = s := by
  cases m with
  | modeChange => simp_all [State.canMove, State.move, State.modeChange]
  | receive =>
    simp only [State.canMove, State.move, State.receiveStep] at *
    split
    · split <;> simp_all
    · rfl
  | discard =>
    simp only [State.canMove, State.move, State.discardStep] at *
    split
    · split <;> simp_all
    · rfl
  | txOk =>
    simp only [State.canMove, State.move, State.txOk] at *
    split
    · split
      · simp_all
      · split <;> simp_all
    · rfl
  | txErr => simp_all [State.canMove, State.move, State.txErr]
  | cycleEnd => simp_all [State.canMove, State.move, State.cycleEnd]
  | busAppend f => exact absurd h (by simp [State.canMove])
  | busConsume =>
    simp only [State.canMove, Bool.not_eq_false', List.isEmpty_iff] at h
    cases s
    simp only at h
    subst h
    rfl

/-! ### The block's part -/

@[simp] theorem cycleEnd_blockPart (s : State) : s.cycleEnd.blockPart = s.blockPart := by
  unfold State.cycleEnd; split <;> rfl

theorem move_blockPart (s : State) (m : EnvMove) : (s.move m).blockPart = s.blockPart := by
  rcases move_cases s m with ⟨_, h⟩ | ⟨_, _, _, _, _, _, h⟩ <;> rw [h]
  · exact cycleEnd_blockPart s
  · rfl

@[simp] theorem sample_blockPart (s : State) : (sample s).blockPart = s.blockPart := rfl
@[simp] theorem sample_eePart (s : State) : (sample s).eePart = s.eePart := rfl
@[simp] theorem sample_ctlPart (s : State) : (sample s).ctlPart = s.ctlPart := rfl
@[simp] theorem sample_worldPart (s : State) : (sample s).worldPart = s.worldPart := rfl

/-- One step of another agent, said once: none, or its move and the edge detector. -/
theorem envMove_cases (s : State) (m : EnvMove) : envMove s m = s ∨ envMove s m = sample (s.move m) := by
  unfold envMove; split
  · exact .inr rfl
  · exact .inl rfl

theorem envMove_blockPart (s : State) (m : EnvMove) : (envMove s m).blockPart = s.blockPart := by
  rcases envMove_cases s m with h | h <;> rw [h]
  exact move_blockPart s m

theorem foldl_envMove_blockPart (ms : List EnvMove) (s : State) : (ms.foldl envMove s).blockPart = s.blockPart := by
  induction ms generalizing s with
  | nil => rfl
  | cons m ms ih => rw [List.foldl_cons, ih, envMove_blockPart]

/-- No gap changes the block's part. -/
@[simp] theorem envGap_blockPart (s : State) : (envGap s).blockPart = s.blockPart := by
  unfold envGap
  split
  · rw [foldl_envMove_blockPart]; rfl
  · split
    · exact envMove_blockPart s _
    · rfl

@[simp] theorem tick_envGap_blockPart (s : State) : (tick envGap s).blockPart = s.blockPart := by
  rw [tick, envGap_blockPart, sample_blockPart]

/-! ### The EEPROM's part -/

theorem cycleEnd_idem (s t : State) (h : t.eePart = s.cycleEnd.eePart) : t.cycleEnd.eePart = t.eePart := by
  have hw : t.wip = false := by
    have := congrArg (fun p => p.2.1) h
    simp only [State.eePart] at this
    rw [this]
    unfold State.cycleEnd
    split
    · rfl
    · simp_all
  unfold State.cycleEnd
  rw [hw]; rfl

theorem cycleEnd_eePart_congr {s t : State} (h : t.eePart = s.eePart) (hc : t.cfg = s.cfg) :
    t.cycleEnd.eePart = s.cycleEnd.eePart := by
  have h1 : t.ee = s.ee := congrArg (·.1) h
  have h2 : t.wip = s.wip := congrArg (·.2.1) h
  have h3 : t.wel = s.wel := congrArg (·.2.2.1) h
  have h4 : t.pageBuf = s.pageBuf := congrArg (·.2.2.2) h
  unfold State.cycleEnd State.eePart
  rw [h2, hc]
  split <;> simp [h1, h2, h3, h4]

/-- The EEPROM after other agents' moves: as it was, or with its running write cycle ended. -/
def EeEvolves (s t : State) : Prop := t.eePart = s.eePart ∨ t.eePart = s.cycleEnd.eePart

theorem EeEvolves.refl (s : State) : EeEvolves s s := .inl rfl

theorem EeEvolves.trans {s t u : State} (h1 : EeEvolves s t) (h2 : EeEvolves t u) (hc : t.cfg = s.cfg) :
    EeEvolves s u := by
  rcases h1 with h1 | h1 <;> rcases h2 with h2 | h2
  · exact .inl (h2.trans h1)
  · exact .inr (h2.trans (cycleEnd_eePart_congr h1 hc))
  · exact .inr (h2.trans h1)
  · exact .inr (h2.trans ((cycleEnd_idem s t h1).trans h1))

theorem move_eeEvolves (s : State) (m : EnvMove) : EeEvolves s (s.move m) := by
  rcases move_cases s m with ⟨_, h⟩ | ⟨_, _, _, _, _, _, h⟩ <;> rw [h]
  · exact .inr rfl
  · exact .inl rfl

theorem envMove_eeEvolves (s : State) (m : EnvMove) : EeEvolves s (envMove s m) := by
  rcases envMove_cases s m with h | h <;> rw [h]
  · exact .refl s
  · exact move_eeEvolves s m

theorem foldl_envMove_eeEvolves (ms : List EnvMove) (s : State) : EeEvolves s (ms.foldl envMove s) := by
  induction ms generalizing s with
  | nil => exact .refl s
  | cons m ms ih =>
    exact (envMove_eeEvolves s m).trans (ih _) (congrArg BlockPart.cfg (envMove_blockPart s m))

/-- No gap changes the EEPROM but by ending its write cycle. -/
theorem envGap_eeEvolves (s : State) : EeEvolves s (envGap s) := by
  unfold envGap
  split
  · rename_i ms rest _
    exact EeEvolves.trans (t := { s with sched := rest }) (.inl rfl) (foldl_envMove_eeEvolves ms _) rfl
  · split
    · exact envMove_eeEvolves s _
    · exact .refl s

theorem tick_envGap_eeEvolves (s : State) : EeEvolves s (tick envGap s) :=
  EeEvolves.trans (t := sample s) (.inl rfl) (envGap_eeEvolves (sample s)) rfl

/-- With no write cycle running, the EEPROM is as it was. -/
theorem EeEvolves.idle {s t : State} (h : EeEvolves s t) (hw : s.wip = false) : t.eePart = s.eePart := by
  rcases h with h | h
  · exact h
  · rw [h]; unfold State.cycleEnd; rw [hw]; rfl

theorem settled_of_eePart {s t : State} (h : t.eePart = s.eePart) (hc : t.cfg = s.cfg) : t.settled = s.settled :=
  congrArg (·.1) (cycleEnd_eePart_congr h hc)

/-- Ending a write cycle or not, the settled array is the same. -/
theorem EeEvolves.settled {s t : State} (h : EeEvolves s t) (hc : t.cfg = s.cfg) : t.settled = s.settled := by
  rcases h with h | h
  · exact settled_of_eePart h hc
  · have h1 := cycleEnd_idem s t h
    exact (congrArg (·.1) h1).trans (congrArg (·.1) h)

/-! ### Gaps without a handler, and gaps without a move -/

/-- With interrupts disabled no handler runs in a foreground gap (R158). -/
theorem fgGap_of_gie_false (s : State) (h : s.gie = false) : fgGap s = envGap s := by
  have hg : (envGap s).gie = false := (congrArg BlockPart.gie (envGap_blockPart s)).trans h
  unfold fgGap
  simp only [serveHandlers]
  rw [if_neg]
  simp [entryEnabled, hg]

theorem envGap_of_still (s : State) (h : Still s) : envGap s = s := by
  unfold envGap
  rw [h.1, h.2]
  rfl

theorem fgGap_of_alone (s : State) (h : Alone s) : fgGap s = s := by
  rw [fgGap_of_gie_false s h.1, envGap_of_still s h.2]

theorem sample_still {s : State} (h : Still s) : Still (sample s) := h
theorem sample_alone {s : State} (h : Alone s) : Alone (sample s) := h

theorem tick_envGap_of_still (s : State) (h : Still s) : tick envGap s = sample s := envGap_of_still _ (sample_still h)
theorem tick_fgGap_of_alone (s : State) (h : Alone s) : tick fgGap s = sample s := fgGap_of_alone _ (sample_alone h)

theorem tick_fgGap_of_gie_false (s : State) (h : s.gie = false) : tick fgGap s = tick envGap s :=
  fgGap_of_gie_false _ h

/-! ### The edge detector -/

theorem sample_sampled (s : State) : Sampled (sample s) := rfl

/-- The edge detector does nothing where it has sampled the line (R144). -/
theorem sample_of_sampled {s : State} (h : Sampled s) : sample s = s := by
  cases s
  simp only [Sampled] at h
  simp only [sample]
  congr 1
  · rw [← h]; simp
  · exact h.symm

@[simp] theorem sample_sample (s : State) : sample (sample s) = sample s := sample_of_sampled (sample_sampled s)

/-- Where the line has been sampled, a step of another agent is its move and the edge detector, enabled or not. -/
theorem envMove_of_sampled {s : State} (h : Sampled s) (m : EnvMove) : envMove s m = sample (s.move m) := by
  unfold envMove
  split
  · rfl
  · rename_i hm
    rw [move_of_not_canMove (by simpa using hm), sample_of_sampled h]

/-- A step of another agent leaves the line sampled. -/
theorem envMove_sampled {s : State} (h : Sampled s) (m : EnvMove) : Sampled (envMove s m) := by
  rw [envMove_of_sampled h]; exact sample_sampled _

end Sys2Proof.Machine
end

