-- ==== Sys2Proof/Laws/Memory.lean ====
section
/-! SUPPORT. The EEPROM array: read after write, the canonical form kept by every memory operation, and the page burst
(R40, R95). -/

namespace Sys2Proof.Machine

/-- The canonical form, as a proposition. -/
theorem Memory.wf_iff (m : Memory) :
    m.wf = true ↔ (m.Pairwise fun c d => c.1 < d.1) ∧ ∀ c ∈ m, c.2 ≠ Memory.unlisted := by
  simp [Memory.wf]

@[simp] theorem Memory.wf_nil : Memory.wf [] = true := rfl

theorem Memory.wf_cons (c : Host.Cell) (m : Memory) :
    Memory.wf (c :: m) = true ↔ (∀ d ∈ m, c.1 < d.1) ∧ c.2 ≠ Memory.unlisted ∧ Memory.wf m = true := by
  simp only [Memory.wf_iff, List.pairwise_cons, List.mem_cons, forall_eq_or_imp]
  tauto

/-- Below the first listed address every byte is unlisted. -/
theorem Memory.read_below (m : Memory) (a : Nat) (h : ∀ c ∈ m, a < c.1) : m.read a = Memory.unlisted := by
  induction m with
  | nil => rfl
  | cons c m ih =>
    have hc := h c (by simp)
    simp only [Memory.read]
    rw [if_neg (by omega), ih fun d hd => h d (by simp [hd])]

/-- A write adds no address but its own. -/
theorem Memory.mem_write (m : Memory) (a : Nat) (v : Byte) (c : Host.Cell) (h : c ∈ m.write a v) :
    c = (a, v) ∨ c ∈ m := by
  induction m with
  | nil =>
    simp only [Memory.write] at h
    split at h <;> simp_all
  | cons d m ih =>
    simp only [Memory.write] at h
    split at h
    · split at h
      · exact .inr h
      · rcases List.mem_cons.1 h with h | h
        · exact .inl h
        · exact .inr h
    · split at h
      · split at h
        · exact .inr (List.mem_cons_of_mem _ h)
        · rcases List.mem_cons.1 h with h | h
          · exact .inl h
          · exact .inr (List.mem_cons_of_mem _ h)
      · rcases List.mem_cons.1 h with h | h
        · exact .inr (by simp [h])
        · rcases ih h with h | h
          · exact .inl h
          · exact .inr (List.mem_cons_of_mem _ h)

/-- A write keeps the canonical form. -/
theorem Memory.wf_write (m : Memory) (a : Nat) (v : Byte) (h : m.wf = true) : (m.write a v).wf = true := by
  induction m with
  | nil =>
    simp only [Memory.write]
    split
    · rfl
    · rename_i hv; rw [Memory.wf_cons]; simp [hv]
  | cons d m ih =>
    rw [Memory.wf_cons] at h
    obtain ⟨h1, h2, h3⟩ := h
    simp only [Memory.write]
    split
    · rename_i had
      split
      · rw [Memory.wf_cons]; exact ⟨h1, h2, h3⟩
      · rename_i hv
        rw [Memory.wf_cons, Memory.wf_cons]
        refine ⟨?_, hv, h1, h2, h3⟩
        intro c hc
        rcases List.mem_cons.1 hc with hc | hc
        · simpa [hc] using had
        · have := h1 c hc; show a < c.1; omega
    · split
      · rename_i hne heq
        split
        · exact h3
        · rename_i hv
          rw [Memory.wf_cons]
          exact ⟨fun c hc => by have := h1 c hc; simp only; omega, hv, h3⟩
      · rename_i hlt hne
        rw [Memory.wf_cons]
        refine ⟨?_, h2, ih h3⟩
        intro c hc
        rcases Memory.mem_write m a v c hc with hc | hc
        · subst hc; simp only; omega
        · exact h1 c hc

/-- Read after write: the written byte, and every other byte as before. -/
theorem Memory.read_write (m : Memory) (a b : Nat) (v : Byte) (h : m.wf = true) :
    (m.write a v).read b = if b = a then v else m.read b := by
  induction m with
  | nil =>
    simp only [Memory.write]
    split
    · rename_i hv; subst hv; simp [Memory.read]
    · simp only [Memory.read]
      by_cases hb : b = a
      · simp [hb]
      · simp [hb, Ne.symm hb]
  | cons d m ih =>
    rw [Memory.wf_cons] at h
    obtain ⟨h1, h2, h3⟩ := h
    simp only [Memory.write]
    split
    · rename_i had
      split
      · rename_i hv
        by_cases hb : b = a
        · subst hb
          rw [if_pos rfl, hv, Memory.read_below]
          intro c hc
          rcases List.mem_cons.1 hc with hc | hc
          · rw [hc]; exact had
          · have := h1 c hc; omega
        · rw [if_neg hb]
      · by_cases hb : b = a
        · simp [hb, Memory.read]
        · simp [hb, Ne.symm hb, Memory.read]
    · split
      · rename_i hne heq
        split
        · rename_i hv
          by_cases hb : b = a
          · subst hb
            rw [if_pos rfl, hv, Memory.read_below]
            intro c hc
            have := h1 c hc; omega
          · rw [if_neg hb, Memory.read, if_neg (by omega)]
        · by_cases hb : b = a
          · simp [hb, Memory.read]
          · rw [if_neg hb, Memory.read, Memory.read, if_neg (Ne.symm hb), if_neg (by omega)]
      · rename_i hlt hne
        rw [Memory.read, Memory.read, ih h3]
        by_cases hb : d.1 = b
        · rw [if_pos hb, if_pos hb, if_neg (by omega)]
        · rw [if_neg hb, if_neg hb]

/-- A list of cells keeps the canonical form. -/
theorem Memory.wf_writeCells (size : Nat) (cells : List Host.Cell) (m : Memory) (h : m.wf = true) :
    (m.writeCells size cells).wf = true := by
  unfold Memory.writeCells
  induction cells generalizing m with
  | nil => exact h
  | cons c cs ih =>
    rw [List.foldl_cons]
    apply ih
    split
    · exact Memory.wf_write m _ _ h
    · exact h

/-- A list of cells adds no address outside the array. -/
theorem Memory.in_writeCells (size : Nat) (cells : List Host.Cell) (m : Memory) (h : ∀ c ∈ m, c.1 < size) :
    ∀ c ∈ m.writeCells size cells, c.1 < size := by
  unfold Memory.writeCells
  induction cells generalizing m with
  | nil => exact h
  | cons c cs ih =>
    rw [List.foldl_cons]
    apply ih
    split
    · rename_i hc
      intro x hx
      rcases Memory.mem_write m _ _ x hx with hx | hx
      · rw [hx]; exact hc
      · exact h x hx
    · exact h

/-- An address that no cell names reads as before. -/
theorem Memory.read_writeCells_out (size : Nat) (cells : List Host.Cell) (m : Memory) (a : Nat) (h : m.wf = true)
    (ha : ∀ c ∈ cells, c.1 ≠ a) : (m.writeCells size cells).read a = m.read a := by
  unfold Memory.writeCells
  induction cells generalizing m with
  | nil => rfl
  | cons c cs ih =>
    rw [List.foldl_cons]
    have hc := ha c (by simp)
    split
    · rw [ih _ (Memory.wf_write m _ _ h) fun d hd => ha d (by simp [hd]), Memory.read_write m _ _ _ h,
        if_neg (Ne.symm hc)]
    · exact ih m h fun d hd => ha d (by simp [hd])

/-- A run of cells at consecutive addresses inside the array. -/
theorem Memory.read_writeCells_run (size : Nat) (d : List Byte) (m : Memory) (a x : Nat) (h : m.wf = true)
    (hs : a + d.length ≤ size) :
    (m.writeCells size (d.zipIdx.map fun c => (a + c.2, c.1))).read x =
      if a ≤ x ∧ x < a + d.length then d.getD (x - a) 0 else m.read x := by
  suffices H : ∀ (d : List Byte) (k : Nat) (m : Memory), m.wf = true → a + k + d.length ≤ size →
      (m.writeCells size ((d.zipIdx k).map fun c => (a + c.2, c.1))).read x =
        if a + k ≤ x ∧ x < a + k + d.length then d.getD (x - (a + k)) 0 else m.read x by
    simpa using H d 0 m h (by simpa using hs)
  intro d
  induction d with
  | nil => intro k m _ _; simp [Memory.writeCells]
  | cons v d ih =>
    intro k m hm hs
    rw [List.length_cons] at hs
    have hw := Memory.wf_write m (a + k) v hm
    have := ih (k + 1) (m.write (a + k) v) hw (by omega)
    unfold Memory.writeCells at this ⊢
    rw [List.zipIdx_cons, List.map_cons, List.foldl_cons, if_pos (by simp only; omega), this, Memory.read_write m _ _ _ hm]
    rw [List.length_cons]
    by_cases h1 : x = a + k
    · subst h1
      rw [if_neg (by omega), if_pos rfl, if_pos (by omega)]
      simp
    · by_cases h2 : a + (k + 1) ≤ x ∧ x < a + (k + 1) + d.length
      · rw [if_pos h2, if_pos (by omega)]
        obtain ⟨j, hj⟩ : ∃ j, x - (a + k) = j + 1 := ⟨x - (a + k) - 1, by omega⟩
        rw [hj, List.getD_cons_succ]
        congr 1; omega
      · rw [if_neg h2, if_neg h1, if_neg (by omega)]

/-- A burst inside one page does not wrap (R95). -/
theorem burstCells_eq (a : Nat) (d : List Byte) (h : a % pageSize + d.length ≤ pageSize) :
    burstCells a d = d.zipIdx.map fun c => (a + c.2, c.1) := by
  unfold burstCells
  apply List.map_congr_left
  intro c hc
  have hlt : c.2 < d.length := by
    have := List.snd_lt_of_mem_zipIdx hc
    omega
  have hm : (a % pageSize + c.2) % pageSize = a % pageSize + c.2 := Nat.mod_eq_of_lt (by omega)
  rw [hm]
  have := Nat.mod_le a pageSize
  congr 1
  omega

/-! ### The canonical form over the operations that touch the array -/

theorem cycleEnd_wf (s : State) (h : s.ee.wf = true) : s.cycleEnd.ee.wf = true := by
  unfold State.cycleEnd
  split
  · exact Memory.wf_writeCells _ _ _ h
  · exact h

theorem cycleEnd_in (s : State) (h : ∀ c ∈ s.ee, c.1 < s.cfg.eeSize) : ∀ c ∈ s.cycleEnd.ee, c.1 < s.cfg.eeSize := by
  unfold State.cycleEnd
  split
  · exact Memory.in_writeCells _ _ _ h
  · exact h

theorem settled_wf (s : State) (h : s.ee.wf = true) : s.settled.wf = true := cycleEnd_wf s h

/-- The array after other agents' moves is canonical. -/
theorem EeEvolves.wf {s t : State} (h : EeEvolves s t) (hs : s.ee.wf = true) : t.ee.wf = true := by
  rcases h with h | h
  · rw [show t.ee = s.ee from congrArg (·.1) h]; exact hs
  · rw [show t.ee = s.cycleEnd.ee from congrArg (·.1) h]; exact cycleEnd_wf s hs

theorem EeEvolves.inside {s t : State} (h : EeEvolves s t) (hs : ∀ c ∈ s.ee, c.1 < s.cfg.eeSize) :
    ∀ c ∈ t.ee, c.1 < s.cfg.eeSize := by
  rcases h with h | h
  · rw [show t.ee = s.ee from congrArg (·.1) h]; exact hs
  · rw [show t.ee = s.cycleEnd.ee from congrArg (·.1) h]; exact cycleEnd_in s hs

/-- The array at reset is canonical. -/
theorem reset_memory_wf : State.reset.ee.wf = true := rfl

end Sys2Proof.Machine
end

