-- ==== Sys2Proof/Laws/Serial.lean ====
section
/-! SUPPORT. The serial transaction (R82, R83): what each form answers and leaves, and what a gap after it keeps. -/

namespace Sys2Proof.Machine

/-! ### Block writes of registers (R83, R104, R105) -/

/-- A block write of a register that the controller ignores: a configuration register outside Config mode (R105). -/
def State.locked (s : State) (a : Nat) : Bool := s.cfg.dev.map.isConfig a && !s.inMode .config

theorem ctlWrite_ctl_only (s : State) (a : Nat) (v : Byte) : ∃ c, s.ctlWrite a v = { s with ctl := c } := by
  unfold State.ctlWrite
  split
  · exact ⟨s.ctl, rfl⟩
  · exact ⟨_, rfl⟩

theorem ctlWrites_ctl_only (d : List Byte) (s : State) (a : Nat) : ∃ c, s.ctlWrites a d = { s with ctl := c } := by
  induction d generalizing s a with
  | nil => exact ⟨s.ctl, rfl⟩
  | cons v d ih =>
    obtain ⟨c, hc⟩ := ctlWrite_ctl_only s a v
    obtain ⟨c', hc'⟩ := ih (s.ctlWrite a v) (a + 1)
    rw [hc] at hc'
    exact ⟨c', by rw [State.ctlWrites, hc, hc']⟩

/-- One block write, said once. -/
theorem reg_ctlWrite (s : State) (a b : Nat) (v : Byte) :
    (s.ctlWrite a v).reg b = if a = b ∧ b < 128 ∧ s.locked a = false then s.writable a v else s.reg b := by
  unfold State.ctlWrite State.locked
  split
  · rename_i h; rw [if_neg]; simp [h]
  · rename_i h; rw [reg_setReg]; simp [h]

theorem reg_ctlBitmod (s : State) (a b : Nat) (m d : Byte) :
    (s.ctlBitmod a m d).reg b =
      if a = b ∧ b < 128 ∧ s.locked a = false then s.writable a ((s.reg a &&& ~~~m) ||| (d &&& m)) else s.reg b :=
  reg_ctlWrite s a b _

/-- OPMOD is read only for the block (R36, R83). -/
theorem opmod_ctlWrite (s : State) (a : Nat) (v : Byte) : (s.ctlWrite a v).opmod = s.opmod := by
  obtain ⟨c, hc⟩ := ctlWrite_ctl_only s a v
  have hcfg : (s.ctlWrite a v).cfg = s.cfg := by rw [hc]
  unfold State.opmod
  rw [hcfg, reg_ctlWrite]
  split
  · rename_i h
    obtain ⟨h1, _, _⟩ := h
    subst h1
    unfold State.writable
    simp only
    rw [if_pos trivial, modeBits_withModeBits]
  · rfl

/-- A block write of consecutive registers, said once: each written register gets its byte, as a single write of it would
leave it, and no other register changes. -/
theorem reg_ctlWrites (d : List Byte) (s : State) (a b : Nat) :
    (s.ctlWrites a d).reg b =
      if a ≤ b ∧ b < a + d.length ∧ b < 128 ∧ s.locked b = false then s.writable b (d.getD (b - a) 0) else s.reg b := by
  induction d generalizing s a with
  | nil => rw [State.ctlWrites, if_neg (by simp; omega)]
  | cons v d ih =>
    obtain ⟨c, hc⟩ := ctlWrite_ctl_only s a v
    have hcfg : (s.ctlWrite a v).cfg = s.cfg := by rw [hc]
    have hm : (s.ctlWrite a v).opmod = s.opmod := opmod_ctlWrite s a v
    have hlock : ∀ x, (s.ctlWrite a v).locked x = s.locked x := by
      intro x; unfold State.locked State.inMode; rw [hcfg, hm]
    rw [State.ctlWrites, ih (s.ctlWrite a v) (a + 1), hlock, List.length_cons]
    by_cases hab : a = b
    · subst hab
      rw [if_neg (by omega), reg_ctlWrite]
      by_cases h2 : a < 128 ∧ s.locked a = false
      · rw [if_pos ⟨rfl, h2⟩, if_pos ⟨by omega, by omega, h2⟩]
        simp
      · rw [if_neg (by tauto), if_neg (by tauto)]
    · by_cases h3 : a + 1 ≤ b ∧ b < a + 1 + d.length ∧ b < 128 ∧ s.locked b = false
      · rw [if_pos h3, if_pos ⟨by omega, by omega, h3.2.2⟩]
        obtain ⟨k, hk⟩ : ∃ k, b - a = k + 1 := ⟨b - a - 1, by omega⟩
        have hr : (s.ctlWrite a v).reg b = s.reg b := by rw [reg_ctlWrite, if_neg (fun h => hab h.1)]
        rw [hk, List.getD_cons_succ]
        have : b - (a + 1) = k := by omega
        rw [this]
        unfold State.writable
        rw [hcfg, hr]
      · rw [if_neg h3, if_neg (by intro h; exact h3 ⟨by omega, by omega, h.2.2⟩), reg_ctlWrite, if_neg (fun h => hab h.1)]

/-! ### One transaction -/

@[simp] theorem assertCs_reg (s : State) (x : Dev) (a : Nat) : (s.assertCs x).reg a = s.reg a := by cases x <;> rfl

theorem ctlWrite_assertCs (s : State) (x : Dev) (a : Nat) (v : Byte) :
    (s.assertCs x).ctlWrite a v = (s.ctlWrite a v).assertCs x := by
  have e : (s.assertCs x).inMode .config = s.inMode .config := by cases x <;> rfl
  have w : (s.assertCs x).writable a v = s.writable a v := by cases x <;> rfl
  have c : (s.assertCs x).cfg = s.cfg := by cases x <;> rfl
  unfold State.ctlWrite
  rw [e, w, c]
  split <;> cases x <;> rfl

theorem ctlWrites_assertCs (d : List Byte) (s : State) (x : Dev) (a : Nat) :
    (s.assertCs x).ctlWrites a d = (s.ctlWrites a d).assertCs x := by
  induction d generalizing s a with
  | nil => rfl
  | cons v d ih => rw [State.ctlWrites, State.ctlWrites, ctlWrite_assertCs, ih]

/-- The device acts the same with its chip select asserted. -/
theorem device_assertCs (s : State) (x : Xfer) (v : Dev) :
    (s.assertCs v).device x = ((s.device x).1, (s.device x).2.assertCs v) := by
  cases x with
  | canReset => cases v <;> rfl
  | canRead a n => cases v <;> rfl
  | canWrite a d => simp only [State.device, ctlWrites_assertCs]
  | canBitmod a m d =>
    simp only [State.device, State.ctlBitmod, assertCs_reg, ctlWrite_assertCs]
  | canRxStatus => cases v <;> rfl
  | eeWren =>
    have hw : (s.assertCs v).wip = s.wip := by cases v <;> rfl
    simp only [State.device, State.eeWrenCmd]
    rw [hw]
    by_cases h : s.wip = true
    · rw [if_pos h, if_pos h]; cases v <;> rfl
    · rw [if_neg h, if_neg h]; cases v <;> rfl
  | eeRdsr => cases v <;> rfl
  | eeRead a n =>
    have hw : (s.assertCs v).wip = s.wip := by cases v <;> rfl
    simp only [State.device, State.eeReadCmd]
    rw [hw]
    by_cases h : s.wip = true
    · rw [if_pos h, if_pos h]; cases v <;> rfl
    · rw [if_neg h, if_neg h]; cases v <;> rfl
  | eeWrite a d =>
    have hw : (s.assertCs v).wip = s.wip := by cases v <;> rfl
    have hl : (s.assertCs v).wel = s.wel := by cases v <;> rfl
    simp only [State.device, State.eeWriteCmd]
    rw [hw, hl]
    by_cases h : s.wip = true
    · rw [if_pos h, if_pos h]; cases v <;> rfl
    · rw [if_neg h, if_neg h]
      by_cases h2 : s.wel = true
      · rw [if_pos h2, if_pos h2]; cases v <;> rfl
      · rw [if_neg h2, if_neg h2]

/-- The transaction, said once: the device's answer, its new state, both chip selects released, one event. -/
theorem transact_eq (s : State) (x : Xfer) :
    s.transact x = ((s.device x).1, (s.device x).2.endXfer x (s.device x).1) := by
  unfold State.transact
  rw [device_assertCs]
  cases x.dev <;> rfl

theorem device_cfg (s : State) (x : Xfer) : (s.device x).2.cfg = s.cfg := by
  cases x with
  | canReset => simp [State.device]
  | canRead a n => rfl
  | canWrite a d => obtain ⟨c, hc⟩ := ctlWrites_ctl_only d s a; simp [State.device, hc]
  | canBitmod a m d => obtain ⟨c, hc⟩ := ctlWrite_ctl_only s a ((s.reg a &&& ~~~m) ||| (d &&& m)); simp [State.device, State.ctlBitmod, hc]
  | canRxStatus => rfl
  | eeWren => simp only [State.device, State.eeWrenCmd]; split <;> rfl
  | eeRdsr => rfl
  | eeRead a n => simp only [State.device, State.eeReadCmd]; split <;> rfl
  | eeWrite a d =>
    simp only [State.device, State.eeWriteCmd]
    by_cases h : s.wip = true
    · rw [if_pos h]; rfl
    · rw [if_neg h]; split <;> rfl

/-- What a transaction leaves of the block's part: its chip selects are released, the command in progress has issued one. -/
def BlockPart.issued (p : BlockPart) : BlockPart :=
  { p with csCan := false, csEe := false, cmdIssued := p.cmdIssued || (p.cmdBusy && p.ctx == .foreground) }

@[simp] theorem issued_issued (p : BlockPart) : p.issued.issued = p.issued := by
  simp [BlockPart.issued]

theorem endXfer_blockPart (s : State) (x : Xfer) (b : List Byte) : (s.endXfer x b).blockPart = s.blockPart.issued := rfl

/-- A transaction whose device has nothing to say against it, and that is no RESET: the block's part is only marked. -/
theorem transact_blockPart (s : State) (x : Xfer) (hr : x ≠ .canReset)
    (hw : s.wip = false ∨ x.dev = .can ∨ x = .eeRdsr) : (s.transact x).2.blockPart = s.blockPart.issued := by
  rw [transact_eq]
  simp only [endXfer_blockPart]
  have : (s.device x).2.blockPart = s.blockPart := by
    cases x with
    | canReset => exact absurd rfl hr
    | canRead a n => rfl
    | canWrite a d => obtain ⟨c, hc⟩ := ctlWrites_ctl_only d s a; simp [State.device, hc]; rfl
    | canBitmod a m d =>
      obtain ⟨c, hc⟩ := ctlWrite_ctl_only s a ((s.reg a &&& ~~~m) ||| (d &&& m))
      simp [State.device, State.ctlBitmod, hc]; rfl
    | canRxStatus => rfl
    | eeWren =>
      have hw : s.wip = false := by simpa [Xfer.dev] using hw
      simp [State.device, State.eeWrenCmd, hw]; rfl
    | eeRdsr => rfl
    | eeRead a n =>
      have hw : s.wip = false := by simpa [Xfer.dev] using hw
      simp [State.device, State.eeReadCmd, hw]
    | eeWrite a d =>
      have hw : s.wip = false := by simpa [Xfer.dev] using hw
      simp only [State.device, State.eeWriteCmd]
      rw [if_neg (by simp [hw])]
      split <;> rfl
  rw [this]

/-- A transaction that only reads changes nothing else: RDSR, READ and RX STATUS of either device. -/
theorem transact_canRead (s : State) (a n : Nat) :
    s.transact (.canRead a n) =
      ((List.range n).map fun j => s.reg (a + j),
        s.endXfer (.canRead a n) ((List.range n).map fun j => s.reg (a + j))) := transact_eq s _

theorem transact_canRxStatus (s : State) :
    s.transact .canRxStatus = ([s.rxStatusByte], s.endXfer .canRxStatus [s.rxStatusByte]) := transact_eq s _

theorem transact_eeRdsr (s : State) : s.transact .eeRdsr = ([s.eeStatus], s.endXfer .eeRdsr [s.eeStatus]) :=
  transact_eq s _

theorem transact_eeRead (s : State) (a n : Nat) (h : s.wip = false) :
    s.transact (.eeRead a n) =
      (s.ee.readBytes s.cfg.eeSize (deviceAddr s.cfg a) n,
        s.endXfer (.eeRead a n) (s.ee.readBytes s.cfg.eeSize (deviceAddr s.cfg a) n)) := by
  rw [transact_eq]
  simp only [State.device, State.eeReadCmd]
  rw [if_neg (by simp [h])]

/-- The write-enable latch set to b. -/
def State.setWel (s : State) (b : Bool) : State := { s with wel := b }

/-- A write cycle started with a burst's cells. -/
def State.startCycle (s : State) (cells : List Host.Cell) : State := { s with wip := true, pageBuf := cells }

theorem transact_eeWren (s : State) (h : s.wip = false) :
    s.transact .eeWren = ([], (s.setWel !s.eeProtect).endXfer .eeWren []) := by
  rw [transact_eq]
  simp only [State.device, State.eeWrenCmd]
  rw [if_neg (by simp [h])]
  rfl

theorem transact_eeWrite (s : State) (a : Nat) (d : List Byte) (h : s.wip = false) (hl : s.wel = true) :
    s.transact (.eeWrite a d) =
      ([], (s.startCycle (burstCells (deviceAddr s.cfg a) d)).endXfer (.eeWrite a d) []) := by
  rw [transact_eq]
  simp only [State.device, State.eeWriteCmd]
  rw [if_neg (by simp [h]), if_pos hl]
  rfl

theorem transact_canWrite (s : State) (a : Nat) (d : List Byte) :
    s.transact (.canWrite a d) = ([], (s.ctlWrites a d).endXfer (.canWrite a d) []) := transact_eq s _

theorem transact_canBitmod (s : State) (a : Nat) (m d : Byte) :
    s.transact (.canBitmod a m d) = ([], (s.ctlBitmod a m d).endXfer (.canBitmod a m d) []) := transact_eq s _

theorem transact_canReset (s : State) :
    s.transact .canReset = ([], s.controllerReset.endXfer .canReset []) := transact_eq s _

/-! ### Pauses -/

/-- The gaps of an operation run no handler: the handler's own, or a critical section's (R55, R158). -/
def Calm (g : Pause) (s : State) : Prop := ∀ u : State, u.gie = s.gie → g u = envGap u

/-- The gaps of an operation do nothing at all. -/
def Quiet (g : Pause) (s : State) : Prop :=
  ∀ u : State, u.gie = s.gie → u.sched = s.sched → u.modeFair = s.modeFair → g u = u

theorem calm_envGap (s : State) : Calm envGap s := fun _ _ => rfl

theorem calm_fgGap {s : State} (h : s.gie = false) : Calm fgGap s := fun u hu => fgGap_of_gie_false u (hu.trans h)

theorem quiet_envGap {s : State} (h : Still s) : Quiet envGap s := fun u _ h2 h3 =>
  envGap_of_still u ⟨h2.trans h.1, h3.trans h.2⟩

theorem quiet_fgGap {s : State} (h : Alone s) : Quiet fgGap s := fun u h1 h2 h3 =>
  fgGap_of_alone u ⟨h1.trans h.1, h2.trans h.2.1, h3.trans h.2.2⟩

theorem Calm.congr {g : Pause} {s t : State} (h : Calm g s) (ht : t.gie = s.gie) : Calm g t := fun u hu =>
  h u (hu.trans ht)

theorem Quiet.congr {g : Pause} {s t : State} (h : Quiet g s) (h1 : t.gie = s.gie) (h2 : t.sched = s.sched)
    (h3 : t.modeFair = s.modeFair) : Quiet g t := fun u k1 k2 k3 => h u (k1.trans h1) (k2.trans h2) (k3.trans h3)

theorem Calm.tick {g : Pause} {s : State} (h : Calm g s) (u : State) (hu : u.gie = s.gie) : tick g u = tick envGap u :=
  h _ hu

/-- The gap after a transaction in a calm environment. -/
theorem Calm.after {g : Pause} {s : State} (h : Calm g s) {u : State} {x : Xfer} {b : List Byte}
    (hu : u.gie = s.gie := by rfl) : Machine.tick g (u.endXfer x b) = Machine.tick envGap (u.endXfer x b) :=
  h _ hu

/-- The gap after a transaction in a quiet environment. -/
theorem Quiet.after {g : Pause} {s : State} (h : Quiet g s) {u : State} {x : Xfer} {b : List Byte}
    (h1 : u.gie = s.gie := by rfl) (h2 : u.sched = s.sched := by rfl) (h3 : u.modeFair = s.modeFair := by rfl) :
    Machine.tick g (u.endXfer x b) = sample (u.endXfer x b) :=
  h _ h1 h2 h3

theorem Quiet.tick {g : Pause} {s : State} (h : Quiet g s) (u : State) (h1 : u.gie = s.gie) (h2 : u.sched = s.sched)
    (h3 : u.modeFair = s.modeFair) : tick g u = sample u := h _ h1 h2 h3

end Sys2Proof.Machine
end

