-- ==== Sys2Proof/Laws/Eeprom.lean ====
section
/-! SUPPORT. The storage discipline: what waitIdle, writeEnable, read and write can do (R96 to R101), in a calm environment
(no handler in the gaps), in a quiet one (nothing in the gaps), and with write cycles that end promptly. -/

namespace Sys2Proof.Machine

/-! ### The status byte -/

theorem eeStatus_wip (s : State) (h : StatusBits s.cfg) : bitOf s.eeStatus s.cfg.dev.wipBit = s.wip := by
  unfold State.eeStatus
  rw [bitOf_withBit_ne _ _ _ _ h.2.1 h.2.2, bitOf_withBit_self _ _ _ h.1]

theorem eeStatus_wel (s : State) (h : StatusBits s.cfg) : bitOf s.eeStatus s.cfg.dev.welBit = s.wel := by
  unfold State.eeStatus
  rw [bitOf_withBit_self _ _ _ h.2.1]

/-! ### Parts -/

theorem wip_of_eePart {s t : State} (h : t.eePart = s.eePart) : t.wip = s.wip := congrArg (·.2.1) h
theorem ee_of_eePart {s t : State} (h : t.eePart = s.eePart) : t.ee = s.ee := congrArg (·.1) h
theorem wel_of_eePart {s t : State} (h : t.eePart = s.eePart) : t.wel = s.wel := congrArg (·.2.2.1) h
theorem pageBuf_of_eePart {s t : State} (h : t.eePart = s.eePart) : t.pageBuf = s.pageBuf := congrArg (·.2.2.2) h

/-- The block's part of a state after zero or more transactions that the block's part does not feel otherwise. -/
def Marked (s t : State) : Prop := t.blockPart = s.blockPart ∨ t.blockPart = s.blockPart.issued

theorem Marked.refl (s : State) : Marked s s := .inl rfl

theorem Marked.trans {s t u : State} (h1 : Marked s t) (h2 : Marked t u) : Marked s u := by
  rcases h1 with h1 | h1 <;> rcases h2 with h2 | h2 <;> simp only [Marked, h2, h1, issued_issued, or_true, true_or]

theorem Marked.cfg {s t : State} (h : Marked s t) : t.cfg = s.cfg := by
  rcases h with h | h <;> exact congrArg BlockPart.cfg h

theorem Marked.gie {s t : State} (h : Marked s t) : t.gie = s.gie := by
  rcases h with h | h <;> exact congrArg BlockPart.gie h

theorem Marked.eeProtect {s t : State} (h : Marked s t) : t.eeProtect = s.eeProtect := by
  rcases h with h | h <;> exact congrArg BlockPart.eeProtect h

theorem Marked.mirror {s t : State} (h : Marked s t) : t.mirror = s.mirror := by
  rcases h with h | h <;> exact congrArg BlockPart.mirror h

/-- A marked state has the block of the first, where no chip select was asserted. -/
theorem Marked.sameBlock {s t : State} (h : Marked s t) (hc : s.csCan = false) (he : s.csEe = false) : SameBlock s t := by
  have h2 : t.csCan = s.csCan ∧ t.csEe = s.csEe := by
    rcases h with h | h
    · exact ⟨congrArg BlockPart.csCan h, congrArg BlockPart.csEe h⟩
    · exact ⟨(congrArg BlockPart.csCan h).trans hc.symm, (congrArg BlockPart.csEe h).trans he.symm⟩
  refine ⟨h.cfg, ?_, ?_, h.mirror, h.gie, ?_, h2.1, h2.2, ?_, ?_, ?_⟩ <;> rcases h with h | h
  · exact congrArg BlockPart.phase h
  · exact congrArg BlockPart.phase h
  · exact congrArg BlockPart.boot h
  · exact congrArg BlockPart.boot h
  · exact congrArg BlockPart.ctx h
  · exact congrArg BlockPart.ctx h
  · exact congrArg BlockPart.modeShadow h
  · exact congrArg BlockPart.modeShadow h
  · exact congrArg BlockPart.hErr h
  · exact congrArg BlockPart.hErr h
  · exact congrArg BlockPart.faults h
  · exact congrArg BlockPart.faults h

/-! ### One transaction and its gap -/

/-- RDSR with its gap, in a calm environment. -/
theorem rdsr_calm {g : Pause} {s : State} (hg : Calm g s) :
    (xfer g .eeRdsr s).1 = [s.eeStatus] ∧ (xfer g .eeRdsr s).2.blockPart = s.blockPart.issued ∧
      EeEvolves s (xfer g .eeRdsr s).2 := by
  unfold xfer
  rw [transact_eeRdsr]
  refine ⟨rfl, ?_, ?_⟩
  · simp only
    rw [hg.after (u := s), tick_envGap_blockPart]; rfl
  · simp only
    rw [hg.after (u := s)]
    exact EeEvolves.trans (t := s.endXfer .eeRdsr [s.eeStatus]) (.inl rfl) (tick_envGap_eeEvolves _) rfl

theorem readStatus_eq (g : Pause) (s : State) :
    readStatus g s = (s.eeStatus, (xfer g .eeRdsr s).2) := by
  unfold readStatus xfer
  rw [transact_eeRdsr]
  rfl

/-! ### waitIdle (R98) -/

/-- The bounded wait, said once: it only polls; Ok means idle, and the only error is Busy. -/
theorem waitIdleLoop_calm {g : Pause} (n : Nat) (s : State) (hg : Calm g s) (hb : StatusBits s.cfg) :
    EeEvolves s (waitIdleLoop g n s).2 ∧ Marked s (waitIdleLoop g n s).2 ∧
      ((waitIdleLoop g n s).1 = .ok () ∧ (waitIdleLoop g n s).2.wip = false ∨
        (waitIdleLoop g n s).1 = .error .busy) := by
  induction n generalizing s with
  | zero => exact ⟨.refl s, .refl s, .inr rfl⟩
  | succ n ih =>
    obtain ⟨_, hbp, hee⟩ := rdsr_calm hg
    have hm : Marked s (xfer g .eeRdsr s).2 := .inr hbp
    simp only [waitIdleLoop, readStatus_eq, eeStatus_wip s hb, delay]
    cases hw : s.wip
    · simp only [Bool.false_eq_true, if_false]
      exact ⟨hee, hm, .inl ⟨trivial, by rw [wip_of_eePart (hee.idle hw), hw]⟩⟩
    · simp only [if_true]
      obtain ⟨h1, h2, h3⟩ := ih (xfer g .eeRdsr s).2 (hg.congr hm.gie) (by rw [hm.cfg]; exact hb)
      exact ⟨hee.trans h1 hm.cfg, hm.trans h2, h3⟩

theorem waitIdle_calm {g : Pause} (s : State) (hg : Calm g s) (hb : StatusBits s.cfg) :
    EeEvolves s (waitIdle g s).2 ∧ Marked s (waitIdle g s).2 ∧
      ((waitIdle g s).1 = .ok () ∧ (waitIdle g s).2.wip = false ∨ (waitIdle g s).1 = .error .busy) :=
  waitIdleLoop_calm _ s hg hb

/-- With no write cycle running the first poll answers. -/
theorem waitIdle_idle (g : Pause) (s : State) (hb : StatusBits s.cfg) (hw : s.wip = false) (hn : 1 ≤ s.cfg.eeBailout) :
    waitIdle g s = (.ok (), (xfer g .eeRdsr s).2) := by
  unfold waitIdle
  obtain ⟨k, hk⟩ : ∃ k, s.cfg.eeBailout = k + 1 := ⟨s.cfg.eeBailout - 1, by omega⟩
  rw [hk]
  simp only [waitIdleLoop, readStatus_eq, eeStatus_wip s hb, hw]
  rfl

/-! ### The range check and the read (R96, R101) -/

theorem readBytes_eq (s : State) (addr n : Nat) (hf : AddressFits s.cfg) (hr : addr + n ≤ s.cfg.eeSize) :
    s.ee.readBytes s.cfg.eeSize (deviceAddr s.cfg addr) n = s.eeBytes addr n := by
  unfold Memory.readBytes State.eeBytes
  apply List.map_congr_left
  intro j hj
  rw [List.mem_range] at hj
  have h1 : deviceAddr s.cfg addr = addr := Nat.mod_eq_of_lt (by unfold AddressFits at hf; omega)
  rw [h1, Nat.mod_eq_of_lt (by omega)]

theorem eeBytes_of_ee {s t : State} (h : t.ee = s.ee) (a n : Nat) : t.eeBytes a n = s.eeBytes a n := by
  unfold State.eeBytes; rw [h]

/-- A raw READ with its gap, no write cycle running, in a calm environment. -/
theorem eeRead_calm {g : Pause} {s : State} (hg : Calm g s) (hw : s.wip = false) (hf : AddressFits s.cfg) (addr n : Nat)
    (hr : addr + n ≤ s.cfg.eeSize) :
    (xfer g (.eeRead addr n) s).1 = s.eeBytes addr n ∧
      (xfer g (.eeRead addr n) s).2.blockPart = s.blockPart.issued ∧
      (xfer g (.eeRead addr n) s).2.eePart = s.eePart := by
  unfold xfer
  rw [transact_eeRead s addr n hw, readBytes_eq s addr n hf hr]
  refine ⟨rfl, ?_, ?_⟩
  · simp only
    rw [hg.after (u := s), tick_envGap_blockPart]; rfl
  · simp only
    rw [hg.after (u := s), (tick_envGap_eeEvolves _).idle (by exact hw)]
    rfl

/-- read with no write cycle running, in a calm environment: the bytes, and the EEPROM as it was. -/
theorem eeReadOp_calm {g : Pause} {s : State} (hg : Calm g s) (hb : StatusBits s.cfg) (hf : AddressFits s.cfg)
    (hn : 1 ≤ s.cfg.eeBailout) (hw : s.wip = false) (addr n : Nat) (hr : addr + n ≤ s.cfg.eeSize) :
    (eeReadOp g addr n s).1 = .ok (s.eeBytes addr n) ∧ Marked s (eeReadOp g addr n s).2 ∧
      (eeReadOp g addr n s).2.eePart = s.eePart := by
  unfold eeReadOp
  rw [if_pos (by simp [eeInRange, hr])]
  by_cases h0 : n = 0
  · subst h0
    rw [if_pos rfl]
    exact ⟨rfl, .refl s, rfl⟩
  · rw [if_neg h0, waitIdle_idle g s hb hw hn]
    simp only [Res.bind]
    obtain ⟨_, hbp, hee⟩ := rdsr_calm hg
    have hm : Marked s (xfer g .eeRdsr s).2 := .inr hbp
    have hep := hee.idle hw
    obtain ⟨h1, h2, h3⟩ := eeRead_calm (s := (xfer g .eeRdsr s).2) (hg.congr hm.gie) ((wip_of_eePart hep).trans hw)
      (by rw [hm.cfg]; exact hf) addr n (by rw [hm.cfg]; exact hr)
    refine ⟨?_, hm.trans (.inr h2), h3.trans hep⟩
    rw [h1, eeBytes_of_ee (ee_of_eePart hep)]

/-- read, said once for every outcome in a calm environment: it never changes the array; the only errors are BadAddress and
Busy. -/
theorem eeReadOp_calm_any {g : Pause} {s : State} (hg : Calm g s) (hb : StatusBits s.cfg) (addr n : Nat) :
    EeEvolves s (eeReadOp g addr n s).2 ∧ Marked s (eeReadOp g addr n s).2 := by
  unfold eeReadOp
  split
  · split
    · exact ⟨.refl s, .refl s⟩
    · obtain ⟨h1, h2, h3⟩ := waitIdle_calm s hg hb
      rcases hr : waitIdle g s with ⟨r, u⟩
      rw [hr] at h1 h2 h3
      simp only at h1 h2 h3
      rcases h3 with ⟨h3, hw⟩ | h3 <;> subst h3 <;> simp only [Res.bind]
      · have hx : (xfer g (.eeRead addr n) u).2 = tick g (u.transact (.eeRead addr n)).2 := rfl
        rw [hx, transact_eeRead u addr n hw]
        simp only
        rw [(hg.congr h2.gie).after (u := u)]
        refine ⟨h1.trans (EeEvolves.trans (t := u.endXfer (.eeRead addr n) _) (.inl rfl) (tick_envGap_eeEvolves _) rfl)
          h2.cfg, h2.trans (.inr ?_)⟩
        rw [tick_envGap_blockPart]; rfl
      · exact ⟨h1, h2⟩
  · exact ⟨.refl s, .refl s⟩

/-! ### The write (R99, R100) -/

/-- A settled array with one run of bytes replaced, as a relation on states. -/
def Replaced (s t : State) (addr : Nat) (d : List Byte) : Prop := Stored s t.settled addr d

/-- writeEnable with no write cycle running, in a calm environment: WEL as the device lets it be. -/
theorem writeEnable_calm {g : Pause} {s : State} (hg : Calm g s) (hb : StatusBits s.cfg) (hw : s.wip = false) :
    (writeEnable g s).1 = (if s.eeProtect then .error .welNotSet else .ok ()) ∧
      (writeEnable g s).2.blockPart = s.blockPart.issued ∧
      (writeEnable g s).2.eePart = (s.ee, false, !s.eeProtect, s.pageBuf) := by
  have hx : xferOut g .eeWren s = tick g ((s.setWel !s.eeProtect).endXfer .eeWren []) := by
    unfold xferOut xfer; rw [transact_eeWren s hw]
  have h1 : (xferOut g .eeWren s).blockPart = s.blockPart.issued := by
    rw [hx, hg.after (u := s.setWel !s.eeProtect), tick_envGap_blockPart]; rfl
  have h2 : (xferOut g .eeWren s).eePart = (s.ee, false, !s.eeProtect, s.pageBuf) := by
    rw [hx, hg.after (u := s.setWel !s.eeProtect), (tick_envGap_eeEvolves _).idle (by exact hw)]
    exact Prod.ext rfl (Prod.ext hw rfl)
  have hm : Marked s (xferOut g .eeWren s) := .inr h1
  have hw1 : (xferOut g .eeWren s).wip = false := congrArg (·.2.1) h2
  have hl1 : (xferOut g .eeWren s).wel = !s.eeProtect := congrArg (·.2.2.1) h2
  obtain ⟨_, h4, h5⟩ := rdsr_calm (hg.congr hm.gie)
  unfold writeEnable
  simp only [readStatus_eq]
  have hbit : bitOf (xferOut g .eeWren s).eeStatus s.cfg.dev.welBit = !s.eeProtect := by
    have := eeStatus_wel (xferOut g .eeWren s) (by rw [hm.cfg]; exact hb)
    rw [hm.cfg] at this
    rw [this, hl1]
  rw [hbit]
  have h6 := h5.idle hw1
  cases hp : s.eeProtect <;> simp only [Bool.not_false, Bool.not_true, if_true, Bool.false_eq_true, if_false]
  · exact ⟨trivial, by rw [h4, h1, issued_issued], by rw [h6, h2, hp]; rfl⟩
  · exact ⟨trivial, by rw [h4, h1, issued_issued], by rw [h6, h2, hp]; rfl⟩

/-- A chunk of a write: inside one page and inside the array (R97). -/
def ChunkOk (p : Params) (a len : Nat) : Prop := a % pageSize + len ≤ pageSize ∧ a + len ≤ p.eeSize

/-- The state in which a burst has been sent: the write cycle runs. -/
theorem burst_settled (s : State) (a : Nat) (d : List Byte) (hwf : s.ee.wf = true) (hf : AddressFits s.cfg)
    (hc : ChunkOk s.cfg a d.length) (hd : d ≠ []) (x : Nat) :
    (s.ee.writeCells s.cfg.eeSize (burstCells (deviceAddr s.cfg a) d)).read x =
      if a ≤ x ∧ x < a + d.length then d.getD (x - a) 0 else s.ee.read x := by
  have hlen : 0 < d.length := List.length_pos_of_ne_nil hd
  obtain ⟨h1, h2⟩ := hc
  have ha : deviceAddr s.cfg a = a := Nat.mod_eq_of_lt (by unfold AddressFits at hf; omega)
  rw [ha, burstCells_eq a d h1, Memory.read_writeCells_run _ _ _ _ _ hwf h2]

/-- One chunk, said once for every outcome in a calm environment: Ok means the burst has been sent, and the settled array
holds it; an error leaves the settled array alone. -/
theorem writeChunk_calm {g : Pause} {s : State} (hg : Calm g s) (hb : StatusBits s.cfg) (hf : AddressFits s.cfg)
    (hwf : s.ee.wf = true) (a : Nat) (d : List Byte) (hc : ChunkOk s.cfg a d.length) (hd : d ≠ []) :
    Marked s (writeChunk g a d s).2 ∧ (writeChunk g a d s).2.ee.wf = true ∧
      ((writeChunk g a d s).1 = .ok () ∧ Replaced s (writeChunk g a d s).2 a d ∨
        (∃ e, (writeChunk g a d s).1 = .error e ∧ (e = .busy ∨ e = .welNotSet)) ∧
          (writeChunk g a d s).2.settled = s.settled) := by
  unfold writeChunk
  obtain ⟨h1, h2, h3⟩ := waitIdle_calm s hg hb
  rcases hr : waitIdle g s with ⟨r, u⟩
  rw [hr] at h1 h2 h3
  simp only at h1 h2 h3
  have hset : u.settled = s.settled := h1.settled h2.cfg
  have hwfu : u.ee.wf = true := h1.wf hwf
  rcases h3 with ⟨h3, hw⟩ | h3 <;> subst h3 <;> simp only [Res.bind]
  · obtain ⟨k1, k2, k3⟩ := writeEnable_calm (hg.congr h2.gie) (by rw [h2.cfg]; exact hb) hw
    rcases hr2 : writeEnable g u with ⟨r2, v⟩
    rw [hr2] at k1 k2 k3
    simp only at k1 k2 k3
    have hmv : Marked u v := .inr k2
    have hvee : v.ee = u.ee := congrArg (·.1) k3
    have hvw : v.wip = false := congrArg (·.2.1) k3
    have hvl : v.wel = !u.eeProtect := congrArg (·.2.2.1) k3
    have hvset : v.settled = u.settled := by
      rw [settled_eq, settled_eq, hvw, hw, hvee]; rfl
    cases hp : u.eeProtect
    · rw [hp] at k1 hvl
      simp only [Bool.false_eq_true, if_false] at k1
      subst k1
      simp only
      have hx : xferOut g (.eeWrite a d) v =
          tick g ((v.startCycle (burstCells (deviceAddr v.cfg a) d)).endXfer (.eeWrite a d) []) := by
        unfold xferOut xfer; rw [transact_eeWrite v a d hvw (by rw [hvl]; rfl)]
      have hcv : v.cfg = s.cfg := hmv.cfg.trans h2.cfg
      have hg2 : Calm g v := (hg.congr h2.gie).congr hmv.gie
      have hev := EeEvolves.trans (s := (v.startCycle (burstCells (deviceAddr v.cfg a) d)).endXfer (.eeWrite a d) [])
        (.inl rfl) (tick_envGap_eeEvolves _) rfl
      rw [hx, hg2.after (u := v.startCycle (burstCells (deviceAddr v.cfg a) d))]
      refine ⟨(h2.trans hmv).trans (.inr ?_), hev.wf (by rw [show ((v.startCycle (burstCells (deviceAddr v.cfg a) d)).endXfer (.eeWrite a d) []).ee = u.ee from hvee]; exact hwfu), .inl ⟨trivial, ?_⟩⟩
      · rw [tick_envGap_blockPart]; rfl
      · intro x
        rw [hev.settled (congrArg BlockPart.cfg (tick_envGap_blockPart _)), settled_eq]
        have := burst_settled v a d (by rw [hvee]; exact hwfu) (by rw [hcv]; exact hf) (by rw [hcv]; exact hc) hd x
        refine Eq.trans this ?_
        have hus : u.settled = u.ee := by rw [settled_eq, hw]; rfl
        rw [hvee, ← hset, hus]
    · rw [hp] at k1
      simp only [if_true] at k1
      subst k1
      simp only
      exact ⟨h2.trans hmv, by rw [hvee]; exact hwfu, .inr ⟨⟨_, rfl, .inr rfl⟩, by rw [hvset, hset]⟩⟩
  · exact ⟨h2, hwfu, .inr ⟨⟨_, rfl, .inl rfl⟩, hset⟩⟩

/-! ### The chunks of a write (R97, R100) -/

/-- A list of chunks that covers [a, a+n): each is inside one page, and each starts where the one before ended. -/
def Covers : List (Nat × Nat) → Nat → Nat → Prop
  | [], _, n => n = 0
  | c :: cs, a, n => c.1 = a ∧ 0 < c.2 ∧ c.2 ≤ n ∧ a % pageSize + c.2 ≤ pageSize ∧ Covers cs (a + c.2) (n - c.2)

theorem chunkLoop_covers (fuel a n : Nat) (h : n ≤ fuel) : Covers (chunkLoop fuel a n) a n := by
  induction fuel generalizing a n with
  | zero => have : n = 0 := by omega
            subst this; rfl
  | succ fuel ih =>
    simp only [chunkLoop]
    split
    · rename_i h0; exact h0
    · rename_i h0
      have hm : a % pageSize < pageSize := Nat.mod_lt _ (by decide)
      refine ⟨rfl, ?_, ?_, ?_, ih _ _ ?_⟩ <;> omega

/-- The chunks of a range cover it (R97). -/
theorem chunks_covers (a n : Nat) : Covers (chunks a n) a n := chunkLoop_covers n a n (Nat.le_refl n)

theorem Covers.length_le {cs : List (Nat × Nat)} {a n : Nat} (h : Covers cs a n) : n = 0 → cs = [] := by
  cases cs with
  | nil => intro _; rfl
  | cons c cs => intro h0; obtain ⟨_, h1, h2, _⟩ := h; omega

theorem Replaced.nil {s t : State} (h : t.settled = s.settled) (a : Nat) : Replaced s t a [] := by
  intro x; rw [h, if_neg (by simp)]

/-- Two adjacent runs are one run. -/
theorem Replaced.append {s t u : State} {a k : Nat} {d : List Byte} (h1 : Replaced s t a (d.take k))
    (h2 : Replaced t u (a + k) (d.drop k)) (hk : k ≤ d.length) : Replaced s u a d := by
  intro x
  have e1 := h1 x
  have e2 := h2 x
  rw [List.length_take, Nat.min_eq_left hk] at e1
  rw [List.length_drop] at e2
  rw [e2]
  by_cases hx : a + k ≤ x ∧ x < a + k + (d.length - k)
  · rw [if_pos hx, if_pos (by omega)]
    simp only [List.getD_eq_getElem?_getD, List.getElem?_drop]
    congr 2; omega
  · rw [if_neg hx, e1]
    by_cases hy : a ≤ x ∧ x < a + k
    · rw [if_pos hy, if_pos (by omega)]
      simp only [List.getD_eq_getElem?_getD]
      rw [List.getElem?_take_of_lt (by omega)]
    · rw [if_neg hy, if_neg (by omega)]

/-- All chunks, said once for every outcome in a calm environment. -/
theorem writeChunks_calm {g : Pause} (cs : List (Nat × Nat)) (a : Nat) (d : List Byte) (s : State) (hg : Calm g s)
    (hb : StatusBits s.cfg) (hf : AddressFits s.cfg) (hwf : s.ee.wf = true) (hc : Covers cs a d.length)
    (hr : a + d.length ≤ s.cfg.eeSize) :
    Marked s (writeChunks g cs d s).2 ∧ (writeChunks g cs d s).2.ee.wf = true ∧
      ((writeChunks g cs d s).1 = .ok () ∧ Replaced s (writeChunks g cs d s).2 a d ∨
        ∃ e, (writeChunks g cs d s).1 = .error e ∧ (e = .busy ∨ e = .welNotSet)) := by
  induction cs generalizing a d s with
  | nil =>
    have : d = [] := List.eq_nil_of_length_eq_zero hc
    subst this
    exact ⟨.refl s, hwf, .inl ⟨rfl, Replaced.nil rfl a⟩⟩
  | cons c cs ih =>
    obtain ⟨h1, h2, h3, h4, h5⟩ := hc
    have hlen : (d.take c.2).length = c.2 := by rw [List.length_take]; omega
    have hne : d.take c.2 ≠ [] := by intro h; rw [h] at hlen; simp at hlen; omega
    obtain ⟨k1, k2, k3⟩ := writeChunk_calm hg hb hf hwf c.1 (d.take c.2)
      ⟨by rw [hlen, h1]; exact h4, by rw [hlen, h1]; omega⟩ hne
    simp only [writeChunks]
    rcases hx : writeChunk g c.1 (d.take c.2) s with ⟨r, u⟩
    rw [hx] at k1 k2 k3
    simp only at k1 k2 k3
    rcases k3 with ⟨k3, k4⟩ | ⟨⟨e, k3, k5⟩, k4⟩ <;> subst k3 <;> simp only [Res.bind]
    · obtain ⟨j1, j2, j3⟩ := ih (a + c.2) (d.drop c.2) u (hg.congr k1.gie) (by rw [k1.cfg]; exact hb)
        (by rw [k1.cfg]; exact hf) k2 (by rw [List.length_drop]; exact h5) (by rw [k1.cfg, List.length_drop]; omega)
      refine ⟨k1.trans j1, j2, ?_⟩
      rcases j3 with ⟨j3, j4⟩ | j3
      · rw [h1] at k4
        exact .inl ⟨j3, Replaced.append k4 j4 h3⟩
      · exact .inr j3
    · exact ⟨k1, k2, .inr ⟨e, rfl, k5⟩⟩

/-- write, said once for every outcome in a calm environment: Ok means that the settled array holds d at addr. -/
theorem eeWriteOp_calm {g : Pause} {s : State} (hg : Calm g s) (hb : StatusBits s.cfg) (hf : AddressFits s.cfg)
    (hwf : s.ee.wf = true) (addr : Nat) (d : List Byte) :
    Marked s (eeWriteOp g addr d s).2 ∧ (eeWriteOp g addr d s).2.ee.wf = true ∧
      ((eeWriteOp g addr d s).1 = .ok () ∧ Replaced s (eeWriteOp g addr d s).2 addr d ∨
        ∃ e, (eeWriteOp g addr d s).1 = .error e ∧ (e = .busy ∨ e = .welNotSet ∨ e = .badAddress)) := by
  unfold eeWriteOp
  split
  · rename_i h
    have hr : addr + d.length ≤ s.cfg.eeSize := by simpa [eeInRange] using h
    obtain ⟨h1, h2, h3⟩ := writeChunks_calm (chunks addr d.length) addr d s hg hb hf hwf (chunks_covers _ _) hr
    refine ⟨h1, h2, ?_⟩
    rcases h3 with h3 | ⟨e, h3, h4⟩
    · exact .inl h3
    · exact .inr ⟨e, h3, by tauto⟩
  · exact ⟨.refl s, hwf, .inr ⟨_, rfl, .inr (.inr rfl)⟩⟩

end Sys2Proof.Machine
end

