-- ==== Sys2Proof/Laws/Quiet.lean ====
section
/-! SUPPORT. Operations in a quiet environment (nothing happens in the gaps), where the state after is written out, and writes
whose cycles end promptly. -/

namespace Sys2Proof.Machine

/-! ### Reading transactions in a quiet environment -/

/-- The state after transactions that only read: their events, chip selects released, the command marked. -/
def State.traced (s : State) (i : Bool) (ev : List Event) : State :=
  { s with csCan := false, csEe := false, cmdIssued := i, events := s.events ++ ev }

theorem traced_nil {s : State} (h : Ready s) : s.traced s.cmdIssued [] = s := by
  cases s
  simp only [Ready] at h
  simp [State.traced, h.2.1, h.2.2]

theorem traced_traced (s : State) (i j : Bool) (e f : List Event) :
    (s.traced i e).traced j f = s.traced j (e ++ f) := by
  simp [State.traced]

theorem traced_ready {s : State} (h : Sampled s) (i : Bool) (e : List Event) : Ready (s.traced i e) := ⟨h, rfl, rfl⟩

/-- A transaction that leaves its device as it was, in a quiet environment. -/
theorem xfer_quiet {g : Pause} {s : State} (hg : Quiet g s) (hs : Sampled s) (x : Xfer) (b : List Byte)
    (h : s.device x = (b, s)) :
    ∃ i, xfer g x s = (b, s.traced i [.xfer x.dev (x.out s.cfg) b]) := by
  refine ⟨s.cmdIssued || (s.cmdBusy && s.ctx == .foreground), ?_⟩
  unfold xfer
  rw [transact_eq, h]
  simp only
  rw [hg.after (u := s), sample_of_sampled (by exact hs)]
  rfl

theorem Quiet.traced {g : Pause} {s : State} (h : Quiet g s) (i : Bool) (e : List Event) : Quiet g (s.traced i e) :=
  h.congr rfl rfl rfl

theorem Quiet.calm {g : Pause} {s : State} (h : Quiet g s) (hs : Still s) (u : State) (h1 : u.gie = s.gie)
    (h2 : u.sched = s.sched) (h3 : u.modeFair = s.modeFair) : g u = envGap u := by
  rw [h u h1 h2 h3, envGap_of_still u ⟨h2.trans hs.1, h3.trans hs.2⟩]

/-- A status read in a quiet environment. -/
theorem rdsr_quiet {g : Pause} {s : State} (hg : Quiet g s) (hs : Sampled s) :
    ∃ i, xfer g .eeRdsr s = ([s.eeStatus], s.traced i [.xfer .ee [s.cfg.dev.eopRdsr] [s.eeStatus]]) :=
  xfer_quiet hg hs .eeRdsr _ rfl

/-- n polls of a running write cycle that does not end (R98). -/
theorem waitIdleLoop_quiet_busy {g : Pause} (n : Nat) (s : State) (hg : Quiet g s) (hr : Ready s) (hb : StatusBits s.cfg)
    (hw : s.wip = true) :
    ∃ i, waitIdleLoop g n s =
      (.error .busy, s.traced i (List.replicate n (.xfer .ee [s.cfg.dev.eopRdsr] [s.eeStatus]))) := by
  induction n generalizing s with
  | zero => exact ⟨s.cmdIssued, by rw [List.replicate_zero, traced_nil hr]; rfl⟩
  | succ n ih =>
    obtain ⟨i, hi⟩ := rdsr_quiet hg hr.1
    obtain ⟨j, hj⟩ := ih (s.traced i [.xfer .ee [s.cfg.dev.eopRdsr] [s.eeStatus]]) (hg.traced _ _)
      (traced_ready hr.1 _ _) hb hw
    refine ⟨j, ?_⟩
    simp only [waitIdleLoop, readStatus_eq, eeStatus_wip s hb, hw, if_true, delay, hi, hj]
    rw [traced_traced]
    rfl

theorem waitIdle_quiet_idle {g : Pause} {s : State} (hg : Quiet g s) (hr : Sampled s) (hb : StatusBits s.cfg)
    (hw : s.wip = false) (hn : 1 ≤ s.cfg.eeBailout) :
    ∃ i, waitIdle g s = (.ok (), s.traced i [.xfer .ee [s.cfg.dev.eopRdsr] [s.eeStatus]]) := by
  obtain ⟨i, hi⟩ := rdsr_quiet hg hr
  exact ⟨i, by rw [waitIdle_idle g s hb hw hn, hi]⟩

/-- read in a quiet environment, no write cycle running (R101). -/
theorem eeReadOp_quiet {g : Pause} {s : State} (hg : Quiet g s) (hr : Ready s) (hb : StatusBits s.cfg)
    (hf : AddressFits s.cfg) (hn : 1 ≤ s.cfg.eeBailout) (hw : s.wip = false) (addr n : Nat)
    (ha : addr + n ≤ s.cfg.eeSize) :
    ∃ i, eeReadOp g addr n s = (.ok (s.eeBytes addr n), s.traced i (if n = 0 then [] else
      [.xfer .ee [s.cfg.dev.eopRdsr] [s.eeStatus],
        .xfer .ee (s.cfg.dev.eopRead :: addrBytes s.cfg addr) (s.eeBytes addr n)])) := by
  unfold eeReadOp
  rw [if_pos (by simp [eeInRange, ha])]
  by_cases h0 : n = 0
  · subst h0
    refine ⟨s.cmdIssued, ?_⟩
    rw [if_pos rfl, if_pos rfl, traced_nil hr]
    rfl
  · obtain ⟨i, hi⟩ := waitIdle_quiet_idle hg hr.1 hb hw hn
    obtain ⟨j, hj⟩ := xfer_quiet (s := s.traced i [.xfer .ee [s.cfg.dev.eopRdsr] [s.eeStatus]]) (hg.traced _ _) hr.1
      (.eeRead addr n) (s.eeBytes addr n) (by
        simp only [State.device, State.eeReadCmd]
        rw [if_neg (by simp [State.traced, hw])]
        exact congrArg (·, _) (readBytes_eq s addr n hf ha))
    refine ⟨j, ?_⟩
    rw [if_neg h0, if_neg h0, hi]
    simp only [Res.bind]
    rw [hj, traced_traced]
    rfl

/-- A read or a write that finds the write cycle running on gives up after its polls (R98). -/
theorem eeReadOp_quiet_busy {g : Pause} {s : State} (hg : Quiet g s) (hr : Ready s) (hb : StatusBits s.cfg)
    (hw : s.wip = true) (addr n : Nat) (ha : addr + n ≤ s.cfg.eeSize) (h0 : n ≠ 0) :
    ∃ i, eeReadOp g addr n s =
      (.error .busy, s.traced i (List.replicate s.cfg.eeBailout (.xfer .ee [s.cfg.dev.eopRdsr] [s.eeStatus]))) := by
  obtain ⟨i, hi⟩ := waitIdleLoop_quiet_busy s.cfg.eeBailout s hg hr hb hw
  refine ⟨i, ?_⟩
  unfold eeReadOp waitIdle
  rw [if_pos (by simp [eeInRange, ha]), if_neg h0, hi]
  rfl

theorem eeWriteOp_quiet_busy {g : Pause} {s : State} (hg : Quiet g s) (hr : Ready s) (hb : StatusBits s.cfg)
    (hw : s.wip = true) (addr : Nat) (d : List Byte) (ha : addr + d.length ≤ s.cfg.eeSize) (h0 : d ≠ []) :
    ∃ i, eeWriteOp g addr d s =
      (.error .busy, s.traced i (List.replicate s.cfg.eeBailout (.xfer .ee [s.cfg.dev.eopRdsr] [s.eeStatus]))) := by
  obtain ⟨i, hi⟩ := waitIdleLoop_quiet_busy s.cfg.eeBailout s hg hr hb hw
  refine ⟨i, ?_⟩
  have hlen : d.length ≠ 0 := fun h => h0 (List.eq_nil_of_length_eq_zero h)
  unfold eeWriteOp
  rw [if_pos (by simp [eeInRange, ha])]
  have hc := chunks_covers addr d.length
  cases hcs : chunks addr d.length with
  | nil => rw [hcs] at hc; exact absurd hc hlen
  | cons c cs =>
    simp only [writeChunks, writeChunk, waitIdle]
    rw [hi]
    rfl

/-- A write to a device held write-protected, in a quiet environment (R99). -/
theorem eeWriteOp_quiet_protected {g : Pause} {s : State} (hg : Quiet g s) (hr : Ready s) (hb : StatusBits s.cfg)
    (hn : 1 ≤ s.cfg.eeBailout) (hw : s.wip = false) (hp : s.eeProtect = true) (addr : Nat) (d : List Byte)
    (ha : addr + d.length ≤ s.cfg.eeSize) (h0 : d ≠ []) :
    ∃ i ev, eeWriteOp g addr d s = (.error .welNotSet, State.traced { s with wel := false } i ev) := by
  have hlen : d.length ≠ 0 := fun h => h0 (List.eq_nil_of_length_eq_zero h)
  obtain ⟨i, hi⟩ := waitIdle_quiet_idle hg hr.1 hb hw hn
  unfold eeWriteOp
  rw [if_pos (by simp [eeInRange, ha])]
  have hc := chunks_covers addr d.length
  cases hcs : chunks addr d.length with
  | nil => rw [hcs] at hc; exact absurd hc hlen
  | cons c cs =>
    simp only [writeChunks, writeChunk]
    rw [hi]
    simp only [Res.bind]
    have hx : ∃ k, xferOut g .eeWren (s.traced i [.xfer .ee [s.cfg.dev.eopRdsr] [s.eeStatus]]) =
        State.traced { s with wel := false } k
          [.xfer .ee [s.cfg.dev.eopRdsr] [s.eeStatus], .xfer .ee [s.cfg.dev.eopWren] []] := by
      refine ⟨i || (s.cmdBusy && s.ctx == .foreground), ?_⟩
      unfold xferOut xfer
      rw [transact_eeWren _ (by exact hw)]
      simp only
      rw [hg.after (u := (s.traced i [.xfer .ee [s.cfg.dev.eopRdsr] [s.eeStatus]]).setWel _), sample_of_sampled (by exact hr.1)]
      simp [State.traced, State.setWel, State.endXfer, hp, Xfer.dev, Xfer.out]
    obtain ⟨k, hk⟩ := hx
    obtain ⟨m, hm⟩ := rdsr_quiet (s := State.traced { s with wel := false } k
          [.xfer .ee [s.cfg.dev.eopRdsr] [s.eeStatus], .xfer .ee [s.cfg.dev.eopWren] []])
      (hg.congr rfl rfl rfl) hr.1
    simp only [writeEnable, readStatus_eq, hk, hm]
    have : bitOf (State.eeStatus (State.traced { s with wel := false } k
        [.xfer .ee [s.cfg.dev.eopRdsr] [s.eeStatus], .xfer .ee [s.cfg.dev.eopWren] []]))
        (s.traced i [.xfer .ee [s.cfg.dev.eopRdsr] [s.eeStatus]]).cfg.dev.welBit = false :=
      eeStatus_wel _ hb
    rw [this]
    simp only [Bool.false_eq_true, if_false]
    exact ⟨m, _, by rw [traced_traced]⟩

/-! ### Write cycles that end promptly -/

/-- The schedule set. -/
def State.setSched (s : State) (r : List (List EnvMove)) : State := { s with sched := r }

/-- A gap in which the write cycle ends. -/
theorem tick_cycleEnd {s : State} (hs : Sampled s) {rest : List (List EnvMove)}
    (h : s.sched = [EnvMove.cycleEnd] :: rest) : tick envGap s = (s.setSched rest).cycleEnd := by
  have hs2 : Sampled ((s.setSched rest).cycleEnd) := by
    unfold State.cycleEnd; split <;> exact hs
  unfold tick
  rw [sample_of_sampled hs]
  unfold envGap
  rw [h]
  exact (envMove_of_sampled (s := s.setSched rest) hs .cycleEnd).trans (sample_of_sampled hs2)

/-- What a prompt write keeps, and the schedule it leaves. -/
structure Kept (s t : State) (rest : List (List EnvMove)) : Prop where
  wip : t.wip = false
  sched : t.sched = rest
  ctl : t.ctlPart = s.ctlPart
  edge : t.edgePart = s.edgePart
  busIn : t.busIn = s.busIn
  busOut : t.busOut = s.busOut
  sampled : Sampled t

theorem Kept.trans {s t u : State} {r1 r2 : List (List EnvMove)} (h1 : Kept s t r1) (h2 : Kept t u r2) : Kept s u r2 :=
  ⟨h2.wip, h2.sched, h2.ctl.trans h1.ctl, h2.edge.trans h1.edge, h2.busIn.trans h1.busIn, h2.busOut.trans h1.busOut,
    h2.sampled⟩

/-- A prompt transaction that starts no write cycle. -/
theorem tick_prompt_idle {g : Pause} {s u : State} (hg : Calm g s) (x : Xfer) (b : List Byte) (hu : u.gie = s.gie)
    (hs : Sampled u) (hw : u.wip = false) {rest : List (List EnvMove)} (h : u.sched = [EnvMove.cycleEnd] :: rest) :
    tick g (u.endXfer x b) = (u.endXfer x b).setSched rest := by
  rw [hg.after hu, tick_cycleEnd (by exact hs) (by exact h)]
  unfold State.cycleEnd
  rw [if_neg (by simp [State.setSched, hw])]

theorem rdsr_prompt {g : Pause} {s : State} (hg : Calm g s) (hs : Sampled s) (hw : s.wip = false)
    {rest : List (List EnvMove)} (h : s.sched = [EnvMove.cycleEnd] :: rest) :
    Kept s (xfer g .eeRdsr s).2 rest := by
  unfold xfer
  rw [transact_eeRdsr]
  simp only
  rw [tick_prompt_idle hg _ _ rfl hs hw h]
  exact ⟨hw, rfl, rfl, rfl, rfl, rfl, hs⟩

/-- One chunk whose cycle ends promptly: Ok. -/
theorem writeChunk_prompt {g : Pause} {s : State} (hg : Calm g s) (hs : Sampled s) (hb : StatusBits s.cfg)
    (hn : 1 ≤ s.cfg.eeBailout) (hw : s.wip = false) (hp : s.eeProtect = false) {rest : List (List EnvMove)}
    (h : s.sched = List.replicate 4 [EnvMove.cycleEnd] ++ rest) (a : Nat) (d : List Byte) :
    (writeChunk g a d s).1 = .ok () ∧ Kept s (writeChunk g a d s).2 rest := by
  have hsch : s.sched =
      [EnvMove.cycleEnd] :: [EnvMove.cycleEnd] :: [EnvMove.cycleEnd] :: [EnvMove.cycleEnd] :: rest := h
  unfold writeChunk
  rw [waitIdle_idle g s hb hw hn]
  simp only [Res.bind]
  have m1 : Marked s (xfer g .eeRdsr s).2 := .inr (rdsr_calm hg).2.1
  have k1 := rdsr_prompt hg hs hw hsch
  generalize (xfer g .eeRdsr s).2 = u at m1 k1
  have hgu := hg.congr m1.gie
  have hpu : u.eeProtect = false := m1.eeProtect.trans hp
  have hx : xferOut g .eeWren u = ((u.setWel !u.eeProtect).endXfer .eeWren []).setSched
      ([EnvMove.cycleEnd] :: [EnvMove.cycleEnd] :: rest) := by
    unfold xferOut xfer
    rw [transact_eeWren u k1.wip]
    exact tick_prompt_idle (u := u.setWel !u.eeProtect) hgu _ _ rfl k1.sampled k1.wip k1.sched
  obtain ⟨w1, w2, w3⟩ := writeEnable_calm hgu (by rw [m1.cfg]; exact hb) k1.wip
  have k2 : Kept u (writeEnable g u).2 ([EnvMove.cycleEnd] :: rest) := by
    have : Kept (xferOut g .eeWren u) (xfer g .eeRdsr (xferOut g .eeWren u)).2 ([EnvMove.cycleEnd] :: rest) := by
      rw [hx]
      exact rdsr_prompt (s := ((u.setWel !u.eeProtect).endXfer .eeWren []).setSched
        ([EnvMove.cycleEnd] :: [EnvMove.cycleEnd] :: rest)) (hgu.congr rfl) k1.sampled k1.wip rfl
    have hk : (writeEnable g u).2 = (xfer g .eeRdsr (xferOut g .eeWren u)).2 := by
      unfold writeEnable; simp only [readStatus_eq]; split <;> rfl
    rw [hk]
    refine Kept.trans (t := xferOut g .eeWren u) (r1 := [EnvMove.cycleEnd] :: [EnvMove.cycleEnd] :: rest) ?_ this
    rw [hx]
    exact ⟨k1.wip, rfl, rfl, rfl, rfl, rfl, k1.sampled⟩
  have m2 : Marked u (writeEnable g u).2 := .inr w2
  have hl : (writeEnable g u).2.wel = true := by
    have := congrArg (·.2.2.1) w3
    simpa [State.eePart, hpu] using this
  rw [hpu] at w1
  simp only [Bool.false_eq_true, if_false] at w1
  rcases hwe : writeEnable g u with ⟨r, v⟩
  rw [hwe] at w1 k2 m2 hl
  simp only at w1 k2 m2 hl
  subst w1
  simp only
  refine ⟨trivial, k1.trans (k2.trans ?_)⟩
  unfold xferOut xfer
  rw [transact_eeWrite v a d k2.wip hl]
  simp only
  rw [(hgu.congr m2.gie).after (u := v.startCycle (burstCells (deviceAddr v.cfg a) d)),
    tick_cycleEnd (by exact k2.sampled) (by exact k2.sched)]
  unfold State.cycleEnd
  rw [if_pos (by rfl)]
  exact ⟨rfl, rfl, rfl, rfl, rfl, rfl, k2.sampled⟩

/-- All chunks of a write, each with its four gaps, whose cycles end promptly: Ok. -/
theorem writeChunks_prompt {g : Pause} (cs : List (Nat × Nat)) (d : List Byte) (s : State) (hg : Calm g s)
    (hs : Sampled s) (hb : StatusBits s.cfg) (hf : AddressFits s.cfg) (hwf : s.ee.wf = true) (hn : 1 ≤ s.cfg.eeBailout)
    (hw : s.wip = false) (hp : s.eeProtect = false) (a : Nat) (hc : Covers cs a d.length)
    (hr : a + d.length ≤ s.cfg.eeSize) {rest : List (List EnvMove)}
    (h : s.sched = List.replicate (4 * cs.length) [EnvMove.cycleEnd] ++ rest) :
    (writeChunks g cs d s).1 = .ok () ∧ Kept s (writeChunks g cs d s).2 rest := by
  induction cs generalizing a d s with
  | nil => exact ⟨rfl, ⟨hw, h, rfl, rfl, rfl, rfl, hs⟩⟩
  | cons c cs ih =>
    obtain ⟨h1, h2, h3, h4, h5⟩ := hc
    have hlen : (d.take c.2).length = c.2 := by rw [List.length_take]; omega
    have hne : d.take c.2 ≠ [] := by intro h; rw [h] at hlen; simp at hlen; omega
    obtain ⟨j1, j2, _⟩ := writeChunk_calm hg hb hf hwf c.1 (d.take c.2)
      ⟨by rw [hlen, h1]; exact h4, by rw [hlen, h1]; omega⟩ hne
    have hsch : s.sched = List.replicate 4 [EnvMove.cycleEnd] ++
        (List.replicate (4 * cs.length) [EnvMove.cycleEnd] ++ rest) := by
      rw [h, ← List.append_assoc, ← List.replicate_add, List.length_cons]
      congr 2; omega
    obtain ⟨k1, k2⟩ := writeChunk_prompt hg hs hb hn hw hp hsch c.1 (d.take c.2)
    simp only [writeChunks]
    rcases hx : writeChunk g c.1 (d.take c.2) s with ⟨r, u⟩
    rw [hx] at j1 j2 k1 k2
    simp only at j1 j2 k1 k2
    subst k1
    simp only [Res.bind]
    obtain ⟨l1, l2⟩ := ih (d.drop c.2) u (hg.congr j1.gie) k2.sampled (by rw [j1.cfg]; exact hb) (by rw [j1.cfg]; exact hf)
      j2 (by rw [j1.cfg]; exact hn) k2.wip (j1.eeProtect.trans hp) (a + c.2) (by rw [List.length_drop]; exact h5)
      (by rw [j1.cfg, List.length_drop]; omega) k2.sched
    exact ⟨l1, k2.trans l2⟩

/-- write with cycles that end promptly: Ok, the array holds d, and the controller and the bus are as they were. -/
theorem eeWriteOp_prompt {g : Pause} {s : State} (hg : Calm g s) (hs : Sampled s) (hb : StatusBits s.cfg)
    (hf : AddressFits s.cfg) (hwf : s.ee.wf = true) (hn : 1 ≤ s.cfg.eeBailout) (hw : s.wip = false)
    (hp : s.eeProtect = false) (addr : Nat) (d : List Byte) (hr : addr + d.length ≤ s.cfg.eeSize)
    {rest : List (List EnvMove)}
    (h : s.sched = List.replicate (4 * (chunks addr d.length).length) [EnvMove.cycleEnd] ++ rest) :
    (eeWriteOp g addr d s).1 = .ok () ∧ Kept s (eeWriteOp g addr d s).2 rest ∧ Marked s (eeWriteOp g addr d s).2 ∧
      Stored s (eeWriteOp g addr d s).2.ee addr d := by
  obtain ⟨h1, _, h3⟩ := eeWriteOp_calm hg hb hf hwf addr d
  have h4 : (eeWriteOp g addr d s).1 = .ok () ∧ Kept s (eeWriteOp g addr d s).2 rest := by
    unfold eeWriteOp
    rw [if_pos (by simp [eeInRange, hr])]
    exact writeChunks_prompt _ d s hg hs hb hf hwf hn hw hp addr (chunks_covers _ _) hr h
  refine ⟨h4.1, h4.2, h1, ?_⟩
  rcases h3 with ⟨_, h3⟩ | ⟨e, h3, _⟩
  · have : (eeWriteOp g addr d s).2.settled = (eeWriteOp g addr d s).2.ee := by
      rw [settled_eq, h4.2.wip]; rfl
    intro x; rw [← this]; exact h3 x
  · rw [h3] at h4; exact absurd h4.1 (by simp)

end Sys2Proof.Machine
end

