-- ==== Sys2Proof/Laws/Tables.lean ====
section
/-! SUPPORT. The EEPROM map of an accepted instance (R11, R51), rows and lookups (R128 to R132), and the signal slots (R125 to
R127), in a calm environment and in a quiet one. -/

namespace Sys2Proof.Machine

/-! ### Accepted instances -/

theorem valid_bailout {p : Params} (h : p.valid = true) : 1 ≤ p.eeBailout := by
  simp only [Params.valid, Params.rangesOk, Bool.and_eq_true, decide_eq_true_eq] at h
  omega

theorem valid_retries {p : Params} (h : p.valid = true) : 1 ≤ p.txRetries := by
  simp only [Params.valid, Params.rangesOk, Bool.and_eq_true, decide_eq_true_eq] at h
  omega

theorem valid_slots {p : Params} (h : p.valid = true) : p.numSignals ≤ 16 := by
  simp only [Params.valid, Params.rangesOk, Bool.and_eq_true, decide_eq_true_eq] at h
  omega

theorem valid_region {p : Params} (h : p.valid = true) (r : Nat × Nat) (hr : r ∈ p.regions) : r.1 + r.2 ≤ p.eeSize := by
  simp only [Params.valid, Params.mapOk, Bool.and_eq_true, List.all_eq_true, decide_eq_true_eq] at h
  exact h.2.1.2 r hr

/-- A slot's record is inside the array. -/
theorem valid_record {p : Params} (h : p.valid = true) {k : Nat} (hk : k < p.numSignals) :
    p.sigAddr k + sigRecBytes ≤ p.eeSize :=
  valid_region h (p.sigAddr k, sigRecBytes) (List.mem_append.2 (.inl (List.mem_map.2 ⟨k, List.mem_range.2 hk, rfl⟩)))

/-- A slot's record never crosses a page: its store is one burst (R126). -/
theorem chunks_record {p : Params} (h : p.valid = true) (k : Nat) :
    chunks (p.sigAddr k) sigRecBytes = [(p.sigAddr k, sigRecBytes)] := by
  simp only [Params.valid, Params.mapOk, Bool.and_eq_true, beq_iff_eq] at h
  have h8 : p.sigAddr k % 8 = 0 := by
    have := h.2.1.1
    simp only [Params.sigAddr, sigRecBytes] at *
    omega
  have hl : min 8 (16 - p.sigAddr k % 16) = 8 := by omega
  simp [chunks, chunkLoop, sigRecBytes, pageSize, hl]

/-- A table's row is inside the array. -/
theorem valid_row {p : Params} (h : p.valid = true) {t i : Nat} (ht : t < p.numSignals) (hi : i < tableRows) :
    p.rowAddr t i + rowBytes ≤ p.eeSize := by
  have := valid_region h (p.tableBase t, rowBytes * tableRows)
    (List.mem_append.2 (.inr (List.mem_map.2 ⟨t, List.mem_range.2 ht, rfl⟩)))
  simp only [Params.rowAddr] at *
  have h2 : rowBytes * i + rowBytes ≤ rowBytes * tableRows := by
    simp only [rowBytes, tableRows] at *; omega
  omega

/-! ### Byte lists -/

@[simp] theorem eeBytes_length (s : State) (a n : Nat) : (s.eeBytes a n).length = n := by simp [State.eeBytes]

@[simp] theorem serRec_length (o : ByteOrder) (f : SigFmt) : (serRec o f).length = sigRecBytes := by
  cases o <;> rfl

@[simp] theorem serRow_length (k : U32) (v : U16) : (serRow k v).length = rowBytes := rfl

/-! ### Rows -/

/-- readRow with no write cycle running, in a calm environment (R130). -/
theorem readRow_calm {g : Pause} {s : State} (hg : Calm g s) (he : EepromReady s) {t i : Nat}
    (ht : t < s.cfg.numSignals) (hi : i < tableRows) :
    (readRow g t i s).1 = .ok (s.rowOf t i) ∧ Marked s (readRow g t i s).2 ∧ (readRow g t i s).2.eePart = s.eePart := by
  obtain ⟨h1, h2, h3⟩ := eeReadOp_calm hg he.2.1 he.2.2.1 (valid_bailout he.2.2.2) he.1 (s.cfg.rowAddr t i) rowBytes
    (valid_row he.2.2.2 ht hi)
  unfold readRow
  rw [if_neg (by omega), if_neg (by omega)]
  rcases hx : eeReadOp g (s.cfg.rowAddr t i) rowBytes s with ⟨r, u⟩
  rw [hx] at h1 h2 h3
  simp only at h1 h2 h3
  subst h1
  exact ⟨rfl, h2, h3⟩

/-- readRow in a quiet environment. -/
theorem readRow_quiet {g : Pause} {s : State} (hg : Quiet g s) (hr : Ready s) (he : EepromReady s) {t i : Nat}
    (ht : t < s.cfg.numSignals) (hi : i < tableRows) :
    ∃ k ev, readRow g t i s = (.ok (s.rowOf t i), s.traced k ev) ∧ actuations ev = [] := by
  obtain ⟨k, hk⟩ := eeReadOp_quiet hg hr he.2.1 he.2.2.1 (valid_bailout he.2.2.2) he.1 (s.cfg.rowAddr t i) rowBytes
    (valid_row he.2.2.2 ht hi)
  refine ⟨k, [.xfer .ee [s.cfg.dev.eopRdsr] [s.eeStatus],
    .xfer .ee (s.cfg.dev.eopRead :: addrBytes s.cfg (s.cfg.rowAddr t i)) (s.eeBytes (s.cfg.rowAddr t i) rowBytes)], ?_, ?_⟩
  · unfold readRow
    rw [if_neg (by omega), if_neg (by omega), hk]
    rfl
  · rfl

theorem EepromReady.congr {s t : State} (h : EepromReady s) (hc : t.cfg = s.cfg) (he : t.eePart = s.eePart) :
    EepromReady t := by
  refine ⟨(wip_of_eePart he).trans h.1, ?_, ?_, ?_⟩ <;> rw [hc]
  · exact h.2.1
  · exact h.2.2.1
  · exact h.2.2.2

theorem rowOf_congr {s t : State} (hc : t.cfg = s.cfg) (he : t.ee = s.ee) (k i : Nat) : t.rowOf k i = s.rowOf k i := by
  unfold State.rowOf State.eeBytes
  rw [hc, he]

theorem tableAnswer_congr {s t : State} (hc : t.cfg = s.cfg) (he : t.ee = s.ee) (k : Nat) (key : Number) (v : U16) :
    TableAnswer t k key v ↔ TableAnswer s k key v := by
  unfold TableAnswer
  simp only [rowOf_congr hc he]

/-! ### Interpolation (R132) -/

/-- The quotient of the interpolation is between 0 and the difference of the values. -/
theorem tdiv_between (a b c : Int) (hb : 0 < b) (hc : b < c) :
    min 0 a ≤ Int.tdiv (a * b) c ∧ Int.tdiv (a * b) c ≤ max 0 a := by
  have hc0 : 0 < c := by omega
  rcases Int.le_total 0 a with ha | ha
  · have h0 : 0 ≤ a * b := Int.mul_nonneg ha (by omega)
    rw [Int.tdiv_eq_ediv_of_nonneg h0]
    have h1 : 0 ≤ a * b / c := Int.ediv_nonneg h0 (by omega)
    have h2 : a * b / c ≤ a := by
      apply Int.ediv_le_of_le_mul hc0
      exact Int.mul_le_mul_of_nonneg_left (by omega) ha
    omega
  · have h0 : 0 ≤ (-a) * b := Int.mul_nonneg (by omega) (by omega)
    have e : a * b = -((-a) * b) := by rw [Int.neg_mul]; omega
    rw [e, Int.neg_tdiv, Int.tdiv_eq_ediv_of_nonneg h0]
    have h1 : 0 ≤ (-a) * b / c := Int.ediv_nonneg h0 (by omega)
    have h2 : (-a) * b / c ≤ -a := by
      apply Int.ediv_le_of_le_mul hc0
      exact Int.mul_le_mul_of_nonneg_left (by omega) (by omega)
    omega

/-- An integer of 16 bits survives its narrowing. -/
theorem ofInt16_toNat (n : Int) (h0 : 0 ≤ n) (h1 : n < 65536) : ((BitVec.ofInt 16 n).toNat : Int) = n := by
  rw [BitVec.toNat_ofInt]
  omega

/-! ### The scan (R132) -/

/-- What the scan has seen before row i: every key below x, and the row before. -/
def ScanInv (s : State) (t : Nat) (key : Number) (i : Nat) (prev : Option (Int × U16)) : Prop :=
  (∀ j, j < i → rowVal (s.rowOf t j).1 key < keyVal key) ∧
    prev = if i = 0 then none else some (rowVal (s.rowOf t (i - 1)).1 key, (s.rowOf t (i - 1)).2)

/-- Where a row ends the scan, its value is the answer of R132. -/
theorem lookupRow_answers (s : State) (t : Nat) (key : Number) (i : Nat) (prev : Option (Int × U16)) (hi : i < tableRows)
    (h : ScanInv s t key i prev) :
    (∀ v, lookupRow (keyVal key) prev (rowVal (s.rowOf t i).1 key) (s.rowOf t i).2 = some v → TableAnswer s t key v) ∧
      (lookupRow (keyVal key) prev (rowVal (s.rowOf t i).1 key) (s.rowOf t i).2 = none →
        ScanInv s t key (i + 1) (some (rowVal (s.rowOf t i).1 key, (s.rowOf t i).2))) := by
  obtain ⟨h1, h2⟩ := h
  unfold lookupRow
  refine ⟨?_, ?_⟩
  · intro v hv
    split at hv
    · rename_i he
      exact .inl ⟨i, hi, h1, he, (Option.some.inj hv).symm⟩
    · split at hv
      · rename_i hne hgt
        cases i with
        | zero =>
          simp only [if_true] at h2
          subst h2
          exact .inr (.inl ⟨hgt, (Option.some.inj hv).symm⟩)
        | succ j =>
          simp only [Nat.add_one_ne_zero, if_false, Nat.add_sub_cancel] at h2
          subst h2
          simp only at hv
          refine .inr (.inr (.inl ⟨j, hi, fun m hm => h1 m (by omega), hgt, ?_⟩))
          have hlo := h1 j (by omega)
          rw [← Option.some.inj hv]
          unfold interpolate
          have hb := tdiv_between (((s.rowOf t (j + 1)).2.toNat : Int) - (s.rowOf t j).2.toNat)
            (keyVal key - rowVal (s.rowOf t j).1 key) (rowVal (s.rowOf t (j + 1)).1 key - rowVal (s.rowOf t j).1 key)
            (by omega) (by omega)
          have e1 := (s.rowOf t (j + 1)).2.isLt
          have e2 := (s.rowOf t j).2.isLt
          exact ofInt16_toNat _ (by omega) (by omega)
      · exact absurd hv (by simp)
  · intro hn
    split at hn
    · exact absurd hn (by simp)
    · split at hn
      · cases prev <;> simp at hn
      · rename_i hne hle
        refine ⟨?_, by simp⟩
        intro j hj
        rcases Nat.lt_succ_iff_lt_or_eq.1 hj with hj | hj
        · exact h1 j hj
        · subst hj; omega

/-- The scan in a calm environment: it ends with the answer of R132, and the array as it was. -/
theorem lookupLoop_calm {g : Pause} (n : Nat) (s : State) (t i : Nat) (key : Number) (prev : Option (Int × U16))
    (hg : Calm g s) (he : EepromReady s) (ht : t < s.cfg.numSignals) (hn : i + n = tableRows)
    (h : ScanInv s t key i prev) :
    (∃ v, (lookupLoop g t key n i prev s).1 = .ok v ∧ TableAnswer s t key v) ∧
      Marked s (lookupLoop g t key n i prev s).2 ∧ (lookupLoop g t key n i prev s).2.eePart = s.eePart := by
  induction n generalizing s i prev with
  | zero =>
    obtain ⟨h1, h2⟩ := h
    have hi : i = 32 := by simpa [tableRows] using hn
    subst hi
    refine ⟨⟨(s.rowOf t 31).2, ?_, .inr (.inr (.inr ⟨h1, rfl⟩))⟩, .refl s, rfl⟩
    simp only [lookupLoop, h2]
    rfl
  | succ n ih =>
    obtain ⟨r1, r2, r3⟩ := readRow_calm hg he ht (i := i) (by omega)
    obtain ⟨a1, a2⟩ := lookupRow_answers s t key i prev (by omega) h
    simp only [lookupLoop]
    rcases hx : readRow g t i s with ⟨r, u⟩
    rw [hx] at r1 r2 r3
    simp only at r1 r2 r3
    subst r1
    simp only [Res.bind]
    cases hl : lookupRow (keyVal key) prev (rowVal (s.rowOf t i).1 key) (s.rowOf t i).2 with
    | some v => exact ⟨⟨v, rfl, a1 v hl⟩, r2, r3⟩
    | none =>
      have hee := ee_of_eePart r3
      have hs : ScanInv u t key (i + 1) (some (rowVal (s.rowOf t i).1 key, (s.rowOf t i).2)) := by
        have := a2 hl
        unfold ScanInv at *
        simp only [rowOf_congr r2.cfg hee]
        exact this
      obtain ⟨⟨v, b1, b2⟩, b3, b4⟩ := ih u (i + 1) _ (hg.congr r2.gie) (he.congr r2.cfg r3) (by rw [r2.cfg]; exact ht)
        (by omega) hs
      exact ⟨⟨v, b1, (tableAnswer_congr r2.cfg hee t key v).1 b2⟩, r2.trans b3, b4.trans r3⟩

/-- lookup in a calm environment (R132). -/
theorem lookup_calm {g : Pause} {s : State} (hg : Calm g s) (he : EepromReady s) {t : Nat} (ht : t < s.cfg.numSignals)
    (key : Number) :
    (∃ v, (lookup g t key s).1 = .ok v ∧ TableAnswer s t key v) ∧ Marked s (lookup g t key s).2 ∧
      (lookup g t key s).2.eePart = s.eePart := by
  unfold lookup
  rw [if_neg (by omega)]
  exact lookupLoop_calm _ s t 0 key none hg he ht rfl ⟨fun j hj => absurd hj (by omega), rfl⟩

theorem actuations_append (a b : List Event) : actuations (a ++ b) = actuations a ++ actuations b := by
  simp [actuations]

/-- The scan in a quiet environment only leaves transactions behind. -/
theorem lookupLoop_quiet {g : Pause} (n : Nat) (s : State) (t i : Nat) (key : Number) (prev : Option (Int × U16))
    (hg : Quiet g s) (hr : Ready s) (he : EepromReady s) (ht : t < s.cfg.numSignals) (hn : i + n = tableRows) :
    ∃ r k ev, lookupLoop g t key n i prev s = (r, s.traced k ev) ∧ actuations ev = [] := by
  induction n generalizing s i prev with
  | zero => exact ⟨_, s.cmdIssued, [], by rw [traced_nil hr]; rfl, rfl⟩
  | succ n ih =>
    obtain ⟨k, ev, hk, hev⟩ := readRow_quiet hg hr he ht (i := i) (by omega)
    simp only [lookupLoop, hk, Res.bind]
    cases lookupRow (keyVal key) prev (rowVal (s.rowOf t i).1 key) (s.rowOf t i).2 with
    | some v => exact ⟨_, k, ev, rfl, hev⟩
    | none =>
      obtain ⟨r, m, ew, hm, hew⟩ := ih (s.traced k ev) (i + 1) (some (rowVal (s.rowOf t i).1 key, (s.rowOf t i).2))
        (hg.traced k ev) (traced_ready hr.1 k ev) he ht (by omega)
      exact ⟨r, m, ev ++ ew, by simp only; rw [hm, traced_traced], by rw [actuations_append, hev, hew]; rfl⟩

/-- lookup in a quiet environment. -/
theorem lookup_quiet {g : Pause} {s : State} (hg : Quiet g s) (hs : Still s) (hr : Ready s) (he : EepromReady s) {t : Nat}
    (ht : t < s.cfg.numSignals) (key : Number) (hc : Calm g s) :
    ∃ v k ev, lookup g t key s = (.ok v, s.traced k ev) ∧ actuations ev = [] ∧ TableAnswer s t key v := by
  obtain ⟨⟨v, h1, h2⟩, _⟩ := lookup_calm hc he ht key
  obtain ⟨r, k, ev, h3, h4⟩ := lookupLoop_quiet tableRows s t 0 key none hg hr he ht rfl
  have h5 : lookup g t key s = (r, s.traced k ev) := by
    unfold lookup; rw [if_neg (by omega)]; exact h3
  rw [h5] at h1
  exact ⟨v, k, ev, by rw [h5, ← h1], h4, h2⟩

/-! ### Signal slots -/

/-- sigLoad with no write cycle running, in a calm environment (R125). -/
theorem sigLoad_calm {g : Pause} {s : State} (hg : Calm g s) (he : EepromReady s) {k : Nat}
    (hk : k < s.cfg.numSignals) :
    ∃ u, Marked s u ∧ u.eePart = s.eePart ∧
      sigLoad g k s =
        (.ok (), tick g (u.setMirror k (deserRec s.cfg.idRecOrder (s.eeBytes (s.cfg.sigAddr k) sigRecBytes)))) := by
  obtain ⟨h1, h2, h3⟩ := eeReadOp_calm hg he.2.1 he.2.2.1 (valid_bailout he.2.2.2) he.1 (s.cfg.sigAddr k) sigRecBytes
    (valid_record he.2.2.2 hk)
  unfold sigLoad
  rcases hx : eeReadOp g (s.cfg.sigAddr k) sigRecBytes s with ⟨r, u⟩
  rw [hx] at h1 h2 h3
  simp only at h1 h2 h3
  subst h1
  exact ⟨u, h2, h3, rfl⟩

/-- sigStore, said once for every outcome in a calm environment (R126, R155): the mirror changes exactly on Ok. -/
theorem sigStore_calm {g : Pause} {s : State} (hg : Calm g s) (hb : StatusBits s.cfg) (hf : AddressFits s.cfg)
    (hwf : s.ee.wf = true) {k : Nat} (hk : k < s.cfg.numSignals) (f : SigFmt) :
    ∃ u, Marked s u ∧ u.ee.wf = true ∧
      (sigStore g k f s = (.ok (), tick g (u.setMirror k f)) ∧
          Replaced s u (s.cfg.sigAddr k) (serRec s.cfg.idRecOrder f) ∧
          eeWriteOp g (s.cfg.sigAddr k) (serRec s.cfg.idRecOrder f) s = (.ok (), u) ∨
        ∃ e, sigStore g k f s = (.error e, u) ∧ (e = .busy ∨ e = .welNotSet ∨ e = .badAddress)) := by
  obtain ⟨h1, h2, h3⟩ := eeWriteOp_calm hg hb hf hwf (s.cfg.sigAddr k) (serRec s.cfg.idRecOrder f)
  unfold sigStore
  rw [if_neg (by omega)]
  rcases hx : eeWriteOp g (s.cfg.sigAddr k) (serRec s.cfg.idRecOrder f) s with ⟨r, u⟩
  rw [hx] at h1 h2 h3
  simp only at h1 h2 h3
  rcases h3 with ⟨h3, h4⟩ | ⟨e, h3, h4⟩ <;> subst h3
  · exact ⟨u, h1, h2, .inl ⟨rfl, h4, rfl⟩⟩
  · exact ⟨u, h1, h2, .inr ⟨e, rfl, h4⟩⟩

end Sys2Proof.Machine
end

