-- ==== Sys2Proof/Laws/Growth.lean ====
section
/-! SUPPORT. What no operation of the block and no move of another agent does, said once for each of them: it keeps the
parameters, the phase, the interrupt enable, the context and the presenter's commands; it clears no fault, unloads no slot,
leaves no chip select asserted, and keeps the EEPROM list canonical and inside the array. -/

namespace Sys2Proof.Machine

/-- The two states of a step that is no step of the sequencer. -/
structure Grows (s t : State) : Prop where
  cfg : t.cfg = s.cfg
  phase : t.phase = s.phase
  boot : t.boot = s.boot
  gie : t.gie = s.gie
  ctx : t.ctx = s.ctx
  script : t.script = s.script
  cmdBusy : t.cmdBusy = s.cmdBusy
  cmdIssued : s.cmdBusy = false → s.cmdIssued = false → t.cmdIssued = false
  csCan : s.csCan = false → t.csCan = false
  csEe : s.csEe = false → t.csEe = false
  unloadedMirror : s.faults.unloadedMirror = true → t.faults.unloadedMirror = true
  busConflict : s.faults.busConflict = true → t.faults.busConflict = true
  protocolViolation : s.faults.protocolViolation = true → t.faults.protocolViolation = true
  loaded : ∀ k, s.mirrorAt k ≠ none → t.mirrorAt k ≠ none
  wf : s.ee.wf = true → t.ee.wf = true
  inside : (∀ c ∈ s.ee, c.1 < s.cfg.eeSize) → ∀ c ∈ t.ee, c.1 < t.cfg.eeSize

theorem Grows.refl (s : State) : Grows s s := ⟨rfl, rfl, rfl, rfl, rfl, rfl, rfl, fun _ => id, id, id, id, id, id, fun _ => id, id, id⟩

theorem Grows.trans {s t u : State} (h1 : Grows s t) (h2 : Grows t u) : Grows s u where
  cfg := h2.cfg.trans h1.cfg
  phase := h2.phase.trans h1.phase
  boot := h2.boot.trans h1.boot
  gie := h2.gie.trans h1.gie
  ctx := h2.ctx.trans h1.ctx
  script := h2.script.trans h1.script
  cmdBusy := h2.cmdBusy.trans h1.cmdBusy
  cmdIssued := fun a b => h2.cmdIssued (h1.cmdBusy.trans a) (h1.cmdIssued a b)
  csCan := fun a => h2.csCan (h1.csCan a)
  csEe := fun a => h2.csEe (h1.csEe a)
  unloadedMirror := fun a => h2.unloadedMirror (h1.unloadedMirror a)
  busConflict := fun a => h2.busConflict (h1.busConflict a)
  protocolViolation := fun a => h2.protocolViolation (h1.protocolViolation a)
  loaded := fun k a => h2.loaded k (h1.loaded k a)
  wf := fun a => h2.wf (h1.wf a)
  inside := fun a => h2.inside (h1.inside a)

/-- An update of the result, the handler's error, the controller, the world or the edge detector. -/
theorem Grows.of_parts {s t : State} (h1 : t.blockPart = s.blockPart) (h2 : t.ee = s.ee) : Grows s t where
  cfg := congrArg BlockPart.cfg h1
  phase := congrArg BlockPart.phase h1
  boot := congrArg BlockPart.boot h1
  gie := congrArg BlockPart.gie h1
  ctx := congrArg BlockPart.ctx h1
  script := congrArg BlockPart.script h1
  cmdBusy := congrArg BlockPart.cmdBusy h1
  cmdIssued := fun _ b => (congrArg BlockPart.cmdIssued h1).trans b
  csCan := fun a => (congrArg BlockPart.csCan h1).trans a
  csEe := fun a => (congrArg BlockPart.csEe h1).trans a
  unloadedMirror := fun a => (congrArg (·.faults.unloadedMirror) h1).trans a
  busConflict := fun a => (congrArg (·.faults.busConflict) h1).trans a
  protocolViolation := fun a => (congrArg (·.faults.protocolViolation) h1).trans a
  loaded := fun k a => by
    have := congrArg BlockPart.mirror h1
    unfold State.mirrorAt at *
    rw [show t.mirror = s.mirror from this]; exact a
  wf := fun a => by rw [h2]; exact a
  inside := fun a => by rw [h2, show t.cfg = s.cfg from congrArg BlockPart.cfg h1]; exact a

/-- A transaction (R82, R83, R95): its fault, if any, is added; the array is as it was. -/
theorem transact_grows (s : State) (x : Xfer) : Grows s (s.transact x).2 := by
  rw [transact_eq]
  simp only
  have hd : Grows s (s.device x).2 := by
    cases x with
    | canReset =>
      refine Grows.mk ?_ ?_ ?_ ?_ ?_ ?_ ?_ ?_ ?_ ?_ ?_ ?_ ?_ ?_ ?_ ?_ <;> simp [State.device]
    | canRead a n => exact .refl s
    | canWrite a d =>
      obtain ⟨c, hc⟩ := ctlWrites_ctl_only d s a
      simp only [State.device, hc]
      exact .of_parts rfl rfl
    | canBitmod a m d =>
      obtain ⟨c, hc⟩ := ctlWrite_ctl_only s a ((s.reg a &&& ~~~m) ||| (d &&& m))
      simp only [State.device, State.ctlBitmod, hc]
      exact .of_parts rfl rfl
    | canRxStatus => exact .refl s
    | eeWren =>
      simp only [State.device, State.eeWrenCmd]
      split
      · exact ⟨rfl, rfl, rfl, rfl, rfl, rfl, rfl, fun _ => id, id, id, id, id, fun _ => rfl, fun _ => id, id, id⟩
      · exact .of_parts rfl rfl
    | eeRdsr => exact .refl s
    | eeRead a n =>
      simp only [State.device, State.eeReadCmd]
      split
      · exact ⟨rfl, rfl, rfl, rfl, rfl, rfl, rfl, fun _ => id, id, id, id, id, fun _ => rfl, fun _ => id, id, id⟩
      · exact .refl s
    | eeWrite a d =>
      simp only [State.device, State.eeWriteCmd]
      split
      · exact ⟨rfl, rfl, rfl, rfl, rfl, rfl, rfl, fun _ => id, id, id, id, id, fun _ => rfl, fun _ => id, id, id⟩
      · split
        · exact .of_parts rfl rfl
        · exact .refl s
  refine hd.trans ?_
  generalize (s.device x).2 = u
  refine Grows.mk rfl rfl rfl rfl rfl rfl rfl ?_ (fun _ => rfl) (fun _ => rfl) id id id (fun _ => id) id id
  intro h1 h2
  simp [State.endXfer, h1, h2]

/-! ### Operations -/

/-- The same with the edge detector: a state that has sampled the line leads to one that has. -/
structure Keeps (s t : State) : Prop extends Grows s t where
  sampled : Sampled s → Sampled t

theorem Keeps.refl (s : State) : Keeps s s := ⟨.refl s, id⟩

theorem Keeps.trans {s t u : State} (h1 : Keeps s t) (h2 : Keeps t u) : Keeps s u :=
  ⟨h1.toGrows.trans h2.toGrows, fun h => h2.sampled (h1.sampled h)⟩

/-- A pause whose moves keep all this. -/
def Good (g : Pause) : Prop := ∀ u, Keeps u (g u)

theorem sample_grows (s : State) : Grows s (sample s) := .of_parts rfl rfl

theorem envMove_keeps (s : State) (m : EnvMove) : Keeps s (envMove s m) := by
  refine ⟨?_, fun h => envMove_sampled h m⟩
  have hb := envMove_blockPart s m
  have hg : Grows s (envMove s m) := by
    rcases envMove_eeEvolves s m with he | he
    · exact .of_parts hb (ee_of_eePart he)
    · have h1 : Grows s { s with ee := s.cycleEnd.ee } :=
        ⟨rfl, rfl, rfl, rfl, rfl, rfl, rfl, fun _ => id, id, id, id, id, id, fun _ => id, cycleEnd_wf s,
          fun h c hc => cycleEnd_in s h c hc⟩
      exact h1.trans (.of_parts hb (congrArg (·.1) he))
  exact hg

theorem foldl_envMove_keeps (ms : List EnvMove) (s : State) : Keeps s (ms.foldl envMove s) := by
  induction ms generalizing s with
  | nil => exact .refl s
  | cons m ms ih => exact (envMove_keeps s m).trans (ih _)

theorem good_envGap : Good envGap := by
  intro s
  unfold envGap
  split
  · rename_i ms rest _
    exact Keeps.trans (t := { s with sched := rest }) ⟨.of_parts rfl rfl, id⟩ (foldl_envMove_keeps ms _)
  · split
    · exact envMove_keeps s _
    · exact .refl s

theorem tick_keeps {g : Pause} (hg : Good g) (s : State) : Keeps s (tick g s) :=
  ⟨(sample_grows s).trans (hg _).toGrows, fun _ => (hg _).sampled rfl⟩

/-- A step whose update keeps all this but for the edge detector, with the pause after it. -/
theorem Grows.tick {g : Pause} (hg : Good g) {s t : State} (h : Grows s t) : Keeps s (Machine.tick g t) :=
  ⟨h.trans (tick_keeps hg t).toGrows, fun _ => (hg _).sampled rfl⟩

theorem xfer_keeps {g : Pause} (hg : Good g) (x : Xfer) (s : State) : Keeps s (xfer g x s).2 :=
  (transact_grows s x).tick hg

theorem setShadow_grows (s : State) (m : Option Mode) : Grows s { s with modeShadow := m } :=
  ⟨rfl, rfl, rfl, rfl, rfl, rfl, rfl, fun _ => id, id, id, id, id, id, fun _ => id, id, id⟩

theorem setLatch_grows (s : State) (b : Bool) : Grows s { s with latch := b } :=
  ⟨rfl, rfl, rfl, rfl, rfl, rfl, rfl, fun _ => id, id, id, id, id, id, fun _ => id, id, id⟩

theorem resetOp_keeps {g : Pause} (hg : Good g) (s : State) : Keeps s (resetOp g s) :=
  ((transact_grows s .canReset).trans (setShadow_grows _ none)).tick hg

/-- An operation after another. -/
theorem bind_keeps {α β : Type} {s : State} {r : Res α} {k : α → State → Res β} (h1 : Keeps s r.2)
    (h2 : ∀ a u, Keeps u (k a u).2) : Keeps s (r.bind k).2 := by
  rcases r with ⟨⟨e⟩ | ⟨a⟩, u⟩
  · exact h1
  · exact h1.trans (h2 a u)

theorem waitIdleLoop_keeps {g : Pause} (hg : Good g) (n : Nat) (s : State) : Keeps s (waitIdleLoop g n s).2 := by
  induction n generalizing s with
  | zero => exact .refl s
  | succ n ih =>
    simp only [waitIdleLoop, delay]
    split
    · exact (xfer_keeps hg _ s).trans (ih _)
    · exact xfer_keeps hg _ s

theorem waitIdle_keeps {g : Pause} (hg : Good g) (s : State) : Keeps s (waitIdle g s).2 := waitIdleLoop_keeps hg _ s

theorem writeEnable_keeps {g : Pause} (hg : Good g) (s : State) : Keeps s (writeEnable g s).2 := by
  simp only [writeEnable]
  split <;> exact (xfer_keeps hg _ s).trans (xfer_keeps hg _ _)

theorem writeChunk_keeps {g : Pause} (hg : Good g) (a : Nat) (d : List Byte) (s : State) :
    Keeps s (writeChunk g a d s).2 :=
  bind_keeps (waitIdle_keeps hg s) fun _ u => bind_keeps (writeEnable_keeps hg u) fun _ v => xfer_keeps hg _ v

theorem writeChunks_keeps {g : Pause} (hg : Good g) (cs : List (Nat × Nat)) (d : List Byte) (s : State) :
    Keeps s (writeChunks g cs d s).2 := by
  induction cs generalizing d s with
  | nil => exact .refl s
  | cons c cs ih => exact bind_keeps (writeChunk_keeps hg _ _ s) fun _ u => ih _ u

theorem eeWriteOp_keeps {g : Pause} (hg : Good g) (addr : Nat) (d : List Byte) (s : State) :
    Keeps s (eeWriteOp g addr d s).2 := by
  unfold eeWriteOp
  split
  · exact writeChunks_keeps hg _ _ s
  · exact .refl s

theorem eeReadOp_keeps {g : Pause} (hg : Good g) (addr n : Nat) (s : State) : Keeps s (eeReadOp g addr n s).2 := by
  unfold eeReadOp
  split
  · split
    · exact .refl s
    · exact bind_keeps (waitIdle_keeps hg s) fun _ u => xfer_keeps hg _ u
  · exact .refl s

theorem modePoll_keeps {g : Pause} (hg : Good g) (m : Mode) (n : Nat) (s t : State) (h : modePoll g m n s = some t) :
    Keeps s t := by
  induction n generalizing s with
  | zero => exact absurd h (by simp [modePoll])
  | succ n ih =>
    simp only [modePoll] at h
    split at h
    · rw [← Option.some.inj h]; exact xfer_keeps hg _ s
    · exact (xfer_keeps hg _ s).trans (ih _ h)

theorem setModeOp_keeps {g : Pause} (hg : Good g) (m : Mode) (s t : State) (h : setModeOp g m s = some t) :
    Keeps s t := by
  simp only [setModeOp, Option.map_eq_some_iff] at h
  obtain ⟨u, h1, h2⟩ := h
  subst h2
  exact ((xfer_keeps hg _ s).trans (modePoll_keeps hg m _ _ _ h1)).trans
    ⟨⟨rfl, rfl, rfl, rfl, rfl, rfl, rfl, fun _ => id, id, id, id, id, id, fun _ => id, id, id⟩, id⟩

theorem setBitTiming_keeps {g : Pause} (hg : Good g) (a b c : Byte) (s : State) : Keeps s (setBitTiming g a b c s) :=
  (xfer_keeps hg _ s).trans ((xfer_keeps hg _ _).trans (xfer_keeps hg _ _))

theorem receive_keeps {g : Pause} (hg : Good g) (b : Nat) (s : State) : Keeps s (receive g b s).2 := by
  simp only [receive]
  split
  · exact (xfer_keeps hg _ s).trans (xfer_keeps hg _ _)
  · exact xfer_keeps hg _ s

theorem txPoll_keeps {g : Pause} (hg : Good g) (n : Nat) (s : State) : Keeps s (txPoll g n s).2 := by
  induction n generalizing s with
  | zero => exact .refl s
  | succ n ih =>
    simp only [txPoll, delay]
    split
    · exact (xfer_keeps hg _ s).trans (xfer_keeps hg _ _)
    · split
      · exact (xfer_keeps hg _ s).trans (ih _)
      · exact xfer_keeps hg _ s

theorem transmit_keeps {g : Pause} (hg : Good g) (f : CanFrame) (s : State) : Keeps s (transmit g f s).2 :=
  (xfer_keeps hg _ s).trans ((xfer_keeps hg _ _).trans (txPoll_keeps hg _ _))

theorem writeRow_keeps {g : Pause} (hg : Good g) (t i : Nat) (k : U32) (v : U16) (s : State) :
    Keeps s (writeRow g t i k v s).2 := by
  unfold writeRow
  split
  · exact .refl s
  · split
    · exact .refl s
    · exact eeWriteOp_keeps hg _ _ s

theorem readRow_keeps {g : Pause} (hg : Good g) (t i : Nat) (s : State) : Keeps s (readRow g t i s).2 := by
  unfold readRow
  split
  · exact .refl s
  · split
    · exact .refl s
    · exact bind_keeps (eeReadOp_keeps hg _ _ s) fun _ u => .refl u

theorem lookupLoop_keeps {g : Pause} (hg : Good g) (t : Nat) (key : Number) (n i : Nat) (prev : Option (Int × U16))
    (s : State) : Keeps s (lookupLoop g t key n i prev s).2 := by
  induction n generalizing i prev s with
  | zero => exact .refl s
  | succ n ih =>
    refine bind_keeps (readRow_keeps hg t i s) fun r u => ?_
    split
    · exact .refl u
    · exact ih _ _ u

theorem lookup_keeps {g : Pause} (hg : Good g) (t : Nat) (key : Number) (s : State) : Keeps s (lookup g t key s).2 := by
  unfold lookup
  split
  · exact .refl s
  · exact lookupLoop_keeps hg t key _ _ _ s

theorem setMirror_grows (s : State) (k : Nat) (f : SigFmt) : Grows s (s.setMirror k f) := by
  refine ⟨rfl, rfl, rfl, rfl, rfl, rfl, rfl, fun _ => id, id, id, id, id, id, ?_, id, id⟩
  intro j h
  rw [mirrorAt_setMirror]
  split
  · simp
  · exact h

theorem sigLoad_keeps {g : Pause} (hg : Good g) (k : Nat) (s : State) : Keeps s (sigLoad g k s).2 :=
  bind_keeps (eeReadOp_keeps hg _ _ s) fun _ u => (setMirror_grows u _ _).tick hg

/-- A slot loaded with Ok holds a format (R125). -/
theorem sigLoad_loaded {g : Pause} (hg : Good g) {k : Nat} (hk : k < 16) {s t : State} (h : sigLoad g k s = (.ok (), t)) :
    t.mirrorAt k ≠ none := by
  unfold sigLoad at h
  generalize eeReadOp g (s.cfg.sigAddr k) sigRecBytes s = r at h
  rcases r with ⟨e | b, u⟩
  · exact absurd (congrArg Prod.fst h) (by simp [Res.bind])
  · have ht : tick g (u.setMirror k (deserRec s.cfg.idRecOrder b)) = t := congrArg Prod.snd h
    rw [← ht]
    refine (tick_keeps hg _).loaded k ?_
    rw [mirrorAt_setMirror]
    simp [hk]

theorem sigStore_keeps {g : Pause} (hg : Good g) (k : Nat) (f : SigFmt) (s : State) :
    Keeps s (sigStore g k f s).2 := by
  unfold sigStore
  split
  · exact .refl s
  · exact bind_keeps (eeWriteOp_keeps hg _ _ s) fun _ u => (setMirror_grows u _ _).tick hg

theorem readMirror_keeps (k : Nat) (s : State) : Keeps s (readMirror k s).2 := by
  unfold readMirror
  split
  · exact .refl s
  · exact ⟨⟨rfl, rfl, rfl, rfl, rfl, rfl, rfl, fun _ => id, id, id, fun _ => rfl, id, id, fun _ => id, id, id⟩, id⟩

theorem sigGet_keeps {g : Pause} (hg : Good g) (k : Nat) (s : State) : Keeps s (sigGet g k s).2 := by
  unfold sigGet
  split
  · exact .refl s
  · have h : ∀ u, Keeps u (tick g (readMirror k u).2) := fun u => (readMirror_keeps k u).toGrows.tick hg
    exact (h s).trans ((h _).trans ((h _).trans (h _)))

/-! ### The handler -/

theorem setHErr_keeps (s : State) (b : Bool) : Keeps s { s with hErr := b } :=
  ⟨⟨rfl, rfl, rfl, rfl, rfl, rfl, rfl, fun _ => id, id, id, id, id, id, fun _ => id, id, id⟩, id⟩

theorem failClass_keeps {α : Type} {s : State} {r : Res α} (h : Keeps s r.2) : Keeps s (failClass r) := by
  rcases r with ⟨⟨e⟩ | ⟨a⟩, u⟩
  · exact h.trans (setHErr_keeps u true)
  · exact h

theorem tblRd_keeps (fr : CanFrame) (s : State) : Keeps s (tblRd fr s) := by
  unfold tblRd
  split
  · exact failClass_keeps (.refl s)
  · split
    · exact failClass_keeps (.refl s)
    · exact failClass_keeps (bind_keeps (readRow_keeps good_envGap _ _ s) fun _ u => transmit_keeps good_envGap _ u)

theorem tblWr_keeps (fr : CanFrame) (s : State) : Keeps s (tblWr fr s) := by
  unfold tblWr
  split
  · exact failClass_keeps (.refl s)
  · split
    · exact failClass_keeps (.refl s)
    · exact failClass_keeps (writeRow_keeps good_envGap _ _ _ _ s)

theorem sigRd_keeps (fr : CanFrame) (s : State) : Keeps s (sigRd fr s) := by
  unfold sigRd
  split
  · exact failClass_keeps (.refl s)
  · split
    · exact failClass_keeps (.refl s)
    · exact failClass_keeps ((readMirror_keeps _ s).trans (transmit_keeps good_envGap _ _))

theorem sigWr_keeps (fr : CanFrame) (s : State) : Keeps s (sigWr fr s) := by
  unfold sigWr
  split
  · exact failClass_keeps (.refl s)
  · exact failClass_keeps (sigStore_keeps good_envGap _ _ s)

theorem actuate_keeps {g : Pause} (hg : Good g) (ch : Nat) (v : U16) (s : State) : Keeps s (actuate g ch v s) :=
  Grows.tick hg ⟨rfl, rfl, rfl, rfl, rfl, rfl, rfl, fun _ => id, id, id, id, id, id, fun _ => id, id, id⟩

theorem signalSlot_keeps (fr : CanFrame) (k : Nat) (s : State) : Keeps s (signalSlot fr k s) := by
  refine (readMirror_keeps k s).trans ?_
  unfold signalSlot
  simp only
  generalize readMirror k s = r
  split
  · split
    · exact setHErr_keeps _ _
    · rename_i key _
      have h := lookup_keeps good_envGap k key r.2
      split
      · rename_i he; rw [he] at h; exact h.trans (setHErr_keeps _ _)
      · rename_i he; rw [he] at h; exact h.trans (actuate_keeps good_envGap _ _ _)
  · exact .refl _

theorem foldl_signalSlot_keeps (ks : List Nat) (fr : CanFrame) (s : State) :
    Keeps s (ks.foldl (fun st k => signalSlot fr k st) s) := by
  induction ks generalizing s with
  | nil => exact .refl s
  | cons k ks ih => exact (signalSlot_keeps fr k s).trans (ih _)

theorem sigFrame_keeps (fr : CanFrame) (s : State) : Keeps s (sigFrame fr s) := foldl_signalSlot_keeps _ fr s

theorem runClass_keeps (c : FrameClass) (fr : CanFrame) (s : State) : Keeps s (runClass c fr s) := by
  cases c
  · exact tblRd_keeps fr s
  · exact tblWr_keeps fr s
  · exact sigRd_keeps fr s
  · exact sigWr_keeps fr s
  · exact sigFrame_keeps fr s

theorem handlerFetch_keeps (s : State) : Keeps s (handlerFetch s).2 :=
  (setHErr_keeps s false).trans ((xfer_keeps good_envGap _ _).trans (receive_keeps good_envGap _ _))

/-- The context set. -/
def State.setCtx (s : State) (c : Ctx) : State := { s with ctx := c }

/-- The handler's end keeps all but the context, which is the foreground's. -/
theorem handlerTail_keeps (b : Nat) (s : State) : ∃ u, Keeps s u ∧ handlerTail b s = sample (u.setCtx .foreground) := by
  refine ⟨_, ?_, rfl⟩
  refine Keeps.trans (t := clearStep b s) ?_ (Grows.tick good_envGap ?_)
  · exact ((transact_grows s (.canBitmod s.cfg.dev.map.canintf (oneBit b) 0)).trans (setLatch_grows _ false)).tick
      good_envGap
  · exact ⟨rfl, rfl, rfl, rfl, rfl, rfl, rfl, fun _ => id, id, id, id, id, id, fun _ => id, id, id⟩

/-- The same two contexts changed alike. -/
theorem Grows.setCtx {s t : State} (h : Grows s t) (c : Ctx) : Grows (s.setCtx c) (t.setCtx c) :=
  ⟨h.cfg, h.phase, h.boot, h.gie, rfl, h.script, h.cmdBusy, h.cmdIssued, h.csCan, h.csEe, h.unloadedMirror,
    h.busConflict, h.protocolViolation, h.loaded, h.wf, h.inside⟩

theorem setCtx_self {s : State} {c : Ctx} (h : s.ctx = c) : s.setCtx c = s := by cases s; simp_all [State.setCtx]

/-- handler() (R133) from its first step to its return. -/
theorem handlerRun_keeps (s : State) : Keeps (s.setCtx .foreground) (handlerRun s) := by
  obtain ⟨u, h1, h2⟩ := handlerTail_keeps (hitBuffer (handlerFetch s).1.hit)
    (runClass (classify (handlerFetch s).1.hit (handlerFetch s).1.frame.rtr) (handlerFetch s).1.frame (handlerFetch s).2)
  have h3 : Keeps s u := (handlerFetch_keeps s).trans ((runClass_keeps _ _ _).trans h1)
  unfold handlerRun
  simp only
  rw [h2]
  exact ⟨(h3.toGrows.setCtx .foreground).trans (sample_grows _), fun _ => rfl⟩

/-- Handler entry (R158) keeps all but the context, which is the handler's; it may record BusConflict. -/
theorem enterHandler_keeps (s : State) : Keeps (s.setCtx .handler) (enterHandler s) := by
  unfold enterHandler
  simp only
  refine ⟨Grows.trans ?_ (sample_grows _), fun _ => rfl⟩
  split
  · exact ⟨rfl, rfl, rfl, rfl, rfl, rfl, rfl, fun _ => id, id, id, id, fun _ => rfl, id, fun _ => id, id, id⟩
  · exact .refl _

theorem serveHandlers_keeps (n : Nat) (s : State) : Keeps s (serveHandlers n s) := by
  induction n generalizing s with
  | zero => exact .refl s
  | succ n ih =>
    unfold serveHandlers
    split
    · rename_i h
      have hc : s.ctx = .foreground := by
        simp only [entryEnabled, Bool.and_eq_true, beq_iff_eq] at h; exact h.1.2
      refine Keeps.trans ?_ (ih _)
      refine Keeps.trans ?_ (good_envGap _)
      have h1 := (enterHandler_keeps s).trans (good_envGap _)
      have h2 := handlerRun_keeps (envGap (enterHandler s))
      refine ⟨?_, fun hs => h2.sampled (h1.sampled hs)⟩
      have h3 := (h1.toGrows.setCtx .foreground).trans h2.toGrows
      exact (show ((s.setCtx .handler).setCtx .foreground) = s from setCtx_self hc) ▸ h3
    · exact .refl s

/-- The gap of a foreground operation. -/
theorem good_fgGap : Good fgGap := fun s => (good_envGap s).trans (serveHandlers_keeps _ _)

end Sys2Proof.Machine
end

