-- ==== Sys2Proof/Laws/Commands.lean ====
section
/-! SUPPORT. The frame every command runs in (R145) and what an instruction of each source leaves as it was, said once for all of
them: a command's state after is the result recorded over a state that grew from the one it began in; a class instruction keeps
the handler's state. -/

namespace Sys2Proof.Machine

/-- The interrupt enable set. -/
def State.setGie (s : State) (b : Bool) : State := { s with gie := b }

theorem setGie_self (s : State) : s.setGie s.gie = s := rfl

/-- A command runs to its end and records its result (R145). -/
theorem command_eq (body : State → Res (List Byte)) (s : State) :
    command body s = .next (endCommand (body (beginCommand s))) := rfl

/-- A command whose body answers an error at once changes nothing but the result (R145, R153). -/
theorem endCommand_error {s : State} (hs : Sampled s) (e : Err) :
    (endCommand (.error e, beginCommand s)).lastResult = some e.code ∧
      OnlyResult s (endCommand (.error e, beginCommand s)) := by
  have hl : (beginCommand s).intLine = s.intLine := rfl
  refine ⟨rfl, ⟨rfl, rfl, rfl, rfl, rfl, rfl, rfl, rfl, rfl, rfl, rfl⟩, ⟨?_, ?_⟩, ⟨fun _ => rfl, rfl, rfl⟩,
    ⟨fun _ => rfl, rfl, rfl, rfl, rfl⟩, ⟨rfl, rfl, rfl, rfl, rfl, rfl⟩, rfl, rfl⟩
  · show (s.latch || (s.intLine && !s.intPrev)) = s.latch
    rw [show s.intPrev = s.intLine from hs]; simp
  · show s.intLine = s.intPrev
    exact (show s.intPrev = s.intLine from hs).symm

theorem unit_keeps {s : State} {r : Res Unit} (h : Keeps s r.2) : Keeps s r.unit.2 := bind_keeps h fun _ u => .refl u

/-- How a command ends: its state grew from the one it began in, the interrupt enable is any (CRIT_ENTER and CRIT_EXIT set
it), and its result is recorded. -/
def CommandEnds (s t : State) : Prop :=
  ∃ u b r, Keeps (beginCommand s) u ∧ t = endCommand (r, u.setGie b)

theorem command_ends {r : Res (List Byte)} {s t : State}
    (h : (.next (endCommand r) : Host.Outcome State Fault Refusal) = .next t) (hb : Keeps (beginCommand s) r.2) :
    CommandEnds s t := by
  refine ⟨r.2, r.2.gie, r.1, hb, ?_⟩
  rw [setGie_self]
  exact (Host.Outcome.next.inj h).symm

theorem exec_port_ends (i : Instr) (hi : i.source = .port) (s t : State) (h : exec i s = .next t) : CommandEnds s t := by
  have G := good_fgGap
  cases i with
  | spReset => exact command_ends h (resetOp_keeps G _)
  | spRead a => exact command_ends h (by simp only; split; exacts [.refl _, xfer_keeps G _ _])
  | spWrite a d => exact command_ends h (by simp only; split; exacts [.refl _, xfer_keeps G _ _])
  | spBitmod a m d => exact command_ends h (by simp only; split; exacts [.refl _, xfer_keeps G _ _])
  | spReadblk a n => exact command_ends h (by simp only; split; exacts [.refl _, by split; exacts [.refl _, xfer_keeps G _ _]])
  | spWriteblk a d => exact command_ends h (by simp only; split; exacts [.refl _, by split; exacts [.refl _, xfer_keeps G _ _]])
  | epWren => exact command_ends h (xfer_keeps G _ _)
  | epRdsr => exact command_ends h (xfer_keeps G _ _)
  | epRead a n => exact command_ends h (by simp only; split; exacts [.refl _, by split; exacts [.refl _, xfer_keeps G _ _]])
  | epWrite a d =>
    exact command_ends h (by
      simp only; split; exacts [.refl _, by split; exacts [.refl _, by split; exacts [.refl _, xfer_keeps G _ _]]])
  | eeWrite a d => exact command_ends h (unit_keeps (eeWriteOp_keeps G _ _ _))
  | eeRead a n => exact command_ends h (eeReadOp_keeps G _ _ _)
  | canSetmode m =>
    simp only [exec, execCanSetmode] at h
    split at h
    · exact command_ends h (.refl _)
    · split at h
      · rename_i md _ u hu
        refine ⟨u, u.gie, .ok [], setModeOp_keeps G _ _ _ hu, ?_⟩
        rw [setGie_self]
        exact (Host.Outcome.next.inj h).symm
      · exact absurd h (by simp)
  | canSetbt a b c => exact command_ends h (setBitTiming_keeps G _ _ _ _)
  | canSetmask k id => exact command_ends h (by simp only; split; exacts [.refl _, xfer_keeps G _ _])
  | canSetfilter f id => exact command_ends h (by simp only; split; exacts [.refl _, xfer_keeps G _ _])
  | canReceive b => exact command_ends h (by simp only; split; exacts [.refl _, receive_keeps G _ _])
  | canTransmit f => exact command_ends h (by simp only; split; exacts [.refl _, unit_keeps (transmit_keeps G _ _)])
  | canRxstatus => exact command_ends h (xfer_keeps G _ _)
  | sigPluck f r => exact command_ends h (by simp only; split; exacts [.refl _, by split <;> exact .refl _])
  | sigLoad k => exact command_ends h (by simp only; split; exacts [.refl _, unit_keeps (sigLoad_keeps G _ _)])
  | sigStore k f => exact command_ends h (unit_keeps (sigStore_keeps G _ _ _))
  | sigGet k => exact command_ends h (sigGet_keeps G _ _)
  | rowWrite t i k v => exact command_ends h (unit_keeps (writeRow_keeps G _ _ _ _ _))
  | rowRead t i => exact command_ends h (bind_keeps (readRow_keeps G _ _ _) fun _ u => .refl u)
  | tabLookup t g w =>
    exact command_ends h (by
      simp only; split; exacts [.refl _, bind_keeps (lookup_keeps G _ _ _) fun _ u => .refl u])
  | critEnter => exact ⟨beginCommand s, false, _, .refl _, (Host.Outcome.next.inj h).symm⟩
  | critExit v =>
    have h := Host.Outcome.next.inj h
    simp only at h
    split at h
    · exact ⟨beginCommand s, _, _, .refl _, h.symm⟩
    · exact ⟨beginCommand s, s.gie, _, .refl _, h.symm⟩
  | tblRd fr => exact absurd hi (by simp [Instr.source])
  | tblWr fr => exact absurd hi (by simp [Instr.source])
  | sigRd fr => exact absurd hi (by simp [Instr.source])
  | sigWr fr => exact absurd hi (by simp [Instr.source])
  | sigFrameMid h fr => exact absurd hi (by simp [Instr.source])
  | sigFrameHigh h fr => exact absurd hi (by simp [Instr.source])

theorem frameInstr_source (h : BitVec 3) (fr : CanFrame) : (frameInstr h fr).source = .frame := by
  unfold frameInstr
  repeat' split
  all_goals rfl

/-- What the command port decodes is an instruction of the command port (R61). -/
theorem decode_port_source (cmd : List Byte) (i : Instr) (h : decode .port cmd = .ok i) : i.source = .port := by
  cases cmd with
  | nil => exact absurd h (by simp [decode, decodeCommand])
  | cons op bs =>
    simp only [decode, decodeCommand] at h
    split at h
    · split at h
      · rename_i j hj
        rw [← Except.ok.inj h]
        unfold readOperands at hj
        split at hj <;>
          simp only [Option.map_eq_some_iff, Option.bind_eq_some_iff, Option.some.injEq, Prod.mk.injEq, reduceCtorEq,
            Prod.exists] at hj <;> aesop
      · exact absurd h (by simp)
    · exact absurd h (by simp)

/-- The class instruction of a fetched frame runs the class rule of R133. -/
theorem exec_frameInstr (h : BitVec 3) (fr : CanFrame) (s : State) :
    exec (frameInstr h fr) s = .next (runClass (classify h fr.rtr) fr s) := by
  unfold frameInstr classify
  repeat' split
  all_goals first | rfl | simp_all

/-- A class instruction's next state (R133, R135 to R139). -/
theorem exec_frame_keeps (i : Instr) (hi : i.source = .frame) (s t : State) (h : exec i s = .next t) : Keeps s t := by
  cases i with
  | tblRd fr => exact Host.Outcome.next.inj h ▸ tblRd_keeps fr s
  | tblWr fr => exact Host.Outcome.next.inj h ▸ tblWr_keeps fr s
  | sigRd fr => exact Host.Outcome.next.inj h ▸ sigRd_keeps fr s
  | sigWr fr => exact Host.Outcome.next.inj h ▸ sigWr_keeps fr s
  | sigFrameMid _ fr => exact Host.Outcome.next.inj h ▸ sigFrame_keeps fr s
  | sigFrameHigh _ fr => exact Host.Outcome.next.inj h ▸ sigFrame_keeps fr s
  | _ => exact absurd hi (by simp [Instr.source])

end Sys2Proof.Machine
end

