-- ==== Sys2Proof/Laws/Controller.lean ====
section
/-! SUPPORT. Acceptance and buffering (R107, R108), the controller operations (R109, R113 to R115), taking the interrupt and
returning from it (R158, R159), under the standard register map. -/

namespace Sys2Proof.Machine

/-! ### Storing a frame (R108) -/

theorem bufferOf_le (h : Nat) : bufferOf h ≤ 1 := by unfold bufferOf; split <;> decide

theorem rxBuf_standard {b : Nat} (h : b ≤ 1) : DevParams.standard.map.rxBuf b = 0x61 + 16 * b := by
  rcases (show b = 0 ∨ b = 1 by omega) with rfl | rfl <;> rfl

theorem busData_length (f : BusFrame) : (busData f).length ≤ 8 := by
  unfold busData
  split
  · simp
  · rw [List.length_take]; simp only [maxDlc]; omega

theorem packId_length (e : Nat) (id : CanId) : (packId e id).length = 4 := by cases id <;> rfl

/-- A frame for a full buffer is lost without a trace. -/
theorem storeFrame_full {s : State} {f : BusFrame} {h : Nat} (hf : s.rxFlag (bufferOf h) = true) : s.storeFrame f h = s := by
  unfold State.storeFrame
  simp only
  rw [if_pos hf]

/-- A frame stored in an empty buffer: the buffer's registers, its flag, the hit and the frame's type. -/
theorem storeFrame_empty {s : State} {f : BusFrame} {h : Nat} (hd : s.cfg.dev = .standard)
    (hf : s.rxFlag (bufferOf h) = false) (a : Nat) :
    (s.storeFrame f h).reg a =
        (if a = 0x2C then withBit (s.reg 0x2C) (bufferOf h) true
        else if 0x61 + 16 * bufferOf h ≤ a ∧ a < 0x66 + 16 * bufferOf h + (busData f).length then
          (packId 3 f.id ++ [dlcByte 6 f.rtr f.dlcField] ++ busData f).getD (a - (0x61 + 16 * bufferOf h)) 0
        else s.reg a) ∧
      (s.storeFrame f h).lastHit = BitVec.ofNat 3 h ∧ (s.storeFrame f h).lastType = frameType f.id f.rtr := by
  have hb := bufferOf_le h
  have hl := busData_length f
  unfold State.storeFrame
  simp only
  rw [if_neg (by simp [hf])]
  refine ⟨?_, rfl, rfl⟩
  show (State.setReg _ _ _).reg a = _
  rw [hd, rxBuf_standard hb]
  have hm : DevParams.standard.map.canintf = 0x2C := rfl
  have he : DevParams.standard.exideBit = 3 := rfl
  have hr : DevParams.standard.rtrBit = 6 := rfl
  have hlen : (packId 3 f.id ++ [dlcByte 6 f.rtr f.dlcField] ++ busData f).length = 5 + (busData f).length := by
    simp [packId_length]; omega
  rw [hm, he, hr, reg_setReg, reg_setRegs, reg_setRegs, hlen]
  by_cases h1 : a = 0x2C
  · subst h1
    rw [if_pos ⟨rfl, by decide⟩, if_neg (by omega), if_pos rfl]
  · rw [if_neg (fun x => h1 x.1.symm), if_neg h1]
    by_cases h2 : 0x61 + 16 * bufferOf h ≤ a ∧ a < 0x66 + 16 * bufferOf h + (busData f).length
    · rw [if_pos h2, if_pos ⟨h2.1, by omega, by omega⟩]
    · rw [if_neg h2, if_neg (by omega)]

/-- What a full buffer shows stays, whatever another agent does (R108). -/
theorem move_full_buffer {s : State} (hd : s.cfg.dev = .standard) {b : Nat} (hb : b ≤ 1) (hf : s.rxFlag b = true)
    (m : EnvMove) :
    (s.move m).rxFlag b = true ∧ ∀ a, 0x61 + 16 * b ≤ a → a < 0x6E + 16 * b → (s.move m).reg a = s.reg a := by
  have hm : DevParams.standard.map.canintf = 0x2C := rfl
  have offer : ∀ (u : State) (f : BusFrame), u.cfg = s.cfg → (∀ a, u.reg a = s.reg a) →
      (u.offerFrame f).rxFlag b = true ∧
        ∀ a, 0x61 + 16 * b ≤ a → a < 0x6E + 16 * b → (u.offerFrame f).reg a = s.reg a := by
    intro u f hc hr
    have hfu : u.rxFlag b = true := by unfold State.rxFlag; rw [hc, hr]; exact hf
    unfold State.offerFrame
    split
    · rename_i n _
      cases hn : u.rxFlag (bufferOf n) with
      | true =>
        rw [storeFrame_full hn]
        exact ⟨hfu, fun a _ _ => hr a⟩
      | false =>
        have hne : b ≠ bufferOf n := by intro h; rw [h, hn] at hfu; exact absurd hfu (by decide)
        have hl := busData_length f
        have hbn := bufferOf_le n
        have key := fun a => (storeFrame_empty (f := f) (h := n) (hc ▸ hd) hn a).1
        obtain ⟨c, x, y, hs⟩ := storeFrame_ctl_only u f n
        have hcfg : (u.storeFrame f n).cfg = s.cfg := by rw [hs]; exact hc
        refine ⟨?_, fun a h1 h2 => ?_⟩
        · unfold State.rxFlag
          rw [hcfg, hd, hm, key, if_pos rfl, bitOf_withBit_ne _ _ _ _ (by omega) hne, hr]
          unfold State.rxFlag at hf
          rw [hd, hm] at hf
          exact hf
        · rw [key, if_neg (by omega), if_neg (by omega), hr]
    · exact ⟨hfu, fun a _ _ => hr a⟩
  have same : s.rxFlag b = true ∧ ∀ a, 0x61 + 16 * b ≤ a → a < 0x6E + 16 * b → s.reg a = s.reg a := ⟨hf, fun _ _ _ => rfl⟩
  have set : ∀ (u : State) (r : Nat) (v : Byte), u.cfg = s.cfg → r = 0x0E ∨ r = 0x30 →
      (u.rxFlag b = true ∧ ∀ a, 0x61 + 16 * b ≤ a → a < 0x6E + 16 * b → u.reg a = s.reg a) →
      (u.setReg r v).rxFlag b = true ∧
        ∀ a, 0x61 + 16 * b ≤ a → a < 0x6E + 16 * b → (u.setReg r v).reg a = s.reg a := by
    intro u r v hc hr ⟨h1, h2⟩
    refine ⟨?_, fun a h3 h4 => ?_⟩
    · unfold State.rxFlag at *
      simp only [State.setReg_cfg]
      rw [hc, hd, hm] at *
      rw [reg_setReg_ne _ _ _ _ (by omega)]
      exact h1
    · rw [reg_setReg_ne _ _ _ _ (by omega)]; exact h2 a h3 h4
  cases m with
  | modeChange =>
    simp only [State.move, State.modeChange]
    split
    · exact set s _ _ rfl (.inl (by rw [hd]; rfl)) same
    · exact same
  | receive =>
    simp only [State.move, State.receiveStep]
    split
    · split
      · exact offer _ _ rfl (fun _ => rfl)
      · exact same
    · exact same
  | discard =>
    simp only [State.move, State.discardStep]
    split
    · split <;> exact same
    · exact same
  | txOk =>
    simp only [State.move, State.txOk]
    split
    · split
      · exact set _ _ _ rfl (.inr (by simp only [hd]; rfl)) same
      · split
        · obtain ⟨c, x, y, ho⟩ := offerFrame_ctl_only s s.txFrame
          have hc : (s.offerFrame s.txFrame).cfg = s.cfg := by rw [ho]
          exact set _ _ _ hc (.inr (by rw [hc, hd]; rfl)) (offer s _ rfl (fun _ => rfl))
        · exact same
    · exact same
  | txErr =>
    simp only [State.move, State.txErr]
    split
    · exact set s _ _ rfl (.inr (by rw [hd]; rfl)) same
    · exact same
  | cycleEnd =>
    have hc : s.cycleEnd.ctl = s.ctl := by unfold State.cycleEnd; split <;> rfl
    have hg : s.cycleEnd.cfg = s.cfg := congrArg BlockPart.cfg (cycleEnd_blockPart s)
    have hr : ∀ a, s.cycleEnd.reg a = s.reg a := fun a => by unfold State.reg; rw [hc]
    refine ⟨?_, fun a _ _ => hr a⟩
    simp only [State.move]
    unfold State.rxFlag; rw [hg, hr]; exact hf
  | busAppend f => exact same
  | busConsume => exact same

/-- What a full buffer shows stays through a gap without a handler. -/
theorem envGap_full_buffer {s : State} (hd : s.cfg.dev = .standard) {b : Nat} (hb : b ≤ 1) (hf : s.rxFlag b = true) :
    (envGap s).rxFlag b = true ∧ ∀ a, 0x61 + 16 * b ≤ a → a < 0x6E + 16 * b → (envGap s).reg a = s.reg a := by
  have fold : ∀ (ms : List EnvMove) (u : State), u.cfg.dev = .standard → u.rxFlag b = true →
      (ms.foldl envMove u).rxFlag b = true ∧
        ∀ a, 0x61 + 16 * b ≤ a → a < 0x6E + 16 * b → (ms.foldl envMove u).reg a = u.reg a := by
    intro ms
    induction ms with
    | nil => exact fun u _ h => ⟨h, fun _ _ _ => rfl⟩
    | cons m ms ih =>
      intro u hu hfu
      have hmv : (envMove u m).rxFlag b = true ∧
          ∀ a, 0x61 + 16 * b ≤ a → a < 0x6E + 16 * b → (envMove u m).reg a = u.reg a := by
        rcases envMove_cases u m with he | he <;> rw [he]
        · exact ⟨hfu, fun _ _ _ => rfl⟩
        · exact move_full_buffer hu hb hfu m
      obtain ⟨h1, h2⟩ := hmv
      have hc : (envMove u m).cfg.dev = .standard := (congrArg (·.cfg.dev) (envMove_blockPart u m)).trans hu
      obtain ⟨h3, h4⟩ := ih (envMove u m) hc h1
      exact ⟨h3, fun a h5 h6 => (h4 a h5 h6).trans (h2 a h5 h6)⟩
  unfold envGap
  split
  · rename_i ms rest _
    exact fold ms { s with sched := rest } hd hf
  · split
    · exact fold [.modeChange] s hd hf
    · exact ⟨hf, fun _ _ _ => rfl⟩

/-! ### The operations -/

theorem readBlock_fst (g : Pause) (a n : Nat) (s : State) :
    (readBlock g a n s).1 = (List.range n).map fun j => s.reg (a + j) := by
  unfold readBlock xfer
  rw [transact_canRead]

/-- receive (R113), its second transaction after the gap of the first. -/
theorem receive_fst {g : Pause} {s : State} (hd : s.cfg.dev = .standard) {b : Nat} (hb : b ≤ 1)
    (hs : ∀ a, 0x66 + 16 * b ≤ a → a < 0x6E + 16 * b → (readBlock g (0x61 + 16 * b) 5 s).2.reg a = s.reg a) :
    (receive g b s).1 = s.bufferFrame b := by
  simp only [receive]
  rw [hd, rxBuf_standard hb]
  have hr : (readBlock g (0x61 + 16 * b) 5 s).1 =
      [s.reg (0x61 + 16 * b), s.reg (0x62 + 16 * b), s.reg (0x63 + 16 * b), s.reg (0x64 + 16 * b),
        s.reg (0x65 + 16 * b)] := by
    rw [readBlock_fst]
    simp [List.range_succ]
    refine ⟨?_, ?_, ?_, ?_⟩ <;> (congr 1; omega)
  rw [hr]
  have hx : DevParams.standard.exideBit = 3 := rfl
  have ht : DevParams.standard.rtrBit = 6 := rfl
  simp only [hx, ht, List.getD_cons_zero, List.getD_cons_succ, State.bufferFrame, maxDlc]
  split
  · rename_i h0
    refine congrArg (CanFrame.mk _ _) ?_
    rw [readBlock_fst]
    refine List.map_congr_left fun j hj => ?_
    have hj' := List.mem_range.1 hj
    have e : 0x61 + 16 * b + 5 + j = 0x66 + 16 * b + j := by omega
    rw [e]
    exact hs (0x66 + 16 * b + j) (by omega) (by omega)
  · rename_i h0
    have h1 : min ((s.reg (0x65 + 16 * b)).extractLsb' 0 4).toNat 8 = 0 := by omega
    rw [h1]; rfl

/-- receive in a quiet environment leaves its transactions and nothing else. -/
theorem receive_quiet {g : Pause} {s : State} (hg : Quiet g s) (hs : Sampled s) (b : Nat) :
    ∃ k ev, (receive g b s).2 = s.traced k ev ∧ actuations ev = [] := by
  have rd : ∀ (a n : Nat) (u : State), Quiet g u → Sampled u →
      ∃ k v, (readBlock g a n u).2 = u.traced k [.xfer .can [u.cfg.dev.opRead, BitVec.ofNat 8 a] v] := by
    intro a n u hu hsu
    obtain ⟨k, hk⟩ := xfer_quiet hu hsu (.canRead a n) _ rfl
    exact ⟨k, _, congrArg Prod.snd hk⟩
  obtain ⟨k, v, hk⟩ := rd (s.cfg.dev.map.rxBuf b) 5 s hg hs
  simp only [receive]
  split
  · rw [hk]
    obtain ⟨j, w, hj⟩ := rd (s.cfg.dev.map.rxBuf b + 5) _ _ (hg.traced k _) (traced_ready hs k _).1
    rw [hj, traced_traced]
    exact ⟨_, _, rfl, rfl⟩
  · exact ⟨k, _, hk, rfl⟩

/-- A poll of setMode that ends has read the mode (R109): an environment without a move left was asked at most twice. -/
theorem modePoll_first {g : Pause} {m : Mode} {n : Nat} {s : State}
    (h : modeBits (s.reg s.cfg.dev.map.canstat) = modeCode s.cfg.dev m) :
    modePoll g m (n + 1) s = some (readReg g s.cfg.dev.map.canstat s).2 := by
  simp only [modePoll]
  rw [if_pos]
  unfold readReg xfer
  rw [transact_canRead]
  simpa using h

/-! ### Taking the interrupt (R158) and returning from it (R159) -/

/-- Entry records BusConflict if a foreground command has issued a transaction, changes the context, and nothing else but what
the edge detector does. -/
theorem enterHandler_eq {s : State} (hs : Sampled s) :
    enterHandler s =
      (if s.cmdBusy && s.cmdIssued then s.addBusConflict else s).setCtx .handler := by
  unfold enterHandler
  simp only
  exact sample_of_sampled (by split <;> exact hs)

/-- Return changes the context only. -/
theorem leaveHandler_eq {s : State} (hs : Sampled s) : leaveHandler s = s.setCtx .foreground := sample_of_sampled hs

theorem latch_envMove {s : State} (h : s.latch = true) (m : EnvMove) : (envMove s m).latch = true := by
  have hl : (s.move m).latch = s.latch := by
    rcases move_cases s m with ⟨_, hm⟩ | ⟨_, _, _, _, _, _, hm⟩ <;> rw [hm]
    unfold State.cycleEnd; split <;> rfl
  rcases envMove_cases s m with he | he <;> rw [he]
  · exact h
  · show ((s.move m).latch || _) = true
    rw [hl, h]; rfl

/-- Only the block clears the latch (R26). -/
theorem latch_envGap {s : State} (h : s.latch = true) : (envGap s).latch = true := by
  have fold : ∀ (ms : List EnvMove) (u : State), u.latch = true → (ms.foldl envMove u).latch = true := by
    intro ms
    induction ms with
    | nil => exact fun _ h => h
    | cons m ms ih => exact fun u h => ih _ (latch_envMove h m)
  unfold envGap
  split
  · exact fold _ _ h
  · split
    · exact latch_envMove h _
    · exact h

/-- Entry is enabled after the moves of a gap if it is but for the latch before them, and they leave the latch set. -/
theorem entryEnabled_envGap {s : State} (h1 : s.gie = true) (h2 : s.ctx = .foreground) (h3 : s.phase = .run)
    (h4 : (envGap s).latch = true) : entryEnabled (envGap s) = true := by
  have hp := envGap_blockPart s
  have e1 : (envGap s).gie = s.gie := congrArg BlockPart.gie hp
  have e2 : (envGap s).ctx = s.ctx := congrArg BlockPart.ctx hp
  have e3 : (envGap s).phase = s.phase := congrArg BlockPart.phase hp
  simp [entryEnabled, h4, e1, e2, e3, h1, h2, h3]

/-- A handler entered in a gap of a command that has issued a transaction leaves BusConflict recorded (R54, R158). -/
theorem fgGap_busConflict {s : State} (he2 : entryEnabled (envGap s) = true) (h1 : s.cmdBusy = true)
    (h2 : s.cmdIssued = true) : (fgGap s).faults.busConflict = true := by
  have hp := envGap_blockPart s
  have h3 : (envGap s).cmdBusy = true := (congrArg BlockPart.cmdBusy hp).trans h1
  have h4 : (envGap s).cmdIssued = true := (congrArg BlockPart.cmdIssued hp).trans h2
  unfold fgGap
  simp only [serveHandlers]
  rw [if_pos he2]
  refine (serveHandlers_keeps _ _).busConflict ((good_envGap _).busConflict ((handlerRun_keeps _).busConflict
    ((good_envGap _).busConflict ?_)))
  unfold enterHandler
  rw [h3, h4]
  rfl

end Sys2Proof.Machine
end

