-- ==== Sys2Proof/Laws/Faults.lean ====
section
/-! SUPPORT. Where no fault is recorded (R154): with every slot loaded and a readable EEPROM status, no operation of the handler
records one, and handler entry records none while the command in progress has issued no transaction (R158). And where one is:
a frame that arrives in the gap after a command's transaction (R54). -/

namespace Sys2Proof.Machine

/-- No fault recorded, no slot unloaded, no step of the sequencer; in the handler a transaction is none of the command's. -/
structure Sound (s t : State) : Prop where
  cfg : t.cfg = s.cfg
  ctx : t.ctx = s.ctx
  faults : t.faults = s.faults
  loaded : ∀ k, s.mirrorAt k ≠ none → t.mirrorAt k ≠ none
  issued : s.ctx = .handler → t.cmdIssued = s.cmdIssued

theorem Sound.refl (s : State) : Sound s s := ⟨rfl, rfl, rfl, fun _ => id, fun _ => rfl⟩

theorem Sound.trans {s t u : State} (h1 : Sound s t) (h2 : Sound t u) : Sound s u where
  cfg := h2.cfg.trans h1.cfg
  ctx := h2.ctx.trans h1.ctx
  faults := h2.faults.trans h1.faults
  loaded := fun k a => h2.loaded k (h1.loaded k a)
  issued := fun a => (h2.issued (h1.ctx.trans a)).trans (h1.issued a)

theorem Sound.of_marked {s t : State} (h : Marked s t) : Sound s t := by
  have loaded : t.mirror = s.mirror → ∀ k, s.mirrorAt k ≠ none → t.mirrorAt k ≠ none := fun e k a => by
    unfold State.mirrorAt at *; rw [e]; exact a
  rcases h with h | h
  · exact ⟨congrArg BlockPart.cfg h, congrArg BlockPart.ctx h, congrArg BlockPart.faults h,
      loaded (congrArg BlockPart.mirror h), fun _ => congrArg BlockPart.cmdIssued h⟩
  · refine ⟨congrArg BlockPart.cfg h, congrArg BlockPart.ctx h, congrArg BlockPart.faults h,
      loaded (congrArg BlockPart.mirror h), fun a => (congrArg BlockPart.cmdIssued h).trans ?_⟩
    simp [BlockPart.issued, State.blockPart, a]

theorem envGap_sound (s : State) : Sound s (envGap s) := .of_marked (.inl (envGap_blockPart s))

theorem tick_sound {s t : State} (h : Sound s t) : Sound s (tick envGap t) :=
  h.trans (.of_marked (.inl (tick_envGap_blockPart t)))

theorem Sound.bind {α β : Type} {s : State} {r : Res α} {k : α → State → Res β} (h1 : Sound s r.2)
    (h2 : ∀ a u, r = (.ok a, u) → Sound u (k a u).2) : Sound s (r.bind k).2 := by
  rcases r with ⟨⟨e⟩ | ⟨a⟩, u⟩
  · exact h1
  · exact h1.trans (h2 a u rfl)

/-- A transaction that the device takes (R95): none with the EEPROM, or a status read, or no write cycle running. -/
theorem xfer_sound (s : State) (x : Xfer) (hr : x ≠ .canReset) (hw : s.wip = false ∨ x.dev = .can ∨ x = .eeRdsr) :
    Sound s (xfer envGap x s).2 :=
  tick_sound (.of_marked (.inr (transact_blockPart s x hr hw)))

theorem canXfer_sound (s : State) (x : Xfer) (hr : x ≠ .canReset) (hx : x.dev = .can) : Sound s (xfer envGap x s).2 :=
  xfer_sound s x hr (.inr (.inl hx))

/-! ### The EEPROM and the transmitter -/

theorem waitIdle_sound {s : State} (hb : StatusBits s.cfg) :
    Sound s (waitIdle envGap s).2 ∧ ∀ u, waitIdle envGap s = (.ok (), u) → u.wip = false := by
  obtain ⟨_, h2, h3⟩ := waitIdle_calm s (calm_envGap s) hb
  refine ⟨.of_marked h2, fun u hu => ?_⟩
  rw [hu] at h3
  exact h3.elim (·.2) (fun h => absurd h (by simp))

theorem writeChunk_sound {s : State} (hb : StatusBits s.cfg) (a : Nat) (d : List Byte) :
    Sound s (writeChunk envGap a d s).2 := by
  obtain ⟨h1, hw⟩ := waitIdle_sound hb
  refine h1.bind fun _ u hu => ?_
  have hcfg : u.cfg = s.cfg := by simpa [hu] using h1.cfg
  obtain ⟨_, h2, h3⟩ := writeEnable_calm (calm_envGap u) (hcfg ▸ hb) (hw u hu)
  refine Sound.bind (.of_marked (.inr h2)) fun _ v hv => ?_
  have hvw : v.wip = false := by simpa [hv] using wip_of_eePart (t := v) (s := { v with wip := false }) (by
    have := congrArg (·.2.1) h3; simp only [hv, State.eePart] at this ⊢; rw [this])
  exact xfer_sound v _ (by simp) (.inl hvw)

theorem eeWriteOp_sound {s : State} (hb : StatusBits s.cfg) (a : Nat) (d : List Byte) :
    Sound s (eeWriteOp envGap a d s).2 := by
  have loop : ∀ (cs : List (Nat × Nat)) (d : List Byte) (u : State), StatusBits u.cfg →
      Sound u (writeChunks envGap cs d u).2 := by
    intro cs
    induction cs with
    | nil => exact fun _ u _ => .refl u
    | cons c cs ih =>
      intro d u hu
      have h1 := writeChunk_sound hu c.1 (d.take c.2)
      refine h1.bind fun _ v hv => ih _ v ?_
      have hcfg : v.cfg = u.cfg := by simpa [hv] using h1.cfg
      exact hcfg ▸ hu
  unfold eeWriteOp
  split
  · exact loop _ _ s hb
  · exact .refl s

theorem txPoll_sound (n : Nat) (s : State) : Sound s (txPoll envGap n s).2 := by
  induction n generalizing s with
  | zero => exact .refl s
  | succ n ih =>
    simp only [txPoll, delay]
    split
    · exact (canXfer_sound s _ (by simp) rfl).trans (canXfer_sound _ _ (by simp) rfl)
    · split
      · exact (canXfer_sound s _ (by simp) rfl).trans (ih _)
      · exact canXfer_sound s _ (by simp) rfl

theorem transmit_sound (f : CanFrame) (s : State) : Sound s (transmit envGap f s).2 :=
  (canXfer_sound s _ (by simp) rfl).trans ((canXfer_sound _ _ (by simp) rfl).trans (txPoll_sound _ _))

theorem receive_sound (b : Nat) (s : State) : Sound s (receive envGap b s).2 := by
  simp only [receive]
  split
  · exact (canXfer_sound s _ (by simp) rfl).trans (canXfer_sound _ _ (by simp) rfl)
  · exact canXfer_sound s _ (by simp) rfl

theorem readRow_sound {s : State} (hb : StatusBits s.cfg) (t i : Nat) : Sound s (readRow envGap t i s).2 := by
  unfold readRow
  split
  · exact .refl s
  · split
    · exact .refl s
    · exact Sound.bind (.of_marked (eeReadOp_calm_any (calm_envGap s) hb _ _).2) fun _ u _ => .refl u

theorem lookup_sound {s : State} (hb : StatusBits s.cfg) (t : Nat) (key : Number) : Sound s (lookup envGap t key s).2 := by
  have loop : ∀ (n i : Nat) (prev : Option (Int × U16)) (u : State), StatusBits u.cfg →
      Sound u (lookupLoop envGap t key n i prev u).2 := by
    intro n
    induction n with
    | zero => exact fun _ _ u _ => .refl u
    | succ n ih =>
      intro i prev u hu
      have h1 := readRow_sound hu t i
      refine h1.bind fun r v hv => ?_
      split
      · exact .refl v
      · have hcfg : v.cfg = u.cfg := by simpa [hv] using h1.cfg
        exact ih _ _ v (hcfg ▸ hu)
  unfold lookup
  split
  · exact .refl s
  · exact loop _ _ _ s hb

/-! ### The class rules and the handler -/

theorem readMirror_loaded {s : State} {k : Nat} (h : s.mirrorAt k ≠ none) : ∃ f, readMirror k s = (f, s) := by
  obtain ⟨f, hf⟩ := Option.ne_none_iff_exists'.1 h
  exact ⟨f, by simp [readMirror, hf]⟩

theorem setHErr_sound (s : State) : Sound s { s with hErr := true } := ⟨rfl, rfl, rfl, fun _ => id, fun _ => rfl⟩

theorem failClass_sound {α : Type} {s : State} {r : Res α} (h : Sound s r.2) : Sound s (failClass r) := by
  rcases r with ⟨⟨e⟩ | ⟨a⟩, u⟩
  · exact h.trans (setHErr_sound u)
  · exact h

theorem setMirror_sound (s : State) (k : Nat) (f : SigFmt) : Sound s (s.setMirror k f) :=
  ⟨rfl, rfl, rfl, (setMirror_grows s k f).loaded, fun _ => rfl⟩

theorem sigStore_sound {s : State} (hb : StatusBits s.cfg) (k : Nat) (f : SigFmt) : Sound s (sigStore envGap k f s).2 := by
  unfold sigStore
  split
  · exact .refl s
  · exact (eeWriteOp_sound hb _ _).bind fun _ u _ => tick_sound (setMirror_sound u k f)

theorem signalSlot_sound {s : State} (hb : StatusBits s.cfg) (fr : CanFrame) {k : Nat} (hk : s.mirrorAt k ≠ none) :
    Sound s (signalSlot fr k s) := by
  obtain ⟨f, hf⟩ := readMirror_loaded hk
  unfold signalSlot
  rw [hf]
  simp only
  split
  · split
    · exact setHErr_sound s
    · rename_i key _
      have h := lookup_sound hb k key
      split
      · rename_i he; rw [he] at h; exact h.trans (setHErr_sound _)
      · rename_i he; rw [he] at h
        refine h.trans (tick_sound ⟨rfl, rfl, rfl, fun _ => id, fun _ => rfl⟩)
  · exact .refl s

/-- A class rule records no fault where every slot is loaded. -/
theorem runClass_sound {s : State} (hb : StatusBits s.cfg) (hl : LoadedTo s s.cfg.numSignals) (c : FrameClass)
    (fr : CanFrame) : Sound s (runClass c fr s) := by
  cases c with
  | tblRd =>
    simp only [runClass, tblRd]
    split
    · exact failClass_sound (.refl s)
    · split
      · exact failClass_sound (.refl s)
      · exact failClass_sound ((readRow_sound hb _ _).bind fun _ u _ => transmit_sound _ u)
  | tblWr =>
    simp only [runClass, tblWr]
    split
    · exact failClass_sound (.refl s)
    · split
      · exact failClass_sound (.refl s)
      · refine failClass_sound ?_
        unfold writeRow
        split
        · exact .refl s
        · split
          · exact .refl s
          · exact eeWriteOp_sound hb _ _
  | sigRd =>
    simp only [runClass, sigRd]
    split
    · exact failClass_sound (.refl s)
    · split
      · exact failClass_sound (.refl s)
      · rename_i hk
        obtain ⟨f, hf⟩ := readMirror_loaded (hl _ (Nat.lt_of_not_le hk))
        rw [hf]
        exact failClass_sound (transmit_sound _ s)
  | sigWr =>
    simp only [runClass, sigWr]
    split
    · exact failClass_sound (.refl s)
    · exact failClass_sound (sigStore_sound hb _ _)
  | sigFrame =>
    have loop : ∀ (ks : List Nat) (u : State), StatusBits u.cfg → (∀ k ∈ ks, u.mirrorAt k ≠ none) →
        Sound u (ks.foldl (fun st k => signalSlot fr k st) u) := by
      intro ks
      induction ks with
      | nil => exact fun u _ _ => .refl u
      | cons k ks ih =>
        intro u hu hk
        have h1 := signalSlot_sound hu fr (hk k (List.mem_cons_self ..))
        exact h1.trans (ih _ (h1.cfg ▸ hu) fun j hj => h1.loaded j (hk j (List.mem_cons_of_mem _ hj)))
    exact loop _ s hb fun k hk => hl k (List.mem_range.1 hk)

/-- A handler invocation records no fault, and issues no transaction of the command in progress. -/
theorem handlerRun_sound {s : State} (hb : StatusBits s.cfg) (hl : LoadedTo s s.cfg.numSignals) (hc : s.ctx = .handler) :
    (handlerRun s).cfg = s.cfg ∧ (handlerRun s).faults = s.faults ∧ (handlerRun s).cmdIssued = s.cmdIssued ∧
      LoadedTo (handlerRun s) s.cfg.numSignals := by
  have h1 : Sound s (handlerFetch s).2 :=
    Sound.trans (t := { s with hErr := false }) ⟨rfl, rfl, rfl, fun _ => id, fun _ => rfl⟩
      ((canXfer_sound _ .canRxStatus (by simp) rfl).trans (receive_sound _ _))
  have h2 := runClass_sound (s := (handlerFetch s).2) (h1.cfg ▸ hb) (fun k hk => h1.loaded k (hl k (h1.cfg ▸ hk)))
    (classify (handlerFetch s).1.hit (handlerFetch s).1.frame.rtr) (handlerFetch s).1.frame
  have h3 := h1.trans h2
  unfold handlerRun
  simp only
  generalize runClass _ _ (handlerFetch s).2 = u at h3
  have hx := transact_blockPart u (.canBitmod u.cfg.dev.map.canintf (oneBit (hitBuffer (handlerFetch s).1.hit)) 0) (by simp)
    (.inr (.inl rfl))
  have h4 : Sound s (clearStep (hitBuffer (handlerFetch s).1.hit) u) :=
    h3.trans (tick_sound (Sound.trans (.of_marked (.inr hx)) ⟨rfl, rfl, rfl, fun _ => id, fun _ => rfl⟩))
  have h5 : Sound s (tick envGap ((clearStep (hitBuffer (handlerFetch s).1.hit) u).emit
      (.irqDone (clearStep (hitBuffer (handlerFetch s).1.hit) u).hErr))) :=
    tick_sound (h4.trans ⟨rfl, rfl, rfl, fun _ => id, fun _ => rfl⟩)
  exact ⟨h5.cfg, h5.faults, h5.issued hc, fun k hk => h5.loaded k (hl k hk)⟩

/-! ### The gap of a foreground operation -/

/-- What a command without a transaction may rely on: no fault, no transaction, every slot loaded. -/
structure Untroubled (s t : State) : Prop where
  cfg : t.cfg = s.cfg
  faults : t.faults = s.faults
  issued : t.cmdIssued = false
  loaded : LoadedTo t s.cfg.numSignals

theorem Untroubled.of_sound {s t : State} (hi : t.cmdIssued = false) (hl : LoadedTo s s.cfg.numSignals) (h : Sound s t) :
    Untroubled s t := ⟨h.cfg, h.faults, hi, fun k hk => h.loaded k (hl k hk)⟩

theorem Untroubled.trans {s t u : State} (h1 : Untroubled s t) (h2 : Untroubled t u) : Untroubled s u :=
  ⟨h2.cfg.trans h1.cfg, h2.faults.trans h1.faults, h2.issued, h1.cfg ▸ h2.loaded⟩

theorem envGap_untroubled {s : State} (hl : LoadedTo s s.cfg.numSignals) (hi : s.cmdIssued = false) :
    Untroubled s (envGap s) :=
  .of_sound ((congrArg BlockPart.cmdIssued (envGap_blockPart s)).trans hi) hl (envGap_sound s)

theorem serveHandlers_untroubled (n : Nat) {s : State} (hb : StatusBits s.cfg) (hl : LoadedTo s s.cfg.numSignals)
    (hi : s.cmdIssued = false) : Untroubled s (serveHandlers n s) := by
  induction n generalizing s with
  | zero => exact ⟨rfl, rfl, hi, hl⟩
  | succ n ih =>
    unfold serveHandlers
    split
    · have h1 : Untroubled s (enterHandler s) ∧ (enterHandler s).ctx = .handler := by
        unfold enterHandler
        rw [hi, Bool.and_false]
        exact ⟨⟨rfl, rfl, hi, hl⟩, rfl⟩
      have h2 := h1.1.trans (envGap_untroubled (h1.1.cfg ▸ h1.1.loaded) h1.1.issued)
      have hc : (envGap (enterHandler s)).ctx = .handler := (envGap_sound _).ctx.trans h1.2
      obtain ⟨k1, k2, k3, k4⟩ := handlerRun_sound (h2.cfg ▸ hb) (h2.cfg ▸ h2.loaded) hc
      have h3 : Untroubled s (handlerRun (envGap (enterHandler s))) :=
        h2.trans ⟨k1, k2, k3.trans h2.issued, k4⟩
      have h4 := h3.trans (envGap_untroubled (h3.cfg ▸ h3.loaded) h3.issued)
      exact h4.trans (ih (h4.cfg ▸ hb) (h4.cfg ▸ h4.loaded) h4.issued)
    · exact ⟨rfl, rfl, hi, hl⟩

/-- A gap before the command's first transaction records no fault, however often the handler runs in it. -/
theorem fgGap_untroubled {s : State} (hb : StatusBits s.cfg) (hl : LoadedTo s s.cfg.numSignals) (hi : s.cmdIssued = false) :
    Untroubled s (fgGap s) := by
  have h1 := envGap_untroubled hl hi
  exact h1.trans (serveHandlers_untroubled _ (h1.cfg ▸ hb) (h1.cfg ▸ h1.loaded) h1.issued)

/-! ### A frame that arrives in the gap -/

/-- An enabled Receive consumes the frame at the head of the bus and offers it to acceptance (R104). -/
theorem receiveStep_enabled {s : State} {f : BusFrame} {fs : List BusFrame} (hb : s.busIn = f :: fs)
    (hm : s.inMode .normal = true ∨ s.inMode .listenOnly = true) :
    s.receiveStep = State.offerFrame { s with busIn := fs } f := by
  unfold State.receiveStep
  split
  · rename_i g gs hg
    obtain ⟨rfl, rfl⟩ := List.cons.inj (hb.symm.trans hg)
    rw [if_pos (by simpa using hm)]
  · rename_i hg
    exact absurd (hb.symm.trans hg) (by simp)

/-- A frame stored in an empty buffer, with the line deasserted and both receive interrupts enabled, sets the latch (R26). -/
theorem envGap_receive_latch {s : State} {f : BusFrame} {fs : List BusFrame} {h : Nat} {rest : List (List EnvMove)}
    (hd : s.cfg.dev = .standard) (hs : Sampled s) (he : s.reg 0x2B = 0x03) (h0 : s.rxFlag 0 = false)
    (h1 : s.rxFlag 1 = false) (hb : s.busIn = f :: fs) (hm : s.inMode .normal = true ∨ s.inMode .listenOnly = true)
    (ha : s.acceptHit f.id = some h) (hq : s.sched = [.receive] :: rest) : (envGap s).latch = true := by
  have hfl : s.rxFlag (bufferOf h) = false := by
    rcases (show bufferOf h = 0 ∨ bufferOf h = 1 by have := bufferOf_le h; omega) with e | e <;> rw [e] <;> assumption
  let u : State := { s with sched := rest, busIn := fs }
  have hgap : envGap s = sample (u.storeFrame f h) := by
    unfold envGap
    rw [hq]
    show envMove { s with sched := rest } .receive = _
    rw [envMove_of_sampled (s := { s with sched := rest }) hs]
    simp only [State.move]
    rw [receiveStep_enabled (s := { s with sched := rest }) hb hm]
    simp only [State.offerFrame]
    rw [show State.acceptHit { s with busIn := fs, sched := rest } f.id = some h from ha]
  have key := fun a => (storeFrame_empty (s := u) (f := f) (h := h) hd hfl a).1
  obtain ⟨c, x, y, hst⟩ := storeFrame_ctl_only u f h
  have hp : (u.storeFrame f h).intPrev = s.intLine := by rw [hst]; exact hs
  have hcf : (u.storeFrame f h).cfg.dev = .standard := by rw [hst]; exact hd
  have hl0 : s.intLine = false := by
    unfold State.rxFlag at h0 h1
    unfold State.intLine
    rw [hd] at *
    simp only [show DevParams.standard.map.canintf = 0x2C from rfl, show DevParams.standard.map.caninte = 0x2B from rfl] at *
    rw [he]
    unfold bitOf at h0 h1
    generalize s.reg 0x2C = b at *
    revert h0 h1
    clear * -
    revert b
    decide
  have hl1 : (u.storeFrame f h).intLine = true := by
    unfold State.intLine
    rw [hcf]
    simp only [show DevParams.standard.map.canintf = 0x2C from rfl, show DevParams.standard.map.caninte = 0x2B from rfl]
    rw [key, key, if_pos rfl, if_neg (by decide), if_neg (by omega), show u.reg 0x2B = 0x03 from he]
    rcases (show bufferOf h = 0 ∨ bufferOf h = 1 by have := bufferOf_le h; omega) with e | e <;> rw [e] <;>
      generalize u.reg 0x2C = b <;> clear * - <;> revert b <;> decide
  rw [hgap]
  show ((u.storeFrame f h).latch || ((u.storeFrame f h).intLine && !(u.storeFrame f h).intPrev)) = true
  rw [hl1, hp, hl0]
  simp

end Sys2Proof.Machine
end

