-- ==== Sys2Proof/Laws/Boot.lean ====
section
/-! SUPPORT. The boot sequence in a fair environment (R104, R172): what its lines keep, that setMode ends, and that a boot whose
EEPROM stays busy fails for ever (R150, R163). -/

namespace Sys2Proof.Machine

/-- The other agents take ModeChange where it is enabled, and nothing else (R104 fairness). -/
def Fair (s : State) : Prop := s.sched = [] ∧ s.modeFair = true

/-- What a boot line that reaches no EEPROM write keeps. -/
structure Stays (s t : State) : Prop where
  cfg : t.cfg = s.cfg
  phase : t.phase = s.phase
  wip : t.wip = s.wip
  sched : t.sched = s.sched
  modeFair : t.modeFair = s.modeFair

theorem Stays.refl (s : State) : Stays s s := ⟨rfl, rfl, rfl, rfl, rfl⟩

theorem Stays.trans {s t u : State} (h1 : Stays s t) (h2 : Stays t u) : Stays s u :=
  ⟨h2.cfg.trans h1.cfg, h2.phase.trans h1.phase, h2.wip.trans h1.wip, h2.sched.trans h1.sched,
    h2.modeFair.trans h1.modeFair⟩

theorem Stays.fair {s t : State} (h : Stays s t) (hf : Fair s) : Fair t := ⟨h.sched.trans hf.1, h.modeFair.trans hf.2⟩

/-! ### Gaps and transactions -/

theorem envGap_fair {s : State} (h : Fair s) : envGap s = envMove s .modeChange := by
  unfold envGap
  rw [h.1, h.2]
  rfl

theorem tick_fair {s t : State} (h : Stays s t) (hf : Fair s) : Stays s (tick envGap t) := by
  refine h.trans ?_
  have hs : Fair (sample t) := h.fair hf
  unfold tick
  rw [envGap_fair hs]
  rcases envMove_cases (sample t) .modeChange with e | e <;> rw [e]
  · exact ⟨rfl, rfl, rfl, rfl, rfl⟩
  · simp only [State.move, State.modeChange]
    split <;> exact ⟨rfl, rfl, rfl, rfl, rfl⟩

theorem transact_stays (s : State) (x : Xfer) (hx : x.dev = .can ∨ x = .eeRdsr) : Stays s (s.transact x).2 := by
  rw [transact_eq]
  have hd : Stays s (s.device x).2 := by
    cases x with
    | canWrite a d => obtain ⟨c, hc⟩ := ctlWrites_ctl_only d s a; simp only [State.device, hc]; exact ⟨rfl, rfl, rfl, rfl, rfl⟩
    | canBitmod a m d =>
      obtain ⟨c, hc⟩ := ctlWrite_ctl_only s a ((s.reg a &&& ~~~m) ||| (d &&& m))
      simp only [State.device, State.ctlBitmod, hc]; exact ⟨rfl, rfl, rfl, rfl, rfl⟩
    | eeWren => simp [Xfer.dev] at hx
    | eeRead a n => simp [Xfer.dev] at hx
    | eeWrite a d => simp [Xfer.dev] at hx
    | canReset => simp only [State.device, State.controllerReset]; exact ⟨rfl, rfl, rfl, rfl, rfl⟩
    | canRead a n => exact .refl s
    | canRxStatus => exact .refl s
    | eeRdsr => exact .refl s
  exact hd.trans ⟨rfl, rfl, rfl, rfl, rfl⟩

theorem xfer_stays {s : State} (hf : Fair s) (x : Xfer) (hx : x.dev = .can ∨ x = .eeRdsr) :
    Stays s (xfer envGap x s).2 := tick_fair (transact_stays s x hx) hf

theorem writeReg_stays {s : State} (hf : Fair s) (a : Nat) (d : Byte) : Stays s (writeReg envGap a d s) :=
  xfer_stays hf _ (.inl rfl)

theorem writeBlock_stays {s : State} (hf : Fair s) (a : Nat) (d : List Byte) : Stays s (writeBlock envGap a d s) :=
  xfer_stays hf _ (.inl rfl)

theorem setBitTiming_stays {s : State} (hf : Fair s) (a b c : Byte) : Stays s (setBitTiming envGap a b c s) := by
  have h1 := writeReg_stays hf s.cfg.dev.map.cnf1 a
  have h2 := writeReg_stays (h1.fair hf) s.cfg.dev.map.cnf2 b
  exact h1.trans (h2.trans (writeReg_stays (h2.fair (h1.fair hf)) _ c))

/-! ### setMode (R109) -/

/-- The controller's step after a mode request (R104): it reports the mode requested. -/
theorem envMove_modeChange_opmod {s : State} (hd : s.cfg.dev = .standard) (hm : isModeCode s.cfg.dev s.reqop = true) :
    (envMove s .modeChange).opmod = s.reqop := by
  unfold envMove
  simp only [State.canMove, hm, Bool.and_true]
  by_cases h : s.opmod = s.reqop
  · simp [h]
  · rw [if_pos (by simpa using h)]
    show (State.modeChange s).opmod = _
    unfold State.modeChange
    rw [hm, Bool.and_true, if_pos (by simpa using h)]
    unfold State.opmod
    simp only [State.setReg_cfg]
    rw [reg_setReg_same _ _ _ (by rw [hd]; decide), modeBits_withModeBits]

theorem isModeCode_modeCode (m : Mode) : isModeCode DevParams.standard (modeCode DevParams.standard m) = true := by
  cases m <;> decide

/-- A mode request puts the mode's code in REQOP (R109). -/
theorem reqop_request (s : State) (m : Mode) (hd : s.cfg.dev = .standard) :
    (s.transact (.canBitmod 0x0F 0xE0 (modeCode DevParams.standard m ++ 0#5))).2.reqop = modeCode DevParams.standard m := by
  rw [transact_canBitmod]
  have hc := congrArg State.cfg (ctlWrite_ctl_only s 0x0F ((s.reg 0x0F &&& ~~~0xE0) |||
    ((modeCode DevParams.standard m ++ 0#5) &&& 0xE0))).choose_spec
  show modeBits ((s.ctlBitmod 0x0F 0xE0 (modeCode DevParams.standard m ++ 0#5)).reg
    (s.ctlBitmod 0x0F 0xE0 (modeCode DevParams.standard m ++ 0#5)).cfg.dev.map.canctrl) = _
  have hcfg : (s.ctlBitmod 0x0F 0xE0 (modeCode DevParams.standard m ++ 0#5)).cfg = s.cfg := hc
  have hl : s.locked 0x0F = false := by
    unfold State.locked
    rw [hd, show DevParams.standard.map.isConfig 0x0F = false by decide]; rfl
  rw [hcfg, hd, show DevParams.standard.map.canctrl = 0x0F from rfl, reg_ctlBitmod, if_pos ⟨rfl, by decide, hl⟩]
  unfold State.writable
  rw [hd]
  simp only [show DevParams.standard.map.canstat = 0x0E from rfl, show DevParams.standard.map.txb0ctrl = 0x30 from rfl,
    show DevParams.standard.map.canintf = 0x2C from rfl]
  rw [if_neg (by decide), if_neg (by decide), if_neg (by decide)]
  generalize s.reg 0x0F = b
  clear * -
  cases m <;> revert b <;> decide

/-- In a fair environment setMode ends at its first poll, in the mode asked for. -/
theorem setModeOp_fair {s : State} (hf : Fair s) (hd : s.cfg.dev = .standard) (m : Mode) :
    ∃ t, setModeOp envGap m s = some t ∧ Stays s t := by
  unfold setModeOp
  rw [hd]
  simp only [show DevParams.standard.map.canctrl = 0x0F from rfl, show DevParams.standard.modeMask = 0xE0 from rfl]
  have hx : bitModify envGap 0x0F 0xE0 (modeCode DevParams.standard m ++ 0#5) s =
      tick envGap (s.transact (.canBitmod 0x0F 0xE0 (modeCode DevParams.standard m ++ 0#5))).2 := rfl
  have h1 : Stays s (bitModify envGap 0x0F 0xE0 (modeCode DevParams.standard m ++ 0#5) s) := xfer_stays hf _ (.inl rfl)
  have hop : (bitModify envGap 0x0F 0xE0 (modeCode DevParams.standard m ++ 0#5) s).opmod =
      modeCode DevParams.standard m := by
    have h2 := transact_stays s (.canBitmod 0x0F 0xE0 (modeCode DevParams.standard m ++ 0#5)) (.inl rfl)
    have hr := reqop_request s m hd
    rw [hx]
    generalize (s.transact (.canBitmod 0x0F 0xE0 (modeCode DevParams.standard m ++ 0#5))).2 = u at *
    have hdu : u.cfg.dev = .standard := by rw [h2.cfg]; exact hd
    unfold tick
    rw [envGap_fair (s := sample u) (h2.fair hf)]
    rw [envMove_modeChange_opmod (s := sample u) hdu (by
      show isModeCode u.cfg.dev u.reqop = true
      rw [hdu, hr]; exact isModeCode_modeCode m)]
    exact hr
  generalize bitModify envGap 0x0F 0xE0 (modeCode DevParams.standard m ++ 0#5) s = u at *
  have hp : modePoll envGap m (modePollBound u) u = some (readReg envGap u.cfg.dev.map.canstat u).2 := by
    unfold modePollBound
    refine modePoll_first ?_
    rw [show u.cfg.dev = .standard by rw [h1.cfg]; exact hd] at *
    exact (by unfold State.opmod at hop; rw [h1.cfg, hd] at hop; exact hop)
  rw [hp]
  exact ⟨_, rfl, h1.trans (Stays.trans (xfer_stays (h1.fair hf) _ (.inl rfl)) ⟨rfl, rfl, rfl, rfl, rfl⟩)⟩

/-! ### A boot whose EEPROM stays busy -/

theorem waitIdle_busy_fair {s : State} (hf : Fair s) (hb : StatusBits s.cfg) (hw : s.wip = true) :
    ∃ t, waitIdle envGap s = (.error .busy, t) ∧ Stays s t := by
  have loop : ∀ (n : Nat) (u : State), Fair u → StatusBits u.cfg → u.wip = true →
      ∃ t, waitIdleLoop envGap n u = (.error .busy, t) ∧ Stays u t := by
    intro n
    induction n with
    | zero => exact fun u _ _ _ => ⟨u, rfl, .refl u⟩
    | succ n ih =>
      intro u hfu hbu hwu
      have h1 : Stays u (xfer envGap .eeRdsr u).2 := xfer_stays hfu _ (.inr rfl)
      obtain ⟨t, ht, h2⟩ := ih _ (h1.fair hfu) (h1.cfg ▸ hbu) (h1.wip.trans hwu)
      refine ⟨t, ?_, h1.trans h2⟩
      simp only [waitIdleLoop, readStatus_eq, eeStatus_wip u hbu, hwu, delay]
      exact ht
  exact loop _ s hf hb hw

/-- A position of the boot sequence before the first failing load, counted down to it. -/
def BootPos.left : BootPos → Nat
  | .reset => 11
  | .setConfig => 10
  | .bitTiming => 9
  | .mask0 => 8
  | .mask1 => 7
  | .filter0 => 6
  | .filter1 => 5
  | .stdFilters => 4
  | .extFilters => 3
  | .setNormal => 2
  | .load 0 => 1
  | _ => 0

/-- How many steps it is to the next ResetDelay. -/
def bootLeft (s : State) : Nat := if s.phase = .boot then s.boot.left else 0

/-- A boot that will fail at its first load, or has. -/
structure Failing (s : State) : Prop where
  fair : Fair s
  valid : s.cfg.valid = true
  dev : s.cfg.dev = .standard
  bits : StatusBits s.cfg
  wip : s.wip = true
  place : s.phase = .resetDelay ∨ s.phase = .boot ∧ s.boot.left ≠ 0

theorem Failing.next {s t : State} (h : Failing s) (hp : s.phase = .boot) (hs : Stays s t) (p : BootPos) (hl : p.left ≠ 0)
    (hn : p.left + 1 = s.boot.left) : Failing (t.at p) ∧ (s.phase = .boot → bootLeft (t.at p) + 1 = bootLeft s) := by
  have ht : (t.at p).phase = .boot := hs.phase.trans hp
  exact ⟨⟨hs.fair h.fair, hs.cfg ▸ h.valid, hs.cfg ▸ h.dev, hs.cfg ▸ h.bits, hs.wip.trans h.wip, .inr ⟨ht, hl⟩⟩,
    fun _ => by unfold bootLeft; rw [if_pos ht, if_pos hp]; exact hn⟩

/-- A failing boot goes on, one position nearer to ResetDelay, or from it to the first line. -/
theorem Failing.step {s : State} (h : Failing s) :
    ∃ t, Machine.step s = .next t ∧ Failing t ∧ (s.phase = .boot → bootLeft t + 1 = bootLeft s) := by
  rcases h.place with hp | ⟨hp, hl⟩
  · have hst : Machine.step s = .next (resetDelayStep s) := by unfold Machine.step; rw [if_pos h.valid, hp]
    rw [hst]
    have h1 : Stays s (tick envGap (delay s.cfg.resetDelay s)) := tick_fair (.refl s) h.fair
    have hf1 := h1.fair h.fair
    refine ⟨_, rfl, ?_, fun e => absurd (hp.symm.trans e) (by decide)⟩
    unfold resetDelayStep
    generalize tick envGap (delay s.cfg.resetDelay s) = u at *
    have h2 : Stays (deviceReset u) (tick envGap (deviceReset u)) := tick_fair (.refl _) hf1
    have hb : (tick envGap (deviceReset u)).boot = .reset := congrArg BlockPart.boot (tick_envGap_blockPart (deviceReset u))
    have hc : (tick envGap (deviceReset u)).cfg = s.cfg := h2.cfg.trans h1.cfg
    exact ⟨h2.fair hf1, hc ▸ h.valid, hc ▸ h.dev, hc ▸ h.bits, h2.wip.trans (h1.wip.trans h.wip),
      .inr ⟨h2.phase, by rw [hb]; decide⟩⟩
  · have hst : Machine.step s = bootStep s := by unfold Machine.step; rw [if_pos h.valid, hp]
    rw [hst]
    have hf := h.fair
    unfold bootStep
    cases hb : s.boot with
    | reset =>
      have h0 : Stays s (envGap s) := by
        rw [envGap_fair hf]
        rcases envMove_cases s .modeChange with e | e <;> rw [e]
        · exact .refl s
        · simp only [State.move, State.modeChange]
          split <;> exact ⟨rfl, rfl, rfl, rfl, rfl⟩
      have h1 : Stays s (resetOp envGap (envGap s)) :=
        tick_fair (h0.trans ((transact_stays _ .canReset (.inl rfl)).trans ⟨rfl, rfl, rfl, rfl, rfl⟩)) hf
      exact ⟨_, rfl, h.next hp h1 .setConfig (by decide) (by rw [hb]; rfl)⟩
    | setConfig =>
      obtain ⟨t, ht, hs⟩ := setModeOp_fair hf h.dev .config
      simp only [bootMode, ht]
      exact ⟨_, rfl, h.next hp hs .bitTiming (by decide) (by rw [hb]; rfl)⟩
    | bitTiming => exact ⟨_, rfl, h.next hp (setBitTiming_stays hf _ _ _) .mask0 (by decide) (by rw [hb]; rfl)⟩
    | mask0 => exact ⟨_, rfl, h.next hp (writeBlock_stays hf _ _) .mask1 (by decide) (by rw [hb]; rfl)⟩
    | mask1 => exact ⟨_, rfl, h.next hp (writeBlock_stays hf _ _) .filter0 (by decide) (by rw [hb]; rfl)⟩
    | filter0 => exact ⟨_, rfl, h.next hp (writeBlock_stays hf _ _) .filter1 (by decide) (by rw [hb]; rfl)⟩
    | filter1 => exact ⟨_, rfl, h.next hp (writeBlock_stays hf _ _) .stdFilters (by decide) (by rw [hb]; rfl)⟩
    | stdFilters =>
      have h1 : Stays s (setFilter envGap 2 (.std 0) s) := writeBlock_stays hf _ _
      have h2 : Stays s (setFilter envGap 3 (.std 0) (setFilter envGap 2 (.std 0) s)) :=
        h1.trans (writeBlock_stays (h1.fair hf) _ _)
      exact ⟨_, rfl, h.next hp h2 .extFilters (by decide) (by rw [hb]; rfl)⟩
    | extFilters =>
      have h1 : Stays s (setFilter envGap 4 (.ext 0) s) := writeBlock_stays hf _ _
      have h2 : Stays s (setFilter envGap 5 (.ext 0) (setFilter envGap 4 (.ext 0) s)) :=
        h1.trans (writeBlock_stays (h1.fair hf) _ _)
      exact ⟨_, rfl, h.next hp h2 .setNormal (by decide) (by rw [hb]; rfl)⟩
    | setNormal =>
      obtain ⟨t, ht, hs⟩ := setModeOp_fair hf h.dev .normal
      simp only [bootMode, ht]
      exact ⟨_, rfl, h.next hp hs (.load 0) (by decide) (by rw [hb]; rfl)⟩
    | load k =>
      have hk : k = 0 := by
        cases k with
        | zero => rfl
        | succ k => rw [hb] at hl; exact absurd rfl hl
      subst hk
      have hn : 0 < s.cfg.numSignals := by
        have := h.valid
        simp only [Params.valid, Params.rangesOk, Bool.and_eq_true, decide_eq_true_eq] at this
        omega
      obtain ⟨t, ht, hs⟩ := waitIdle_busy_fair hf h.bits h.wip
      have hr : sigLoad envGap 0 s = (.error .busy, t) := by
        have := valid_record h.valid hn
        simp [sigLoad, eeReadOp, eeInRange, this, ht, Res.bind, sigRecBytes]
      simp only [bootLoad, hn, if_true, hr]
      have h1 : Stays { s with phase := .resetDelay } (tick envGap { t with phase := .resetDelay }) :=
        tick_fair ⟨hs.cfg, rfl, hs.wip, hs.sched, hs.modeFair⟩ hf
      refine ⟨_, rfl, ⟨h1.fair hf, h1.cfg ▸ h.valid, h1.cfg ▸ h.dev, h1.cfg ▸ h.bits, h1.wip.trans h.wip, .inl h1.phase⟩,
        fun _ => ?_⟩
      have hph : (escalate t).phase = .resetDelay := h1.phase
      unfold bootLeft
      rw [hph, hp, hb]
      rfl
    | clearLatch => rw [hb] at hl; exact absurd rfl hl
    | enableInt => rw [hb] at hl; exact absurd rfl hl
    | enterRun => rw [hb] at hl; exact absurd rfl hl

/-- One step, then the others. -/
theorem steps_succ {s t : State} (h : Machine.step s = .next t) (k : Nat) : steps (k + 1) s = steps k t := by
  rw [steps, h, continueWith]

/-- Steps after steps. -/
theorem steps_add (j k : Nat) (s t : State) (h : steps j s = .next t) : steps (j + k) s = steps k t := by
  induction j generalizing s with
  | zero =>
    rw [steps, Host.Outcome.next.injEq] at h
    rw [h, Nat.zero_add]
  | succ j ih =>
    rw [Nat.succ_add]
    rw [steps] at *
    generalize Machine.step s = o at *
    cases o with
    | next u => exact ih u h
    | fault r => exact absurd h (by simp [continueWith])
    | refused r => exact absurd h (by simp [continueWith])

theorem Failing.steps {s : State} (h : Failing s) (k : Nat) : ∃ t, Machine.steps k s = .next t ∧ Failing t := by
  induction k generalizing s with
  | zero => exact ⟨s, rfl, h⟩
  | succ k ih =>
    obtain ⟨u, hu, hfu, _⟩ := h.step
    obtain ⟨t, ht, hft⟩ := ih hfu
    exact ⟨t, (steps_succ hu k).trans ht, hft⟩

theorem Failing.reaches {s : State} (h : Failing s) : ∃ j t, Machine.steps j s = .next t ∧ t.phase = .resetDelay := by
  induction hn : bootLeft s generalizing s with
  | zero =>
    rcases h.place with hp | ⟨hp, hl⟩
    · exact ⟨0, s, rfl, hp⟩
    · unfold bootLeft at hn; rw [if_pos hp] at hn; exact absurd hn hl
  | succ n ih =>
    obtain ⟨u, hu, hfu, hr⟩ := h.step
    have hp : s.phase = .boot := by
      unfold bootLeft at hn
      split at hn
      · assumption
      · exact absurd hn (by omega)
    obtain ⟨j, t, ht, hpt⟩ := ih hfu (by have := hr hp; omega)
    exact ⟨j + 1, t, (steps_succ hu j).trans ht, hpt⟩

/-- R150, R163: while a write cycle does not end, the boot fails, resets and fails again for ever. -/
theorem boot_hangs_while_busy {s : State} (h : Failing s) : s.bootHang := by
  refine ⟨fun k => ?_, fun k => ?_⟩
  · obtain ⟨t, ht, hf⟩ := h.steps k
    refine ⟨t, ht, ?_⟩
    rcases hf.place with hp | ⟨hp, _⟩ <;> rw [hp] <;> decide
  · obtain ⟨u, hu, hf⟩ := h.steps k
    obtain ⟨j, t, ht, hp⟩ := hf.reaches
    exact ⟨k + j, t, Nat.le_add_right k j, (steps_add k j s u hu).trans ht, hp⟩

end Sys2Proof.Machine
end

