-- ==== Sys2Proof/Laws/PerInstr.lean ====
section
/-! SUPPORT. A family of laws with one lemma for each instruction: the shape of its encoding (R61, R63, R72). -/

namespace Sys2Proof.Laws.Shape

/-- A well-formed instruction is encoded in 1 to 269 bytes; at the command port the first is an op byte of R61, in the handler
it is the class word, whose DLC field gives the number of bytes after the identifier word. -/
def Statement (i : Instr) : Prop :=
  i.wellFormed = true →
    0 < (encode i).length ∧ (encode i).length ≤ 269 ∧ (i.source = .port → (encode i).headD 0 ∈ opBytes) ∧
      (i.source = .frame → (encode i).length ≤ 13 ∧ (encode i).length = 5 + ((encode i).headD 0).toNat / 16)

theorem classWord_dlc (h : BitVec 3) (fr : CanFrame) (ok : fr.ok = true) : (classWord h fr).toNat / 16 = fr.dlc := by
  simp only [CanFrame.ok, decide_eq_true_eq, maxDlc] at ok
  simp only [classWord, BitVec.toNat_append, BitVec.toNat_ofNat, BitVec.toNat_ofBool]
  have h1 : h.toNat < 8 := h.isLt
  have h2 : fr.rtr.toNat < 2 := by cases fr.rtr <;> decide
  simp only [CanFrame.dlc, Nat.shiftLeft_eq, Nat.reducePow]
  rw [Nat.mod_eq_of_lt (by omega)]
  rw [← Nat.shiftLeft_eq _ 1, ← Nat.shiftLeft_add_eq_or_of_lt (show fr.rtr.toNat < 2 ^ 1 by omega)]
  rw [← Nat.shiftLeft_eq _ 3, ← Nat.shiftLeft_add_eq_or_of_lt (show h.toNat < 2 ^ 3 by omega)]
  simp only [Nat.shiftLeft_eq, Nat.reducePow]
  omega

theorem encodeClass_shape (h : BitVec 3) (fr : CanFrame) (ok : fr.ok = true) :
    0 < (encodeClass h fr).length ∧ (encodeClass h fr).length ≤ 13 ∧
      (encodeClass h fr).length = 5 + ((encodeClass h fr).headD 0).toNat / 16 := by
  have e : (encodeClass h fr).length = 5 + fr.dlc := by
    simp [encodeClass, beBytes32, CanFrame.dlc]; omega
  have d : ((encodeClass h fr).headD 0).toNat / 16 = fr.dlc := classWord_dlc h fr ok
  simp only [CanFrame.ok, decide_eq_true_eq, maxDlc] at ok
  simp only [CanFrame.dlc] at *
  omega

theorem spReset : Statement (.spReset) := by
  intro _
  refine ⟨?_, ?_, fun _ => by simp [encode, opBytes], nofun⟩ <;> simp [encode]

theorem spRead (a : Byte) : Statement (.spRead a) := by
  intro _
  refine ⟨?_, ?_, fun _ => by simp [encode, opBytes], nofun⟩ <;> simp [encode]

theorem spWrite (a : Byte) (d : Byte) : Statement (.spWrite a d) := by
  intro _
  refine ⟨?_, ?_, fun _ => by simp [encode, opBytes], nofun⟩ <;> simp [encode]

theorem spBitmod (a : Byte) (mask : Byte) (d : Byte) : Statement (.spBitmod a mask d) := by
  intro _
  refine ⟨?_, ?_, fun _ => by simp [encode, opBytes], nofun⟩ <;> simp [encode]

theorem spReadblk (a : Byte) (n : Byte) : Statement (.spReadblk a n) := by
  intro _
  refine ⟨?_, ?_, fun _ => by simp [encode, opBytes], nofun⟩ <;> simp [encode]

theorem spWriteblk (a : Byte) (d : List Byte) : Statement (.spWriteblk a d) := by
  intro hw
  simp only [Instr.wellFormed, countOk, decide_eq_true_eq] at hw
  refine ⟨?_, ?_, fun _ => by simp [encode, opBytes], nofun⟩ <;>
    simp [encode, encodeCounted] <;> omega

theorem epWren : Statement (.epWren) := by
  intro _
  refine ⟨?_, ?_, fun _ => by simp [encode, opBytes], nofun⟩ <;> simp [encode]

theorem epRdsr : Statement (.epRdsr) := by
  intro _
  refine ⟨?_, ?_, fun _ => by simp [encode, opBytes], nofun⟩ <;> simp [encode]

theorem epRead (addr : U32) (n : Byte) : Statement (.epRead addr n) := by
  intro _
  refine ⟨?_, ?_, fun _ => by simp [encode, opBytes], nofun⟩ <;> simp [encode, beBytes32]

theorem epWrite (addr : U32) (d : List Byte) : Statement (.epWrite addr d) := by
  intro hw
  simp only [Instr.wellFormed, countOk, decide_eq_true_eq] at hw
  refine ⟨?_, ?_, fun _ => by simp [encode, opBytes], nofun⟩ <;>
    simp [encode, encodeCounted, beBytes32] <;> omega

theorem eeWrite (addr : U32) (d : List Byte) : Statement (.eeWrite addr d) := by
  intro hw
  simp only [Instr.wellFormed, countOk, decide_eq_true_eq] at hw
  refine ⟨?_, ?_, fun _ => by simp [encode, opBytes], nofun⟩ <;>
    simp [encode, encodeCounted, beBytes32] <;> omega

theorem eeRead (addr : U32) (n : Byte) : Statement (.eeRead addr n) := by
  intro _
  refine ⟨?_, ?_, fun _ => by simp [encode, opBytes], nofun⟩ <;> simp [encode, beBytes32]

theorem canSetmode (m : Byte) : Statement (.canSetmode m) := by
  intro _
  refine ⟨?_, ?_, fun _ => by simp [encode, opBytes], nofun⟩ <;> simp [encode]

theorem canSetbt (c1 : Byte) (c2 : Byte) (c3 : Byte) : Statement (.canSetbt c1 c2 c3) := by
  intro _
  refine ⟨?_, ?_, fun _ => by simp [encode, opBytes], nofun⟩ <;> simp [encode]

theorem canSetmask (k : Byte) (id : CanId) : Statement (.canSetmask k id) := by
  intro _
  refine ⟨?_, ?_, fun _ => by simp [encode, opBytes], nofun⟩ <;> simp [encode, beBytes32]

theorem canSetfilter (f : Byte) (id : CanId) : Statement (.canSetfilter f id) := by
  intro _
  refine ⟨?_, ?_, fun _ => by simp [encode, opBytes], nofun⟩ <;> simp [encode, beBytes32]

theorem canReceive (b : Byte) : Statement (.canReceive b) := by
  intro _
  refine ⟨?_, ?_, fun _ => by simp [encode, opBytes], nofun⟩ <;> simp [encode]

theorem canTransmit (frm : FrameArg) : Statement (.canTransmit frm) := by
  intro hw
  simp only [Instr.wellFormed, countOk, decide_eq_true_eq] at hw
  refine ⟨?_, ?_, fun _ => by simp [encode, opBytes], nofun⟩ <;>
    simp [encode, encodeFrameArg, beBytes32] <;> omega

theorem canRxstatus : Statement (.canRxstatus) := by
  intro _
  refine ⟨?_, ?_, fun _ => by simp [encode, opBytes], nofun⟩ <;> simp [encode]

theorem sigPluck (fmt : SigFmt) (frm : FrameArg) : Statement (.sigPluck fmt frm) := by
  intro hw
  simp only [Instr.wellFormed, countOk, decide_eq_true_eq] at hw
  refine ⟨?_, ?_, fun _ => by simp [encode, opBytes], nofun⟩ <;>
    simp [encode, encodeFrameArg, serWire, beBytes32] <;> omega

theorem sigLoad (s : Byte) : Statement (.sigLoad s) := by
  intro _
  refine ⟨?_, ?_, fun _ => by simp [encode, opBytes], nofun⟩ <;> simp [encode]

theorem sigStore (s : Byte) (fmt : SigFmt) : Statement (.sigStore s fmt) := by
  intro _
  refine ⟨?_, ?_, fun _ => by simp [encode, opBytes], nofun⟩ <;> simp [encode, serWire, beBytes32]

theorem sigGet (s : Byte) : Statement (.sigGet s) := by
  intro _
  refine ⟨?_, ?_, fun _ => by simp [encode, opBytes], nofun⟩ <;> simp [encode]

theorem rowWrite (t : Byte) (i : Byte) (key : U32) (value : U16) : Statement (.rowWrite t i key value) := by
  intro _
  refine ⟨?_, ?_, fun _ => by simp [encode, opBytes], nofun⟩ <;> simp [encode, beBytes32, beBytes16]

theorem rowRead (t : Byte) (i : Byte) : Statement (.rowRead t i) := by
  intro _
  refine ⟨?_, ?_, fun _ => by simp [encode, opBytes], nofun⟩ <;> simp [encode]

theorem tabLookup (t : Byte) (tag : Byte) (w : U32) : Statement (.tabLookup t tag w) := by
  intro _
  refine ⟨?_, ?_, fun _ => by simp [encode, opBytes], nofun⟩ <;> simp [encode, beBytes32]

theorem critEnter : Statement (.critEnter) := by
  intro _
  refine ⟨?_, ?_, fun _ => by simp [encode, opBytes], nofun⟩ <;> simp [encode]

theorem critExit (saved : Byte) : Statement (.critExit saved) := by
  intro _
  refine ⟨?_, ?_, fun _ => by simp [encode, opBytes], nofun⟩ <;> simp [encode]

theorem tblRd (fr : CanFrame) : Statement (.tblRd fr) := by
  intro hw
  obtain ⟨h1, h2, h3⟩ := encodeClass_shape 0 fr ((Bool.and_eq_true_iff.1 hw).1)
  exact ⟨h1, Nat.le_trans h2 (by decide), nofun, fun _ => ⟨h2, h3⟩⟩

theorem tblWr (fr : CanFrame) : Statement (.tblWr fr) := by
  intro hw
  obtain ⟨h1, h2, h3⟩ := encodeClass_shape 0 fr ((Bool.and_eq_true_iff.1 hw).1)
  exact ⟨h1, Nat.le_trans h2 (by decide), nofun, fun _ => ⟨h2, h3⟩⟩

theorem sigRd (fr : CanFrame) : Statement (.sigRd fr) := by
  intro hw
  obtain ⟨h1, h2, h3⟩ := encodeClass_shape 1 fr ((Bool.and_eq_true_iff.1 hw).1)
  exact ⟨h1, Nat.le_trans h2 (by decide), nofun, fun _ => ⟨h2, h3⟩⟩

theorem sigWr (fr : CanFrame) : Statement (.sigWr fr) := by
  intro hw
  obtain ⟨h1, h2, h3⟩ := encodeClass_shape 1 fr ((Bool.and_eq_true_iff.1 hw).1)
  exact ⟨h1, Nat.le_trans h2 (by decide), nofun, fun _ => ⟨h2, h3⟩⟩

theorem sigFrameMid (h : BitVec 1) (fr : CanFrame) : Statement (.sigFrameMid h fr) := by
  intro hw
  obtain ⟨h1, h2, h3⟩ := encodeClass_shape (1#2 ++ h) fr (hw)
  exact ⟨h1, Nat.le_trans h2 (by decide), nofun, fun _ => ⟨h2, h3⟩⟩

theorem sigFrameHigh (h : BitVec 2) (fr : CanFrame) : Statement (.sigFrameHigh h fr) := by
  intro hw
  obtain ⟨h1, h2, h3⟩ := encodeClass_shape (1#1 ++ h) fr (hw)
  exact ⟨h1, Nat.le_trans h2 (by decide), nofun, fun _ => ⟨h2, h3⟩⟩

end Sys2Proof.Laws.Shape
end

