-- ==== Sys2Proof/Tests/Slice0.lean ====
section
/-! SUPPORT. Tests: the checks of WellFormed, each instruction's decoding from a word written out by hand, one-step tests with the
results of 95_test_vectors.md, and for each statement with hypotheses a state and operands that meet them. -/

namespace Sys2Proof.Tests

open Sys2Proof.Machine

set_option Elab.async false

/-! ## WellFormed: an ill-formed term for each check -/

theorem test_ill_spWriteblk : (Instr.spWriteblk 0 (List.replicate 256 0)).wellFormed = false := by decide +kernel
theorem test_ill_epWrite : (Instr.epWrite 0 (List.replicate 256 0)).wellFormed = false := by decide +kernel
theorem test_ill_eeWrite : (Instr.eeWrite 0 (List.replicate 256 0)).wellFormed = false := by decide +kernel
theorem test_ill_canTransmit : (Instr.canTransmit ⟨.std 0, 0, List.replicate 256 0⟩).wellFormed = false := by
  decide +kernel
theorem test_ill_sigPluck : (Instr.sigPluck ⟨.std 0, 0, 0, 0⟩ ⟨.std 0, 0, List.replicate 256 0⟩).wellFormed = false := by
  decide +kernel
theorem test_ill_tblRd_dlc : (Instr.tblRd ⟨.std 0, true, List.replicate 9 0⟩).wellFormed = false := by decide
theorem test_ill_tblRd_rtr : (Instr.tblRd ⟨.std 0, false, []⟩).wellFormed = false := by decide
theorem test_ill_tblWr_dlc : (Instr.tblWr ⟨.std 0, false, List.replicate 9 0⟩).wellFormed = false := by decide
theorem test_ill_tblWr_rtr : (Instr.tblWr ⟨.std 0, true, []⟩).wellFormed = false := by decide
theorem test_ill_sigRd_dlc : (Instr.sigRd ⟨.std 0, true, List.replicate 9 0⟩).wellFormed = false := by decide
theorem test_ill_sigRd_rtr : (Instr.sigRd ⟨.std 0, false, []⟩).wellFormed = false := by decide
theorem test_ill_sigWr_dlc : (Instr.sigWr ⟨.std 0, false, List.replicate 9 0⟩).wellFormed = false := by decide
theorem test_ill_sigWr_rtr : (Instr.sigWr ⟨.std 0, true, []⟩).wellFormed = false := by decide
theorem test_ill_sigFrameMid : (Instr.sigFrameMid 0 ⟨.std 0, true, List.replicate 9 0⟩).wellFormed = false := by decide
theorem test_ill_sigFrameHigh : (Instr.sigFrameHigh 0 ⟨.std 0, true, List.replicate 9 0⟩).wellFormed = false := by decide

/-! ## Decoding: words written out from the tables of R61, R65, R66, R72 and R75 -/

theorem test_decode_spReset : decode .port [0x01] = .ok .spReset := by decide
theorem test_decode_spRead : decode .port [0x02, 0x0E] = .ok (.spRead 0x0E) := by decide
theorem test_decode_spWrite : decode .port [0x03, 0x2B, 0x03] = .ok (.spWrite 0x2B 0x03) := by decide
theorem test_decode_spBitmod : decode .port [0x04, 0x0F, 0xE0, 0x60] = .ok (.spBitmod 0x0F 0xE0 0x60) := by decide
theorem test_decode_spReadblk : decode .port [0x05, 0x61, 0x05] = .ok (.spReadblk 0x61 5) := by decide
theorem test_decode_spWriteblk :
    decode .port [0x06, 0x31, 0x05, 0x40, 0x00, 0x00, 0x00, 0x02] = .ok (.spWriteblk 0x31 [0x40, 0, 0, 0, 2]) := by decide
theorem test_decode_epWren : decode .port [0x08] = .ok .epWren := by decide
theorem test_decode_epRdsr : decode .port [0x09] = .ok .epRdsr := by decide
theorem test_decode_epRead : decode .port [0x0A, 0x00, 0x00, 0x07, 0xFF, 0x01] = .ok (.epRead 0x7FF 1) := by decide
theorem test_decode_epWrite :
    decode .port [0x0B, 0x00, 0x00, 0x00, 0x10, 0x02, 0xAA, 0x55] = .ok (.epWrite 0x10 [0xAA, 0x55]) := by decide
theorem test_decode_eeWrite :
    decode .port [0x10, 0x00, 0x00, 0x00, 0x20, 0x04, 0x11, 0x22, 0x33, 0x44] =
      .ok (.eeWrite 0x20 [0x11, 0x22, 0x33, 0x44]) := by decide
theorem test_decode_eeRead : decode .port [0x11, 0x00, 0x00, 0x00, 0x0A, 0x14] = .ok (.eeRead 0x0A 20) := by decide
theorem test_decode_canSetmode : decode .port [0x20, 0x03] = .ok (.canSetmode 3) := by decide
theorem test_decode_canSetbt : decode .port [0x21, 0x00, 0x90, 0x02] = .ok (.canSetbt 0x00 0x90 0x02) := by decide
theorem test_decode_canSetmask :
    decode .port [0x22, 0x01, 0x98, 0xFE, 0xF1, 0x00] = .ok (.canSetmask 1 (.ext 0x18FEF100)) := by decide
theorem test_decode_canSetfilter :
    decode .port [0x23, 0x00, 0x00, 0x00, 0x02, 0x00] = .ok (.canSetfilter 0 (.std 0x200)) := by decide
theorem test_decode_canReceive : decode .port [0x24, 0x01] = .ok (.canReceive 1) := by decide
theorem test_decode_canTransmit :
    decode .port [0x25, 0x00, 0x00, 0x02, 0x45, 0x00, 0x02, 0x01, 0x02] =
      .ok (.canTransmit ⟨.std 0x245, 0, [1, 2]⟩) := by decide
theorem test_decode_canRxstatus : decode .port [0x26] = .ok .canRxstatus := by decide
theorem test_decode_sigPluck :
    decode .port [0x30, 0, 0, 0, 0, 0x0A, 0x11, 0x01, 0, 0, 0, 0, 0x00, 0x04, 0xFF, 0xEE, 0xF2, 0xFD] =
      .ok (.sigPluck ⟨.std 0, 10, 17, 1⟩ ⟨.std 0, 0, [0xFF, 0xEE, 0xF2, 0xFD]⟩) := by decide
theorem test_decode_sigLoad : decode .port [0x31, 0x03] = .ok (.sigLoad 3) := by decide
theorem test_decode_sigStore :
    decode .port [0x32, 0x01, 0x00, 0x00, 0x01, 0x34, 0x08, 0x04, 0x02] = .ok (.sigStore 1 ⟨.std 0x134, 8, 4, 2⟩) := by
  decide
theorem test_decode_sigGet : decode .port [0x33, 0x02] = .ok (.sigGet 2) := by decide
theorem test_decode_rowWrite :
    decode .port [0x40, 0x00, 0x02, 0x00, 0x00, 0x00, 0xC8, 0x0B, 0xB8] = .ok (.rowWrite 0 2 200 3000) := by decide
theorem test_decode_rowRead : decode .port [0x41, 0x02, 0x05] = .ok (.rowRead 2 5) := by decide
theorem test_decode_tabLookup :
    decode .port [0x42, 0x01, 0x04, 0xFF, 0xFF, 0xFF, 0xFB] = .ok (.tabLookup 1 4 0xFFFFFFFB) := by decide
theorem test_decode_critEnter : decode .port [0x50] = .ok .critEnter := by decide
theorem test_decode_critExit : decode .port [0x51, 0x01] = .ok (.critExit 1) := by decide

/-! The class words of 95_test_vectors.md 9.1, each with its frame's identifier word and data (log 11). -/

theorem test_decode_tblRd :
    decode .frame [0x68, 0x00, 0x00, 0x02, 0x45, 1, 2, 3, 4, 5, 6] = .ok (.tblRd ⟨.std 0x245, true, [1, 2, 3, 4, 5, 6]⟩) := by
  decide
theorem test_decode_tblWr :
    decode .frame [0x60, 0x00, 0x00, 0x02, 0x45, 0, 0, 1, 0xF4, 3, 0xE8] =
      .ok (.tblWr ⟨.std 0x245, false, [0, 0, 1, 0xF4, 3, 0xE8]⟩) := by decide
theorem test_decode_sigRd :
    decode .frame [0x79, 0x00, 0x00, 0x04, 0x03, 0, 0, 0, 0, 0, 0, 0] =
      .ok (.sigRd ⟨.std 0x403, true, [0, 0, 0, 0, 0, 0, 0]⟩) := by decide
theorem test_decode_sigWr :
    decode .frame [0x71, 0x00, 0x00, 0x04, 0x02, 0x98, 0xFE, 0xF1, 0x00, 0x08, 0x10, 0x01] =
      .ok (.sigWr ⟨.std 0x402, false, [0x98, 0xFE, 0xF1, 0x00, 0x08, 0x10, 0x01]⟩) := by decide
theorem test_decode_sigFrameMid :
    decode .frame [0x12, 0x00, 0x00, 0x01, 0x23, 0x32] = .ok (.sigFrameMid 0 ⟨.std 0x123, false, [0x32]⟩) ∧
      decode .frame [0x0B, 0x00, 0x00, 0x01, 0x23] = .ok (.sigFrameMid 1 ⟨.std 0x123, true, []⟩) := by decide
theorem test_decode_sigFrameHigh :
    decode .frame [0x0D, 0x80, 0x00, 0x02, 0x45] = .ok (.sigFrameHigh 1 ⟨.ext 0x245, true, []⟩) ∧
      decode .frame [0x06, 0x80, 0x00, 0x02, 0x45] = .ok (.sigFrameHigh 2 ⟨.ext 0x245, false, []⟩) := by decide

/-! ## States -/

/-- An empty format: the record of eight zero bytes. -/
def fmt0 : SigFmt := ⟨.std 0, 0, 0, 0⟩

/-- S0 of 95_test_vectors.md section 1, with no environment move to come. -/
def s0 : State :=
  let s := { State.reset with
    phase := .run, boot := .enterRun, gie := true, modeShadow := some .normal, modeFair := false,
    mirror := Vector.ofFn fun k : Fin 16 => if k.val < 4 then some fmt0 else none }
  ((((((s.setRegs 0x20 [0xC0, 0, 0, 0]).setRegs 0x00 [0x40, 0, 0, 0]).setRegs 0x04 [0x80, 0, 0, 0]).setRegs 0x14
    [0, 8, 0, 0]).setRegs 0x18 [0, 8, 0, 0]).setRegs 0x28 [0x02, 0x90, 0x00, 0x03])

/-- A schedule in which each gap ends the running write cycle (E3). -/
def prompt (n : Nat) : List (List EnvMove) := List.replicate n [EnvMove.cycleEnd]

/-- What a command answers at s and the events it leaves (with the moves that the gaps of sched make). -/
def ran (s : State) (sched : List (List EnvMove)) (cmd : List Byte) : Option (List Byte × List Event) :=
  match step { s with script := [cmd], sched := sched } with
  | .next t => t.lastResult.map fun r => (r, t.events)
  | _ => none

/-- The state after a command. -/
def after (s : State) (sched : List (List EnvMove)) (cmd : List Byte) : State :=
  match step { s with script := [cmd], sched := sched } with
  | .next t => t
  | _ => s

/-- The events of one handler invocation on a frame that has just been stored. -/
def handled (s : State) (sched : List (List EnvMove)) (f : BusFrame) : List Event :=
  match step { envMove { s with busIn := [f] } .receive with ctx := .handler, sched := sched } with
  | .next t => t.events
  | _ => []

/-- A status read of the EEPROM. -/
def rdsr (b : Byte) : Event := .xfer .ee [0x05] [b]

/-- The handshake before a burst (R100). -/
def handshake : List Event := [rdsr 0, .xfer .ee [0x06] [], rdsr 2]

/-! ## One step: the results, transactions and events of 95_test_vectors.md -/

theorem test_spReset :
    ran s0 [] [0x01] = some ([0, 0], [.xfer .can [0xC0] []]) ∧ (after s0 [] [0x01]).reg 0x2B = 0 ∧
      (after s0 [] [0x01]).modeShadow = none := by decide +kernel
theorem test_spRead : ran s0 [] [0x02, 0x2B] = some ([0, 0, 3], [.xfer .can [0x03, 0x2B] [3]]) := by decide +kernel
theorem test_spRead_top : ran s0 [] [0x02, 0x80] = some ([1, 3], []) := by decide +kernel
theorem test_spWrite :
    ran s0 [] [0x03, 0x2B, 0x01] = some ([0, 0], [.xfer .can [0x02, 0x2B, 0x01] []]) ∧
      (after s0 [] [0x03, 0x2B, 0x01]).reg 0x2B = 1 := by decide +kernel
/-- R34: a write of 1 sets no receive flag; the bits above take it. -/
theorem test_spWrite_canintf : (after s0 [] [0x03, 0x2C, 0xFF]).reg 0x2C = 0xFC ∧
    (after (s0.setReg 0x2C 0x03) [] [0x03, 0x2C, 0x02]).reg 0x2C = 0x02 := by decide +kernel
theorem test_spBitmod :
    ran s0 [] [0x04, 0x0F, 0xE0, 0x60] = some ([0, 0], [.xfer .can [0x05, 0x0F, 0xE0, 0x60] []]) ∧
      (after s0 [] [0x04, 0x0F, 0xE0, 0x60]).reqop = 0b011 ∧ (after s0 [] [0x04, 0x0F, 0xE0, 0x60]).opmod = 0 := by
  decide +kernel
theorem test_spReadblk : ran s0 [] [0x05, 0x28, 0x03] =
    some ([0, 0, 0x02, 0x90, 0x00], [.xfer .can [0x03, 0x28] [0x02, 0x90, 0x00]]) := by decide +kernel
theorem test_spReadblk_top : ran s0 [] [0x05, 0x7F, 0x02] = some ([1, 3], []) := by decide +kernel
theorem test_spWriteblk :
    ran s0 [] [0x06, 0x31, 0x05, 0x40, 0, 0, 0, 2] = some ([0, 0], [.xfer .can [0x02, 0x31, 0x40, 0, 0, 0, 2] []]) ∧
      (after s0 [] [0x06, 0x31, 0x05, 0x40, 0, 0, 0, 2]).reg 0x35 = 2 := by decide +kernel
theorem test_epWren : ran s0 [] [0x08] = some ([0, 0], [.xfer .ee [0x06] []]) ∧ (after s0 [] [0x08]).wel = true := by
  decide +kernel
theorem test_epRdsr : ran { s0 with wip := true, wel := true } [] [0x09] = some ([0, 0, 3], [rdsr 3]) := by decide +kernel
theorem test_epRead : ran { s0 with ee := [(0x7FF, 0x5A)] } [] [0x0A, 0, 0, 0x07, 0xFF, 0x01] =
    some ([0, 0, 0x5A], [.xfer .ee [0x03, 0x07, 0xFF] [0x5A]]) := by decide +kernel
theorem test_epWrite :
    ran { s0 with wel := true } (prompt 1) [0x0B, 0, 0, 0, 0x10, 0x02, 0xAA, 0x55] =
        some ([0, 0], [.xfer .ee [0x02, 0x00, 0x10, 0xAA, 0x55] []]) ∧
      (after { s0 with wel := true } (prompt 1) [0x0B, 0, 0, 0, 0x10, 0x02, 0xAA, 0x55]).ee = [(0x10, 0xAA), (0x11, 0x55)] := by
  decide +kernel
theorem test_epWrite_crosses : ran s0 [] [0x0B, 0, 0, 0, 0x0F, 0x02, 0xAA, 0x55] = some ([1, 3], []) := by decide +kernel

/-- Section 2.3: 20 bytes at offset 10, two write-enable and busy-wait cycles. -/
theorem test_eeWrite_two_pages :
    ran s0 [[], [], [], [], [.cycleEnd]] ([0x10, 0, 0, 0, 0x0A, 0x14] ++ (List.range 20).map fun k => BitVec.ofNat 8 (0xA0 + k)) =
      some ([0, 0], handshake ++
        [.xfer .ee [0x02, 0x00, 0x0A, 0xA0, 0xA1, 0xA2, 0xA3, 0xA4, 0xA5] [], rdsr 3] ++ handshake ++
        [.xfer .ee [0x02, 0x00, 0x10, 0xA6, 0xA7, 0xA8, 0xA9, 0xAA, 0xAB, 0xAC, 0xAD, 0xAE, 0xAF, 0xB0, 0xB1, 0xB2, 0xB3] []]) := by
  decide +kernel
theorem test_eeWrite_busy : ran { s0 with wip := true } [] [0x10, 0, 0, 0, 0x20, 1, 0xAA] =
    some ([2, 1], [rdsr 1, rdsr 1, rdsr 1]) := by decide +kernel
theorem test_eeRead : ran { s0 with ee := [(0x0F, 0xA5), (0x10, 0xA6)] } [] [0x11, 0, 0, 0, 0x0F, 2] =
    some ([0, 0, 0xA5, 0xA6], [rdsr 0, .xfer .ee [0x03, 0x00, 0x0F] [0xA5, 0xA6]]) := by decide +kernel

/-- 6.4: ModeChange only after two polls. -/
theorem test_canSetmode_three_polls : ran s0 [[], [], [.modeChange]] [0x20, 0x00] =
    some ([0, 0], [.xfer .can [0x05, 0x0F, 0xE0, 0x80] [], .xfer .can [0x03, 0x0E] [0x00], .xfer .can [0x03, 0x0E] [0x00],
      .xfer .can [0x03, 0x0E] [0x80]]) := by decide +kernel
/-- 6.4: ModeChange never taken. -/
theorem test_canSetmode_hang :
    (match step { s0 with script := [[0x20, 0x00]] } with | .fault r => some r | _ => none) = some .modeWaitHang := by
  decide +kernel
theorem test_canSetbt : ran s0 [] [0x21, 0x01, 0x91, 0x03] =
    some ([0, 0], [.xfer .can [0x02, 0x2A, 0x01] [], .xfer .can [0x02, 0x29, 0x91] [], .xfer .can [0x02, 0x28, 0x03] []]) := by
  decide +kernel
/-- 6.5: ignored outside Config mode. -/
theorem test_canSetmask_locked :
    ran s0 [] [0x22, 0x00, 0, 0, 0x07, 0xFF] = some ([0, 0], [.xfer .can [0x02, 0x20, 0xFF, 0xE0, 0, 0] []]) ∧
      (after s0 [] [0x22, 0x00, 0, 0, 0x07, 0xFF]).reg 0x20 = 0xC0 := by decide +kernel
theorem test_canSetfilter :
    ran (s0.setReg 0x0E 0x80) [] [0x23, 0x05, 0x98, 0xFE, 0xF1, 0x00] =
        some ([0, 0], [.xfer .can [0x02, 0x18, 0xC7, 0xEA, 0xF1, 0x00] []]) ∧
      (after (s0.setReg 0x0E 0x80) [] [0x23, 0x05, 0x98, 0xFE, 0xF1, 0x00]).reg 0x19 = 0xEA := by decide +kernel
/-- 6.6: a DLC field of 12 reads as 8 bytes. -/
theorem test_canReceive_dlc12 : ran (s0.setRegs 0x71 [0x24, 0x60, 0, 0, 0x0C, 1, 2, 3, 4, 5, 6, 7, 8]) [] [0x24, 0x01] =
    some ([0, 0, 0, 0, 1, 0x23, 0, 8, 1, 2, 3, 4, 5, 6, 7, 8],
      [.xfer .can [0x03, 0x71] [0x24, 0x60, 0, 0, 0x0C], .xfer .can [0x03, 0x76] [1, 2, 3, 4, 5, 6, 7, 8]]) := by decide +kernel
theorem test_canTransmit : ran s0 [[], [.txOk]] [0x25, 0x80, 0, 0, 0, 0x01, 0x00] =
    some ([0, 0], [.xfer .can [0x02, 0x31, 0x00, 0x08, 0, 0, 0x40] [], .xfer .can [0x05, 0x30, 0x08, 0x08] [],
      .tx ⟨.ext 0, true, 0, []⟩, .xfer .can [0x03, 0x30] [0x00]]) := by decide +kernel
/-- Section 2.2. -/
theorem test_canTransmit_error :
    ran s0 [[], [.txErr]] [0x25, 0, 0, 0x02, 0x45, 0, 2, 1, 2] =
        some ([3, 1], [.xfer .can [0x02, 0x31, 0x48, 0xA0, 0, 0, 2, 1, 2] [], .xfer .can [0x05, 0x30, 0x08, 0x08] [],
          .xfer .can [0x03, 0x30] [0x18], .xfer .can [0x05, 0x30, 0x08, 0x00] []]) ∧
      (after s0 [[], [.txErr]] [0x25, 0, 0, 0x02, 0x45, 0, 2, 1, 2]).reg 0x30 = 0x10 := by decide +kernel
/-- 6.3: an extended remote frame. -/
theorem test_canRxstatus :
    ran { envMove { s0 with busIn := [⟨.ext 0x245, true, 0, []⟩], gie := false } .receive with events := [] } [] [0x26] =
      some ([0, 0, 0x9C], [.xfer .can [0xB0] [0x9C]]) := by decide +kernel
/-- 7.1: CGI's big-endian scenario, and the signed one. -/
theorem test_sigPluck :
    ran s0 [] [0x30, 0, 0, 0, 0, 0x0A, 0x11, 0x01, 0, 0, 0, 0, 0, 4, 0xFF, 0xEE, 0xF2, 0xFD] =
        some ([0, 0, 0x02, 0x00, 0x01, 0xDF, 0x95], []) ∧
      ran s0 [] [0x30, 0, 0, 0, 0, 0x0A, 0x11, 0x03, 0, 0, 0, 0, 0, 4, 0xFF, 0xEE, 0xF2, 0xFD] =
        some ([0, 0, 0x05, 0xFF, 0xFF, 0xDF, 0x95], []) := by decide +kernel
theorem test_sigLoad_erased :
    (after { s0 with ee := (List.range 8).map fun k => (0x18 + k, 0xFF) } [] [0x31, 0x03]).mirrorAt 3 =
      some ⟨.ext 0x1FFFFFFF, 255, 255, 0xFF⟩ := by decide +kernel
theorem test_sigStore :
    ran s0 (prompt 5) [0x32, 0x02, 0x98, 0xFE, 0xF1, 0x00, 0x08, 0x10, 0x01] =
        some ([0, 0], handshake ++ [.xfer .ee [0x02, 0x00, 0x10, 0x98, 0xFE, 0xF1, 0x00, 0x08, 0x10, 0x01, 0x00] []]) ∧
      (after s0 (prompt 5) [0x32, 0x02, 0x98, 0xFE, 0xF1, 0x00, 0x08, 0x10, 0x01]).mirrorAt 2 =
        some ⟨.ext 0x18FEF100, 8, 16, 1⟩ := by decide +kernel
theorem test_sigGet : ran (s0.setMirror 1 ⟨.std 0x134, 8, 4, 2⟩) [] [0x33, 0x01] =
    some ([0, 0, 0, 0, 1, 0x34, 8, 4, 2], []) := by decide +kernel
/-- 8.1: row 2 of table 0 straddles a page. -/
theorem test_rowWrite : ran s0 (prompt 8) [0x40, 0x00, 0x02, 0, 0, 0, 0xC8, 0x0B, 0xB8] =
    some ([0, 0], handshake ++ [.xfer .ee [0x02, 0x00, 0x8C, 0, 0, 0, 0xC8] []] ++ handshake ++
      [.xfer .ee [0x02, 0x00, 0x90, 0x0B, 0xB8] []]) := by decide +kernel
theorem test_rowRead : ran { s0 with ee := [(0x21E, 7), (0x223, 9)] } [] [0x41, 0x02, 0x05] =
    some ([0, 0, 7, 0, 0, 0, 0, 9], [rdsr 0, .xfer .ee [0x03, 0x02, 0x1E] [7, 0, 0, 0, 0, 9]]) := by decide +kernel
/-- P2: rows (10, 100), (20, 200); key 15, and key -5 clamped low. -/
theorem test_tabLookup :
    (ran { s0 with ee := [(0x143, 10), (0x145, 100), (0x149, 20), (0x14B, 200)] } [] [0x42, 0x01, 0x01, 0, 0, 0, 0x0F]).map
        (·.1) = some [0, 0, 0, 0x96] ∧
      (ran { s0 with ee := [(0x143, 10), (0x145, 100), (0x149, 20), (0x14B, 200)] } []
        [0x42, 0x01, 0x04, 0xFF, 0xFF, 0xFF, 0xFB]).map (·.1) = some [0, 0, 0, 0x64] := by decide +kernel
theorem test_critEnter : ran s0 [] [0x50] = some ([0, 0, 1], []) ∧ (after s0 [] [0x50]).gie = false := by decide +kernel
theorem test_critExit : ran s0 [] [0x51, 0x02] = some ([1, 4], []) ∧
    (after { s0 with gie := false } [] [0x51, 0x01]).gie = true := by decide +kernel

/-- Section 2.4. -/
theorem test_tblRd : handled s0 [[], [], [], [], [], [], [.txOk]] ⟨.std 0x245, true, 6, []⟩ =
    [.xfer .can [0xB0] [0x48], .xfer .can [0x03, 0x61] [0x48, 0xA0, 0, 0, 0x46], .xfer .can [0x03, 0x66] [0, 0, 0, 0, 0, 0],
      rdsr 0, .xfer .ee [0x03, 0x02, 0x1E] [0, 0, 0, 0, 0, 0],
      .xfer .can [0x02, 0x31, 0x48, 0xA0, 0, 0, 6, 0, 0, 0, 0, 0, 0] [], .xfer .can [0x05, 0x30, 0x08, 0x08] [],
      .tx ⟨.std 0x245, false, 6, [0, 0, 0, 0, 0, 0]⟩, .xfer .can [0x03, 0x30] [0], .xfer .can [0x05, 0x2C, 0x01, 0x00] [],
      .irqDone false] := by decide +kernel
/-- 9.2: row (2, 5) straddles a page. -/
theorem test_tblWr : handled s0 (prompt 12) ⟨.std 0x245, false, 6, [0, 0, 1, 0xF4, 3, 0xE8]⟩ =
    [.xfer .can [0xB0] [0x40], .xfer .can [0x03, 0x61] [0x48, 0xA0, 0, 0, 0x06],
      .xfer .can [0x03, 0x66] [0, 0, 1, 0xF4, 3, 0xE8]] ++ handshake ++ [.xfer .ee [0x02, 0x02, 0x1E, 0, 0] []] ++ handshake ++
      [.xfer .ee [0x02, 0x02, 0x20, 1, 0xF4, 3, 0xE8] [], .xfer .can [0x05, 0x2C, 0x01, 0x00] [], .irqDone false] := by
  decide +kernel
theorem test_sigRd : handled (s0.setMirror 3 ⟨.std 0x123, 0, 8, 0⟩) [[], [], [], [], [.txOk]] ⟨.std 0x403, true, 7, []⟩ =
    [.xfer .can [0xB0] [0x49], .xfer .can [0x03, 0x61] [0x80, 0x60, 0, 0, 0x47],
      .xfer .can [0x03, 0x66] [0, 0, 0, 0, 0, 0, 0],
      .xfer .can [0x02, 0x31, 0x80, 0x60, 0, 0, 7, 0, 0, 1, 0x23, 0, 8, 0] [], .xfer .can [0x05, 0x30, 0x08, 0x08] [],
      .tx ⟨.std 0x403, false, 7, [0, 0, 1, 0x23, 0, 8, 0]⟩, .xfer .can [0x03, 0x30] [0],
      .xfer .can [0x05, 0x2C, 0x01, 0x00] [], .irqDone false] := by decide +kernel
theorem test_sigWr : handled s0 (prompt 9) ⟨.std 0x402, false, 7, [0x98, 0xFE, 0xF1, 0, 8, 0x10, 1]⟩ =
    [.xfer .can [0xB0] [0x41], .xfer .can [0x03, 0x61] [0x80, 0x40, 0, 0, 0x07],
      .xfer .can [0x03, 0x66] [0x98, 0xFE, 0xF1, 0, 8, 0x10, 1]] ++ handshake ++
      [.xfer .ee [0x02, 0x00, 0x10, 0x98, 0xFE, 0xF1, 0, 8, 0x10, 1, 0] [], .xfer .can [0x05, 0x2C, 0x01, 0x00] [],
        .irqDone false] := by decide +kernel
/-- P1, frame 4: row 0 is (0, 0), row 1 (100, 1000); the key is 50. -/
theorem test_sigFrameMid :
    handled { s0.setMirror 0 ⟨.std 0x123, 0, 8, 0⟩ with ee := [(0x89, 0x64), (0x8A, 3), (0x8B, 0xE8)] } []
        ⟨.std 0x123, false, 1, [0x32]⟩ =
      [.xfer .can [0xB0] [0x82], .xfer .can [0x03, 0x71] [0x24, 0x60, 0, 0, 0x01], .xfer .can [0x03, 0x76] [0x32], rdsr 0,
        .xfer .ee [0x03, 0x00, 0x80] [0, 0, 0, 0, 0, 0], rdsr 0, .xfer .ee [0x03, 0x00, 0x86] [0, 0, 0, 0x64, 3, 0xE8],
        .actuate 0 500, .xfer .can [0x05, 0x2C, 0x02, 0x00] [], .irqDone false] := by decide +kernel
/-- P4's shape: an extended frame, a slot whose field is past the payload, and a later slot that still drives. -/
theorem test_sigFrameHigh :
    handled (((s0.setMirror 1 ⟨.ext 0x18FEF100, 60, 8, 0⟩).setMirror 2 ⟨.ext 0x18FEF100, 0, 4, 2⟩)) []
        ⟨.ext 0x18FEF100, false, 8, [0x0F, 1, 0xF4, 0, 0, 0, 0, 0]⟩ =
      [.xfer .can [0xB0] [0x94], .xfer .can [0x03, 0x71] [0xC7, 0xEA, 0xF1, 0x00, 0x08],
        .xfer .can [0x03, 0x76] [0x0F, 1, 0xF4, 0, 0, 0, 0, 0], rdsr 0, .xfer .ee [0x03, 0x02, 0x00] [0, 0, 0, 0, 0, 0],
        .actuate 2 0, .xfer .can [0x05, 0x2C, 0x02, 0x00] [], .irqDone true] := by decide +kernel

/-- Section 11.1, step 1: the first step from reset issues RESET. -/
theorem test_boot_first_step :
    (match step { State.reset with modeFair := false } with | .next t => (t.events, t.boot) | _ => ([], .reset)) = ([.xfer .can [0xC0] []], .setConfig) := by
  decide +kernel

/-! ## Instances: one that breaks each range of R10 and R126 is refused -/

theorem test_instance_record_base : ({ Params.testInstance with sigRecBase := 12, numSignals := 1, tableBases := [0x80] } : Params).valid = false ∧
    ({ Params.testInstance with sigRecBase := 16, numSignals := 1, tableBases := [0x80] } : Params).valid = true := by
  decide +kernel
theorem test_instance_register :
    ({ Params.testInstance with dev := { DevParams.standard with map := { RegMap.mcp2515 with rxf0 := 0x1FF } } } : Params).valid =
      false := by decide +kernel
theorem test_instance_bit :
    ({ Params.testInstance with dev := { DevParams.standard with wipBit := 8 } } : Params).valid = false := by decide +kernel

/-! ## Witnesses: a state and operands that meet the hypotheses of each statement, each clause at a boundary -/

/-- S0 inside a critical section. -/
def base : State := { s0 with gie := false }

/-- The same with a write cycle running. -/
def busy : State := { base with wip := true }

/-- The same with write cycles that end promptly. -/
def quick (n : Nat) : State := { base with sched := prompt n }

/-- The same with the controller in Config mode. -/
def configured : State := base.setReg 0x0E 0x80

/-- In the handler, both buffers full, the line asserted. -/
def bothFull : State := { s0.setReg 0x2C 0x03 with ctx := .handler, intPrev := true, latch := true, lastHit := 2 }

theorem quick_prompt (n : Nat) : Prompt n (quick n) := ⟨[], (List.append_nil _).symm⟩

theorem base_still : Still base := by
  unfold Still
  decide +kernel

theorem base_alone : Alone base := by
  unfold Alone Still
  decide +kernel

theorem base_sampled : Sampled base := by
  unfold Sampled
  decide +kernel

theorem base_ready : Ready base := by
  unfold Ready Sampled
  decide +kernel

theorem base_valid : base.cfg.valid = true := by decide +kernel

theorem base_bits : StatusBits base.cfg := by
  unfold StatusBits
  decide +kernel

theorem base_fits : AddressFits base.cfg := by
  unfold AddressFits
  decide +kernel

theorem base_eeprom : EepromReady base := by
  unfold EepromReady StatusBits AddressFits
  decide +kernel

theorem base_standard : base.cfg.dev = .standard := by decide +kernel

theorem base_memory : base.ee.wf = true := by decide +kernel

theorem base_normal : base.inMode .normal = true := by decide +kernel

theorem base_slots : base.cfg.numSignals = 4 := by decide +kernel

theorem witness_DecodeEncode :
    (Instr.epWrite 0xFFFFFFFF (List.replicate 255 0)).wellFormed = true ∧
      (Instr.sigFrameHigh 3 ⟨.ext 0x1FFFFFFF, true, List.replicate 8 0⟩).wellFormed = true := by decide +kernel

theorem witness_UnlistedOpIsRejected :
    (∀ op ∈ ([0x00, 0x07, 0x0C, 0x0F, 0x12, 0x1F, 0x27, 0x2F, 0x34, 0x3F, 0x43, 0x4F, 0x52, 0xFF] : List Byte),
      op = 0x00 ∨ op = 0x07 ∨ (0x0C ≤ op ∧ op ≤ 0x0F) ∨ (0x12 ≤ op ∧ op ≤ 0x1F) ∨ (0x27 ≤ op ∧ op ≤ 0x2F) ∨
        (0x34 ≤ op ∧ op ≤ 0x3F) ∨ (0x43 ≤ op ∧ op ≤ 0x4F) ∨ 0x52 ≤ op) ∧
      base.cfg.valid = true ∧ base.phase = .run ∧ base.ctx = .foreground ∧ entryEnabled base = false ∧
      ({ base with script := [[0x07]] } : State).script = (0x07 :: []) :: [] ∧
      Sampled { base with script := [[0x07]] } ∧ Still { base with script := [[0x07]] } := by
  unfold Still Sampled
  decide +kernel

theorem witness_WrongLengthIsRejected :
    (Instr.spReset.wellFormed = true ∧ Instr.spReset.source = .port ∧ ([0] : List Byte) ≠ []) ∧
      ((Instr.spRead 0).wellFormed = true ∧ (Instr.spRead 0).source = .port ∧ 0 < 1 ∧ 1 < (encode (.spRead 0)).length) ∧
      decode .port [0x02] = .error .badCommandLength ∧ base.cfg.valid = true ∧ base.phase = .run ∧
      base.ctx = .foreground ∧ entryEnabled base = false ∧
      ({ base with script := [[0x02]] } : State).script = [0x02] :: [] ∧ Sampled { base with script := [[0x02]] } ∧
      Still { base with script := [[0x02]] } := by
  unfold Still Sampled
  decide +kernel

theorem witness_ClassFollowsClassWord :
    CanFrame.ok ⟨.std 0, false, []⟩ = true ∧ CanFrame.ok ⟨.ext 0, true, List.replicate 8 0⟩ = true := by decide +kernel

theorem witness_ExtractTakesTheFieldBits :
    (1 ≤ 1 ∧ 0 + 1 ≤ 8 * ([0x80] : List Byte).length ∧ 0 ≤ 0 ∧ 0 < 0 + 1) ∧
      (1 ≤ 17 ∧ 15 + 17 ≤ 8 * ([1, 2, 3, 4] : List Byte).length ∧ 15 ≤ 31 ∧ 31 < 15 + 17) := by decide +kernel

theorem witness_ExtractUndoesInsert :
    1 ≤ 1 ∧ 0 + 1 ≤ 8 * ([0] : List Byte).length ∧ 1 ≤ 17 ∧ 15 + 17 ≤ 8 * ([1, 2, 3, 4] : List Byte).length ∧
      (14 < 15 ∨ 15 + 17 ≤ 14) ∧ (32 < 15 ∨ 15 + 17 ≤ 32) := by decide +kernel

theorem witness_NarrowKeepsTheValue :
    (1 ≤ 1 ∧ 1 ≤ 32 ∧ 1 < 2 ^ 1) ∧ (1 ≤ 32 ∧ 32 ≤ 32 ∧ 2 ^ 32 - 1 < 2 ^ 32) := by decide +kernel

theorem witness_SigPluck : Sampled base := by
  unfold Sampled
  decide +kernel

theorem witness_RecordsReadBack : ([1, 2, 3, 4, 5, 6] : List Byte).length = 6 := by decide +kernel

theorem witness_SpReset : base.cfg.dev = .standard ∧ Alone base ∧ Ready base := by
  unfold Alone Still Ready Sampled
  decide +kernel

theorem witness_PortReads :
    (0x7F : Byte).toNat < 0x80 ∧ ((1 : Byte) ≠ 0 ∧ (0x7F : Byte).toNat + (1 : Byte).toNat ≤ 0x80) ∧ StatusBits base.cfg ∧
      base.wip = false ∧ AddressFits base.cfg ∧ (0x7FF : U32).toNat + (1 : Byte).toNat ≤ base.cfg.eeSize ∧ Alone base ∧
      Ready base := by
  unfold Alone Still Ready Sampled StatusBits AddressFits
  decide +kernel

/-- Both ends of the register space, and a register of each clause: locked and open configuration registers, CANSTAT, TXB0CTRL,
CANINTF. -/
theorem witness_SpWriteAndBitmod :
    base.cfg.dev = .standard ∧ Alone base ∧ Ready base ∧ (0x00 : Byte).toNat < 0x80 ∧ (0x7F : Byte).toNat < 0x80 ∧
      base.cfg.dev.map.isConfig 0x00 = true ∧ base.inMode .config = false ∧ (0x0E : Byte).toNat = 0x0E ∧
      (0x30 : Byte).toNat = 0x30 ∧ (0x2C : Byte).toNat = 0x2C ∧ configured.cfg.dev = .standard ∧ Alone configured ∧
      Ready configured ∧ configured.cfg.dev.map.isConfig 0x00 = true ∧ configured.inMode .config = true := by
  unfold Alone Still Ready Sampled
  decide +kernel

/-- A block at the end of the register space, one over CANSTAT and CANCTRL, one over the registers 0x2A to 0x30, in and out of
Config mode. -/
theorem witness_SpWriteblk :
    base.cfg.dev = .standard ∧ Alone base ∧ Ready base ∧ ([0] : List Byte) ≠ [] ∧
      (0x7F : Byte).toNat + ([0] : List Byte).length ≤ 0x80 ∧ (0x0E : Byte).toNat + ([0xFF, 0xFF] : List Byte).length ≤ 0x80 ∧
      (0x2A : Byte).toNat + (List.replicate 7 (0xFF : Byte)).length ≤ 0x80 ∧ base.inMode .config = false ∧
      configured.cfg.dev = .standard ∧ Alone configured ∧ Ready configured ∧ configured.inMode .config = true := by
  unfold Alone Still Ready Sampled
  decide +kernel

/-- One failing operand for each check of R153, at the first value past its range. -/
theorem witness_PortChecks :
    Sampled base ∧ portCheck base.cfg (.spRead 0x80) = some .badAddress ∧
      portCheck base.cfg (.spWrite 0x80 0) = some .badAddress ∧ portCheck base.cfg (.spBitmod 0x80 0 0) = some .badAddress ∧
      portCheck base.cfg (.spReadblk 0 0) = some .badLength ∧ portCheck base.cfg (.spReadblk 0x7F 2) = some .badAddress ∧
      portCheck base.cfg (.spWriteblk 0 []) = some .badLength ∧
      portCheck base.cfg (.spWriteblk 0x7F [0, 0]) = some .badAddress ∧
      portCheck base.cfg (.epRead 0 0) = some .badLength ∧ portCheck base.cfg (.epRead 0x7FF 2) = some .badAddress ∧
      portCheck base.cfg (.epWrite 0 (List.replicate 17 0)) = some .badLength ∧
      portCheck base.cfg (.epWrite 0x0F [0, 0]) = some .badAddress ∧
      portCheck base.cfg (.epWrite 0x800 [0]) = some .badAddress ∧
      portCheck base.cfg (.eeWrite 0x801 []) = some .badAddress ∧ portCheck base.cfg (.eeRead 0x801 0) = some .badAddress ∧
      portCheck base.cfg (.canSetmode 5) = some .badIndex ∧ portCheck base.cfg (.canSetmask 2 (.std 0)) = some .badIndex ∧
      portCheck base.cfg (.canSetfilter 6 (.std 0)) = some .badIndex ∧
      portCheck base.cfg (.canReceive 2) = some .badIndex ∧
      portCheck base.cfg (.canTransmit ⟨.std 0, 2, []⟩) = some .badValue ∧
      portCheck base.cfg (.canTransmit ⟨.std 0, 0, List.replicate 9 0⟩) = some .badLength ∧
      portCheck base.cfg (.sigPluck fmt0 ⟨.std 0, 2, []⟩) = some .badValue ∧
      portCheck base.cfg (.sigLoad 4) = some .badIndex ∧ portCheck base.cfg (.sigStore 4 fmt0) = some .badIndex ∧
      portCheck base.cfg (.sigGet 4) = some .badIndex ∧ portCheck base.cfg (.rowWrite 4 0 0 0) = some .badIndex ∧
      portCheck base.cfg (.rowWrite 0 32 0 0) = some .badIndex ∧ portCheck base.cfg (.rowRead 0 32) = some .badIndex ∧
      portCheck base.cfg (.tabLookup 4 6 0) = some .badValue ∧ portCheck base.cfg (.tabLookup 4 0 0) = some .badIndex ∧
      portCheck base.cfg (.critExit 2) = some .badValue := by
  unfold Sampled
  decide +kernel

theorem witness_EpWren : Alone base ∧ Ready base ∧ base.wip = false := by
  unfold Alone Still Ready Sampled
  decide +kernel

theorem witness_EpWrite :
    Alone base ∧ Ready base ∧ base.wip = false ∧ base.ee.wf = true ∧ AddressFits base.cfg ∧
      portCheck base.cfg (.epWrite 0x7F0 (List.replicate 16 1)) = none ∧ portCheck base.cfg (.epWrite 0x7FF [1]) = none ∧
      base.wel = false ∧ ({ base with wel := true } : State).wel = true ∧ Alone { base with wel := true } ∧
      Ready { base with wel := true } := by
  unfold Alone Still Ready Sampled AddressFits
  decide +kernel

theorem witness_ProtocolViolation :
    Alone busy ∧ Ready busy ∧ busy.wip = true ∧ portCheck busy.cfg .epWren = none ∧
      portCheck busy.cfg (.epRead 0x7FF 1) = none ∧ portCheck busy.cfg (.epWrite 0x7FF [1]) = none := by
  unfold Alone Still Ready Sampled
  decide +kernel

theorem witness_ChunksSplitAtPages :
    (15, 1) ∈ chunks 15 2 ∧ 0 < 2 ∧ (chunks 15 2)[0]? = some (15, 1) ∧ (chunks 15 2)[0 + 1]? = some (16, 1) := by decide +kernel

theorem witness_BusyBailout :
    Alone busy ∧ Ready busy ∧ busy.wip = true ∧ StatusBits busy.cfg ∧ busy.cfg.valid = true ∧
      portCheck busy.cfg (.eeWrite 0x7FF [1]) = none ∧ portCheck busy.cfg (.eeRead 0x7FF 1) = none ∧
      portCheck busy.cfg (.sigLoad 3) = none ∧ portCheck busy.cfg (.sigStore 3 fmt0) = none ∧
      portCheck busy.cfg (.rowWrite 3 31 0 0) = none ∧ portCheck busy.cfg (.rowRead 3 31) = none ∧
      portCheck busy.cfg (.tabLookup 3 5 0) = none := by
  unfold Alone Still Ready Sampled StatusBits
  decide +kernel

theorem witness_WelNotSet :
    Alone { base with eeProtect := true } ∧ Ready { base with eeProtect := true } ∧ base.wip = false ∧
      ({ base with eeProtect := true } : State).eeProtect = true ∧ StatusBits base.cfg ∧ base.cfg.valid = true ∧
      portCheck base.cfg (.eeWrite 0x7FF [1]) = none ∧ portCheck base.cfg (.sigStore 3 fmt0) = none ∧
      portCheck base.cfg (.rowWrite 3 31 0 0) = none := by
  unfold Alone Still Ready Sampled StatusBits
  decide +kernel

theorem witness_EeRead :
    base.gie = false ∧ Ready base ∧ EepromReady base ∧ (0x701 : U32).toNat + (255 : Byte).toNat ≤ base.cfg.eeSize ∧
      (0x800 : U32).toNat + (0 : Byte).toNat ≤ base.cfg.eeSize ∧ Still base := by
  unfold Ready Sampled EepromReady StatusBits AddressFits Still
  decide +kernel

theorem witness_PagingTransparency :
    (quick 8).gie = false ∧ (quick 8).ee.wf = true ∧ StatusBits (quick 8).cfg ∧ AddressFits (quick 8).cfg ∧
      ∃ t, exec (.eeWrite 0x0F [0xAA, 0x55]) (quick 8) = .next t ∧ t.lastResult = some [0x00, 0x00] :=
  ⟨by decide +kernel,
    by decide +kernel,
    by unfold StatusBits; decide +kernel,
    by unfold AddressFits; decide +kernel,
    _, rfl, by decide +kernel⟩

theorem witness_EeWrite :
    (quick 8).gie = false ∧ Ready (quick 8) ∧ EepromReady (quick 8) ∧ (quick 8).ee.wf = true ∧
      (quick 8).eeProtect = false ∧ (0x7EF : U32).toNat + ([0xAA, 0x55] : List Byte).length ≤ (quick 8).cfg.eeSize ∧
      Prompt (4 * (chunks (0x7EF : U32).toNat ([0xAA, 0x55] : List Byte).length).length) (quick 8) :=
  ⟨by decide +kernel,
    by unfold Ready Sampled; decide +kernel,
    by unfold EepromReady StatusBits AddressFits; decide +kernel,
    by decide +kernel,
    by decide +kernel,
    by decide,
    quick_prompt 8⟩

theorem witness_CanSetmode :
    base.cfg.dev = .standard ∧ base.gie = false ∧ Ready base ∧
      [Mode.config, .normal, .sleep, .listenOnly, .loopback][(0 : Byte).toNat]? = some .config ∧
      [Mode.config, .normal, .sleep, .listenOnly, .loopback][(4 : Byte).toNat]? = some .loopback ∧
      ({ base with modeFair := true } : State).sched = [] ∧ ({ base with modeFair := true } : State).modeFair = true ∧
      Ready { base with modeFair := true } ∧ Still configured ∧ Ready configured ∧ configured.inMode .config = true ∧
      Still base ∧ base.inMode .config = false := by
  unfold Ready Sampled Still
  decide +kernel

theorem witness_CanSetbt : base.cfg.dev = .standard ∧ Alone base ∧ Ready base ∧ Alone configured ∧ Ready configured := by
  unfold Alone Still Ready Sampled
  decide +kernel

theorem witness_CanSetmaskAndSetfilter :
    base.cfg.dev = .standard ∧ Alone base ∧ Ready base ∧ [0x20, 0x24][(1 : Byte).toNat]? = some 0x24 ∧
      [0x00, 0x04, 0x08, 0x10, 0x14, 0x18][(5 : Byte).toNat]? = some 0x18 := by
  unfold Alone Still Ready Sampled
  decide +kernel

theorem witness_CanReceive :
    base.cfg.dev = .standard ∧ base.gie = false ∧ (1 : Byte).toNat ≤ 1 ∧ Still base ∧ Ready base ∧
      (base.setReg 0x2C 0x02).rxFlag (1 : Byte).toNat = true := by
  unfold Ready Sampled Still
  decide +kernel

theorem witness_AcceptedFrameIsReceived :
    base.cfg.dev = .standard ∧ base.gie = false ∧
      ({ base with busIn := [⟨.std 0x123, false, 12, List.replicate 8 0x32⟩] } : State).busIn =
        (⟨.std 0x123, false, 12, List.replicate 8 0x32⟩ : BusFrame) :: [] ∧
      base.inMode .normal = true ∧ base.acceptHit (.std 0x123) = some 2 ∧
      (List.replicate 8 (0x32 : Byte)).length = min (12 : BitVec 4).toNat 8 ∧ (1 : Byte).toNat = bufferOf 2 ∧
      base.rxFlag (1 : Byte).toNat = false ∧ (base.setReg 0x2C 0x02).rxFlag (1 : Byte).toNat = true ∧
      (base.setReg 0x2C 0x02).acceptHit (.std 0x123) = some 2 ∧ (base.setReg 0x2C 0x02).inMode .normal = true ∧
      (base.setReg 0x0E 0x60).inMode .listenOnly = true := by decide +kernel

theorem base_programmed : Programmed base := by
  unfold Programmed
  decide +kernel

/-- An accepted instance with an extended mask and an extended Table-Control identifier, its filters programmed. -/
def extended : State :=
  let s := { base with cfg := { base.cfg with ctrlMask := .ext 0x18000000, tableCtrlId := .ext 0x08000000 } }
  (s.setRegs 0x20 (packId 3 (.ext 0x18000000))).setRegs 0x00 (packId 3 (.ext 0x08000000))

/-- Each filter takes some identifier, for a standard and an extended control mask. -/
theorem witness_BootFiltersClassify :
    Programmed base ∧ Programmed extended ∧ extended.cfg.valid = true ∧
      filterTakes base.cfg.ctrlMask base.cfg.tableCtrlId (.std 0x245) = true ∧
      filterTakes base.cfg.ctrlMask base.cfg.sigCtrlId (.std 0x403) = true ∧
      filterTakes extended.cfg.ctrlMask extended.cfg.tableCtrlId (.ext 0x08000245) = true ∧
      filterTakes extended.cfg.ctrlMask extended.cfg.tableCtrlId (.ext 0x10000245) = false ∧
      filterTakes extended.cfg.ctrlMask extended.cfg.sigCtrlId (.std 0x403) = true := by
  unfold Programmed
  decide +kernel

theorem witness_CanTransmit :
    base.cfg.dev = .standard ∧ base.gie = false ∧ Ready base ∧ frameCheck ⟨.std 0x245, 1, List.replicate 8 0⟩ = none ∧
      base.txreq = false ∧ base.modeFair = false ∧ 1 ≤ base.cfg.txRetries ∧ base.sched = [] ∧ base.inMode .normal = true ∧
      ({ base with sched := [[], [.txOk]] } : State).sched = [[], [.txOk]] ∧
      ({ base with sched := [[], [.txErr]] } : State).sched = [[], [.txErr]] := by
  unfold Ready Sampled
  decide +kernel

theorem witness_SigLoad : base.gie = false ∧ Ready base ∧ EepromReady base ∧ (3 : Byte).toNat < base.cfg.numSignals ∧
    Still base := by
  unfold Ready Sampled EepromReady StatusBits AddressFits Still
  decide +kernel

theorem witness_SigStore :
    (quick 9).gie = false ∧ Ready (quick 9) ∧ StatusBits (quick 9).cfg ∧ AddressFits (quick 9).cfg ∧
      (quick 9).cfg.valid = true ∧ (quick 9).ee.wf = true ∧ (3 : Byte).toNat < (quick 9).cfg.numSignals ∧
      (quick 9).wip = false ∧ (quick 9).eeProtect = false ∧ Prompt 9 (quick 9) ∧ busy.wip = true :=
  ⟨by decide +kernel,
    by unfold Ready Sampled; decide +kernel,
    by unfold StatusBits; decide +kernel,
    by unfold AddressFits; decide +kernel,
    by decide +kernel,
    by decide +kernel,
    by decide +kernel,
    by decide +kernel,
    by decide +kernel,
    quick_prompt 9,
    rfl⟩

theorem witness_SigGet :
    base.gie = false ∧ (3 : Byte).toNat < base.cfg.numSignals ∧ base.mirrorAt (3 : Byte).toNat = some fmt0 ∧ Still base ∧
      Sampled base ∧ ({ base with mirror := Vector.replicate 16 none } : State).mirrorAt (3 : Byte).toNat = none := by
  unfold Still Sampled
  decide +kernel

theorem witness_RowWrite :
    (quick 8).gie = false ∧ Ready (quick 8) ∧ EepromReady (quick 8) ∧ (quick 8).ee.wf = true ∧
      (quick 8).eeProtect = false ∧ (3 : Byte).toNat < (quick 8).cfg.numSignals ∧ (31 : Byte).toNat < 32 ∧
      Prompt 8 (quick 8) :=
  ⟨by decide +kernel,
    by unfold Ready Sampled; decide +kernel,
    by unfold EepromReady StatusBits AddressFits; decide +kernel,
    by decide +kernel,
    by decide +kernel,
    by decide +kernel,
    by decide,
    quick_prompt 8⟩

theorem witness_RowRead :
    base.gie = false ∧ Ready base ∧ EepromReady base ∧ (3 : Byte).toNat < base.cfg.numSignals ∧ (31 : Byte).toNat < 32 ∧
      Still base := by
  unfold Ready Sampled EepromReady StatusBits AddressFits Still
  decide +kernel

theorem witness_TabLookup :
    base.gie = false ∧ Ready base ∧ EepromReady base ∧ (3 : Byte).toNat < base.cfg.numSignals ∧
      numberOperand 5 0xFFFFFFFF = .ok (.i32 0xFFFFFFFF) ∧ Still base := by
  unfold Ready Sampled EepromReady StatusBits AddressFits Still
  decide +kernel

theorem witness_InterpolationStaysBetween : (0 : Int) < 1 ∧ (1 : Int) < 2 := by decide +kernel

/-- The keys and values of table 0 are all 0: both lookups clamp high. -/
theorem witness_LookupIsMonotone :
    base.gie = false ∧ Ready base ∧ EepromReady base ∧ (0 : Byte).toNat < base.cfg.numSignals ∧
      numberOperand 0 1 = .ok (.u8 1) ∧ numberOperand 1 0x100 = .ok (.u16 0x100) ∧
      Machine.Number.isUnsigned (.u8 1) = Machine.Number.isUnsigned (.u16 0x100) ∧ keyVal (.u8 1) < keyVal (.u16 0x100) ∧
      (∀ i, i + 1 < 32 → rowVal (base.rowOf (0 : Byte).toNat i).1 (.u8 1) ≤ rowVal (base.rowOf (0 : Byte).toNat (i + 1)).1 (.u8 1) ∧
        (base.rowOf (0 : Byte).toNat i).2.toNat ≤ (base.rowOf (0 : Byte).toNat (i + 1)).2.toNat) ∧
      (∃ u, exec (.tabLookup 0 0 1) base = .next u ∧ u.lastResult = some ([0x00, 0x00] ++ beBytes16 0)) ∧
      ∃ u, exec (.tabLookup 0 1 0x100) base = .next u ∧ u.lastResult = some ([0x00, 0x00] ++ beBytes16 0) := by
  have h : ∀ i, base.rowOf (0 : Byte).toNat i = (0, 0) := fun i => by
    simp [State.rowOf, State.eeBytes, base, s0, State.setRegs, State.reset, Memory.read, Memory.unlisted, rowBytes,
      List.range_succ, deserRow, be32, be16]
  exact ⟨rfl, base_ready, base_eeprom, by decide, rfl, rfl, rfl, by decide, fun i _ => by rw [h, h]; decide,
    ⟨_, rfl, by decide +kernel⟩, _, rfl, by decide +kernel⟩

theorem witness_CriticalSection :
    Sampled base ∧ ((1 : Byte) = 0 ∨ (1 : Byte) = 1) ∧ (2 : Byte) ≠ 0 ∧ (2 : Byte) ≠ 1 := by
  unfold Sampled
  decide +kernel

/-- The frames of the class statements: identifiers that select table 3, row 31, or slot 3. -/
def tableRequest : CanFrame := ⟨.std 0x27F, true, [0, 0, 0, 0, 0, 0]⟩

def tableWrite : CanFrame := ⟨.std 0x27F, false, [0, 0, 1, 0xF4, 3, 0xE8]⟩

def slotRequest : CanFrame := ⟨.std 0x403, true, [0, 0, 0, 0, 0, 0, 0]⟩

def slotWrite : CanFrame := ⟨.std 0x403, false, [0, 0, 1, 0x23, 0, 8, 0]⟩

theorem witness_TblRd :
    base.cfg.dev = .standard ∧ Ready base ∧ EepromReady base ∧ base.txreq = false ∧ base.modeFair = false ∧
      malformed base.cfg (.tblRd tableRequest) = false ∧ base.sched = [] ∧ base.inMode .normal = true ∧
      ({ base with sched := [[], [], [], [.txOk]] } : State).sched = [[], [], [], [.txOk]] := by
  unfold Ready Sampled EepromReady StatusBits AddressFits
  decide +kernel

theorem witness_TblWr :
    Ready (quick 8) ∧ EepromReady (quick 8) ∧ (quick 8).ee.wf = true ∧ (quick 8).eeProtect = false ∧
      Prompt 8 (quick 8) ∧ malformed (quick 8).cfg (.tblWr tableWrite) = false :=
  ⟨by unfold Ready Sampled; decide +kernel,
    by unfold EepromReady StatusBits AddressFits; decide +kernel,
    by decide +kernel,
    by decide +kernel,
    quick_prompt 8,
    by decide +kernel⟩

theorem witness_SigRd :
    base.cfg.dev = .standard ∧ Ready base ∧ base.txreq = false ∧ base.modeFair = false ∧ 1 ≤ base.cfg.txRetries ∧
      malformed base.cfg (.sigRd slotRequest) = false ∧ base.mirrorAt (ctrlSlot slotRequest.id) = some fmt0 ∧
      base.sched = [] ∧ base.inMode .normal = true ∧
      ({ base with sched := [[], [.txOk]] } : State).sched = [[], [.txOk]] := by
  unfold Ready Sampled
  decide +kernel

theorem witness_SigWr :
    Ready (quick 9) ∧ EepromReady (quick 9) ∧ (quick 9).ee.wf = true ∧ (quick 9).eeProtect = false ∧
      Prompt 9 (quick 9) ∧ malformed (quick 9).cfg (.sigWr slotWrite) = false :=
  ⟨by unfold Ready Sampled; decide +kernel,
    by unfold EepromReady StatusBits AddressFits; decide +kernel,
    by decide +kernel,
    by decide +kernel,
    quick_prompt 9,
    by decide +kernel⟩

theorem base_loaded : LoadedTo base base.cfg.numSignals := by
  unfold LoadedTo
  decide +kernel

/-- A slot that drives (slot 3), and slots that fail (slots 0 to 2: their empty format's size is 0, on identifier 0). -/
theorem witness_SigFrame :
    Still base ∧ Ready base ∧ EepromReady base ∧ LoadedTo base base.cfg.numSignals ∧
      (base.setMirror 3 ⟨.std 0, 0, 8, 0⟩).mirrorAt 3 = some ⟨.std 0, 0, 8, 0⟩ ∧
      pluck ⟨.std 0, 0, 8, 0⟩ ⟨.std 0, false, [0x32]⟩ = .ok (.u8 0x32) ∧
      State.drives (base.setMirror 3 ⟨.std 0, 0, 8, 0⟩) ⟨.std 0, false, [0x32]⟩ 3 = true ∧
      State.failsOn (base.setMirror 3 ⟨.std 0, 0, 8, 0⟩) ⟨.std 0, false, [0x32]⟩ 2 = true ∧
      ¬ (4 < base.cfg.numSignals ∧ State.drives base ⟨.std 0, false, [0x32]⟩ 4 = true) := by
  unfold Ready Sampled EepromReady StatusBits AddressFits Still LoadedTo
  decide +kernel

theorem witness_MalformedControlFrames :
    malformed base.cfg (.tblRd ⟨.std 0x245, true, [0, 0, 0, 0, 0]⟩) = true ∧
      malformed base.cfg (.tblRd ⟨.std 0x280, true, [0, 0, 0, 0, 0, 0]⟩) = true ∧
      malformed base.cfg (.tblWr ⟨.std 0x245, false, [0, 0, 1, 0xF4]⟩) = true ∧
      malformed base.cfg (.sigRd ⟨.std 0x404, true, [0, 0, 0, 0, 0, 0, 0]⟩) = true ∧
      malformed base.cfg (.sigWr ⟨.std 0x404, false, [0, 0, 0, 0, 0, 0, 0]⟩) = true := by decide +kernel

theorem witness_FrameArrivalLatches :
    base.cfg.dev = .standard ∧ Sampled base ∧ base.reg 0x2B = 0x03 ∧
      ({ base with busIn := [⟨.std 0x123, false, 0, []⟩] } : State).busIn = (⟨.std 0x123, false, 0, []⟩ : BusFrame) :: [] ∧
      base.inMode .normal = true ∧ base.acceptHit (.std 0x123) = some 2 ∧ base.rxFlag (bufferOf 2) = false ∧
      base.rxFlag 0 = false ∧ base.rxFlag 1 = false ∧
      Sampled { base.setReg 0x2C 0x01 with intPrev := true } ∧ (base.setReg 0x2C 0x01).rxFlag 0 = true ∧
      (base.setReg 0x2C 0x01).rxFlag (bufferOf 2) = false := by
  unfold Sampled
  decide +kernel

theorem witness_HandlerEntry :
    s0.cfg.valid = true ∧ s0.phase = .run ∧ s0.ctx = .foreground ∧ ({ s0 with latch := true } : State).latch = true ∧
      s0.gie = true ∧ Ready { s0 with latch := true } ∧ Still { s0 with latch := true } ∧ s0.cmdBusy = false := by
  unfold Ready Sampled Still
  decide +kernel

theorem bothFull_ready : Ready bothFull := by
  unfold Ready Sampled
  decide +kernel

theorem witness_HandlerClearsAndReturns :
    bothFull.cfg.valid = true ∧ bothFull.cfg.dev = .standard ∧ bothFull.phase = .run ∧ bothFull.ctx = .handler ∧
      Ready bothFull ∧ Still bothFull := by
  unfold Ready Sampled Still
  decide +kernel

theorem witness_StrandedInterrupt :
    bothFull.cfg.valid = true ∧ bothFull.cfg.dev = .standard ∧ bothFull.phase = .run ∧ bothFull.ctx = .handler ∧
      bothFull.cmdBusy = false ∧ Ready bothFull ∧ Still bothFull ∧ bothFull.reg 0x2B = 0x03 ∧ bothFull.rxFlag 0 = true ∧
      bothFull.rxFlag 1 = true := by
  unfold Ready Sampled Still
  decide +kernel

theorem witness_StepRunsTheCommand :
    base.cfg.valid = true ∧ base.phase = .run ∧ base.ctx = .foreground ∧ entryEnabled base = false ∧
      ({ base with script := [[0x26]] } : State).script = [0x26] :: [] ∧ decode .port [0x26] = .ok .canRxstatus := by decide +kernel

theorem witness_StepRunsTheFrame :
    bothFull.cfg.valid = true ∧ bothFull.cfg.dev = .standard ∧ bothFull.phase = .run ∧ bothFull.ctx = .handler ∧
      Still bothFull := by
  unfold Still
  decide +kernel

/-- A boot position in the given state. -/
def booting (p : BootPos) : State := { configured with phase := .boot, boot := p }

theorem configured_sampled : Sampled configured := by
  unfold Sampled
  decide +kernel

/-- A boot position with the mode Normal requested by no one yet and a fair environment. -/
def bootingFair (p : BootPos) : State := { booting p with modeFair := true }

theorem witness_BootSetsModesAndLoads :
    (booting .reset).cfg.valid = true ∧ (booting .reset).cfg.dev = .standard ∧ (booting .reset).phase = .boot ∧
      (booting .reset).csCan = false ∧ (booting .reset).csEe = false ∧ (booting .reset).sched = [] ∧
      (booting .reset).boot = .reset ∧ (bootingFair .setNormal).cfg.valid = true ∧ (bootingFair .setNormal).boot = .setNormal ∧
      Sampled (bootingFair .setNormal) ∧ (bootingFair .setNormal).sched = [] ∧ (bootingFair .setNormal).modeFair = true ∧
      Still (booting .setNormal) ∧ (booting .setNormal).inMode .normal = false ∧ Sampled (booting (.load 3)) ∧
      Still (booting (.load 3)) ∧ EepromReady (booting (.load 3)) ∧ 3 < (booting (.load 3)).cfg.numSignals ∧
      (booting (.load 4)).boot = .load 4 ∧ (booting (.load 4)).cfg.numSignals ≤ 4 := by
  unfold Sampled Still EepromReady StatusBits AddressFits
  decide +kernel

/-- A failing boot that never ends (R150, R163): a write cycle that does not end, in a fair environment. -/
theorem test_bootHang : State.bootHang { bootingFair .reset with wip := true } :=
  boot_hangs_while_busy ⟨⟨rfl, rfl⟩, by decide +kernel, by decide +kernel, by unfold StatusBits; decide +kernel, rfl,
    .inr ⟨rfl, by decide⟩⟩

theorem witness_BootProgramsTheController :
    (booting .bitTiming).cfg.valid = true ∧ (booting .bitTiming).cfg.dev = .standard ∧ (booting .bitTiming).phase = .boot ∧
      (booting .bitTiming).boot = .bitTiming ∧ Ready (booting .bitTiming) ∧ Still (booting .bitTiming) ∧
      (booting .bitTiming).inMode .config = true := by
  unfold Ready Sampled Still
  decide +kernel

theorem witness_BootEntersRun :
    ((booting .clearLatch).setReg 0x2B 0).cfg.valid = true ∧ ((booting .clearLatch).setReg 0x2B 0).cfg.dev = .standard ∧
      ((booting .clearLatch).setReg 0x2B 0).phase = .boot ∧ ((booting .clearLatch).setReg 0x2B 0).boot = .clearLatch ∧
      Ready ((booting .clearLatch).setReg 0x2B 0) ∧ Still ((booting .clearLatch).setReg 0x2B 0) ∧
      ((booting .clearLatch).setReg 0x2B 0).reg 0x2B = 0 := by
  unfold Ready Sampled Still
  decide +kernel

theorem witness_BootFailureResets :
    ({ booting (.load 3) with wip := true } : State).cfg.valid = true ∧ StatusBits base.cfg ∧
      (booting (.load 3)).phase = .boot ∧ (booting (.load 3)).boot = .load 3 ∧ 3 < base.cfg.numSignals ∧
      ({ booting (.load 3) with wip := true } : State).wip = true ∧ Ready { booting (.load 3) with wip := true } ∧
      Still { booting (.load 3) with wip := true } := by
  unfold Ready Sampled Still StatusBits
  decide +kernel

/-- An idle gap of the foreground is a step. -/
theorem idle_step {s : State} (h1 : s.cfg.valid = true) (h2 : s.phase = .run) (h3 : s.ctx = .foreground)
    (h4 : entryEnabled s = false) (h5 : s.script = []) : step s = .next (envGap s) := by
  simp [step, foregroundStep, h1, h2, h3, h4, h5]

theorem s0_inv : Inv s0 where
  instance_ok := by decide +kernel
  memory_wf := by decide +kernel
  memory_in := by decide +kernel
  no_cs := by decide +kernel
  sampled := by unfold Sampled; decide +kernel
  idle := by decide +kernel
  handler_run := by decide +kernel
  gie_run := by decide +kernel
  boot_loaded := fun h => absurd h (by decide +kernel)
  run_loaded := fun _ => by unfold LoadedTo; decide +kernel

/-- S0, with a frame at the head of the bus that arrives in the next gap. -/
def arriving : State := { s0 with busIn := [⟨.std 0x123, false, 0, []⟩], sched := [[.receive]] }

theorem arriving_inv : Inv arriving where
  instance_ok := by decide +kernel
  memory_wf := by decide +kernel
  memory_in := by decide +kernel
  no_cs := by decide +kernel
  sampled := by unfold Sampled; decide +kernel
  idle := by decide +kernel
  handler_run := by decide +kernel
  gie_run := by decide +kernel
  boot_loaded := fun h => absurd h (by decide +kernel)
  run_loaded := fun _ => by unfold LoadedTo; decide +kernel

theorem witness_BusConflict :
    Inv arriving ∧ arriving.cfg.dev = .standard ∧ arriving.phase = .run ∧ arriving.ctx = .foreground ∧
      entryEnabled arriving = false ∧ arriving.gie = true ∧ arriving.reg 0x2B = 0x03 ∧ arriving.rxFlag 0 = false ∧
      arriving.rxFlag 1 = false ∧ arriving.busIn = (⟨.std 0x123, false, 0, []⟩ : BusFrame) :: [] ∧
      arriving.inMode .normal = true ∧ arriving.acceptHit (.std 0x123) = some 2 ∧ arriving.sched = [.receive] :: [] ∧
      StatusBits arriving.cfg ∧ portCheck arriving.cfg (.spRead 0x7F) = none ∧ portCheck arriving.cfg (.canReceive 1) = none ∧
      portCheck arriving.cfg (.canTransmit ⟨.std 0, 1, List.replicate 8 0⟩) = none ∧
      portCheck arriving.cfg (.eeRead 0x7FF 1) = none ∧ portCheck arriving.cfg (.rowRead 3 31) = none :=
  ⟨arriving_inv, by unfold StatusBits; decide +kernel⟩

/-- The invariant holds of S0, and S0 steps. -/
theorem witness_StepKeepsInv : Inv s0 ∧ step s0 = .next (envGap s0) :=
  ⟨s0_inv, idle_step (by decide +kernel) (by decide +kernel) (by decide +kernel) (by decide +kernel) (by decide +kernel)⟩

/-- S0 with every fault recorded. -/
def faulted : State := { s0 with faults := ⟨true, true, true⟩ }

theorem witness_FaultsAreKept :
    step faulted = .next (envGap faulted) ∧ faulted.faults.unloadedMirror = true ∧ faulted.faults.busConflict = true ∧
      faulted.faults.protocolViolation = true :=
  ⟨idle_step (by decide +kernel) (by decide +kernel) (by decide +kernel) (by decide +kernel) (by decide +kernel), rfl, rfl,
    rfl⟩

end Sys2Proof.Tests
end

section
/-! The invariant of the machine is kept by every step (R23, R25, R28, R29, R143 to R145, R158, R163, R172). What an operation
leaves alone is `Keeps` of the laws on growth; here stand the updates that `Keeps` does not cover, those of the sequencer (phase,
boot position, context, command), one lemma for each, and one lemma for each step function. -/

namespace Sys2Proof.Machine

/-! ### The invariant over one update -/

/-- A keeping operation moves no part of the sequencer, so it loads no fewer slots than the invariant asks for. -/
theorem Inv.keeps {s t : State} (h : Inv s) (k : Keeps s t) : Inv t where
  instance_ok := k.cfg ▸ h.instance_ok
  memory_wf := k.wf h.memory_wf
  memory_in := k.inside h.memory_in
  no_cs := ⟨k.csCan h.no_cs.1, k.csEe h.no_cs.2⟩
  sampled := k.sampled h.sampled
  idle := ⟨k.cmdBusy.trans h.idle.1, k.cmdIssued h.idle.1 h.idle.2⟩
  handler_run hc := k.phase.trans (h.handler_run (k.ctx.symm.trans hc))
  gie_run hg := k.phase.trans (h.gie_run (k.gie.symm.trans hg))
  boot_loaded hp j hj := by
    have hb : bootLoaded t = bootLoaded s := by simp only [bootLoaded, k.boot, k.cfg]
    rw [hb, k.cfg] at hj
    exact k.loaded j (h.boot_loaded (k.phase.symm.trans hp) j hj)
  run_loaded hp j hj := k.loaded j (h.run_loaded (k.phase.symm.trans hp) j (k.cfg ▸ hj))

theorem sample_keeps (s : State) : Keeps s (sample s) := ⟨sample_grows s, fun _ => sample_sampled s⟩

theorem Inv.envGap {s : State} (h : Inv s) : Inv (Machine.envGap s) := h.keeps (good_envGap s)

theorem Inv.tick {s : State} (h : Inv s) : Inv (Machine.tick Machine.envGap s) := h.keeps (tick_keeps good_envGap s)

/-- In phase Run either context is allowed (R158, R159). -/
theorem Inv.setCtx {s : State} (h : Inv s) (hp : s.phase = .run) (c : Ctx) : Inv (s.setCtx c) :=
  { h with handler_run := fun _ => hp }

/-- The presenter's commands are no part of the invariant. -/
theorem Inv.setScript {s : State} (h : Inv s) (cmds : List (List Byte)) : Inv { s with script := cmds } := { h with }

/-- A command ends with no command in progress and the line sampled, whatever the interrupt enable it leaves (R145). -/
theorem CommandEnds.inv {s t : State} (e : CommandEnds s t) (h : Inv s) (hp : s.phase = .run) : Inv t := by
  obtain ⟨u, b, r, k, rfl⟩ := e
  have hu : u.phase = .run := k.phase.trans hp
  exact
    { instance_ok := (congrArg Params.valid k.cfg).trans h.instance_ok
      memory_wf := k.wf h.memory_wf
      memory_in := k.inside h.memory_in
      no_cs := ⟨k.csCan h.no_cs.1, k.csEe h.no_cs.2⟩
      sampled := sample_sampled _
      idle := ⟨rfl, rfl⟩
      handler_run := fun _ => hu
      gie_run := fun _ => hu
      boot_loaded := fun hb => absurd (hu.symm.trans hb) (by decide)
      run_loaded := fun _ j hj => k.loaded j (h.run_loaded hp j (k.cfg ▸ hj)) }

/-! ### The boot sequence and its escalation (R163, R172) -/

/-- The boot sequence goes to a line whose slots are loaded. -/
theorem Inv.goTo {s : State} (h : Inv s) (p : BootPos)
    (hl : LoadedTo s (min (bootLoaded (s.at p)) s.cfg.numSignals)) : Inv (s.at p) :=
  { h with boot_loaded := fun _ => hl }

/-- A line that keeps the state, and after it a line that asks for no more slots. -/
theorem Inv.nextLine {s u : State} {p : BootPos} (h : Inv s) (hp : s.phase = .boot)
    (hl : bootLoaded (s.at p) ≤ bootLoaded s) (k : Keeps s u) : Inv (u.at p) := by
  refine (h.keeps k).goTo p fun j hj => k.loaded j (h.boot_loaded hp j ?_)
  have hb : bootLoaded (u.at p) = bootLoaded (s.at p) := by simp only [bootLoaded, State.at, k.cfg]
  rw [hb, k.cfg] at hj
  omega

theorem bootLine_inv {s t u : State} {p : BootPos} (h : Inv s) (hp : s.phase = .boot) (hs : bootLine p u = .next t)
    (hl : bootLoaded (s.at p) ≤ bootLoaded s) (k : Keeps s u) : Inv t :=
  Host.Outcome.next.inj hs ▸ h.nextLine hp hl k

theorem bootMode_inv {s t : State} {m : Mode} {p : BootPos} (h : Inv s) (hp : s.phase = .boot)
    (hs : bootMode m p s = .next t) (hl : bootLoaded (s.at p) ≤ bootLoaded s) : Inv t := by
  unfold bootMode at hs
  split at hs
  · rename_i u hu
    exact Host.Outcome.next.inj hs ▸ h.nextLine hp hl (setModeOp_keeps good_envGap m s u hu)
  · exact absurd hs (by simp)

theorem escalate_inv {s : State} (h : Inv s) (hp : s.phase = .boot) : Inv (escalate s) := by
  have hr : s.phase ≠ .run := by rw [hp]; decide
  have hd : Inv { s with phase := .resetDelay } :=
    { h with
      handler_run := fun hc => absurd (h.handler_run hc) hr
      gie_run := fun hg => absurd (h.gie_run hg) hr
      boot_loaded := nofun
      run_loaded := nofun }
  exact hd.tick

/-- Line 11: a load that answers Ok leaves one more slot loaded, a failing one ends the boot. -/
theorem bootLoad_inv {s t : State} {n : Nat} (h : Inv s) (hp : s.phase = .boot) (hb : s.boot = .load n)
    (hs : bootLoad n s = .next t) : Inv t := by
  have hn : bootLoaded s = n := by simp only [bootLoaded, hb]
  unfold bootLoad at hs
  split at hs
  · have k := sigLoad_keeps good_envGap n s
    split at hs
    · rename_i u hu
      obtain rfl := Host.Outcome.next.inj hs
      rw [hu] at k
      refine (h.keeps k).goTo _ fun j hj => ?_
      have hj' : j < min (n + 1) u.cfg.numSignals := hj
      by_cases he : j = n
      · have h16 := valid_slots h.instance_ok
        exact he ▸ sigLoad_loaded good_envGap (by omega) hu
      · refine k.loaded j (h.boot_loaded hp j ?_)
        rw [k.cfg] at hj'
        omega
    · rename_i u hu
      obtain rfl := Host.Outcome.next.inj hs
      rw [hu] at k
      exact escalate_inv (h.keeps k) (k.phase.trans hp)
  · obtain rfl := Host.Outcome.next.inj hs
    refine h.goTo _ fun j hj => h.boot_loaded hp j ?_
    have hj' : j < min s.cfg.numSignals s.cfg.numSignals := hj
    omega

/-- Line 14: every slot is loaded when the block enters phase Run with interrupts enabled. -/
theorem enterRun_inv {s : State} (h : Inv s) (hp : s.phase = .boot) (hb : s.boot = .enterRun) :
    Inv { s with phase := .run, gie := true } :=
  { h with
    handler_run := fun _ => rfl
    gie_run := fun _ => rfl
    boot_loaded := nofun
    run_loaded := fun _ j hj => h.boot_loaded hp j (by simpa only [bootLoaded, hb, Nat.min_self] using hj) }

theorem bootStep_inv {s t : State} (h : Inv s) (hp : s.phase = .boot) (hs : bootStep s = .next t) : Inv t := by
  have G := good_envGap
  unfold bootStep at hs
  split at hs <;> rename_i hb
  · -- reset
    exact bootLine_inv h hp hs (Nat.zero_le _) ((G s).trans (resetOp_keeps G _))
  · -- setConfig
    exact bootMode_inv h hp hs (Nat.zero_le _)
  · -- bitTiming
    exact bootLine_inv h hp hs (Nat.zero_le _) (setBitTiming_keeps G _ _ _ s)
  · -- mask0
    exact bootLine_inv h hp hs (Nat.zero_le _) (xfer_keeps G _ s)
  · -- mask1
    exact bootLine_inv h hp hs (Nat.zero_le _) (xfer_keeps G _ s)
  · -- filter0
    exact bootLine_inv h hp hs (Nat.zero_le _) (xfer_keeps G _ s)
  · -- filter1
    exact bootLine_inv h hp hs (Nat.zero_le _) (xfer_keeps G _ s)
  · -- stdFilters
    exact bootLine_inv h hp hs (Nat.zero_le _) ((xfer_keeps G _ s).trans (xfer_keeps G _ _))
  · -- extFilters
    exact bootLine_inv h hp hs (Nat.zero_le _) ((xfer_keeps G _ s).trans (xfer_keeps G _ _))
  · -- setNormal
    exact bootMode_inv h hp hs (Nat.zero_le _)
  · -- load
    exact bootLoad_inv h hp hb hs
  · -- clearLatch
    exact bootLine_inv h hp hs (by simp [bootLoaded, State.at, hb]) ((setLatch_grows s false).tick G)
  · -- enableInt
    exact bootLine_inv h hp hs (by simp [bootLoaded, State.at, hb]) (xfer_keeps G _ s)
  · -- enterRun
    exact Host.Outcome.next.inj hs ▸ (enterRun_inv h hp hb).tick

/-- The device reset (R163) forgets the edge detector's memory, so it has the invariant once the line is sampled (R144). -/
theorem sample_deviceReset_inv {s : State} (h : Inv s) : Inv (sample (deviceReset s)) where
  instance_ok := h.instance_ok
  memory_wf := h.memory_wf
  memory_in := h.memory_in
  no_cs := ⟨rfl, rfl⟩
  sampled := sample_sampled _
  idle := ⟨rfl, rfl⟩
  handler_run := nofun
  gie_run := nofun
  boot_loaded _ j hj := absurd (show j < min 0 s.cfg.numSignals from hj) (by omega)
  run_loaded := nofun

theorem resetDelayStep_inv {s : State} (h : Inv s) : Inv (resetDelayStep s) :=
  (sample_deviceReset_inv h.tick).envGap

/-! ### The handler and the foreground in phase Run (R145, R158, R159) -/

theorem handlerTail_inv {s : State} (h : Inv s) (hp : s.phase = .run) (buf : Nat) : Inv (handlerTail buf s) := by
  obtain ⟨u, k, hu⟩ := handlerTail_keeps buf s
  rw [hu]
  exact ((h.keeps k).setCtx (k.phase.trans hp) .foreground).keeps (sample_keeps _)

theorem handlerStep_inv {s t : State} (h : Inv s) (hp : s.phase = .run) (hs : handlerStep s = .next t) : Inv t := by
  simp only [handlerStep, Fetched.instr, exec_frameInstr, andThen] at hs
  obtain rfl := Host.Outcome.next.inj hs
  have k {c fr} := (handlerFetch_keeps s).trans (runClass_keeps c fr _)
  exact (handlerTail_inv (h.keeps k) (k.phase.trans hp) _).envGap

theorem enterHandler_inv {s : State} (h : Inv s) (hp : s.phase = .run) : Inv (enterHandler s) :=
  (h.setCtx hp .handler).keeps (enterHandler_keeps s)

theorem rejectCommand_keeps (e : DecodeError) (s : State) : Keeps s (rejectCommand e s) :=
  ⟨⟨rfl, rfl, rfl, rfl, rfl, rfl, rfl, fun _ => id, id, id, id, id, id, fun _ => id, id, id⟩, fun _ => sample_sampled _⟩

theorem andThen_eq_next {o : Host.Outcome State Fault Refusal} {f : State → State} {t : State}
    (h : andThen o f = .next t) : ∃ u, o = .next u ∧ f u = t := by
  cases o with
  | next u => exact ⟨u, rfl, Host.Outcome.next.inj h⟩
  | fault r => exact absurd h (by simp [andThen])
  | refused r => exact absurd h (by simp [andThen])

theorem presentStep_inv {s t : State} (h : Inv s) (hp : s.phase = .run) (cmd : List Byte)
    (hs : presentStep cmd s = .next t) : Inv t := by
  unfold presentStep at hs
  split at hs
  · rename_i i hi
    obtain ⟨u, he, rfl⟩ := andThen_eq_next hs
    exact ((exec_port_ends i (decode_port_source cmd i hi) s u he).inv h hp).envGap
  · obtain rfl := Host.Outcome.next.inj hs
    exact (h.keeps (rejectCommand_keeps _ s)).envGap

theorem foregroundStep_inv {s t : State} (h : Inv s) (hp : s.phase = .run) (hs : foregroundStep s = .next t) : Inv t := by
  unfold foregroundStep at hs
  split at hs
  · obtain rfl := Host.Outcome.next.inj hs
    exact (enterHandler_inv h hp).envGap
  · split at hs
    · rename_i cmd rest _
      exact presentStep_inv (h.setScript rest) hp cmd hs
    · obtain rfl := Host.Outcome.next.inj hs
      exact h.envGap

/-! ### Every step -/

/-- Settles O58: by the phase and the context, each step function keeps the invariant. -/
theorem stepKeepsInv : Obligations.StepKeepsInv := by
  intro s t h hs
  rw [step, if_pos h.instance_ok] at hs
  cases hp : s.phase <;> rw [hp] at hs
  case boot => exact bootStep_inv h hp hs
  case resetDelay => exact Host.Outcome.next.inj hs ▸ resetDelayStep_inv h
  case run =>
    cases hc : s.ctx <;> rw [hc] at hs
    case handler => exact handlerStep_inv h hp hs
    case foreground => exact foregroundStep_inv h hp hs

end Sys2Proof.Machine
end

section
/-! A frame that arrives (R26, R38, R108, R144, R161): with both receive interrupts enabled the line is asserted exactly while a
buffer's flag is set, so the edge detector sees an edge exactly where the stored frame's flag is the first. -/

namespace Sys2Proof.Machine

/-- The part of the block that no move of another agent touches holds all that SameBlock names. -/
theorem sameBlock_of_blockPart {s t : State} (h : t.blockPart = s.blockPart) : SameBlock s t :=
  ⟨congrArg BlockPart.cfg h, congrArg BlockPart.phase h, congrArg BlockPart.boot h, congrArg BlockPart.mirror h,
    congrArg BlockPart.gie h, congrArg BlockPart.ctx h, congrArg BlockPart.csCan h, congrArg BlockPart.csEe h,
    congrArg BlockPart.modeShadow h, congrArg BlockPart.hErr h, congrArg BlockPart.faults h⟩

theorem rxFlag_standard {s : State} (hd : s.cfg.dev = .standard) (b : Nat) : s.rxFlag b = bitOf (s.reg 0x2C) b := by
  rw [State.rxFlag, hd]
  rfl

theorem and_three_ne_zero : ∀ b : Byte, (b &&& 0x03 != 0) = (bitOf b 0 || bitOf b 1) := by decide

/-- The interrupt line with both receive interrupts enabled (R38). -/
theorem intLine_eq_rxFlags {s : State} (hd : s.cfg.dev = .standard) (he : s.reg 0x2B = 0x03) :
    s.intLine = (s.rxFlag 0 || s.rxFlag 1) := by
  have hl : s.intLine = (s.reg 0x2C &&& s.reg 0x2B != 0) := by rw [State.intLine, hd]; rfl
  rw [hl, he, and_three_ne_zero, rxFlag_standard hd, rxFlag_standard hd]

theorem storeFrame_cfg (s : State) (f : BusFrame) (h : Nat) : (s.storeFrame f h).cfg = s.cfg := by
  obtain ⟨_, _, _, hs⟩ := storeFrame_ctl_only s f h
  rw [hs]

theorem storeFrame_latch (s : State) (f : BusFrame) (h : Nat) : (s.storeFrame f h).latch = s.latch := by
  obtain ⟨_, _, _, hs⟩ := storeFrame_ctl_only s f h
  rw [hs]

theorem storeFrame_intPrev (s : State) (f : BusFrame) (h : Nat) : (s.storeFrame f h).intPrev = s.intPrev := by
  obtain ⟨_, _, _, hs⟩ := storeFrame_ctl_only s f h
  rw [hs]

/-- A frame stored in an empty buffer asserts the line (R38, R108). -/
theorem storeFrame_intLine {s : State} {f : BusFrame} {h : Nat} (hd : s.cfg.dev = .standard) (he : s.reg 0x2B = 0x03)
    (hf : s.rxFlag (bufferOf h) = false) : (s.storeFrame f h).intLine = true := by
  have hd' : (s.storeFrame f h).cfg.dev = .standard := by rw [storeFrame_cfg, hd]
  have hreg := fun a => (storeFrame_empty (f := f) hd hf a).1
  have hb := bufferOf_le h
  have hen : (s.storeFrame f h).reg 0x2B = 0x03 := by rw [hreg, if_neg (by decide), if_neg (by omega), he]
  have hset : (s.storeFrame f h).rxFlag (bufferOf h) = true := by
    rw [rxFlag_standard hd', hreg, if_pos rfl, bitOf_withBit_self _ _ _ (by omega)]
  rw [intLine_eq_rxFlags hd' hen]
  obtain h0 | h1 : bufferOf h = 0 ∨ bufferOf h = 1 := by omega
  · rw [h0] at hset; rw [hset, Bool.true_or]
  · rw [h1] at hset; rw [hset, Bool.or_true]

/-- An enabled Receive of a frame that some filter takes is its store, and the edge detector after it (R104, R107, R144). -/
theorem envMove_receive_accepted {s : State} {f : BusFrame} {fs : List BusFrame} {h : Nat} (hs : Sampled s)
    (hb : s.busIn = f :: fs) (hm : s.inMode .normal = true ∨ s.inMode .listenOnly = true)
    (ha : s.acceptHit f.id = some h) :
    envMove s .receive = sample (State.storeFrame { s with busIn := fs } f h) := by
  have ha' : State.acceptHit { s with busIn := fs } f.id = some h := ha
  rw [envMove_of_sampled hs, State.move, receiveStep_enabled hb hm, State.offerFrame, ha']

/-- Settles O47: the stored frame asserts the line, and the edge detector compares it with the line as it was sampled, which is
asserted exactly while a flag is set. -/
theorem frameArrivalLatches : Obligations.FrameArrivalLatches := by
  intro s f fs h hd hs he hb hm ha hf
  have hmove := envMove_receive_accepted hs hb hm ha
  have hline : (envMove s .receive).intLine = true := by
    rw [hmove]
    exact storeFrame_intLine (s := { s with busIn := fs }) hd he hf
  have hprev : (envMove s .receive).intPrev = true := (envMove_sampled hs .receive).trans hline
  have hlatch : (envMove s .receive).latch = (s.latch || !(s.rxFlag 0 || s.rxFlag 1)) := by
    have hbefore : s.intPrev = (s.rxFlag 0 || s.rxFlag 1) := hs.trans (intLine_eq_rxFlags hd he)
    rw [hmove, sample_intLine] at hline
    rw [hmove, sample_latch, storeFrame_latch, storeFrame_intPrev, hline, hbefore, Bool.true_and]
  refine ⟨hline, hprev, ?deasserted, ?asserted, sameBlock_of_blockPart (envMove_blockPart s _)⟩
  case deasserted =>
    rintro ⟨h0, h1⟩
    rw [hlatch, h0, h1]
    exact Bool.or_true _
  case asserted =>
    intro h01
    have hset : (s.rxFlag 0 || s.rxFlag 1) = true := (Bool.or_eq_true _ _).mpr h01
    rw [hlatch, hset]
    exact Bool.or_false _

end Sys2Proof.Machine
end

section
/-! No step clears a fault or changes a parameter (R10, R32). For an operation this is part of `Keeps`; here stand the updates of
the sequencer, and one lemma for each step function. -/

namespace Sys2Proof.Machine

/-- The parameters are the same and every fault recorded is still recorded. -/
structure KeepsFaults (s t : State) : Prop where
  cfg : t.cfg = s.cfg
  unloadedMirror : s.faults.unloadedMirror = true → t.faults.unloadedMirror = true
  busConflict : s.faults.busConflict = true → t.faults.busConflict = true
  protocolViolation : s.faults.protocolViolation = true → t.faults.protocolViolation = true

theorem KeepsFaults.of_eq {s t : State} (hc : t.cfg = s.cfg) (hf : t.faults = s.faults) : KeepsFaults s t :=
  ⟨hc, fun h => hf ▸ h, fun h => hf ▸ h, fun h => hf ▸ h⟩

theorem KeepsFaults.trans {s t u : State} (h1 : KeepsFaults s t) (h2 : KeepsFaults t u) : KeepsFaults s u where
  cfg := h2.cfg.trans h1.cfg
  unloadedMirror h := h2.unloadedMirror (h1.unloadedMirror h)
  busConflict h := h2.busConflict (h1.busConflict h)
  protocolViolation h := h2.protocolViolation (h1.protocolViolation h)

theorem Grows.keepsFaults {s t : State} (h : Grows s t) : KeepsFaults s t :=
  ⟨h.cfg, h.unloadedMirror, h.busConflict, h.protocolViolation⟩

theorem KeepsFaults.envGap {s t : State} (h : KeepsFaults s t) : KeepsFaults s (Machine.envGap t) :=
  h.trans (good_envGap t).keepsFaults

theorem KeepsFaults.tick {s t : State} (h : KeepsFaults s t) : KeepsFaults s (Machine.tick Machine.envGap t) :=
  h.trans (tick_keeps good_envGap t).keepsFaults

theorem beginCommand_keepsFaults (s : State) : KeepsFaults s (beginCommand s) := .of_eq rfl rfl

theorem endCommand_keepsFaults (r : Res (List Byte)) : KeepsFaults r.2 (endCommand r) := .of_eq rfl rfl

theorem setGie_keepsFaults (s : State) (b : Bool) : KeepsFaults s (s.setGie b) := .of_eq rfl rfl

theorem setCtx_keepsFaults (s : State) (c : Ctx) : KeepsFaults s (s.setCtx c) := .of_eq rfl rfl

theorem setScript_keepsFaults (s : State) (cmds : List (List Byte)) : KeepsFaults s { s with script := cmds } :=
  .of_eq rfl rfl

theorem setPhase_keepsFaults (s : State) (p : Phase) (b : Bool) : KeepsFaults s { s with phase := p, gie := b } :=
  .of_eq rfl rfl

theorem at_keepsFaults (s : State) (p : BootPos) : KeepsFaults s (s.at p) := .of_eq rfl rfl

/-- A command writes its progress, its result and the interrupt enable about a body that keeps the faults (R145). -/
theorem CommandEnds.keepsFaults {s t : State} (e : CommandEnds s t) : KeepsFaults s t := by
  obtain ⟨u, b, r, k, rfl⟩ := e
  have h1 : KeepsFaults s u := (beginCommand_keepsFaults s).trans k.keepsFaults
  exact (h1.trans (setGie_keepsFaults u b)).trans (endCommand_keepsFaults (r, u.setGie b))

/-! ### The boot sequence and its escalation (R163, R172) -/

theorem bootLine_keepsFaults {s t u : State} {p : BootPos} (hs : bootLine p u = .next t) (k : Keeps s u) :
    KeepsFaults s t := by
  obtain rfl := Host.Outcome.next.inj hs
  exact k.keepsFaults.trans (at_keepsFaults u p)

theorem bootMode_keepsFaults {s t : State} {m : Mode} {p : BootPos} (hs : bootMode m p s = .next t) :
    KeepsFaults s t := by
  unfold bootMode at hs
  split at hs
  · next u hu => exact bootLine_keepsFaults hs (setModeOp_keeps good_envGap m s u hu)
  · exact absurd hs (by simp)

theorem escalate_keepsFaults (s : State) : KeepsFaults s (escalate s) :=
  (setPhase_keepsFaults s .resetDelay s.gie).tick

theorem bootLoad_keepsFaults {s t : State} {n : Nat} (hs : bootLoad n s = .next t) : KeepsFaults s t := by
  have k := sigLoad_keeps good_envGap n s
  unfold bootLoad at hs
  split at hs
  · split at hs
    · next u hu =>
      rw [hu] at k
      exact bootLine_keepsFaults hs k
    · next u hu =>
      rw [hu] at k
      exact Host.Outcome.next.inj hs ▸ k.keepsFaults.trans (escalate_keepsFaults u)
  · exact bootLine_keepsFaults hs (.refl s)

theorem bootStep_keepsFaults {s t : State} (hs : bootStep s = .next t) : KeepsFaults s t := by
  have G := good_envGap
  unfold bootStep at hs
  split at hs
  · -- reset
    exact bootLine_keepsFaults hs ((G s).trans (resetOp_keeps G _))
  · -- setConfig
    exact bootMode_keepsFaults hs
  · -- bitTiming
    exact bootLine_keepsFaults hs (setBitTiming_keeps G _ _ _ s)
  · -- mask0
    exact bootLine_keepsFaults hs (xfer_keeps G _ s)
  · -- mask1
    exact bootLine_keepsFaults hs (xfer_keeps G _ s)
  · -- filter0
    exact bootLine_keepsFaults hs (xfer_keeps G _ s)
  · -- filter1
    exact bootLine_keepsFaults hs (xfer_keeps G _ s)
  · -- stdFilters
    exact bootLine_keepsFaults hs ((xfer_keeps G _ s).trans (xfer_keeps G _ _))
  · -- extFilters
    exact bootLine_keepsFaults hs ((xfer_keeps G _ s).trans (xfer_keeps G _ _))
  · -- setNormal
    exact bootMode_keepsFaults hs
  · -- load
    exact bootLoad_keepsFaults hs
  · -- clearLatch
    exact bootLine_keepsFaults hs ((setLatch_grows s false).tick G)
  · -- enableInt
    exact bootLine_keepsFaults hs (xfer_keeps G _ s)
  · -- enterRun
    exact Host.Outcome.next.inj hs ▸ (setPhase_keepsFaults s .run true).tick

/-- The device reset gives every block element its launch value except the faults (R163). -/
theorem deviceReset_keepsFaults (s : State) : KeepsFaults s (deviceReset s) := .of_eq rfl rfl

theorem resetDelayStep_keepsFaults (s : State) : KeepsFaults s (resetDelayStep s) :=
  ((tick_keeps good_envGap s).keepsFaults.trans (deviceReset_keepsFaults _)).tick

/-! ### The handler and the foreground in phase Run (R145, R158, R159) -/

theorem handlerTail_keepsFaults (buf : Nat) (s : State) : KeepsFaults s (handlerTail buf s) := by
  obtain ⟨u, k, hu⟩ := handlerTail_keeps buf s
  rw [hu]
  exact (k.keepsFaults.trans (setCtx_keepsFaults u .foreground)).trans (sample_keeps _).keepsFaults

theorem handlerStep_keepsFaults {s t : State} (hs : handlerStep s = .next t) : KeepsFaults s t := by
  simp only [handlerStep, Fetched.instr, exec_frameInstr, andThen] at hs
  obtain rfl := Host.Outcome.next.inj hs
  exact (((handlerFetch_keeps s).trans (runClass_keeps _ _ _)).keepsFaults.trans (handlerTail_keepsFaults _ _)).envGap

theorem enterHandler_keepsFaults (s : State) : KeepsFaults s (enterHandler s) :=
  (setCtx_keepsFaults s .handler).trans (enterHandler_keeps s).keepsFaults

theorem presentStep_keepsFaults {s t : State} {cmd : List Byte} (hs : presentStep cmd s = .next t) : KeepsFaults s t := by
  unfold presentStep at hs
  split at hs
  · next i hi =>
    obtain ⟨u, he, rfl⟩ := andThen_eq_next hs
    exact (exec_port_ends i (decode_port_source cmd i hi) s u he).keepsFaults.envGap
  · obtain rfl := Host.Outcome.next.inj hs
    exact (rejectCommand_keeps _ s).keepsFaults.envGap

theorem foregroundStep_keepsFaults {s t : State} (hs : foregroundStep s = .next t) : KeepsFaults s t := by
  unfold foregroundStep at hs
  split at hs
  · obtain rfl := Host.Outcome.next.inj hs
    exact (enterHandler_keepsFaults s).envGap
  · split at hs
    · exact (setScript_keepsFaults s _).trans (presentStep_keepsFaults hs)
    · obtain rfl := Host.Outcome.next.inj hs
      exact (good_envGap s).keepsFaults

/-! ### Every step -/

theorem step_keepsFaults {s t : State} (hs : step s = .next t) : KeepsFaults s t := by
  unfold step at hs
  split at hs
  · split at hs
    · exact bootStep_keepsFaults hs
    · exact Host.Outcome.next.inj hs ▸ resetDelayStep_keepsFaults s
    · split at hs
      · exact handlerStep_keepsFaults hs
      · exact foregroundStep_keepsFaults hs
  · exact absurd hs (by simp)

/-- Settles O60: by the phase and the context, each step function keeps the faults and the parameters. -/
theorem faultsAreKept : Obligations.FaultsAreKept := fun _ _ hs =>
  have k := step_keepsFaults hs
  ⟨k.cfg, k.unloadedMirror, k.busConflict, k.protocolViolation⟩

end Sys2Proof.Machine
end

section
/-! The state after reset (R44, R152). -/

namespace Sys2Proof.Machine

/-- The parameters at reset break no constraint of R10, R11 and R126. -/
theorem testInstance_valid : Params.testInstance.valid = true := by decide

/-- No interrupt is enabled or flagged in the cleared registers, so the line is deasserted, as the edge detector remembers. -/
theorem reset_sampled : Sampled State.reset := by unfold Sampled; decide

theorem reset_launch : State.reset.launch :=
  ⟨testInstance_valid, rfl, rfl, rfl, rfl, rfl, rfl, rfl, rfl, rfl, rfl, rfl, rfl, rfl, rfl, rfl⟩

/-- The first boot line asks for no loaded slot, and the handler and interrupts are off. -/
theorem reset_inv : Inv State.reset where
  instance_ok := testInstance_valid
  memory_wf := rfl
  memory_in := nofun
  no_cs := ⟨rfl, rfl⟩
  sampled := reset_sampled
  idle := ⟨rfl, rfl⟩
  handler_run := nofun
  gie_run := nofun
  boot_loaded := fun _ _ hj => absurd hj (Nat.not_lt_zero _)
  run_loaded := nofun

/-- Settles O59: reset has the block values of R44, and each part of the invariant holds of them. -/
theorem resetIsLaunch : Obligations.ResetIsLaunch := ⟨reset_launch, reset_inv⟩

end Sys2Proof.Machine
end

section
/-! A handler entered in a gap of a command (R54, R158). After the command's first transaction the entry is a conflict: a
transaction that leaves alone what reception reads has a gap in which the arriving frame sets the latch, and the operation that
began with it only adds faults. Before any transaction it is none: a gap in which the handler runs leaves the faults as they
were. -/

namespace Sys2Proof.Machine

/-! ### A frame that arrives in the gap after a transaction -/

/-- The registers that decide whether an arriving frame is taken and seen: filters, masks and CANSTAT (R36, R107), CANINTE and
CANINTF (R38), in the standard map. -/
def ReceptionReg (a : Nat) : Prop := a < 0x28 ∨ a = 0x2B ∨ a = 0x2C

/-- A frame that the controller takes with hit h arrives in the next gap, with both receive interrupts enabled and both buffers
empty. -/
structure FrameArrives (s : State) (f : BusFrame) (fs : List BusFrame) (h : Nat) (rest : List (List EnvMove)) : Prop where
  dev : s.cfg.dev = .standard
  sampled : Sampled s
  enabled : s.reg 0x2B = 0x03
  empty0 : s.rxFlag 0 = false
  empty1 : s.rxFlag 1 = false
  bus : s.busIn = f :: fs
  receives : s.inMode .normal = true ∨ s.inMode .listenOnly = true
  accepted : s.acceptHit f.id = some h
  next : s.sched = [.receive] :: rest

/-- A command runs in the foreground of phase Run, and interrupts are enabled (R145, R158). -/
structure Interruptible (s : State) : Prop where
  gie : s.gie = true
  ctx : s.ctx = .foreground
  phase : s.phase = .run
  busy : s.cmdBusy = true

theorem FrameArrives.latch {s : State} {f : BusFrame} {fs : List BusFrame} {h : Nat} {rest : List (List EnvMove)}
    (F : FrameArrives s f fs h rest) : (envGap s).latch = true :=
  envGap_receive_latch F.dev F.sampled F.enabled F.empty0 F.empty1 F.bus F.receives F.accepted F.next

/-- Every filter lies in the filter registers of the standard map (R35). -/
theorem filter_standard_lt (n : Nat) : DevParams.standard.map.filter n + 3 < 0x28 := by
  unfold RegMap.filter
  split <;> decide

/-- Either mask lies in the mask registers of the standard map (R35). -/
theorem mask_standard_lt (k : Nat) : DevParams.standard.map.mask k + 3 < 0x28 := by
  unfold RegMap.mask
  split <;> decide

/-- A filter matches by its own registers and those of its mask (R107). -/
theorem filterMatches_congr {s t : State} (hd : s.cfg.dev = .standard) (hc : t.cfg = s.cfg)
    (hr : ∀ a, a < 0x28 → t.reg a = s.reg a) (n : Nat) (id : CanId) : t.filterMatches n id = s.filterMatches n id := by
  have hf : ∀ j, j ≤ 3 → t.reg (DevParams.standard.map.filter n + j) = s.reg (DevParams.standard.map.filter n + j) :=
    fun j hj => hr _ (by have := filter_standard_lt n; omega)
  have hm : ∀ j, j ≤ 3 →
      t.reg (DevParams.standard.map.mask (maskOf n) + j) = s.reg (DevParams.standard.map.mask (maskOf n) + j) :=
    fun j hj => hr _ (by have := mask_standard_lt (maskOf n); omega)
  have hf0 := hf 0 (Nat.zero_le _)
  have hm0 := hm 0 (Nat.zero_le _)
  rw [Nat.add_zero] at hf0 hm0
  cases id <;> simp [State.filterMatches, hc, hd, hf0, hm0, hf, hm]

theorem acceptHit_congr {s t : State} (hd : s.cfg.dev = .standard) (hc : t.cfg = s.cfg)
    (hr : ∀ a, a < 0x28 → t.reg a = s.reg a) (id : CanId) : t.acceptHit id = s.acceptHit id := by
  simp only [State.acceptHit, filterMatches_congr hd hc hr]

theorem FrameArrives.congr {s t : State} {f : BusFrame} {fs : List BusFrame} {h : Nat} {rest : List (List EnvMove)}
    (F : FrameArrives s f fs h rest) (hc : t.cfg = s.cfg) (hp : t.intPrev = s.intPrev) (hb : t.busIn = s.busIn)
    (hq : t.sched = s.sched) (hr : ∀ a, ReceptionReg a → t.reg a = s.reg a) : FrameArrives t f fs h rest := by
  have hd : t.cfg.dev = .standard := by rw [hc, F.dev]
  have he : t.reg 0x2B = 0x03 := (hr _ (by simp [ReceptionReg])).trans F.enabled
  have hflag : ∀ b, t.rxFlag b = s.rxFlag b := fun b => by
    rw [rxFlag_standard hd, rxFlag_standard F.dev, hr _ (by simp [ReceptionReg])]
  have hmode : ∀ m, t.inMode m = s.inMode m := fun m => by
    have hstat : s.cfg.dev.map.canstat = 0x0E := by rw [F.dev]; rfl
    simp only [State.inMode, State.opmod, hc, hstat]
    rw [hr _ (by simp [ReceptionReg])]
  have hline : t.intLine = s.intLine := by
    rw [intLine_eq_rxFlags hd he, intLine_eq_rxFlags F.dev F.enabled, hflag, hflag]
  exact
    { dev := hd
      sampled := hp.trans (F.sampled.trans hline.symm)
      enabled := he
      empty0 := (hflag 0).trans F.empty0
      empty1 := (hflag 1).trans F.empty1
      bus := hb.trans F.bus
      receives := by rw [hmode, hmode]; exact F.receives
      accepted := (acceptHit_congr F.dev hc (fun a ha => hr a (.inl ha)) f.id).trans F.accepted
      next := hq.trans F.next }

/-- A transaction that leaves alone what reception reads: a read, or a block write of other registers. -/
def SparesReception : Xfer → Prop
  | .canRead _ _ | .canRxStatus | .eeRdsr => True
  | .canWrite a d => ∀ b, ReceptionReg b → b < a ∨ a + d.length ≤ b
  | .canReset | .canBitmod _ _ _ | .eeWren | .eeRead _ _ | .eeWrite _ _ => False

/-- CNF1 stands between the masks and CANINTE. -/
theorem cnf1Write_spares {s : State} (hd : s.cfg.dev = .standard) (v : Byte) :
    SparesReception (.canWrite s.cfg.dev.map.cnf1 [v]) := by
  rw [hd]
  show ∀ b, ReceptionReg b → b < 0x2A ∨ 0x2A + 1 ≤ b
  unfold ReceptionReg
  omega

/-- The transmit buffer stands above every such register. -/
theorem txb0Write_spares {s : State} (hd : s.cfg.dev = .standard) (d : List Byte) :
    SparesReception (.canWrite s.cfg.dev.map.txb0sidh d) := by
  rw [hd]
  show ∀ b, ReceptionReg b → b < 0x31 ∨ 0x31 + d.length ≤ b
  unfold ReceptionReg
  omega

/-- The device of such a transaction changes at most controller registers that reception does not read. -/
theorem device_of_spares (s : State) {x : Xfer} (hx : SparesReception x) :
    ∃ c, (s.device x).2 = { s with ctl := c } ∧ ∀ a, ReceptionReg a → State.reg { s with ctl := c } a = s.reg a := by
  cases x with
  | canRead a n => exact ⟨s.ctl, rfl, fun _ _ => rfl⟩
  | canRxStatus => exact ⟨s.ctl, rfl, fun _ _ => rfl⟩
  | eeRdsr => exact ⟨s.ctl, rfl, fun _ _ => rfl⟩
  | canWrite a d =>
    obtain ⟨c, hc⟩ := ctlWrites_ctl_only d s a
    refine ⟨c, hc, fun b hb => ?_⟩
    have hout := hx b hb
    rw [← hc, reg_ctlWrites, if_neg (by omega)]
  | _ => exact hx.elim

/-- The frame of the gap after a command's transaction enters the handler there (R54, R158). -/
theorem xfer_busConflict {s : State} {f : BusFrame} {fs : List BusFrame} {h : Nat} {rest : List (List EnvMove)} {x : Xfer}
    (hx : SparesReception x) (F : FrameArrives s f fs h rest) (C : Interruptible s) :
    (xfer fgGap x s).2.faults.busConflict = true := by
  obtain ⟨c, hdev, hr⟩ := device_of_spares s hx
  have ht : (s.transact x).2 = State.endXfer { s with ctl := c } x (s.device x).1 := by rw [transact_eq, hdev]
  have after : FrameArrives (State.endXfer { s with ctl := c } x (s.device x).1) f fs h rest := F.congr rfl rfl rfl rfl hr
  have issued : (State.endXfer { s with ctl := c } x (s.device x).1).cmdIssued = true := by
    simp [State.endXfer, C.busy, C.ctx]
  rw [xfer, tick, ht, sample_of_sampled after.sampled]
  exact fgGap_busConflict (entryEnabled_envGap C.gie C.ctx C.phase after.latch) C.busy issued

/-! ### Commands by their first transaction -/

/-- A command's first block step is the transaction x, and what it does after the gap of x keeps what is recorded (R145). -/
def OpensWith (i : Instr) (s : State) (x : Xfer) : Prop :=
  ∃ r, exec i s = .next (endCommand r) ∧ Keeps (xfer fgGap x (beginCommand s)).2 r.2

theorem OpensWith.busConflict {i : Instr} {s : State} {x : Xfer} {f : BusFrame} {fs : List BusFrame} {h : Nat}
    {rest : List (List EnvMove)} (o : OpensWith i s x) (hx : SparesReception x)
    (F : FrameArrives (beginCommand s) f fs h rest) (C : Interruptible (beginCommand s)) :
    ∃ t, exec i s = .next t ∧ t.faults.busConflict = true := by
  obtain ⟨r, hi, k⟩ := o
  exact ⟨endCommand r, hi, k.busConflict (xfer_busConflict hx F C)⟩

theorem receive_opens {g : Pause} (hg : Good g) (b : Nat) (s : State) :
    Keeps (xfer g (.canRead (s.cfg.dev.map.rxBuf b) 5) s).2 (receive g b s).2 := by
  simp only [receive]
  split
  · exact xfer_keeps hg _ _
  · exact .refl _

theorem waitIdle_opens {g : Pause} (hg : Good g) {s : State} (hn : 1 ≤ s.cfg.eeBailout) :
    Keeps (xfer g .eeRdsr s).2 (waitIdle g s).2 := by
  obtain ⟨n, hn'⟩ := Nat.exists_eq_add_of_le' hn
  simp only [waitIdle, hn', waitIdleLoop, delay]
  split
  · exact waitIdleLoop_keeps hg n _
  · exact .refl _

theorem eeReadOp_opens {g : Pause} (hg : Good g) {s : State} (hv : s.cfg.valid = true) {addr n : Nat}
    (hr : addr + n ≤ s.cfg.eeSize) (hn : n ≠ 0) : Keeps (xfer g .eeRdsr s).2 (eeReadOp g addr n s).2 := by
  rw [eeReadOp, if_pos (show eeInRange s.cfg addr n = true from decide_eq_true hr), if_neg hn]
  exact bind_keeps (waitIdle_opens hg (valid_bailout hv)) fun _ u => xfer_keeps hg _ u

theorem readRow_opens {g : Pause} (hg : Good g) {s : State} (hv : s.cfg.valid = true) {t i : Nat}
    (ht : t < s.cfg.numSignals) (hi : i < tableRows) : Keeps (xfer g .eeRdsr s).2 (readRow g t i s).2 := by
  rw [readRow, if_neg (Nat.not_le.2 ht), if_neg (Nat.not_le.2 hi)]
  exact bind_keeps (eeReadOp_opens hg hv (valid_row hv ht hi) (by decide)) fun _ u => .refl u

theorem frameOperand_of_check {frm : FrameArg} (h : frameCheck frm = none) :
    ∃ f, frameOperand frm = .ok f := by
  unfold frameCheck at h
  split at h
  · exact absurd h (by simp)
  · split at h
    · exact absurd h (by simp)
    · next hr hl =>
      have hr' : frm.rtr = 0 ∨ frm.rtr = 1 := by bv_omega
      exact ⟨_, by rw [frameOperand, if_pos hr', if_pos (Nat.le_of_not_lt hl)]⟩

theorem spRead_opens {s : State} {a : Byte} (h : portCheck s.cfg (.spRead a) = none) :
    OpensWith (.spRead a) s (.canRead a.toNat 1) := by
  have ha : ¬ a.toNat ≥ regSpace := by simpa [portCheck] using h
  refine ⟨_, rfl, ?_⟩
  simp only [if_neg ha]
  exact .refl _

theorem canRxstatus_opens (s : State) : OpensWith .canRxstatus s .canRxStatus := ⟨_, rfl, .refl _⟩

theorem epRdsr_opens (s : State) : OpensWith .epRdsr s .eeRdsr := ⟨_, rfl, .refl _⟩

theorem canReceive_opens {s : State} {b : Byte} (h : portCheck s.cfg (.canReceive b) = none) :
    OpensWith (.canReceive b) s (.canRead (s.cfg.dev.map.rxBuf b.toNat) 5) := by
  have hb : ¬ b.toNat > 1 := by simpa [portCheck] using h
  refine ⟨_, rfl, ?_⟩
  simp only [if_neg hb]
  exact receive_opens good_fgGap _ _

theorem canSetbt_opens (s : State) (a b c : Byte) :
    OpensWith (.canSetbt a b c) s (.canWrite s.cfg.dev.map.cnf1 [a]) :=
  ⟨_, rfl, (xfer_keeps good_fgGap _ _).trans (xfer_keeps good_fgGap _ _)⟩

theorem canTransmit_opens {s : State} {frm : FrameArg} (h : portCheck s.cfg (.canTransmit frm) = none) :
    ∃ f, OpensWith (.canTransmit frm) s (.canWrite s.cfg.dev.map.txb0sidh (txBytes s.cfg.dev f)) := by
  obtain ⟨f, hf⟩ := frameOperand_of_check h
  refine ⟨f, _, rfl, ?_⟩
  simp only [hf]
  exact unit_keeps ((xfer_keeps good_fgGap _ _).trans (txPoll_keeps good_fgGap _ _))

theorem eeRead_opens {s : State} (hv : s.cfg.valid = true) {a : U32} {n : Byte} (hn : n ≠ 0)
    (h : portCheck s.cfg (.eeRead a n) = none) : OpensWith (.eeRead a n) s .eeRdsr := by
  have hr : a.toNat + n.toNat ≤ s.cfg.eeSize := by simpa [portCheck] using h
  exact ⟨_, rfl, eeReadOp_opens (s := beginCommand s) good_fgGap hv hr (by bv_omega)⟩

theorem rowRead_opens {s : State} (hv : s.cfg.valid = true) {t i : Byte}
    (h : portCheck s.cfg (.rowRead t i) = none) : OpensWith (.rowRead t i) s .eeRdsr := by
  obtain ⟨ht, hi⟩ : t.toNat < s.cfg.numSignals ∧ i.toNat < tableRows := by simpa [portCheck] using h
  exact ⟨_, rfl, bind_keeps (readRow_opens (s := beginCommand s) good_fgGap hv ht hi) fun _ u => .refl u⟩

/-! ### Commands without a transaction -/

/-- An internal step of such a command, and the gap after it. -/
theorem tick_untroubled {s : State} (hb : StatusBits s.cfg) (hl : LoadedTo s s.cfg.numSignals) (hi : s.cmdIssued = false) :
    Untroubled s (tick fgGap s) :=
  Untroubled.trans (t := sample s) ⟨rfl, rfl, hi, hl⟩ (fgGap_untroubled hb hl hi)

/-- One field of a loaded slot read, and the gap after it (R127). -/
theorem readMirror_tick_untroubled {s t : State} (hb : StatusBits s.cfg) {k : Nat} (hk : k < s.cfg.numSignals)
    (h : Untroubled s t) : Untroubled s (tick fgGap (readMirror k t).2) := by
  obtain ⟨f, hf⟩ := readMirror_loaded (h.loaded k hk)
  rw [hf]
  exact h.trans (tick_untroubled (h.cfg ▸ hb) (h.cfg ▸ h.loaded) h.issued)

theorem sigGet_faults {s : State} (hb : StatusBits s.cfg) (hl : LoadedTo s s.cfg.numSignals) (hi : s.cmdIssued = false)
    (k : Nat) : (sigGet fgGap k s).2.faults = s.faults := by
  unfold sigGet
  split
  · rfl
  · next hk =>
    have read : ∀ t, Untroubled s t → Untroubled s (tick fgGap (readMirror k t).2) := fun _ =>
      readMirror_tick_untroubled hb (Nat.lt_of_not_le hk)
    exact (read _ (read _ (read _ (read s ⟨rfl, rfl, hi, hl⟩)))).faults

theorem sigPluck_faults (m : SigFmt) (frm : FrameArg) (s : State) :
    ∃ t, exec (.sigPluck m frm) s = .next t ∧ t.faults = s.faults := by
  refine ⟨_, rfl, ?_⟩
  simp only [endCommand, sample_faults]
  split
  · rfl
  · split <;> rfl

theorem critExit_faults (v : Byte) (s : State) : ∃ t, exec (.critExit v) s = .next t ∧ t.faults = s.faults := by
  refine ⟨_, rfl, ?_⟩
  simp only [endCommand, sample_faults]
  split <;> rfl

/-- Settles O51: each listed command opens with a transaction that leaves alone what reception reads; the four others have no
transaction for a handler entry to conflict with. -/
theorem busConflict : Obligations.BusConflict := by
  refine ⟨?conflict, ?noTransaction⟩
  case conflict =>
    intro s i f fs h rest inv hd hp hc _ hg he h0 h1 hb hm ha hq hcheck hcmd
    have F : FrameArrives (beginCommand s) f fs h rest := ⟨hd, inv.sampled, he, h0, h1, hb, hm, ha, hq⟩
    have C : Interruptible (beginCommand s) := ⟨hg, hc, hp, rfl⟩
    rcases hcmd with ⟨a, rfl⟩ | rfl | rfl | ⟨b, rfl⟩ | ⟨a, b, c, rfl⟩ | ⟨frm, rfl⟩ | ⟨a, n, rfl, hn⟩ | ⟨t, r, rfl⟩
    · exact (spRead_opens hcheck).busConflict trivial F C
    · exact (canRxstatus_opens s).busConflict trivial F C
    · exact (epRdsr_opens s).busConflict trivial F C
    · exact (canReceive_opens hcheck).busConflict trivial F C
    · exact (canSetbt_opens s a b c).busConflict (cnf1Write_spares hd a) F C
    · obtain ⟨fr, o⟩ := canTransmit_opens hcheck
      exact o.busConflict (txb0Write_spares hd _) F C
    · exact (eeRead_opens inv.instance_ok hn hcheck).busConflict trivial F C
    · exact (rowRead_opens inv.instance_ok hcheck).busConflict trivial F C
  case noTransaction =>
    intro s i inv hp _ _ hsb hcmd
    rcases hcmd with ⟨m, frm, rfl⟩ | ⟨k, rfl⟩ | rfl | ⟨v, rfl⟩
    · exact sigPluck_faults m frm s
    · exact ⟨_, rfl, sigGet_faults (s := beginCommand s) hsb (inv.run_loaded hp) rfl k.toNat⟩
    · exact ⟨_, rfl, rfl⟩
    · exact critExit_faults v s

end Sys2Proof.Machine
end

section
/-! The records and words of the block read back as written (R14, R67, R106, R117, R123, R124, R128). Every such word is a
concatenation of bit fields, so each law says either that adjacent fields of a value concatenate to the value, or that a field of a
concatenation is the part put there. -/

namespace Sys2Proof.Machine

/-! ### Byte order (R14) -/

@[simp] theorem be32_beBytes32 (v : U32) :
    be32 (v.extractLsb' 24 8) (v.extractLsb' 16 8) (v.extractLsb' 8 8) (v.extractLsb' 0 8) = v := by
  rw [be32, BitVec.extractLsb'_append_extractLsb'_eq_extractLsb' (by decide),
    BitVec.extractLsb'_append_extractLsb'_eq_extractLsb' (by decide),
    BitVec.extractLsb'_append_extractLsb'_eq_extractLsb' (by decide)]
  exact BitVec.extractLsb'_eq_self

@[simp] theorem be16_beBytes16 (v : U16) : be16 (v.extractLsb' 8 8) (v.extractLsb' 0 8) = v := by
  rw [be16, BitVec.extractLsb'_append_extractLsb'_eq_extractLsb' (by decide)]
  exact BitVec.extractLsb'_eq_self

@[simp] theorem beBytes32_be32 (b0 b1 b2 b3 : Byte) : beBytes32 (be32 b0 b1 b2 b3) = [b0, b1, b2, b3] := by
  simp only [beBytes32, be32, BitVec.extractLsb'_append_eq_ite]
  simp

@[simp] theorem beBytes16_be16 (b0 b1 : Byte) : beBytes16 (be16 b0 b1) = [b0, b1] := by
  simp only [beBytes16, be16, BitVec.extractLsb'_append_eq_ite]
  simp

/-! ### The identifier word (R117) -/

theorem packIdWord_std (v : BitVec 11) : packIdWord (.std v) = 0#21 ++ v :=
  BitVec.setWidth_eq_append (by decide)

theorem packIdWord_ext (v : BitVec 29) : packIdWord (.ext v) = 0b100#3 ++ v := by
  rw [BitVec.append_def]
  rfl

@[simp] theorem unpackIdWord_packIdWord (id : CanId) : unpackIdWord (packIdWord id) = id := by
  cases id with
  | std v =>
    have flag : (0#21 ++ v).getLsbD 31 = false := by rw [BitVec.getLsbD_append]; simp
    rw [packIdWord_std, unpackIdWord, flag, if_neg Bool.false_ne_true, mkStd, BitVec.extractLsb'_append_eq_right]
  | ext v =>
    have flag : (0b100#3 ++ v).getLsbD 31 = true := by rw [BitVec.getLsbD_append]; simp
    rw [packIdWord_ext, unpackIdWord, flag, if_pos rfl, mkExt, BitVec.extractLsb'_append_eq_right]

/-- The bits `f` before the low bits of a word give the word back iff they are its high bits. -/
theorem append_extractLsb'_eq_self_iff {m n : Nat} (f : BitVec m) (w : BitVec (m + n)) :
    f ++ w.extractLsb' 0 n = w ↔ w.extractLsb' n m = f := by
  have split : w.extractLsb' n m ++ w.extractLsb' 0 n = w := by
    rw [BitVec.extractLsb'_append_extractLsb'_eq_extractLsb' (by omega)]
    exact BitVec.extractLsb'_eq_self
  constructor
  · intro h
    rw [← h, BitVec.extractLsb'_append_eq_left]
  · rintro rfl
    exact split

/-- The high bits of a word from bit n on are its top bit and the bits between. -/
theorem extractLsb'_to_top (w : U32) (n k : Nat) (h : 31 = n + k) :
    w.extractLsb' n (1 + k) = BitVec.ofBool (w.getLsbD 31) ++ w.extractLsb' n k := by
  have top : BitVec.ofBool (w.getLsbD 31) = w.extractLsb' 31 1 := by
    ext i hi
    simp [Nat.lt_one_iff.1 hi]
  rw [top, BitVec.extractLsb'_append_extractLsb'_eq_extractLsb' h]

/-- An identifier word is packed from an identifier iff the bits that unpacking ignores are 0 (R117). -/
theorem packIdWord_unpackIdWord_iff (w : U32) :
    packIdWord (unpackIdWord w) = w ↔
      (if w.getLsbD 31 then w.extractLsb' 29 2 = 0 else w.extractLsb' 11 20 = 0) := by
  unfold unpackIdWord
  split
  next flag =>
    rw [mkExt, packIdWord_ext, append_extractLsb'_eq_self_iff, extractLsb'_to_top w 29 2 rfl, flag]
    exact BitVec.append_right_inj (t₂ := 0#2) 1#1
  next flag =>
    rw [mkStd, packIdWord_std, append_extractLsb'_eq_self_iff, extractLsb'_to_top w 11 20 rfl, Bool.eq_false_iff.2 flag]
    exact BitVec.append_right_inj (t₂ := 0#20) 0#1

/-! ### The identifier registers (R106) -/

/-- SIDL of an extended identifier holds EXIDE between its two fields. -/
theorem packId_ext (v : BitVec 29) :
    packId 3 (.ext v) = [v.extractLsb' 21 8, v.extractLsb' 18 3 ++ 0b010#3 ++ v.extractLsb' 16 2, v.extractLsb' 8 8,
      v.extractLsb' 0 8] := by
  have setExide : ∀ (a : BitVec 3) (b : BitVec 2), (a ++ 0#3 ++ b) ||| (1#8 <<< 3) = a ++ 0b010#3 ++ b := by decide
  rw [packId, setExide]

/-- The fields of a SIDL register. -/
theorem sidl_fields : ∀ (a m : BitVec 3) (b : BitVec 2),
    (a ++ m ++ b : Byte).extractLsb' 5 3 = a ∧ (a ++ m ++ b : Byte).extractLsb' 0 2 = b ∧
      bitOf (a ++ m ++ b) 3 = m.getLsbD 1 := by decide

theorem std11_packId (v : BitVec 11) : std11 (v.extractLsb' 3 8) (v.extractLsb' 0 3 ++ 0#5) = v := by
  rw [std11, BitVec.extractLsb'_append_eq_left, BitVec.extractLsb'_append_extractLsb'_eq_extractLsb' (by decide)]
  exact BitVec.extractLsb'_eq_self

theorem ext29_packId (v : BitVec 29) :
    ext29 (v.extractLsb' 21 8) (v.extractLsb' 18 3 ++ 0b010#3 ++ v.extractLsb' 16 2) (v.extractLsb' 8 8)
      (v.extractLsb' 0 8) = v := by
  obtain ⟨sid, eid, -⟩ := sidl_fields (v.extractLsb' 18 3) 0b010#3 (v.extractLsb' 16 2)
  rw [ext29, sid, eid, BitVec.extractLsb'_append_extractLsb'_eq_extractLsb' (by decide),
    BitVec.extractLsb'_append_extractLsb'_eq_extractLsb' (by decide),
    BitVec.extractLsb'_append_extractLsb'_eq_extractLsb' (by decide),
    BitVec.extractLsb'_append_extractLsb'_eq_extractLsb' (by decide)]
  exact BitVec.extractLsb'_eq_self

theorem packId_unpackId (id : CanId) :
    ∃ h l e8 e0, packId 3 id = [h, l, e8, e0] ∧ unpackId 3 h l e8 e0 = id := by
  cases id with
  | std v =>
    have exide : ∀ a : BitVec 3, bitOf (a ++ 0#5) 3 = false := by decide
    refine ⟨_, _, _, _, rfl, ?_⟩
    rw [unpackId, exide, if_neg Bool.false_ne_true, std11_packId]
  | ext v =>
    have exide := (sidl_fields (v.extractLsb' 18 3) 0b010#3 (v.extractLsb' 16 2)).2.2
    refine ⟨_, _, _, _, packId_ext v, ?_⟩
    rw [unpackId, exide, if_pos (by decide), ext29_packId]

/-! ### Formats, rows and numbers (R67, R123, R124, R128) -/

@[simp] theorem deserWire_serWire (f : SigFmt) : deserWire (serWire f) = f := by
  simp [deserWire, serWire, beBytes32]

theorem unord32_ord32 (o : ByteOrder) (v : U32) :
    ∃ b0 b1 b2 b3, ord32 o v = [b0, b1, b2, b3] ∧ unord32 o b0 b1 b2 b3 = v := by
  cases o with
  | be => exact ⟨_, _, _, _, rfl, be32_beBytes32 v⟩
  | le => exact ⟨_, _, _, _, rfl, be32_beBytes32 v⟩

theorem deserRec_serRec (o : ByteOrder) (f : SigFmt) : deserRec o (serRec o f) = f := by
  obtain ⟨b0, b1, b2, b3, hb, hv⟩ := unord32_ord32 o (packIdWord f.id)
  simp [deserRec, serRec, hb, hv]

theorem serRec_pad (o : ByteOrder) (f : SigFmt) : (serRec o f).getD 7 1 = 0 := by
  cases o <;> rfl

@[simp] theorem deserRow_serRow (k : U32) (v : U16) : deserRow (serRow k v) = (k, v) := by
  simp [deserRow, serRow, beBytes32, beBytes16]

theorem serRow_deserRow (b : List Byte) (hb : b.length = 6) : serRow (deserRow b).1 (deserRow b).2 = b := by
  match b, hb with
  | [b0, b1, b2, b3, b4, b5], _ => simp [serRow, deserRow]

theorem extractLsb'_signExtend_self {n m : Nat} (v : BitVec n) (h : n ≤ m) : (v.signExtend m).extractLsb' 0 n = v := by
  ext i hi
  have him : 0 + i < m := by omega
  rw [BitVec.getElem_extractLsb', BitVec.getLsbD_signExtend, decide_eq_true him]
  simp [hi]

theorem extractLsb'_setWidth_self {n m : Nat} (v : BitVec n) (h : n ≤ m) : (v.setWidth m).extractLsb' 0 n = v := by
  rw [BitVec.extractLsb'_setWidth_of_le (by omega), BitVec.extractLsb'_eq_self]

/-- A Number's container is the low end of its 32 bits, whichever way it was widened (R67). -/
theorem numberOperand_encodeNumber (n : Number) :
    ∃ tag b0 b1 b2 b3, encodeNumber n = [tag, b0, b1, b2, b3] ∧ numberOperand tag (be32 b0 b1 b2 b3) = .ok n := by
  cases n <;> refine ⟨_, _, _, _, _, rfl, ?_⟩ <;> rw [be32_beBytes32]
  case u8 v => exact congrArg (Except.ok ∘ Number.u8) (extractLsb'_setWidth_self v (by decide))
  case u16 v => exact congrArg (Except.ok ∘ Number.u16) (extractLsb'_setWidth_self v (by decide))
  case u32 v => rfl
  case i8 v => exact congrArg (Except.ok ∘ Number.i8) (extractLsb'_signExtend_self v (by decide))
  case i16 v => exact congrArg (Except.ok ∘ Number.i16) (extractLsb'_signExtend_self v (by decide))
  case i32 v => rfl

/-- Settles O10, record by record. -/
theorem recordsReadBack : Obligations.RecordsReadBack :=
  ⟨fun f => ⟨deserWire_serWire f, rfl⟩, fun o f => ⟨deserRec_serRec o f, serRec_length o f, serRec_pad o f⟩,
    deserRow_serRow, serRow_deserRow, numberOperand_encodeNumber, unpackIdWord_packIdWord, packIdWord_unpackIdWord_iff,
    packId_unpackId⟩

end Sys2Proof.Machine
end

section
/-! The command-port decoder and the class-word decoder (R61 to R66, R72, R134): each reader takes back what the encoder wrote and
leaves what follows, so decoding undoes encoding; what a reader has read it reads again when more bytes follow, so no command is a
proper beginning of another and a wrong length is always found. -/

namespace Sys2Proof.Machine

/-! ### A reader takes back what the encoder wrote -/

theorem readU16_beBytes16 (v : U16) (bs : List Byte) : readU16 (beBytes16 v ++ bs) = some (v, bs) := by
  simp [readU16, beBytes16]

theorem readU32_beBytes32 (v : U32) (bs : List Byte) : readU32 (beBytes32 v ++ bs) = some (v, bs) := by
  simp [readU32, beBytes32]

theorem readId_packIdWord (id : CanId) (bs : List Byte) : readId (beBytes32 (packIdWord id) ++ bs) = some (id, bs) := by
  simp [readId, readU32_beBytes32]

theorem readN_append (d bs : List Byte) : readN d.length (d ++ bs) = some (d, bs) := by
  simp [readN]

theorem readCounted_encodeCounted {d : List Byte} (hd : countOk d = true) (bs : List Byte) :
    readCounted (encodeCounted d ++ bs) = some (d, bs) := by
  have count : (BitVec.ofNat 8 d.length).toNat = d.length := Nat.mod_eq_of_lt (of_decide_eq_true hd)
  simp [readCounted, encodeCounted, readByte, count, readN_append]

theorem readFmt_serWire (m : SigFmt) (bs : List Byte) : readFmt (serWire m ++ bs) = some (m, bs) := by
  have seven : readN sigWireBytes (serWire m ++ bs) = some (serWire m, bs) := readN_append (serWire m) bs
  simp [readFmt, seven]

theorem encodeFrameArg_eq (f : FrameArg) :
    encodeFrameArg f = beBytes32 (packIdWord f.id) ++ f.rtr :: encodeCounted f.data := by
  simp [encodeFrameArg, encodeCounted]

theorem readFrame_encodeFrameArg {f : FrameArg} (hf : countOk f.data = true) (bs : List Byte) :
    readFrame (encodeFrameArg f ++ bs) = some (f, bs) := by
  simp [readFrame, encodeFrameArg_eq, readId_packIdWord, readByte, readCounted_encodeCounted hf]

/-- The operands of a well-formed command are read back, whatever bytes follow it (R61, R65, R66, R75). -/
theorem readOperands_encode (i : Instr) (hw : i.wellFormed = true) (hs : i.source = .port) :
    ∃ op tl, encode i = op :: tl ∧ op ∈ opBytes ∧ ∀ bs, readOperands op (tl ++ bs) = some (i, bs) := by
  cases i
  case spReset | spRead | spWrite | spBitmod | spReadblk | epWren | epRdsr | canSetmode | canSetbt | canReceive |
      canRxstatus | sigLoad | sigGet | rowRead | critEnter | critExit =>
    -- single bytes, which are read as they stand
    exact ⟨_, _, rfl, by decide, fun _ => rfl⟩
  case epRead | eeRead | tabLookup =>
    exact ⟨_, _, rfl, by decide, fun bs => by simp [readOperands, readU32_beBytes32, readByte]⟩
  case rowWrite =>
    exact ⟨_, _, rfl, by decide, fun bs => by simp [readOperands, readU32_beBytes32, readU16_beBytes16, readByte]⟩
  case canSetmask | canSetfilter =>
    exact ⟨_, _, rfl, by decide, fun bs => by simp [readOperands, readId_packIdWord, readByte]⟩
  case spWriteblk | epWrite | eeWrite =>
    have count := readCounted_encodeCounted hw
    exact ⟨_, _, rfl, by decide, fun bs => by simp [readOperands, readU32_beBytes32, readByte, count]⟩
  case canTransmit | sigPluck =>
    have frame := readFrame_encodeFrameArg hw
    exact ⟨_, _, rfl, by decide, fun bs => by simp [readOperands, readFmt_serWire, frame]⟩
  case sigStore =>
    exact ⟨_, _, rfl, by decide, fun bs => by simp [readOperands, readFmt_serWire, readByte]⟩
  case tblRd | tblWr | sigRd | sigWr | sigFrameMid | sigFrameHigh => exact absurd hs (by simp [Instr.source])

/-! ### The three answers of the command-port decoder (R63, R64) -/

theorem decode_port_unknownOp {op : Byte} (h : op ∉ opBytes) (bs : List Byte) :
    decode .port (op :: bs) = .error .unknownOp := if_neg h

theorem decode_port_badCommandLength {op : Byte} {bs : List Byte} (h : op ∈ opBytes)
    (hr : ∀ i, readOperands op bs ≠ some (i, [])) : decode .port (op :: bs) = .error .badCommandLength := by
  rw [decode, decodeCommand, if_pos h]
  match hr' : readOperands op bs with
  | none => rfl
  | some (i, []) => exact absurd hr' (hr i)
  | some (i, b :: r) => rfl

theorem decode_port_ok_iff (op : Byte) (bs : List Byte) (i : Instr) :
    decode .port (op :: bs) = .ok i ↔ op ∈ opBytes ∧ readOperands op bs = some (i, []) := by
  by_cases listed : op ∈ opBytes
  · simp only [decode, decodeCommand, listed, true_and, if_true]
    match readOperands op bs with
    | none => simp
    | some (j, []) => simp
    | some (j, b :: r) => simp
  · simp [decode_port_unknownOp listed, listed]

/-! ### A reader reads the same when more bytes follow (R63) -/

/-- What the first reading answers, the second answers too, with the bytes x left after the rest. -/
def ReadsOn {α : Type} (x : List Byte) (o o' : Option (α × List Byte)) : Prop :=
  ∀ a r, o = some (a, r) → o' = some (a, r ++ x)

theorem ReadsOn.some {α : Type} (x : List Byte) (a : α) (bs : List Byte) : ReadsOn x (some (a, bs)) (some (a, bs ++ x)) := by
  intro _ _ h
  cases h
  rfl

theorem ReadsOn.bind {α β : Type} {x : List Byte} {o o' : Option (α × List Byte)}
    {k k' : α × List Byte → Option (β × List Byte)} (ho : ReadsOn x o o')
    (hk : ∀ a r, ReadsOn x (k (a, r)) (k' (a, r ++ x))) : ReadsOn x (o.bind k) (o'.bind k') := by
  intro b t h
  obtain ⟨⟨a, r⟩, ha, hb⟩ := Option.bind_eq_some_iff.1 h
  rw [ho a r ha]
  exact hk a r b t hb

/-- A function of what was read, which leaves the rest alone. -/
theorem ReadsOn.map {α β : Type} {x : List Byte} {o o' : Option (α × List Byte)} (f : α → β) (ho : ReadsOn x o o') :
    ReadsOn x (o.map fun p => (f p.1, p.2)) (o'.map fun p => (f p.1, p.2)) := by
  intro b t h
  obtain ⟨⟨a, r⟩, ha, hb⟩ := Option.map_eq_some_iff.1 h
  cases hb
  rw [ho a r ha]
  rfl

theorem readByte_readsOn (x bs : List Byte) : ReadsOn x (readByte bs) (readByte (bs ++ x)) := by
  cases bs with
  | nil => nofun
  | cons b r => exact .some x b r

theorem readU16_readsOn (x bs : List Byte) : ReadsOn x (readU16 bs) (readU16 (bs ++ x)) := by
  match bs with
  | [] | [_] => nofun
  | b0 :: b1 :: r => exact .some x (be16 b0 b1) r

theorem readU32_readsOn (x bs : List Byte) : ReadsOn x (readU32 bs) (readU32 (bs ++ x)) := by
  match bs with
  | [] | [_] | [_, _] | [_, _, _] => nofun
  | b0 :: b1 :: b2 :: b3 :: r => exact .some x (be32 b0 b1 b2 b3) r

theorem readId_readsOn (x bs : List Byte) : ReadsOn x (readId bs) (readId (bs ++ x)) :=
  (readU32_readsOn x bs).map unpackIdWord

theorem readN_readsOn (n : Nat) (x bs : List Byte) : ReadsOn x (readN n bs) (readN n (bs ++ x)) := by
  intro d r h
  obtain ⟨hn, hd⟩ := Option.ite_none_right_eq_some.1 h
  cases hd
  have hx : n ≤ (bs ++ x).length := by simp; omega
  rw [readN, if_pos hx, List.take_append_of_le_length hn, List.drop_append_of_le_length hn]

theorem readCounted_readsOn (x bs : List Byte) : ReadsOn x (readCounted bs) (readCounted (bs ++ x)) :=
  (readByte_readsOn x bs).bind fun n r => readN_readsOn n.toNat x r

theorem readFmt_readsOn (x bs : List Byte) : ReadsOn x (readFmt bs) (readFmt (bs ++ x)) :=
  (readN_readsOn sigWireBytes x bs).map deserWire

theorem readFrame_readsOn (x bs : List Byte) : ReadsOn x (readFrame bs) (readFrame (bs ++ x)) :=
  (readId_readsOn x bs).bind fun i r => (readByte_readsOn x r).bind fun b r =>
    (readCounted_readsOn x r).map (FrameArg.mk i b)

/-- Row by row of the table of R61. -/
theorem readOperands_readsOn (op : Byte) (x bs : List Byte) :
    ReadsOn x (readOperands op bs) (readOperands op (bs ++ x)) := by
  have byte := readByte_readsOn x
  have u32 := readU32_readsOn x
  have counted := readCounted_readsOn x
  unfold readOperands
  split
  · exact .some x Instr.spReset bs
  · exact (byte bs).map Instr.spRead
  · exact (byte bs).bind fun a r => (byte r).map (Instr.spWrite a)
  · exact (byte bs).bind fun a r => (byte r).bind fun m r => (byte r).map (Instr.spBitmod a m)
  · exact (byte bs).bind fun a r => (byte r).map (Instr.spReadblk a)
  · exact (byte bs).bind fun a r => (counted r).map (Instr.spWriteblk a)
  · exact .some x Instr.epWren bs
  · exact .some x Instr.epRdsr bs
  · exact (u32 bs).bind fun a r => (byte r).map (Instr.epRead a)
  · exact (u32 bs).bind fun a r => (counted r).map (Instr.epWrite a)
  · exact (u32 bs).bind fun a r => (counted r).map (Instr.eeWrite a)
  · exact (u32 bs).bind fun a r => (byte r).map (Instr.eeRead a)
  · exact (byte bs).map Instr.canSetmode
  · exact (byte bs).bind fun a r => (byte r).bind fun b r => (byte r).map (Instr.canSetbt a b)
  · exact (byte bs).bind fun k r => (readId_readsOn x r).map (Instr.canSetmask k)
  · exact (byte bs).bind fun f r => (readId_readsOn x r).map (Instr.canSetfilter f)
  · exact (byte bs).map Instr.canReceive
  · exact (readFrame_readsOn x bs).map Instr.canTransmit
  · exact .some x Instr.canRxstatus bs
  · exact (readFmt_readsOn x bs).bind fun m r => (readFrame_readsOn x r).map (Instr.sigPluck m)
  · exact (byte bs).map Instr.sigLoad
  · exact (byte bs).bind fun s r => (readFmt_readsOn x r).map (Instr.sigStore s)
  · exact (byte bs).map Instr.sigGet
  · exact (byte bs).bind fun t r => (byte r).bind fun i r => (u32 r).bind fun k r =>
      (readU16_readsOn x r).map (Instr.rowWrite t i k)
  · exact (byte bs).bind fun t r => (byte r).map (Instr.rowRead t)
  · exact (byte bs).bind fun t r => (byte r).bind fun g r => (u32 r).map (Instr.tabLookup t g)
  · exact .some x Instr.critEnter bs
  · exact (byte bs).map Instr.critExit
  · nofun

/-- No command is a proper beginning of another (R63). -/
theorem decode_port_append {cmd x : List Byte} {i : Instr} (h : decode .port cmd = .ok i) (hx : x ≠ []) :
    decode .port (cmd ++ x) = .error .badCommandLength := by
  match cmd with
  | [] => exact absurd h (by simp [decode, decodeCommand])
  | op :: bs =>
    obtain ⟨listed, hi⟩ := (decode_port_ok_iff op bs i).1 h
    have hr : readOperands op (bs ++ x) = some (i, x) := readOperands_readsOn op x bs i [] hi
    refine decode_port_badCommandLength listed fun j hj => hx ?_
    exact congrArg Prod.snd (Option.some.inj (hr.symm.trans hj))

/-- A proper beginning of a command is too short (R63). -/
theorem decode_port_of_append {p x : List Byte} {i : Instr} (h : decode .port (p ++ x) = .ok i) (hp : p ≠ []) (hx : x ≠ []) :
    decode .port p = .error .badCommandLength := by
  match p with
  | [] => exact absurd rfl hp
  | op :: bs =>
    obtain ⟨listed, -⟩ := (decode_port_ok_iff op (bs ++ x) i).1 h
    refine decode_port_badCommandLength listed fun j hj => ?_
    have hj' := (decode_port_ok_iff op bs j).2 ⟨listed, hj⟩
    exact absurd (h.symm.trans (decode_port_append hj' hx)) (by simp)

/-! ### The class word (R72, R134) -/

/-- The fields of a class word. -/
theorem classWord_fields (h : BitVec 3) (fr : CanFrame) :
    (classWord h fr).extractLsb' 4 4 = BitVec.ofNat 4 fr.dlc ∧ bitOf (classWord h fr) 3 = fr.rtr ∧
      (classWord h fr).extractLsb' 0 3 = h := by
  have fields : ∀ (d : BitVec 4) (b : Bool) (h : BitVec 3),
      (d ++ BitVec.ofBool b ++ h : Byte).extractLsb' 4 4 = d ∧ bitOf (d ++ BitVec.ofBool b ++ h) 3 = b ∧
        (d ++ BitVec.ofBool b ++ h : Byte).extractLsb' 0 3 = h := by decide
  exact fields _ _ _

/-- A class word, the identifier word and the data are read back as the frame's instruction. -/
theorem decode_encodeClass (h : BitVec 3) {fr : CanFrame} (ok : fr.ok = true) :
    decode .frame (encodeClass h fr) = .ok (frameInstr h fr) := by
  have dlc_le : fr.data.length ≤ 8 := of_decide_eq_true ok
  obtain ⟨hd, hb, hh⟩ := classWord_fields h fr
  have count : clampDlc (BitVec.ofNat 4 fr.dlc) = fr.data.length := by
    simp only [clampDlc, BitVec.toNat_ofNat, maxDlc, CanFrame.dlc]
    omega
  have data : readN fr.data.length fr.data = some (fr.data, []) := by
    simpa using readN_append fr.data []
  simp [decode, decodeFrame, encodeClass, readClass, readId_packIdWord, hd, hb, hh, count, data]

theorem frameInstr_zero (fr : CanFrame) : frameInstr 0 fr = if fr.rtr then .tblRd fr else .tblWr fr := by
  unfold frameInstr classify
  cases fr.rtr <;> rfl

theorem frameInstr_one (fr : CanFrame) : frameInstr 1 fr = if fr.rtr then .sigRd fr else .sigWr fr := by
  unfold frameInstr classify
  cases fr.rtr <;> rfl

theorem frameInstr_mid (h : BitVec 1) (fr : CanFrame) : frameInstr (1#2 ++ h) fr = .sigFrameMid h fr := by
  have hit : ∀ h : BitVec 1, (1#2 ++ h : BitVec 3) ≠ 0 ∧ (1#2 ++ h : BitVec 3) ≠ 1 ∧
      (1#2 ++ h : BitVec 3).getLsbD 2 = false ∧ (1#2 ++ h : BitVec 3).extractLsb' 0 1 = h := by decide
  obtain ⟨h0, h1, high, low⟩ := hit h
  simp only [frameInstr, classify, if_neg h0, if_neg h1, high, low, Bool.false_eq_true, if_false]

theorem frameInstr_high (h : BitVec 2) (fr : CanFrame) : frameInstr (1#1 ++ h) fr = .sigFrameHigh h fr := by
  have hit : ∀ h : BitVec 2, (1#1 ++ h : BitVec 3) ≠ 0 ∧ (1#1 ++ h : BitVec 3) ≠ 1 ∧
      (1#1 ++ h : BitVec 3).getLsbD 2 = true ∧ (1#1 ++ h : BitVec 3).extractLsb' 0 2 = h := by decide
  obtain ⟨h0, h1, high, low⟩ := hit h
  simp only [frameInstr, classify, if_neg h0, if_neg h1, high, low, if_true]

theorem decode_port_encode {i : Instr} (hw : i.wellFormed = true) (hs : i.source = .port) :
    decode .port (encode i) = .ok i := by
  obtain ⟨op, tl, he, listed, hr⟩ := readOperands_encode i hw hs
  rw [he]
  exact (decode_port_ok_iff op tl i).2 ⟨listed, by simpa using hr []⟩

theorem decode_frame_encode {i : Instr} (hw : i.wellFormed = true) (hs : i.source = .frame) :
    decode .frame (encode i) = .ok i := by
  cases i
  case tblRd fr =>
    obtain ⟨ok, remote⟩ := Bool.and_eq_true_iff.1 hw
    rw [encode, decode_encodeClass 0 ok, frameInstr_zero, if_pos remote]
  case tblWr fr =>
    obtain ⟨ok, data⟩ := Bool.and_eq_true_iff.1 hw
    rw [encode, decode_encodeClass 0 ok, frameInstr_zero, if_neg (by simpa using data)]
  case sigRd fr =>
    obtain ⟨ok, remote⟩ := Bool.and_eq_true_iff.1 hw
    rw [encode, decode_encodeClass 1 ok, frameInstr_one, if_pos remote]
  case sigWr fr =>
    obtain ⟨ok, data⟩ := Bool.and_eq_true_iff.1 hw
    rw [encode, decode_encodeClass 1 ok, frameInstr_one, if_neg (by simpa using data)]
  case sigFrameMid h fr => rw [encode, decode_encodeClass _ hw, frameInstr_mid]
  case sigFrameHigh h fr => rw [encode, decode_encodeClass _ hw, frameInstr_high]
  all_goals exact absurd hs (by simp [Instr.source])

/-- Settles O1, decoder by decoder. -/
theorem decodeEncode : Obligations.DecodeEncode := by
  intro i hw
  cases hs : i.source
  case port => exact decode_port_encode hw hs
  case frame => exact decode_frame_encode hw hs

/-- Settles O2: each word is the encoding of its instruction. -/
theorem decodesSpecWords : Obligations.DecodesSpecWords :=
  ⟨decodeEncode (.spBitmod 0x2C 0x01 0x00) rfl, decodeEncode (.epWrite 0x10 [0xAA, 0x55]) rfl,
    decodeEncode (.canSetfilter 4 (.ext 0)) rfl, decodeEncode (.sigStore 2 ⟨.ext 0x18FEF100, 0x08, 0x10, 0x01⟩) rfl,
    decodeEncode (.rowWrite 0 2 0xC8 0x0BB8) rfl, decodeEncode (.critExit 1) rfl,
    decodeEncode (.tblRd ⟨.std 0x245, true, []⟩) rfl, decodeEncode (.sigFrameHigh 0 ⟨.ext 5, false, [0x32]⟩) rfl⟩

/-! ### The class of a received frame (R72, R134) -/

theorem classWord_toNat (h : BitVec 3) {fr : CanFrame} (ok : fr.ok = true) :
    (classWord h fr).toNat = 16 * fr.dlc + 8 * fr.rtr.toNat + h.toNat := by
  have dlc_le : fr.data.length ≤ 8 := of_decide_eq_true ok
  have value : ∀ (d : BitVec 4) (b : Bool) (h : BitVec 3),
      (d ++ BitVec.ofBool b ++ h : Byte).toNat = 16 * d.toNat + 8 * b.toNat + h.toNat := by decide
  rw [classWord, value, BitVec.toNat_ofNat, Nat.mod_eq_of_lt (by simp only [CanFrame.dlc]; omega)]

/-- A mask without the DLC bits sees the remote bit and the hit only. -/
theorem classWord_and_low (h : BitVec 3) (fr : CanFrame) (m : BitVec 4) :
    classWord h fr &&& (0#4 ++ m) = 0#4 ++ ((BitVec.ofBool fr.rtr ++ h) &&& m) := by
  have fields : classWord h fr = BitVec.ofNat 4 fr.dlc ++ (BitVec.ofBool fr.rtr ++ h) := BitVec.append_assoc
  rw [fields, BitVec.and_append, BitVec.and_zero]

/-- The rows of R72 on the remote bit and the hit. -/
theorem classify_iff_row : ∀ (h : BitVec 3) (b : Bool),
    (classify h b = .tblRd ↔ 0#4 ++ ((BitVec.ofBool b ++ h) &&& 0xF#4) = 0x08#8) ∧
      (classify h b = .tblWr ↔ 0#4 ++ ((BitVec.ofBool b ++ h) &&& 0xF#4) = 0x00#8) ∧
      (classify h b = .sigRd ↔ 0#4 ++ ((BitVec.ofBool b ++ h) &&& 0xF#4) = 0x09#8) ∧
      (classify h b = .sigWr ↔ 0#4 ++ ((BitVec.ofBool b ++ h) &&& 0xF#4) = 0x01#8) ∧
      (classify h b = .sigFrame ↔ 0#4 ++ ((BitVec.ofBool b ++ h) &&& 0x6#4) = 0x02#8 ∨
        0#4 ++ ((BitVec.ofBool b ++ h) &&& 0x4#4) = 0x04#8) := by decide

/-- Settles O5: no row's mask has a DLC bit, so each row is a condition on the remote bit and the hit, which classify reads. -/
theorem classFollowsClassWord : Obligations.ClassFollowsClassWord := by
  intro h fr ok
  have rows := classify_iff_row h fr.rtr
  simp only [← classWord_and_low] at rows
  obtain ⟨tblRd, tblWr, sigRd, sigWr, sigFrame⟩ := rows
  exact ⟨tblRd, tblWr, sigRd, sigWr, sigFrame, classWord_toNat h ok⟩

/-! ### A command that is not decoded (R63, R64) -/

theorem rejectCommand_onlyResult {s : State} (hs : Sampled s) (e : DecodeError) :
    (rejectCommand e s).lastResult = some (decodeErr e).code ∧ OnlyResult s (rejectCommand e s) := by
  have he : rejectCommand e s = { s with lastResult := some (decodeErr e).code } :=
    sample_of_sampled (s := { s with lastResult := some (decodeErr e).code }) hs
  rw [he]
  exact ⟨rfl, ⟨rfl, rfl, rfl, rfl, rfl, rfl, rfl, rfl, rfl, rfl, rfl⟩, ⟨rfl, rfl⟩, ⟨fun _ => rfl, rfl, rfl⟩,
    ⟨fun _ => rfl, rfl, rfl, rfl, rfl⟩, ⟨rfl, rfl, rfl, rfl, rfl, rfl⟩, rfl, rfl⟩

/-- With no handler entry enabled, a foreground step takes the next command (R145, R158). -/
theorem step_eq_presentStep {s : State} {cmd : List Byte} {rest : List (List Byte)} (hv : s.cfg.valid = true)
    (hp : s.phase = .run) (hc : s.ctx = .foreground) (hn : entryEnabled s = false) (hs : s.script = cmd :: rest) :
    step s = presentStep cmd { s with script := rest } := by
  have foreground : step s = foregroundStep s := by
    unfold step
    rw [if_pos hv, hp, hc]
  have present : foregroundStep s = presentStep cmd { s with script := rest } := by
    unfold foregroundStep
    rw [hn, if_neg Bool.false_ne_true, hs]
  exact foreground.trans present

/-- A command that is not decoded writes its result and nothing else. -/
theorem step_of_not_decoded {s : State} {cmd : List Byte} {rest : List (List Byte)} {e : DecodeError}
    (hd : decode .port cmd = .error e) (hv : s.cfg.valid = true) (hp : s.phase = .run) (hc : s.ctx = .foreground)
    (hn : entryEnabled s = false) (hs : s.script = cmd :: rest) (hl : Sampled s) (hq : Still s) :
    ∃ t, step s = .next t ∧ t.lastResult = some (decodeErr e).code ∧ OnlyResult { s with script := rest } t := by
  have reject : presentStep cmd { s with script := rest } =
      .next (envGap (rejectCommand e { s with script := rest })) := by
    unfold presentStep
    rw [hd]
  have quiet : envGap (rejectCommand e { s with script := rest }) = rejectCommand e { s with script := rest } :=
    envGap_of_still _ hq
  refine ⟨_, ?_, rejectCommand_onlyResult (s := { s with script := rest }) hl e⟩
  rw [step_eq_presentStep hv hp hc hn hs, reject, quiet]

/-- The op bytes R64 lists as unassigned are none of R61. -/
theorem not_mem_opBytes : ∀ op : Byte,
    (op = 0x00 ∨ op = 0x07 ∨ (0x0C ≤ op ∧ op ≤ 0x0F) ∨ (0x12 ≤ op ∧ op ≤ 0x1F) ∨ (0x27 ≤ op ∧ op ≤ 0x2F) ∨
      (0x34 ≤ op ∧ op ≤ 0x3F) ∨ (0x43 ≤ op ∧ op ≤ 0x4F) ∨ 0x52 ≤ op) → op ∉ opBytes := by decide

/-- Settles O3. -/
theorem unlistedOpIsRejected : Obligations.UnlistedOpIsRejected := by
  intro op bs s rest hop
  have hd := decode_port_unknownOp (not_mem_opBytes op hop) bs
  exact ⟨hd, step_of_not_decoded hd⟩

/-- Settles O4: no command is a proper beginning of another. -/
theorem wrongLengthIsRejected : Obligations.WrongLengthIsRejected := by
  refine ⟨?longer, ?shorter, fun cmd s rest hd => step_of_not_decoded hd⟩
  case longer =>
    intro i bs hw hs hb
    exact decode_port_append (decode_port_encode hw hs) hb
  case shorter =>
    intro i n hw hs h0 hn
    have whole : decode .port ((encode i).take n ++ (encode i).drop n) = .ok i := by
      rw [List.take_append_drop]
      exact decode_port_encode hw hs
    refine decode_port_of_append whole ?_ ?_
    · exact fun h => (List.take_eq_nil_iff.1 h).elim (by omega) fun h => by simp [h] at hn
    · exact fun h => by have := List.drop_eq_nil_iff.1 h; omega

end Sys2Proof.Machine
end

section
/-! The SP_ and EP_ commands and CAN_RXSTATUS (R84 to R94, R115): each is one transaction between the command's first step and its
result (R145). Run alone, the gap after the transaction does nothing, so what the command leaves is what the device's action left,
with the chip selects released, the transaction an event and the result recorded. -/

namespace Sys2Proof.Machine

/-! ### A command of one transaction, run alone -/

/-- A command whose operands pass its checks: one transaction x, then the result bytes res. -/
def Runs (i : Instr) (s : State) (x : Xfer) (res : List Byte) : Prop :=
  exec i s = .next (endCommand (.ok res, (xfer fgGap x (beginCommand s)).2))

/-- The state such a command leaves, v being the state in which the device has acted and answered inp. -/
def State.answered (v : State) (x : Xfer) (inp res : List Byte) : State := endCommand (.ok res, v.endXfer x inp)

/-- The last step of a command samples the line itself. -/
theorem endCommand_sample (r : Except Err (List Byte)) (u : State) : endCommand (r, sample u) = endCommand (r, u) :=
  congrArg (fun v : State => { v with lastResult := some (encodeResult r), cmdBusy := false, cmdIssued := false })
    (sample_sample u)

theorem endCommand_tick_of_alone {u : State} (h : Alone u) (r : Except Err (List Byte)) :
    endCommand (r, tick fgGap u) = endCommand (r, u) := by
  rw [tick_fgGap_of_alone u h, endCommand_sample]

/-- The command that ran alone, from what its transaction is. -/
theorem Runs.next_of_alone {i : Instr} {s v : State} {x : Xfer} {inp res : List Byte} (h : Runs i s x res) (hv : Alone v)
    (hx : (beginCommand s).transact x = (inp, v.endXfer x inp)) : exec i s = .next (v.answered x inp res) := by
  have acted : Alone (v.endXfer x inp) := hv
  rw [show exec i s = _ from h, xfer, hx, endCommand_tick_of_alone acted]
  rfl

/-! ### What the command adds to the device's action -/

section
variable {s v : State} (x : Xfer) (inp res : List Byte)

@[simp] theorem answered_lastResult : (v.answered x inp res).lastResult = some ([0x00, 0x00] ++ res) := rfl
@[simp] theorem answered_events : (v.answered x inp res).events = v.events ++ [.xfer x.dev (x.out v.cfg) inp] := rfl
@[simp] theorem answered_reg (a : Nat) : (v.answered x inp res).reg a = v.reg a := rfl
@[simp] theorem answered_intLine : (v.answered x inp res).intLine = v.intLine := rfl
@[simp] theorem answered_intPrev : (v.answered x inp res).intPrev = v.intLine := rfl
@[simp] theorem answered_latch : (v.answered x inp res).latch = (v.latch || (v.intLine && !v.intPrev)) := rfl
@[simp] theorem answered_settled : (v.answered x inp res).settled = v.settled := by simp only [settled_eq]; rfl

/-- No chip select was asserted before, and none is after. -/
theorem SameBlock.answered (h : SameBlock s v) (hr : Ready s) : SameBlock s (v.answered x inp res) := by
  obtain ⟨cfg, phase, boot, mirror, gie, ctx, _, _, shadow, err, faults⟩ := h
  obtain ⟨_, can, ee⟩ := hr
  exact ⟨cfg, phase, boot, mirror, gie, ctx, can.symm, ee.symm, shadow, err, faults⟩

/-- The edge detector stays as it was where the device's action leaves the line alone. -/
theorem SameLatch.answered (h : SameLatch s v) (hr : Ready s) (line : v.intLine = s.intLine) :
    SameLatch s (v.answered x inp res) := by
  obtain ⟨latch, prev⟩ := h
  obtain ⟨sampled, _⟩ := hr
  have detector : s.intPrev = s.intLine := sampled
  refine ⟨?_, line.trans detector.symm⟩
  rw [answered_latch, latch, prev, line, detector, Bool.and_not_self, Bool.or_false]

theorem SameController.answered (h : SameController s v) : SameController s (v.answered x inp res) := h

theorem SameEeprom.answered (h : SameEeprom s v) : SameEeprom s (v.answered x inp res) := h

theorem SameWorld.answered (h : SameWorld s v) : SameWorld s (v.answered x inp res) := h

end

/-! ### The first step of a command leaves all but the command itself as it was -/

theorem beginCommand_sameBlock (s : State) : SameBlock s (beginCommand s) :=
  ⟨rfl, rfl, rfl, rfl, rfl, rfl, rfl, rfl, rfl, rfl, rfl⟩

theorem beginCommand_sameLatch (s : State) : SameLatch s (beginCommand s) := ⟨rfl, rfl⟩

theorem beginCommand_sameController (s : State) : SameController s (beginCommand s) := ⟨fun _ => rfl, rfl, rfl⟩

theorem beginCommand_sameEeprom (s : State) : SameEeprom s (beginCommand s) := ⟨fun _ => rfl, rfl, rfl, rfl, rfl⟩

theorem beginCommand_sameWorld (s : State) : SameWorld s (beginCommand s) := ⟨rfl, rfl, rfl, rfl, rfl, rfl⟩

/-! ### The reading commands (R85, R88, R92, R93, R115) -/

/-- A command of one transaction that leaves its device as it was, and whose result is the device's answer. -/
theorem Runs.reads {i : Instr} {s : State} {x : Xfer} {inp : List Byte} (h : Runs i s x inp)
    (hx : (beginCommand s).transact x = (inp, (beginCommand s).endXfer x inp)) :
    ReadsByOneTransaction i s x.dev (x.out s.cfg) inp := by
  refine ⟨_, h, rfl, fun alone ready => ?_⟩
  have same : endCommand (.ok inp, (xfer fgGap x (beginCommand s)).2) = (beginCommand s).answered x inp inp :=
    Host.Outcome.next.inj ((show exec i s = _ from h).symm.trans (h.next_of_alone (v := beginCommand s) alone hx))
  rw [same]
  exact ⟨(beginCommand_sameBlock s).answered x inp inp ready, (beginCommand_sameLatch s).answered x inp inp ready rfl,
    beginCommand_sameController s, beginCommand_sameEeprom s, beginCommand_sameWorld s, rfl, rfl⟩

theorem spRead_runs (s : State) {a : Byte} (ha : a.toNat < 0x80) :
    Runs (.spRead a) s (.canRead a.toNat 1) [s.reg a.toNat] := by
  have inSpace : ¬ a.toNat ≥ regSpace := Nat.not_le.2 ha
  unfold Runs
  simp only [exec, execSpRead, command, if_neg inSpace]
  rfl

theorem spReadblk_runs (s : State) {a n : Byte} (hn : n ≠ 0) (ha : a.toNat + n.toNat ≤ 0x80) :
    Runs (.spReadblk a n) s (.canRead a.toNat n.toNat) ((List.range n.toNat).map fun j => s.reg (a.toNat + j)) := by
  have inSpace : ¬ a.toNat + n.toNat > regSpace := Nat.not_lt.2 ha
  unfold Runs
  simp only [exec, execSpReadblk, command, if_neg hn, if_neg inSpace]
  rfl

theorem canRxstatus_runs (s : State) : Runs .canRxstatus s .canRxStatus [s.rxStatusByte] := rfl

theorem epRdsr_runs (s : State) : Runs .epRdsr s .eeRdsr [s.eeStatus] := rfl

theorem epRead_runs {s : State} (hw : s.wip = false) (hf : AddressFits s.cfg) {addr : U32} {n : Byte} (hn : n ≠ 0)
    (ha : addr.toNat + n.toNat ≤ s.cfg.eeSize) :
    Runs (.epRead addr n) s (.eeRead addr.toNat n.toNat) (s.eeBytes addr.toNat n.toNat) := by
  have inArray : ¬ addr.toNat + n.toNat > (beginCommand s).cfg.eeSize := Nat.not_lt.2 ha
  have answer : (xfer fgGap (.eeRead addr.toNat n.toNat) (beginCommand s)).1 = s.eeBytes addr.toNat n.toNat := by
    rw [xfer, transact_eeRead (beginCommand s) _ _ hw]
    exact readBytes_eq s _ _ hf ha
  unfold Runs
  simp only [exec, execEpRead, command, if_neg hn, if_neg inArray, answer]

/-- The value of the status byte of R71 and R115. -/
theorem rxStatusByte_toNat (s : State) :
    s.rxStatusByte.toNat = 128 * (s.rxFlag 1).toNat + 64 * (s.rxFlag 0).toNat + 8 * s.lastType.toNat + s.lastHit.toNat := by
  have value : ∀ (f1 f0 : Bool) (t : BitVec 2) (h : BitVec 3),
      (BitVec.ofBool f1 ++ BitVec.ofBool f0 ++ 0#1 ++ t ++ h).toNat = 128 * f1.toNat + 64 * f0.toNat + 8 * t.toNat + h.toNat := by
    decide
  exact value _ _ _ _

/-- The value of the EEPROM's status byte (R95). -/
theorem eeStatus_toNat {s : State} (h : StatusBits s.cfg) :
    s.eeStatus.toNat = 2 ^ s.cfg.dev.wipBit * s.wip.toNat + 2 ^ s.cfg.dev.welBit * s.wel.toNat := by
  have value : ∀ i < 8, ∀ j < 8, i ≠ j → ∀ w l : Bool,
      (withBit (withBit 0 i w) j l).toNat = 2 ^ i * w.toNat + 2 ^ j * l.toNat := by decide
  obtain ⟨wip_lt, wel_lt, ne⟩ := h
  exact value _ wip_lt _ wel_lt ne _ _

/-- The address byte of a register command is the operand itself (R69). -/
theorem out_canRead (p : Params) (a : Byte) (n : Nat) : (Xfer.canRead a.toNat n).out p = [p.dev.opRead, a] := by
  simp only [Xfer.out, BitVec.ofNat_toNat, BitVec.setWidth_eq]

/-- Settles O12, command by command. -/
theorem portReads : Obligations.PortReads := by
  intro s a n addr
  refine ⟨?spRead, ?spReadblk, ?canRxstatus, ?epRdsr, ?epRead⟩
  case spRead =>
    intro ha
    rw [← out_canRead s.cfg a 1]
    exact (spRead_runs s ha).reads (transact_canRead (beginCommand s) _ _)
  case spReadblk =>
    intro hn ha
    rw [← out_canRead s.cfg a n.toNat]
    exact (spReadblk_runs s hn ha).reads (transact_canRead (beginCommand s) _ _)
  case canRxstatus =>
    exact ⟨_, rxStatusByte_toNat s, (canRxstatus_runs s).reads (transact_canRxStatus (beginCommand s))⟩
  case epRdsr =>
    intro bits
    exact ⟨_, eeStatus_toNat bits, (epRdsr_runs s).reads (transact_eeRdsr (beginCommand s))⟩
  case epRead =>
    intro idle fits hn ha
    have answer := transact_eeRead (beginCommand s) addr.toNat n.toNat idle
    rw [readBytes_eq (beginCommand s) _ _ fits ha] at answer
    exact (epRead_runs idle fits hn ha).reads answer

end Sys2Proof.Machine
end

section
/-! The writing commands of the controller, SP_WRITE, SP_BITMOD and SP_WRITEBLK (R86, R87, R89): all three are a block write, and
each register of the block keeps or takes what `State.writable` says (R83, R104, R105). -/

namespace Sys2Proof.Machine

/-! ### What a block write leaves in one register (R83) -/

/-- CANINTF after a write: bits 1:0 are cleared and never set, the others take the written value (R34). -/
theorem bitOf_and_rxFlags (v old : Byte) {i : Nat} (hi : i < 8) :
    bitOf (v &&& (old ||| 0xFC)) i = if i < 2 then bitOf v i && bitOf old i else bitOf v i := by
  have mask : ∀ i < 8, (0xFC : Byte).getLsbD i = !decide (i < 2) := by decide
  unfold bitOf
  rw [BitVec.getLsbD_and, BitVec.getLsbD_or, mask i hi]
  by_cases flag : i < 2 <;> simp [flag]

/-- TXB0CTRL after a write: TXERR stays but where TXREQ rises, the others take the written value (R36, R104). -/
theorem bitOf_withTxerr (v old : Byte) (i : Nat) :
    bitOf (withBit v 4 (bitOf old 4 && !(bitOf v 3 && !bitOf old 3))) i =
      if i = 4 then bitOf old 4 && !(bitOf v 3 && !bitOf old 3) else bitOf v i :=
  bitOf_withBit v 4 i _ (by decide)

/-- A register that ignores the write or takes it as `State.writable` says. -/
theorem writesByte_of_reg {s t : State} {a : Nat} {v : Byte} (hd : s.cfg.dev = .standard)
    (h : t.reg a = if s.locked a = false then s.writable a v else s.reg a) : WritesByte s t a v := by
  have locked : s.locked a = true ↔ s.cfg.dev.map.isConfig a = true ∧ s.inMode .config = false := by simp [State.locked]
  unfold WritesByte
  by_cases hl : s.locked a = true
  · rw [if_pos (locked.1 hl), h, if_neg (by simp [hl])]
  · rw [if_neg (fun hc => hl (locked.2 hc))]
    rw [if_pos (by simpa using hl), State.writable, hd] at h
    change t.reg a = if a = 0x0E then _ else if a = 0x30 then _ else if a = 0x2C then _ else v at h
    split
    next canstat => rw [h, if_pos canstat]; rfl
    next not_canstat =>
      rw [if_neg not_canstat] at h
      split
      next txb0ctrl => rw [h, if_pos txb0ctrl]; exact fun i _ => bitOf_withTxerr v _ i
      next not_txb0ctrl =>
        rw [if_neg not_txb0ctrl] at h
        split
        next canintf => rw [h, if_pos canintf]; exact fun i hi => bitOf_and_rxFlags v _ hi
        next not_canintf => rw [h, if_neg not_canintf]

/-! ### A command of one block write, run alone -/

/-- What the block write of d from register a on does: each byte in its register, as the controller takes the write, in the
other registers nothing, and but for the registers nothing. -/
def WritesBlock (s t : State) (a : Nat) (d : List Byte) : Prop :=
  (∀ j, j < d.length → WritesByte s t (a + j) (d.getD j 0)) ∧
    (∀ r, r < a ∨ a + d.length ≤ r → t.reg r = s.reg r) ∧ RegistersOnly s t

/-- A command whose device writes registers only leaves all else as it was; the edge detector sees the line (R144). -/
theorem registersOnly_answered {s v : State} {c : Vector Byte 128} (hv : v = { beginCommand s with ctl := c })
    (hr : Ready s) (x : Xfer) (inp res : List Byte) : RegistersOnly s (v.answered x inp res) := by
  subst hv
  have ⟨sampled, _⟩ := hr
  have detector : s.intPrev = s.intLine := sampled
  refine ⟨SameBlock.answered x inp res (v := { beginCommand s with ctl := c }) (beginCommand_sameBlock s) hr, rfl, rfl,
    beginCommand_sameEeprom s, beginCommand_sameWorld s, rfl, ?_, rfl⟩
  rw [← detector]
  rfl

theorem ctlWrites_answered {s : State} (hd : s.cfg.dev = .standard) (hr : Ready s) {a : Nat} {d : List Byte}
    (ha : a + d.length ≤ 0x80) (x : Xfer) (inp res : List Byte) :
    WritesBlock s (((beginCommand s).ctlWrites a d).answered x inp res) a d := by
  obtain ⟨c, only_ctl⟩ := ctlWrites_ctl_only d (beginCommand s) a
  refine ⟨fun j hj => writesByte_of_reg hd ?_, fun r hout => ?_, registersOnly_answered only_ctl hr x inp res⟩
  · have inBlock : a ≤ a + j ∧ a + j < a + d.length ∧ a + j < 128 := by omega
    rw [answered_reg, reg_ctlWrites, Nat.add_sub_cancel_left]
    simp only [inBlock, true_and]
    rfl
  · rw [answered_reg, reg_ctlWrites, if_neg (by omega)]
    rfl

/-- A command whose transaction is a block write of d from register a on, run alone. -/
theorem Runs.writesBlock {i : Instr} {s : State} {x : Xfer} {a : Nat} {d : List Byte} (h : Runs i s x [])
    (hx : (beginCommand s).transact x = ([], ((beginCommand s).ctlWrites a d).endXfer x [])) (hd : s.cfg.dev = .standard)
    (alone : Alone s) (hr : Ready s) (ha : a + d.length ≤ 0x80) :
    ∃ t, exec i s = .next t ∧ t.lastResult = some [0x00, 0x00] ∧ WritesBlock s t a d ∧
      t.events = s.events ++ [.xfer x.dev (x.out s.cfg) []] := by
  obtain ⟨c, only_ctl⟩ := ctlWrites_ctl_only d (beginCommand s) a
  have acts_alone : Alone ((beginCommand s).ctlWrites a d) := by
    rw [only_ctl]
    exact alone
  refine ⟨_, h.next_of_alone acts_alone hx, rfl, ctlWrites_answered hd hr ha x [] [], ?_⟩
  rw [answered_events, only_ctl]
  rfl

/-- A block write of one register. -/
theorem WritesBlock.one {s t : State} {a : Nat} {v : Byte} (h : WritesBlock s t a [v]) :
    WritesByte s t a v ∧ (∀ r, r ≠ a → t.reg r = s.reg r) ∧ RegistersOnly s t := by
  obtain ⟨byte, others, only⟩ := h
  exact ⟨byte 0 Nat.one_pos, fun r hr => others r (by simp only [List.length_singleton]; omega), only⟩

/-! ### The three commands -/

theorem spWrite_runs (s : State) {a : Byte} (ha : a.toNat < 0x80) (d : Byte) :
    Runs (.spWrite a d) s (.canWrite a.toNat [d]) [] := by
  have inSpace : ¬ a.toNat ≥ regSpace := Nat.not_le.2 ha
  unfold Runs
  simp only [exec, execSpWrite, command, if_neg inSpace]
  rfl

theorem spBitmod_runs (s : State) {a : Byte} (ha : a.toNat < 0x80) (m d : Byte) :
    Runs (.spBitmod a m d) s (.canBitmod a.toNat m d) [] := by
  have inSpace : ¬ a.toNat ≥ regSpace := Nat.not_le.2 ha
  unfold Runs
  simp only [exec, execSpBitmod, command, if_neg inSpace]
  rfl

theorem spWriteblk_runs (s : State) {a : Byte} {d : List Byte} (hd : d ≠ []) (ha : a.toNat + d.length ≤ 0x80) :
    Runs (.spWriteblk a d) s (.canWrite a.toNat d) [] := by
  have some_bytes : ¬ d.length = 0 := fun h => hd (List.eq_nil_of_length_eq_zero h)
  have inSpace : ¬ a.toNat + d.length > regSpace := Nat.not_lt.2 ha
  unfold Runs
  simp only [exec, execSpWriteblk, command, if_neg some_bytes, if_neg inSpace]
  rfl

/-- BIT MODIFY writes the register's byte with the bits of the mask replaced (R58). -/
theorem transact_canBitmod_eq_ctlWrites (s : State) (a : Nat) (m d : Byte) :
    s.transact (.canBitmod a m d) =
      ([], (s.ctlWrites a [(s.reg a &&& ~~~m) ||| (d &&& m)]).endXfer (.canBitmod a m d) []) :=
  transact_canBitmod s a m d

/-- The address byte is the operand itself (R69), and the command bytes are those of R70. -/
theorem out_canWrite {p : Params} (hd : p.dev = .standard) (a : Byte) (d : List Byte) :
    (Xfer.canWrite a.toNat d).out p = [0x02, a] ++ d := by
  simp only [Xfer.out, hd, BitVec.ofNat_toNat, BitVec.setWidth_eq]
  rfl

theorem out_canBitmod {p : Params} (hd : p.dev = .standard) (a m d : Byte) :
    (Xfer.canBitmod a.toNat m d).out p = [0x05, a, m, d] := by
  simp only [Xfer.out, hd, BitVec.ofNat_toNat, BitVec.setWidth_eq]
  rfl

/-- Settles O13: both commands are a block write of one register. -/
theorem spWriteAndBitmod : Obligations.SpWriteAndBitmod := by
  intro s a m d hd alone ready ha
  constructor
  · obtain ⟨t, next, result, writes, events⟩ := (spWrite_runs s ha d).writesBlock
      (transact_canWrite (beginCommand s) _ _) hd alone ready ha
    obtain ⟨byte, others, only⟩ := writes.one
    rw [out_canWrite hd] at events
    exact ⟨t, next, result, byte, others, only, events⟩
  · obtain ⟨t, next, result, writes, events⟩ := (spBitmod_runs s ha m d).writesBlock
      (transact_canBitmod_eq_ctlWrites (beginCommand s) _ _ _) hd alone ready ha
    obtain ⟨byte, others, only⟩ := writes.one
    rw [out_canBitmod hd] at events
    exact ⟨t, next, result, byte, others, only, events⟩

/-- Settles O14: the command is a block write of its bytes. -/
theorem spWriteblk : Obligations.SpWriteblk := by
  intro s a d hd alone ready some_bytes ha
  obtain ⟨t, next, result, ⟨bytes, others, only⟩, events⟩ := (spWriteblk_runs s some_bytes ha).writesBlock
    (transact_canWrite (beginCommand s) _ _) hd alone ready ha
  rw [out_canWrite hd] at events
  exact ⟨t, next, result, bytes, others, only, events⟩

end Sys2Proof.Machine
end

section
/-! SP_RESET (R84, R37): the controller is reset and the block forgets the mode. -/

namespace Sys2Proof.Machine

/-! ### The registers after RESET (R37) -/

theorem reg_controllerReset (s : State) {a : Nat} (ha : a < 128) : s.controllerReset.reg a = s.resetReg a := by
  rw [State.reg, State.controllerReset_ctl, Vector.getElem?_ofFn, dif_pos ha, Option.getD_some]

/-- The mode registers hold Config. -/
theorem modeBits_resetReg {s : State} (hd : s.cfg.dev = .standard) {a : Nat} (ha : a = 0x0E ∨ a = 0x0F) :
    modeBits (s.resetReg a) = 0b100 := by
  rcases ha with rfl | rfl <;> rw [State.resetReg, hd]
  all_goals exact modeBits_withModeBits _ _

/-- The interrupt registers and TXB0CTRL hold 0. -/
theorem resetReg_cleared {s : State} (hd : s.cfg.dev = .standard) {a : Nat} (ha : a = 0x2B ∨ a = 0x2C ∨ a = 0x30) :
    s.resetReg a = 0 := by
  rcases ha with rfl | rfl | rfl <;> rw [State.resetReg, hd] <;> rfl

/-- What the block reads of a controller just reset: Config requested and reported, no request and no error of the
transmitter, the line deasserted. -/
structure ReadsReset (t : State) : Prop where
  opmod : t.inMode .config = true
  reqop : t.reqop = 0b100
  caninte : t.reg 0x2B = 0
  canintf : t.reg 0x2C = 0
  txb0ctrl : t.reg 0x30 = 0
  txreq : t.txreq = false
  txerr : t.txerr = false
  line : t.intLine = false

theorem controllerReset_reads {s : State} (hd : s.cfg.dev = .standard) : ReadsReset s.controllerReset := by
  have dev : s.controllerReset.cfg.dev = .standard := by rw [State.controllerReset_cfg, hd]
  have mode {a : Nat} (ha : a = 0x0E ∨ a = 0x0F) : modeBits (s.controllerReset.reg a) = 0b100 := by
    rw [reg_controllerReset s (by omega), modeBits_resetReg hd ha]
  have cleared {a : Nat} (ha : a = 0x2B ∨ a = 0x2C ∨ a = 0x30) : s.controllerReset.reg a = 0 := by
    rw [reg_controllerReset s (by omega), resetReg_cleared hd ha]
  generalize s.controllerReset = t at dev mode cleared
  refine ⟨?_, ?_, cleared (.inl rfl), cleared (.inr (.inl rfl)), cleared (.inr (.inr rfl)), ?_, ?_, ?_⟩
  · rw [State.inMode, State.opmod, dev, show DevParams.standard.map.canstat = 0x0E from rfl, mode (.inl rfl)]
    rfl
  · rw [State.reqop, dev]
    exact mode (.inr rfl)
  · rw [State.txreq, dev, show DevParams.standard.map.txb0ctrl = 0x30 from rfl, cleared (.inr (.inr rfl))]
    rfl
  · rw [State.txerr, dev, show DevParams.standard.map.txb0ctrl = 0x30 from rfl, cleared (.inr (.inr rfl))]
    rfl
  · rw [State.intLine, dev, show DevParams.standard.map.canintf = 0x2C from rfl, cleared (.inr (.inl rfl))]
    exact bne_eq_false_iff_eq.2 BitVec.zero_and

/-! ### What RESET leaves unchanged -/

theorem controllerReset_sameBlock (s : State) : SameBlock s s.controllerReset :=
  ⟨s.controllerReset_cfg, s.controllerReset_phase, s.controllerReset_boot, s.controllerReset_mirror, s.controllerReset_gie,
    s.controllerReset_ctx, s.controllerReset_csCan, s.controllerReset_csEe, s.controllerReset_modeShadow,
    s.controllerReset_hErr, s.controllerReset_faults⟩

theorem controllerReset_sameEeprom (s : State) : SameEeprom s s.controllerReset :=
  ⟨fun a => congrArg (·.read a) s.controllerReset_ee, s.controllerReset_wip, s.controllerReset_wel,
    s.controllerReset_pageBuf, s.controllerReset_eeProtect⟩

theorem controllerReset_sameWorld (s : State) : SameWorld s s.controllerReset :=
  ⟨s.controllerReset_out, s.controllerReset_busIn, s.controllerReset_busOut, s.controllerReset_script,
    s.controllerReset_sched, s.controllerReset_modeFair⟩

/-! ### The command -/

/-- The block no longer knows the mode (R30, R84). -/
def State.forgetMode (s : State) : State := { s with modeShadow := none }

theorem SameBlock.forgetMode {s v : State} (h : SameBlock s v) : SameBlock s.forgetMode v.forgetMode := by
  obtain ⟨cfg, phase, boot, mirror, gie, ctx, can, ee, _, err, faults⟩ := h
  exact ⟨cfg, phase, boot, mirror, gie, ctx, can, ee, rfl, err, faults⟩

theorem ReadsReset.answered {v : State} (h : ReadsReset v) (x : Xfer) (inp res : List Byte) :
    ReadsReset (v.forgetMode.answered x inp res) := by
  obtain ⟨opmod, reqop, caninte, canintf, txb0ctrl, txreq, txerr, line⟩ := h
  exact ⟨opmod, reqop, caninte, canintf, txb0ctrl, txreq, txerr, line⟩

theorem resetOp_eq (g : Pause) (s : State) :
    resetOp g s = tick g (s.controllerReset.forgetMode.endXfer .canReset []) := by
  rw [resetOp, transact_canReset]
  generalize s.controllerReset = u
  rfl

theorem spReset_next {s : State} (alone : Alone s) :
    exec .spReset s = .next ((beginCommand s).controllerReset.forgetMode.answered .canReset [] []) := by
  have body : exec .spReset s = .next (endCommand (.ok [], resetOp fgGap (beginCommand s))) := rfl
  have acted : Alone ((beginCommand s).controllerReset.forgetMode.endXfer .canReset []) := by
    obtain ⟨_, _, _, _, gie, _⟩ := controllerReset_sameBlock (beginCommand s)
    obtain ⟨_, _, _, _, sched, fair⟩ := controllerReset_sameWorld (beginCommand s)
    obtain ⟨gie_off, no_sched, not_fair⟩ := alone
    exact ⟨gie.trans gie_off, sched.trans no_sched, fair.trans not_fair⟩
  rw [body, resetOp_eq, endCommand_tick_of_alone acted, State.answered]

/-- Settles O11: what the command leaves is the controller just reset, in a block that has forgotten the mode. -/
theorem spReset : Obligations.SpReset := by
  intro s hd alone ready
  have next := spReset_next alone
  have reads := controllerReset_reads (s := beginCommand s) hd
  have block := controllerReset_sameBlock (beginCommand s)
  have eeprom := controllerReset_sameEeprom (beginCommand s)
  have world := controllerReset_sameWorld (beginCommand s)
  have hit := (beginCommand s).controllerReset_lastHit
  have type := (beginCommand s).controllerReset_lastType
  have latch := (beginCommand s).controllerReset_latch
  have events := (beginCommand s).controllerReset_events
  generalize (beginCommand s).controllerReset = v at next reads block eeprom world hit type latch events
  obtain ⟨opmod, reqop, caninte, canintf, txb0ctrl, txreq, txerr, line⟩ := reads.answered .canReset [] []
  have ⟨cfg, _⟩ := block
  have dev : v.cfg.dev = .standard := (congrArg Params.dev cfg).trans hd
  refine ⟨_, next, rfl, rfl, opmod, reqop, caninte, canintf, txb0ctrl, txreq, txerr, line, ?latch, ?block, hit, type, eeprom,
    world, ?events⟩
  case latch =>
    have line_before : v.forgetMode.intLine = false := line
    rw [answered_latch, line_before, Bool.false_and, Bool.or_false]
    exact latch
  case block =>
    have forgotten : SameBlock s.forgetMode v.forgetMode := block.forgetMode
    exact forgotten.answered .canReset [] [] ready
  case events =>
    rw [answered_events]
    simp only [State.forgetMode, events, Xfer.out, dev]
    rfl

end Sys2Proof.Machine
end

section
/-! EP_WREN and EP_WRITE with no write cycle running (R91, R94, R95, R99). -/

namespace Sys2Proof.Machine

theorem epWren_runs (s : State) : Runs .epWren s .eeWren [] := rfl

/-- Settles O16: the device sets its latch and does nothing else. -/
theorem epWren : Obligations.EpWren := by
  intro s alone ready idle
  have next := (epWren_runs s).next_of_alone (v := (beginCommand s).setWel !s.eeProtect) alone
    (transact_eeWren (beginCommand s) idle)
  have block : SameBlock s ((beginCommand s).setWel !s.eeProtect) := beginCommand_sameBlock s
  have latch : SameLatch s ((beginCommand s).setWel !s.eeProtect) := beginCommand_sameLatch s
  exact ⟨_, next, rfl, rfl, beginCommand_sameEeprom { s with wel := !s.eeProtect }, block.answered _ _ _ ready,
    latch.answered _ _ _ ready rfl, beginCommand_sameController s, beginCommand_sameWorld s, rfl, rfl⟩

/-- What the port asks of a burst (R94): its length, and that it lies in the array and in one page. -/
theorem portCheck_epWrite_eq_none {p : Params} {addr : U32} {d : List Byte} (h : portCheck p (.epWrite addr d) = none) :
    d ≠ [] ∧ d.length ≤ pageSize ∧ addr.toNat + d.length ≤ p.eeSize ∧
      addr.toNat / pageSize = (addr.toNat + d.length - 1) / pageSize := by
  simp only [portCheck] at h
  split at h
  next => exact absurd h (by simp)
  next length =>
    split at h
    next => exact absurd h (by simp)
    next place =>
      obtain ⟨some_bytes, in_page⟩ := not_or.1 length
      obtain ⟨in_array, same_page⟩ := not_or.1 place
      exact ⟨some_bytes, Nat.le_of_not_lt in_page, Nat.le_of_not_lt in_array, Decidable.not_not.1 same_page⟩

/-- A burst in one page does not wrap (R95). -/
theorem chunkOk_of_same_page {p : Params} {a n : Nat} (in_array : a + n ≤ p.eeSize)
    (same_page : a / pageSize = (a + n - 1) / pageSize) : ChunkOk p a n := by
  refine ⟨?_, in_array⟩
  simp only [pageSize] at *
  omega

theorem epWrite_runs {s : State} {addr : U32} {d : List Byte} (h : portCheck s.cfg (.epWrite addr d) = none) :
    Runs (.epWrite addr d) s (.eeWrite addr.toNat d) [] := by
  obtain ⟨some_bytes, in_page, in_array, same_page⟩ := portCheck_epWrite_eq_none h
  have length : ¬ (d.length = 0 ∨ d.length > pageSize) :=
    not_or.2 ⟨fun h => some_bytes (List.eq_nil_of_length_eq_zero h), Nat.not_lt.2 in_page⟩
  have inArray : ¬ addr.toNat + d.length > (beginCommand s).cfg.eeSize := Nat.not_lt.2 in_array
  have samePage : ¬ addr.toNat / pageSize ≠ (addr.toNat + d.length - 1) / pageSize := not_not.2 same_page
  unfold Runs
  simp only [exec, execEpWrite, command, if_neg length, if_neg inArray, if_neg samePage]
  rfl

/-- EE-WRITE with WEL = 0 is ignored (R95). -/
theorem transact_eeWrite_ignored {s : State} (idle : s.wip = false) (disabled : s.wel = false) (a : Nat) (d : List Byte) :
    s.transact (.eeWrite a d) = ([], s.endXfer (.eeWrite a d) []) := by
  rw [transact_eq, State.device, State.eeWriteCmd, if_neg (by simp [idle]), if_neg (by simp [disabled])]

/-- The array as it is when a started write cycle has ended (R95). -/
theorem settled_startCycle (s : State) (cells : List Host.Cell) :
    (s.startCycle cells).settled = s.ee.writeCells s.cfg.eeSize cells := by
  rw [settled_eq]
  exact if_pos rfl

/-- The array with a burst's cells written is the array with the burst, where no write cycle was running. -/
theorem burst_stored {s : State} (idle : s.wip = false) (wf : s.ee.wf = true) (fits : AddressFits s.cfg) {a : Nat}
    {d : List Byte} (chunk : ChunkOk s.cfg a d.length) (some_bytes : d ≠ []) :
    Stored s (s.ee.writeCells s.cfg.eeSize (burstCells (deviceAddr s.cfg a) d)) a d := by
  have before : s.settled = s.ee := by rw [settled_eq, idle, if_neg Bool.false_ne_true]
  intro x
  rw [before]
  exact burst_settled s a d wf fits chunk some_bytes x

/-- Settles O17: with WEL = 1 the write cycle starts, its burst in one page; with WEL = 0 the device stays as it was. -/
theorem epWrite : Obligations.EpWrite := by
  intro s addr d alone ready idle wf fits check
  have runs := epWrite_runs check
  have block := beginCommand_sameBlock s
  have latch := beginCommand_sameLatch s
  cases enabled : s.wel with
  | true =>
    obtain ⟨some_bytes, _, in_array, same_page⟩ := portCheck_epWrite_eq_none check
    have chunk := chunkOk_of_same_page in_array same_page
    have next := runs.next_of_alone (v := (beginCommand s).startCycle _) alone
      (transact_eeWrite (beginCommand s) addr.toNat d idle enabled)
    have started : SameBlock s ((beginCommand s).startCycle (burstCells (deviceAddr s.cfg addr.toNat) d)) := block
    have unlatched : SameLatch s ((beginCommand s).startCycle (burstCells (deviceAddr s.cfg addr.toNat) d)) := latch
    refine ⟨_, next, rfl, started.answered _ _ _ ready, unlatched.answered _ _ _ ready rfl,
      beginCommand_sameController s, beginCommand_sameWorld s, rfl, rfl, enabled, rfl, fun _ => ?_, nofun, rfl⟩
    rw [answered_settled, settled_startCycle]
    exact burst_stored idle wf fits chunk some_bytes
  | false =>
    have next := runs.next_of_alone (v := beginCommand s) alone (transact_eeWrite_ignored (s := beginCommand s) idle enabled _ _)
    exact ⟨_, next, rfl, block.answered _ _ _ ready, latch.answered _ _ _ ready rfl, beginCommand_sameController s,
      beginCommand_sameWorld s, rfl, rfl, enabled, idle, nofun, fun _ => beginCommand_sameEeprom s, rfl⟩

end Sys2Proof.Machine
end

section
/-! The address generator (R97): `chunks` takes what is left of the page it stands in, and goes on at the next page. -/

namespace Sys2Proof.Machine

/-! ### The generator's own recursion -/

/-- How many bytes the first chunk of a range takes (R97): the whole range, or what is left of its page. -/
def firstChunk (a n : Nat) : Nat := min n (pageSize - a % pageSize)

/-- A chunk takes at least one byte, and does not leave its page. -/
theorem firstChunk_bounds {a n : Nat} (some_left : 0 < n) :
    0 < firstChunk a n ∧ firstChunk a n ≤ n ∧ a % pageSize + firstChunk a n ≤ pageSize := by
  have in_page : a % pageSize < pageSize := Nat.mod_lt _ (by decide)
  simp only [firstChunk]
  omega

/-- A chunk that is not the last ends at its page's end (R97). -/
theorem firstChunk_of_more {a n : Nat} (more : 0 < n - firstChunk a n) : firstChunk a n = pageSize - a % pageSize := by
  simp only [firstChunk] at *
  omega

/-- More rounds than bytes make no difference: each round takes a byte. -/
theorem chunkLoop_enough (fuel a n : Nat) (enough : n ≤ fuel) : chunkLoop fuel a n = chunks a n := by
  suffices two_fuels : ∀ f₁ f₂ a n, n ≤ f₁ → n ≤ f₂ → chunkLoop f₁ a n = chunkLoop f₂ a n from
    two_fuels fuel n a n enough (Nat.le_refl n)
  intro f₁
  induction f₁ with
  | zero =>
    intro f₂ a n h₁ _
    obtain rfl : n = 0 := Nat.le_zero.1 h₁
    cases f₂ <;> rfl
  | succ f₁ ih =>
    intro f₂ a n h₁ h₂
    rcases Nat.eq_zero_or_pos n with rfl | some_left
    · cases f₂ <;> rfl
    · obtain ⟨f₂, rfl⟩ : ∃ k, f₂ = k + 1 := ⟨f₂ - 1, by omega⟩
      obtain ⟨taken, _, _⟩ := firstChunk_bounds (a := a) some_left
      have rest : chunkLoop f₁ (a + firstChunk a n) (n - firstChunk a n) =
          chunkLoop f₂ (a + firstChunk a n) (n - firstChunk a n) := ih f₂ _ _ (by omega) (by omega)
      simp only [chunkLoop, if_neg (Nat.ne_of_gt some_left)]
      exact congrArg _ rest

@[simp] theorem chunks_zero (a : Nat) : chunks a 0 = [] := rfl

/-- One round of R97. -/
theorem chunks_of_pos {a n : Nat} (some_left : 0 < n) :
    chunks a n = (a, firstChunk a n) :: chunks (a + firstChunk a n) (n - firstChunk a n) := by
  obtain ⟨taken, _, _⟩ := firstChunk_bounds (a := a) some_left
  obtain ⟨k, rfl⟩ : ∃ k, n = k + 1 := ⟨n - 1, by omega⟩
  have rest := chunkLoop_enough k (a + firstChunk a (k + 1)) (k + 1 - firstChunk a (k + 1)) (by omega)
  rw [← rest, chunks, chunkLoop, if_neg (Nat.ne_of_gt some_left)]
  rfl

/-- Induction along the rounds of R97. -/
theorem chunks_induction {motive : Nat → Nat → List (Nat × Nat) → Prop} (done : ∀ a, motive a 0 [])
    (round : ∀ a n, 0 < n → motive (a + firstChunk a n) (n - firstChunk a n) (chunks (a + firstChunk a n) (n - firstChunk a n)) →
      motive a n ((a, firstChunk a n) :: chunks (a + firstChunk a n) (n - firstChunk a n)))
    (a n : Nat) : motive a n (chunks a n) := by
  induction n using Nat.strong_induction_on generalizing a with
  | _ n ih =>
    rcases Nat.eq_zero_or_pos n with rfl | some_left
    · exact done a
    · obtain ⟨taken, _, _⟩ := firstChunk_bounds (a := a) some_left
      rw [chunks_of_pos some_left]
      exact round a n some_left (ih _ (by omega) _)

/-! ### The properties of R97 -/

/-- Every chunk has a byte and lies in one page. -/
theorem mem_chunks_in_page (a n : Nat) : ∀ c ∈ chunks a n, 0 < c.2 ∧ c.1 / 16 = (c.1 + c.2 - 1) / 16 := by
  refine chunks_induction (motive := fun _ _ cs => ∀ c ∈ cs, 0 < c.2 ∧ c.1 / 16 = (c.1 + c.2 - 1) / 16) ?done ?round a n
  case done => simp
  case round =>
    intro a n some_left rest
    obtain ⟨taken, _, in_page⟩ := firstChunk_bounds (a := a) some_left
    simp only [pageSize] at in_page
    have first : 0 < firstChunk a n ∧ a / 16 = (a + firstChunk a n - 1) / 16 := ⟨taken, by omega⟩
    exact List.forall_mem_cons.2 ⟨first, rest⟩

theorem chunks_length_sum (a n : Nat) : ((chunks a n).map (·.2)).sum = n := by
  refine chunks_induction (motive := fun _ n cs => (cs.map (·.2)).sum = n) ?done ?round a n
  case done => simp
  case round =>
    intro a n some_left rest
    obtain ⟨_, in_range, _⟩ := firstChunk_bounds (a := a) some_left
    rw [List.map_cons, List.sum_cons, rest]
    exact Nat.add_sub_cancel' in_range

/-- A range that has a first chunk is not empty, and the chunk starts where the range starts. -/
theorem chunks_first {a n : Nat} {c : Nat × Nat} (h : (chunks a n)[0]? = some c) : 0 < n ∧ c.1 = a := by
  rcases Nat.eq_zero_or_pos n with rfl | some_left
  · simp at h
  · rw [chunks_of_pos some_left, List.getElem?_cons_zero] at h
    exact ⟨some_left, (congrArg Prod.fst (Option.some.inj h)).symm⟩

/-- Each chunk starts where the one before it ended, at a page boundary. -/
theorem chunks_adjacent (a n k : Nat) (c d : Nat × Nat) (hc : (chunks a n)[k]? = some c)
    (hd : (chunks a n)[k + 1]? = some d) : c.1 + c.2 = d.1 ∧ d.1 % 16 = 0 := by
  revert k
  refine chunks_induction
    (motive := fun _ _ cs => ∀ k, cs[k]? = some c → cs[k + 1]? = some d → c.1 + c.2 = d.1 ∧ d.1 % 16 = 0) ?done ?round a n
  case done => simp
  case round =>
    intro a n some_left rest k hc hd
    rw [List.getElem?_cons_succ] at hd
    cases k with
    | succ k => exact rest k hc hd
    | zero =>
      obtain ⟨more, start⟩ := chunks_first hd
      obtain rfl : (a, firstChunk a n) = c := Option.some.inj hc
      have to_page_end := firstChunk_of_more more
      simp only [pageSize] at to_page_end
      exact ⟨start.symm, by omega⟩

theorem chunks_count (a n : Nat) : (chunks a n).length = if n = 0 then 0 else (a % 16 + n + 15) / 16 := by
  refine chunks_induction (motive := fun a n cs => cs.length = if n = 0 then 0 else (a % 16 + n + 15) / 16) ?done ?round a n
  case done => simp
  case round =>
    intro a n some_left rest
    obtain ⟨taken, in_range, in_page⟩ := firstChunk_bounds (a := a) some_left
    rw [List.length_cons, rest, if_neg (Nat.ne_of_gt some_left)]
    simp only [pageSize] at in_page
    rcases Nat.eq_zero_or_pos (n - firstChunk a n) with last | more
    · rw [if_pos last]
      omega
    · have to_page_end := firstChunk_of_more more
      simp only [pageSize] at to_page_end
      rw [if_neg (Nat.ne_of_gt more)]
      omega

/-- Settles O19, property by property. -/
theorem chunksSplitAtPages : Obligations.ChunksSplitAtPages := by
  intro addr n
  refine ⟨mem_chunks_in_page addr n, chunks_length_sum addr n, fun some_left => ?_, chunks_adjacent addr n, chunks_count addr n⟩
  rw [chunks_of_pos some_left]
  rfl

end Sys2Proof.Machine
end

section
/-! A raw EEPROM command while a write cycle runs (R95, R180): the fault is recorded and the EEPROM does not act. -/

namespace Sys2Proof.Machine

/-- The transactions of the raw EEPROM commands other than EP_RDSR (R91, R93, R94). -/
def Xfer.RawStorage (x : Xfer) : Prop := x = .eeWren ∨ (∃ a n, x = .eeRead a n) ∨ ∃ a d, x = .eeWrite a d

/-- What the device does with a command other than RDSR while WIP = 1 (R95): it records the fault. A READ takes a free value for
each byte. -/
theorem transact_of_busy {s : State} (busy : s.wip = true) {x : Xfer} (raw : x.RawStorage) :
    ∃ inp n, s.transact x = (inp, (s.takeFree n).addProtocolViolation.endXfer x inp) := by
  rw [transact_eq]
  rcases raw with rfl | ⟨a, n, rfl⟩ | ⟨a, d, rfl⟩
  · exact ⟨[], 0, by rw [State.device, State.eeWrenCmd, if_pos busy]; rfl⟩
  · exact ⟨s.freeBytes n, n, by rw [State.device, State.eeReadCmd, if_pos busy]⟩
  · exact ⟨[], 0, by rw [State.device, State.eeWriteCmd, if_pos busy]; rfl⟩

/-- What the port asks of an EP_READ (R93). -/
theorem portCheck_epRead_eq_none {p : Params} {addr : U32} {n : Byte} (h : portCheck p (.epRead addr n) = none) :
    n ≠ 0 ∧ addr.toNat + n.toNat ≤ p.eeSize := by
  simp only [portCheck] at h
  split at h
  next => exact absurd h (by simp)
  next some_bytes =>
    split at h
    next => exact absurd h (by simp)
    next in_array => exact ⟨some_bytes, Nat.le_of_not_lt in_array⟩

/-- EP_READ is one transaction, whose answer is the result, whatever the device answers. -/
theorem epRead_runs_any {s : State} {addr : U32} {n : Byte} (h : portCheck s.cfg (.epRead addr n) = none) :
    Runs (.epRead addr n) s (.eeRead addr.toNat n.toNat) ((beginCommand s).transact (.eeRead addr.toNat n.toNat)).1 := by
  obtain ⟨some_bytes, in_array⟩ := portCheck_epRead_eq_none h
  have inArray : ¬ addr.toNat + n.toNat > (beginCommand s).cfg.eeSize := Nat.not_lt.2 in_array
  unfold Runs
  simp only [exec, execEpRead, command, if_neg some_bytes, if_neg inArray]
  rfl

/-- Each raw command but EP_RDSR that passes its checks is one transaction of its own form. -/
theorem raw_runs {s : State} {i : Instr} (raw : i = .epWren ∨ (∃ a n, i = .epRead a n) ∨ ∃ a d, i = .epWrite a d)
    (check : portCheck s.cfg i = none) :
    ∃ x res, x.RawStorage ∧ Runs i s x res := by
  rcases raw with rfl | ⟨a, n, rfl⟩ | ⟨a, d, rfl⟩
  · exact ⟨_, _, .inl rfl, epWren_runs s⟩
  · exact ⟨_, _, .inr (.inl ⟨_, _, rfl⟩), epRead_runs_any check⟩
  · exact ⟨_, _, .inr (.inr ⟨_, _, rfl⟩), epWrite_runs check⟩

/-- Settles O18: the one transaction of the command meets a busy device, which records the fault and does nothing else. -/
theorem protocolViolation : Obligations.ProtocolViolation := by
  intro s i alone ready busy raw check
  obtain ⟨x, res, form, runs⟩ := raw_runs raw check
  obtain ⟨inp, n, acted⟩ := transact_of_busy (s := beginCommand s) busy form
  have next := runs.next_of_alone (v := ((beginCommand s).takeFree n).addProtocolViolation) alone acted
  have block : SameBlock s.addProtocolViolation ((beginCommand s).takeFree n).addProtocolViolation :=
    beginCommand_sameBlock s.addProtocolViolation
  have latch : SameLatch s ((beginCommand s).takeFree n).addProtocolViolation := beginCommand_sameLatch s
  exact ⟨_, next, rfl, ⟨res, rfl⟩, block.answered _ _ _ ready, beginCommand_sameEeprom s, beginCommand_sameController s,
    latch.answered _ _ _ ready rfl, beginCommand_sameWorld s⟩

end Sys2Proof.Machine
end

section
/-! The storage commands (R96 to R102, R155). Each opens with one read or one write of the EEPROM, and an error of it is the
command's answer. -/

namespace Sys2Proof.Machine

/-! ### What a command's end leaves of the state its body left -/

/-- The last step of a command samples a line that is already sampled. -/
theorem endCommand_edgePart {u : State} (sampled : Sampled u) (r : Except Err (List Byte)) :
    (endCommand (r, u)).edgePart = u.edgePart := by
  have recorded := sample_of_sampled
    (s := { u with lastResult := some (encodeResult r), cmdBusy := false, cmdIssued := false }) sampled
  have edge := congrArg State.edgePart recorded
  exact edge

/-- The edge detector is as before the command where the body left it so. -/
theorem endCommand_sameLatch {s u : State} (sampled : Sampled u) (edge : u.edgePart = s.edgePart)
    (r : Except Err (List Byte)) : SameLatch s (endCommand (r, u)) := by
  have kept : (endCommand (r, u)).edgePart = s.edgePart := (endCommand_edgePart sampled r).trans edge
  exact ⟨congrArg Prod.fst kept, congrArg Prod.snd kept⟩

/-- The block is as before the command where the body only issued transactions. -/
theorem endCommand_sameBlock {s u : State} (ready : Ready s) (marked : Marked (beginCommand s) u)
    (r : Except Err (List Byte)) : SameBlock s (endCommand (r, u)) := by
  obtain ⟨_, can, ee⟩ := ready
  exact marked.sameBlock can ee

/-- Everything but the result is as before the command, and the transactions ev have been issued. -/
def OnlyTransactions (s t : State) (ev : List Event) : Prop :=
  SameBlock s t ∧ SameLatch s t ∧ SameController s t ∧ SameEeprom s t ∧ SameWorld s t ∧ t.freeN = s.freeN ∧
    t.events = s.events ++ ev

/-- A command whose body only issued transactions leaves everything else as it was. -/
theorem endCommand_traced {s : State} (ready : Ready s) (r : Except Err (List Byte)) (issued : Bool) (ev : List Event) :
    OnlyTransactions s (endCommand (r, (beginCommand s).traced issued ev)) ev := by
  obtain ⟨sampled, can, ee⟩ := ready
  have block : SameBlock s (endCommand (r, (beginCommand s).traced issued ev)) :=
    ⟨rfl, rfl, rfl, rfl, rfl, rfl, can.symm, ee.symm, rfl, rfl, rfl⟩
  exact ⟨block, endCommand_sameLatch (u := (beginCommand s).traced issued ev) sampled rfl r,
    beginCommand_sameController s, beginCommand_sameEeprom s, beginCommand_sameWorld s, rfl, rfl⟩

/-- The EEPROM is as before where the body left it so. -/
theorem endCommand_sameEeprom {s u : State} (marked : Marked (beginCommand s) u) (same : u.eePart = s.eePart)
    (r : Except Err (List Byte)) : SameEeprom s (endCommand (r, u)) :=
  ⟨fun a => congrArg (Memory.read · a) (ee_of_eePart same), wip_of_eePart same, wel_of_eePart same,
    pageBuf_of_eePart same, marked.eeProtect⟩

/-! ### An error of the storage is the operation's error (R155) -/

section
variable {g : Pause} {s v : State} {e : Err}

theorem readRow_of_error {t i : Nat} (ht : t < s.cfg.numSignals) (hi : i < tableRows)
    (fails : eeReadOp g (s.cfg.rowAddr t i) rowBytes s = (.error e, v)) : readRow g t i s = (.error e, v) := by
  rw [readRow, if_neg (Nat.not_le.2 ht), if_neg (Nat.not_le.2 hi), fails]
  rfl

/-- A lookup reads row 0 first (R132). -/
theorem lookup_of_error {t : Nat} (ht : t < s.cfg.numSignals) (key : Number)
    (fails : eeReadOp g (s.cfg.rowAddr t 0) rowBytes s = (.error e, v)) : lookup g t key s = (.error e, v) := by
  rw [lookup, if_neg (Nat.not_le.2 ht), lookupLoop, readRow_of_error ht (by decide) fails]
  rfl

theorem sigLoad_of_error {k : Nat} (fails : eeReadOp g (s.cfg.sigAddr k) sigRecBytes s = (.error e, v)) :
    sigLoad g k s = (.error e, v) := by
  rw [sigLoad, fails]
  rfl

theorem sigStore_of_error {k : Nat} {f : SigFmt} (hk : k < s.cfg.numSignals)
    (fails : eeWriteOp g (s.cfg.sigAddr k) (serRec s.cfg.idRecOrder f) s = (.error e, v)) :
    sigStore g k f s = (.error e, v) := by
  rw [sigStore, if_neg (Nat.not_le.2 hk), fails]
  rfl

theorem writeRow_of_error {t i : Nat} {key : U32} {value : U16} (ht : t < s.cfg.numSignals) (hi : i < tableRows)
    (fails : eeWriteOp g (s.cfg.rowAddr t i) (serRow key value) s = (.error e, v)) :
    writeRow g t i key value s = (.error e, v) := by
  rw [writeRow, if_neg (Nat.not_le.2 ht), if_neg (Nat.not_le.2 hi), fails]

end

/-! ### The storage access that a command opens with -/

/-- The command opens with a read of some bytes of the array, whose error is its answer. -/
def ReadsFirst (i : Instr) (s : State) : Prop :=
  ∃ addr n, n ≠ 0 ∧ addr + n ≤ s.cfg.eeSize ∧
    ∀ e v, eeReadOp fgGap addr n (beginCommand s) = (.error e, v) → exec i s = .next (endCommand (.error e, v))

/-- The command opens with a write of some bytes in the array, whose error is its answer. -/
def WritesFirst (i : Instr) (s : State) : Prop :=
  ∃ addr d, d ≠ [] ∧ addr + d.length ≤ s.cfg.eeSize ∧
    ∀ e v, eeWriteOp fgGap addr d (beginCommand s) = (.error e, v) → exec i s = .next (endCommand (.error e, v))

theorem exec_eeWrite (addr : U32) (d : List Byte) (s : State) :
    exec (.eeWrite addr d) s = .next (endCommand (eeWriteOp fgGap addr.toNat d (beginCommand s)).unit) := rfl

theorem exec_eeRead (addr : U32) (n : Byte) (s : State) :
    exec (.eeRead addr n) s = .next (endCommand (eeReadOp fgGap addr.toNat n.toNat (beginCommand s))) := rfl

/-- A port check of one condition. -/
theorem not_of_check_eq_none {c : Prop} [Decidable c] {e : Err} (h : (if c then some e else none) = none) : ¬ c := by
  simpa using h

/-- What the port asks of a table row (R129, R130). -/
theorem row_of_check {t i : Byte} {n : Nat} {e : Err}
    (h : (if t.toNat ≥ n ∨ i.toNat ≥ 32 then some e else none) = none) : t.toNat < n ∧ i.toNat < tableRows := by
  have inside := not_or.1 (not_of_check_eq_none h)
  exact ⟨Nat.lt_of_not_le inside.1, Nat.lt_of_not_le inside.2⟩

theorem eeWrite_writesFirst {s : State} {addr : U32} {d : List Byte} (some_bytes : d ≠ [])
    (check : portCheck s.cfg (.eeWrite addr d) = none) : WritesFirst (.eeWrite addr d) s := by
  refine ⟨addr.toNat, d, some_bytes, Nat.le_of_not_lt (not_of_check_eq_none check), fun e v fails => ?_⟩
  rw [exec_eeWrite, fails]
  rfl

theorem sigStore_writesFirst {s : State} (accepted : s.cfg.valid = true) {k : Byte} {f : SigFmt}
    (check : portCheck s.cfg (.sigStore k f) = none) : WritesFirst (.sigStore k f) s := by
  have slot : k.toNat < s.cfg.numSignals := Nat.lt_of_not_le (not_of_check_eq_none check)
  have length := serRec_length s.cfg.idRecOrder f
  refine ⟨s.cfg.sigAddr k.toNat, serRec s.cfg.idRecOrder f, List.ne_nil_of_length_eq_add_one length, ?_, fun e v fails => ?_⟩
  · rw [length]
    exact valid_record accepted slot
  · have stores := sigStore_of_error (s := beginCommand s) slot fails
    simp only [exec, execSigStore, command, stores]
    rfl

theorem rowWrite_writesFirst {s : State} (accepted : s.cfg.valid = true) {t i : Byte} {key : U32} {value : U16}
    (check : portCheck s.cfg (.rowWrite t i key value) = none) : WritesFirst (.rowWrite t i key value) s := by
  obtain ⟨table, row⟩ := row_of_check check
  refine ⟨s.cfg.rowAddr t.toNat i.toNat, serRow key value, nofun, valid_row accepted table row, fun e v fails => ?_⟩
  have writes := writeRow_of_error (s := beginCommand s) table row fails
  simp only [exec, execRowWrite, command, writes]
  rfl

theorem eeRead_readsFirst {s : State} {addr : U32} {n : Byte} (some_bytes : n ≠ 0)
    (check : portCheck s.cfg (.eeRead addr n) = none) : ReadsFirst (.eeRead addr n) s := by
  have count : n.toNat ≠ 0 := fun h => some_bytes (BitVec.eq_of_toNat_eq h)
  refine ⟨addr.toNat, n.toNat, count, Nat.le_of_not_lt (not_of_check_eq_none check), fun e v fails => ?_⟩
  rw [exec_eeRead, fails]

theorem sigLoad_readsFirst {s : State} (accepted : s.cfg.valid = true) {k : Byte}
    (check : portCheck s.cfg (.sigLoad k) = none) : ReadsFirst (.sigLoad k) s := by
  have noSlot : ¬ k.toNat ≥ (beginCommand s).cfg.numSignals := not_of_check_eq_none check
  refine ⟨s.cfg.sigAddr k.toNat, sigRecBytes, by decide, valid_record accepted (Nat.lt_of_not_le noSlot), fun e v fails => ?_⟩
  have loads := sigLoad_of_error (s := beginCommand s) fails
  simp only [exec, execSigLoad, command, if_neg noSlot, loads]
  rfl

theorem rowRead_readsFirst {s : State} (accepted : s.cfg.valid = true) {t i : Byte}
    (check : portCheck s.cfg (.rowRead t i) = none) : ReadsFirst (.rowRead t i) s := by
  obtain ⟨table, row⟩ := row_of_check check
  refine ⟨s.cfg.rowAddr t.toNat i.toNat, rowBytes, by decide, valid_row accepted table row, fun e v fails => ?_⟩
  have reads := readRow_of_error (s := beginCommand s) table row fails
  simp only [exec, execRowRead, command, reads]
  rfl

/-- A tag of R67 decodes. -/
theorem numberOperand_of_tag {tag : Byte} (h : tag.toNat ≤ 5) (w : U32) : ∃ key, numberOperand tag w = .ok key := by
  have tags : ∀ tag : Byte, tag.toNat ≤ 5 → tag = 0 ∨ tag = 1 ∨ tag = 2 ∨ tag = 3 ∨ tag = 4 ∨ tag = 5 := by decide
  rcases tags tag h with rfl | rfl | rfl | rfl | rfl | rfl <;> exact ⟨_, rfl⟩

theorem tabLookup_readsFirst {s : State} (accepted : s.cfg.valid = true) {t tag : Byte} {w : U32}
    (check : portCheck s.cfg (.tabLookup t tag w) = none) : ReadsFirst (.tabLookup t tag w) s := by
  simp only [portCheck] at check
  split at check
  next => exact absurd check (by simp)
  next known =>
    have table : t.toNat < s.cfg.numSignals := Nat.lt_of_not_le (not_of_check_eq_none check)
    obtain ⟨key, decoded⟩ := numberOperand_of_tag (Nat.le_of_not_lt known) w
    refine ⟨s.cfg.rowAddr t.toNat 0, rowBytes, by decide, valid_row accepted table (by decide), fun e v fails => ?_⟩
    have looks := lookup_of_error (s := beginCommand s) table key fails
    simp only [exec, execTabLookup, command, decoded, looks]
    rfl

/-- Each storage command that passes its checks opens with a write of the array or with a read of it. -/
theorem storage_opens {s : State} {i : Instr} (accepted : s.cfg.valid = true)
    (storage : (∃ a d, i = .eeWrite a d ∧ d ≠ []) ∨ (∃ a n, i = .eeRead a n ∧ n ≠ 0) ∨ (∃ k, i = .sigLoad k) ∨
      (∃ k f, i = .sigStore k f) ∨ (∃ t r k v, i = .rowWrite t r k v) ∨ (∃ t r, i = .rowRead t r) ∨
      ∃ t g w, i = .tabLookup t g w)
    (check : portCheck s.cfg i = none) : WritesFirst i s ∨ ReadsFirst i s := by
  rcases storage with ⟨a, d, rfl, some_bytes⟩ | ⟨a, n, rfl, some_bytes⟩ | ⟨k, rfl⟩ | ⟨k, f, rfl⟩ | ⟨t, r, k, v, rfl⟩ |
    ⟨t, r, rfl⟩ | ⟨t, g, w, rfl⟩
  · exact .inl (eeWrite_writesFirst some_bytes check)
  · exact .inr (eeRead_readsFirst some_bytes check)
  · exact .inr (sigLoad_readsFirst accepted check)
  · exact .inl (sigStore_writesFirst accepted check)
  · exact .inl (rowWrite_writesFirst accepted check)
  · exact .inr (rowRead_readsFirst accepted check)
  · exact .inr (tabLookup_readsFirst accepted check)

/-- Settles O20: the access that the command opens with polls EE_BAILOUT times in vain, and its error is the answer. -/
theorem busyBailout : Obligations.BusyBailout := by
  intro s i alone ready busy bits accepted storage check
  have quiet : Quiet fgGap (beginCommand s) := quiet_fgGap (s := beginCommand s) alone
  have gives_up : ∃ issued, exec i s = .next (endCommand (.error .busy,
      (beginCommand s).traced issued (List.replicate s.cfg.eeBailout (.xfer .ee [s.cfg.dev.eopRdsr] [s.eeStatus])))) := by
    rcases storage_opens accepted storage check with ⟨addr, d, some_bytes, in_array, answers⟩ |
      ⟨addr, n, some_bytes, in_array, answers⟩
    · obtain ⟨issued, fails⟩ := eeWriteOp_quiet_busy quiet ready bits busy addr d in_array some_bytes
      exact ⟨issued, answers _ _ fails⟩
    · obtain ⟨issued, fails⟩ := eeReadOp_quiet_busy quiet ready bits busy addr n in_array some_bytes
      exact ⟨issued, answers _ _ fails⟩
  obtain ⟨issued, next⟩ := gives_up
  exact ⟨_, next, rfl, endCommand_traced ready _ issued _⟩

/-- Settles O21: the write that the command opens with finds WEL = 0 after its EE-WREN, and its error is the answer. -/
theorem welNotSet : Obligations.WelNotSet := by
  intro s i alone ready idle shielded bits accepted writing check
  have quiet : Quiet fgGap (beginCommand s) := quiet_fgGap (s := beginCommand s) alone
  have opens : WritesFirst i s := by
    rcases writing with ⟨a, d, rfl, some_bytes⟩ | ⟨k, f, rfl⟩ | ⟨t, r, k, v, rfl⟩
    · exact eeWrite_writesFirst some_bytes check
    · exact sigStore_writesFirst accepted check
    · exact rowWrite_writesFirst accepted check
  obtain ⟨addr, d, some_bytes, in_array, answers⟩ := opens
  obtain ⟨issued, ev, fails⟩ :=
    eeWriteOp_quiet_protected quiet ready bits (valid_bailout accepted) idle shielded addr d in_array some_bytes
  obtain ⟨block, latch, controller, eeprom, world, free, _⟩ :=
    endCommand_traced (s := s.setWel false) ready (.error .welNotSet) issued ev
  exact ⟨_, answers _ _ fails, rfl, block, latch, controller, eeprom, world, free⟩

/-- Settles O22: inside a critical section the gaps change nothing that the read sees; with a still environment they change
nothing at all. -/
theorem eeRead : Obligations.EeRead := by
  intro s addr n critical ready reachable in_array
  obtain ⟨idle, bits, fits, accepted⟩ := reachable
  have calm : Calm fgGap (beginCommand s) := calm_fgGap (s := beginCommand s) critical
  obtain ⟨bytes, marked, same⟩ := eeReadOp_calm calm bits fits (valid_bailout accepted) idle addr.toNat n.toNat in_array
  have ends : eeReadOp fgGap addr.toNat n.toNat (beginCommand s) =
      (.ok (s.eeBytes addr.toNat n.toNat), (eeReadOp fgGap addr.toNat n.toNat (beginCommand s)).2) := Prod.ext bytes rfl
  refine ⟨_, (exec_eeRead addr n s).trans (by rw [ends]), rfl, endCommand_sameBlock ready marked _,
    endCommand_sameEeprom marked same _, fun still => ?_⟩
  have quiet : Quiet fgGap (beginCommand s) := quiet_fgGap (s := beginCommand s) ⟨critical, still⟩
  obtain ⟨issued, reads⟩ :=
    eeReadOp_quiet quiet ready bits fits (valid_bailout accepted) idle addr.toNat n.toNat in_array
  have none_asked : n.toNat = 0 ↔ n = 0 := (BitVec.toNat_eq (x := n) (y := 0)).symm
  obtain ⟨_, latch, controller, _, world, free, events⟩ := endCommand_traced ready (.ok (s.eeBytes addr.toNat n.toNat)) issued
    (if n = 0 then [] else [.xfer .ee [s.cfg.dev.eopRdsr] [s.eeStatus],
      .xfer .ee (s.cfg.dev.eopRead :: addrBytes s.cfg addr.toNat) (s.eeBytes addr.toNat n.toNat)])
  simp only [none_asked] at reads
  rw [reads]
  exact ⟨latch, controller, world, free, events⟩

/-! ### EE_WRITE -/

theorem Marked.out {s t : State} (h : Marked s t) : t.out = s.out := by
  rcases h with h | h <;> exact congrArg BlockPart.out h

theorem Marked.freeN {s t : State} (h : Marked s t) : t.freeN = s.freeN := by
  rcases h with h | h <;> exact congrArg BlockPart.freeN h

/-- The controller is as before where its part is. -/
theorem sameController_of_ctlPart {s t : State} (h : t.ctlPart = s.ctlPart) : SameController s t :=
  ⟨fun a => congrArg (fun part : Vector Byte 128 × BitVec 3 × BitVec 2 => (part.1[a]?).getD 0) h, congrArg (·.2.1) h,
    congrArg (·.2.2) h⟩

/-- The settled array after a command is the one its body left. -/
@[simp] theorem endCommand_settled (r : Except Err (List Byte)) (u : State) : (endCommand (r, u)).settled = u.settled := by
  simp only [settled_eq]
  rfl

/-- What is stored over the state before a command's first step is stored over the state before the command. -/
theorem stored_beginCommand {s : State} {m : Memory} {a : Nat} {d : List Byte} :
    Stored (beginCommand s) m a d ↔ Stored s m a d := by
  simp only [Stored, beginCommand_settled]

/-- No error is encoded as Ok (R62). -/
theorem code_ne_ok (e : Err) : e.code ≠ [0x00, 0x00] := by
  cases e <;> decide

/-- Settles O23: no handler runs in the gaps, so a write either fails or has sent every burst, and the settled array holds
them. -/
theorem pagingTransparency : Obligations.PagingTransparency := by
  intro s t addr d critical wf bits fits next ok
  have calm : Calm fgGap (beginCommand s) := calm_fgGap (s := beginCommand s) critical
  obtain ⟨_, _, outcome⟩ := eeWriteOp_calm calm bits fits wf addr.toNat d
  obtain rfl := Host.Outcome.next.inj ((exec_eeWrite addr d s).symm.trans next)
  rcases written : eeWriteOp fgGap addr.toNat d (beginCommand s) with ⟨r, u⟩
  rw [written] at outcome ok
  rcases outcome with ⟨rfl, stored⟩ | ⟨e, rfl, _⟩
  · rw [Res.unit, Res.bind, endCommand_settled]
    exact stored_beginCommand.1 stored
  · exact absurd (Option.some.inj ok) (code_ne_ok e)

/-- Settles O24: each chunk has its four gaps, and the cycle that its burst starts ends in the last of them. -/
theorem eeWrite : Obligations.EeWrite := by
  intro s addr d critical ready reachable wf writable in_array ⟨rest, prompt⟩
  obtain ⟨idle, bits, fits, accepted⟩ := reachable
  obtain ⟨sampled, _⟩ := id ready
  have calm : Calm fgGap (beginCommand s) := calm_fgGap (s := beginCommand s) critical
  obtain ⟨ok, kept, marked, stored⟩ :=
    eeWriteOp_prompt calm sampled bits fits wf (valid_bailout accepted) idle writable addr.toNat d in_array prompt
  rcases written : eeWriteOp fgGap addr.toNat d (beginCommand s) with ⟨r, u⟩
  rw [written] at ok kept marked stored
  obtain rfl : r = .ok () := ok
  have controller : SameController s u := sameController_of_ctlPart kept.ctl
  have latch : SameLatch s (endCommand (.ok [], u)) := endCommand_sameLatch kept.sampled kept.edge _
  exact ⟨endCommand (.ok [], u), (exec_eeWrite addr d s).trans (by rw [written]; rfl), rfl, stored_beginCommand.1 stored,
    kept.wip, endCommand_sameBlock ready marked _, latch, controller, marked.out, kept.busIn, kept.busOut, marked.freeN⟩

end Sys2Proof.Machine
end

section
/-! A frame in a buffer of the controller (R106, R108, R114): four identifier registers, the DLC register, the data bytes. What a
buffer loaded with a frame shows, read back, is that frame. -/

namespace Sys2Proof.Machine

/-- The registers from base on hold a frame, each data byte it has in a register of its own. -/
structure HoldsFrame (s : State) (base : Nat) (f : BusFrame) : Prop where
  id : ∀ j, j < 4 → s.reg (base + j) = (packId 3 f.id).getD j 0
  dlc : s.reg (base + 4) = dlcByte 6 f.rtr f.dlcField
  data : ∀ j, j < f.data.length → s.reg (base + 5 + j) = f.data.getD j 0

/-- Consecutive registers loaded with a frame's bytes hold the frame. -/
theorem holdsFrame_of_loaded {s : State} {base : Nat} {f : BusFrame}
    (loaded : ∀ r, base ≤ r → r < base + 5 + f.data.length →
      s.reg r = (packId 3 f.id ++ [dlcByte 6 f.rtr f.dlcField] ++ f.data).getD (r - base) 0) : HoldsFrame s base f := by
  have idLength := packId_length 3 f.id
  have headLength : (packId 3 f.id ++ [dlcByte 6 f.rtr f.dlcField]).length = 5 := by
    rw [List.length_append, idLength, List.length_singleton]
  refine ⟨fun j hj => ?_, ?_, fun j hj => ?_⟩
  · rw [loaded _ (by omega) (by omega), Nat.add_sub_cancel_left, List.append_assoc, List.getD_append _ _ _ _ (by omega)]
  · rw [loaded _ (by omega) (by omega), Nat.add_sub_cancel_left, List.append_assoc,
      List.getD_append_right _ _ _ _ (by omega), idLength]
    rfl
  · rw [loaded _ (by omega) (by omega), List.getD_append_right _ _ _ _ (by omega), headLength, Nat.add_assoc base,
      Nat.add_sub_cancel_left, Nat.add_sub_cancel_left]

theorem HoldsFrame.congr {s t : State} {base : Nat} {f : BusFrame} (h : HoldsFrame s base f)
    (same : ∀ r, base ≤ r → t.reg r = s.reg r) : HoldsFrame t base f where
  id := fun j hj => (same _ (by omega)).trans (h.id j hj)
  dlc := (same _ (by omega)).trans h.dlc
  data := fun j hj => (same _ (by omega)).trans (h.data j hj)

/-- The identifier registers unpack to the frame's identifier. -/
theorem HoldsFrame.unpackId {s : State} {base : Nat} {f : BusFrame} (h : HoldsFrame s base f) :
    unpackId 3 (s.reg base) (s.reg (base + 1)) (s.reg (base + 2)) (s.reg (base + 3)) = f.id := by
  obtain ⟨b0, b1, b2, b3, packed, unpacked⟩ := packId_unpackId f.id
  have id := h.id
  rw [packed] at id
  rw [show s.reg base = b0 from id 0 (by decide), id 1 (by decide), id 2 (by decide), id 3 (by decide)]
  exact unpacked

/-- The two fields of a DLC register. -/
theorem dlcByte_fields : ∀ (rtr : Bool) (dlc : BitVec 4),
    bitOf (dlcByte 6 rtr dlc) 6 = rtr ∧ (dlcByte 6 rtr dlc).extractLsb' 0 4 = dlc := by decide

/-- The data registers of the frame's own length hold its data. -/
theorem HoldsFrame.readData {s : State} {base : Nat} {f : BusFrame} (h : HoldsFrame s base f) :
    ((List.range f.data.length).map fun j => s.reg (base + 5 + j)) = f.data := by
  refine List.ext_getElem (by simp) fun j hj _ => ?_
  have inData : j < f.data.length := by simpa using hj
  rw [List.getElem_map, List.getElem_range, h.data j inData, List.getD_eq_getElem _ _ inData]

end Sys2Proof.Machine
end

section
/-! Acceptance under the boot programming (R107, R172): a filter whose registers were written with an identifier, under a mask
written with another, takes what `filterTakes` says. -/

namespace Sys2Proof.Machine

/-! ### An identifier seen by acceptance (R106, R107) -/

theorem exide_packId (a : CanId) : bitOf ((packId 3 a).getD 1 0) 3 = a.isExt := by
  cases a with
  | std v =>
    have exide : ∀ sid : BitVec 3, bitOf (sid ++ 0#5) 3 = false := by decide
    exact exide _
  | ext v =>
    rw [packId_ext]
    exact (sidl_fields _ 0b010#3 _).2.2

/-- The eleven bits that a standard identifier is compared with. -/
theorem std11_packId_eq_maskStd (m : CanId) : std11 ((packId 3 m).getD 0 0) ((packId 3 m).getD 1 0) = maskStd m := by
  cases m with
  | std v => exact std11_packId v
  | ext v =>
    rw [packId_ext]
    simp only [List.getD_cons_zero, List.getD_cons_succ]
    rw [std11, (sidl_fields _ 0b010#3 _).1, BitVec.extractLsb'_append_extractLsb'_eq_extractLsb' (by decide)]
    rfl

/-- The 29 bits that an extended identifier is compared with: a standard one fills the upper eleven. -/
theorem ext29_packId_eq_maskExt (m : CanId) :
    ext29 ((packId 3 m).getD 0 0) ((packId 3 m).getD 1 0) ((packId 3 m).getD 2 0) ((packId 3 m).getD 3 0) = maskExt m := by
  cases m with
  | std v =>
    have low : ∀ sid : BitVec 3, (sid ++ 0#5 : Byte).extractLsb' 0 2 = 0 := by decide
    show ext29 (v.extractLsb' 3 8) (v.extractLsb' 0 3 ++ 0#5) 0 0 = v ++ 0#18
    rw [ext29, low, BitVec.extractLsb'_append_eq_left, BitVec.extractLsb'_append_extractLsb'_eq_extractLsb' (by decide),
      BitVec.extractLsb'_eq_self, BitVec.append_assoc, BitVec.append_assoc]
    rfl
  | ext v =>
    rw [packId_ext]
    exact ext29_packId v

/-- A filter and its mask, both written with identifiers, take what `filterTakes` says. -/
theorem filterMatches_of_packed {s : State} (hd : s.cfg.dev = .standard) {n : Nat} {m a : CanId}
    (filter : ∀ j, j < 4 → s.reg (DevParams.standard.map.filter n + j) = (packId 3 a).getD j 0)
    (mask : ∀ j, j < 4 → s.reg (DevParams.standard.map.mask (maskOf n) + j) = (packId 3 m).getD j 0) (id : CanId) :
    s.filterMatches n id = filterTakes m a id := by
  have filter0 := filter 0 (by decide)
  have mask0 := mask 0 (by decide)
  rw [Nat.add_zero] at filter0 mask0
  unfold State.filterMatches
  simp only [hd, show DevParams.standard.exideBit = 3 from rfl, filter0, filter 1 (by decide), filter 2 (by decide),
    filter 3 (by decide), mask0, mask 1 (by decide), mask 2 (by decide), mask 3 (by decide), exide_packId,
    std11_packId_eq_maskStd, ext29_packId_eq_maskExt]
  cases a <;> cases id <;> rfl

/-! ### The boot's filters (R172) -/

/-- Filters 2 and 3 compare no bit of a standard identifier, filters 4 and 5 none of an extended one. -/
theorem filterTakes_unmasked (id : CanId) :
    filterTakes (.std 0) (.std 0) id = !id.isExt ∧ filterTakes (.std 0) (.ext 0) id = id.isExt := by
  cases id <;> simp [filterTakes, maskStd, maskExt, CanId.isExt]

theorem packId_zero (j : Nat) : (packId 3 (.std 0)).getD j 0 = 0 := by
  rw [show packId 3 (.std 0) = List.replicate 4 0 by decide]
  grind

/-- Settles O30: the six filters in order, each by the identifier and the mask that the boot wrote. -/
theorem bootFiltersClassify : Obligations.BootFiltersClassify := by
  intro s id ⟨hd, mask0, mask1, table, signal, std, ext⟩
  have unmasked : ∀ j, j < 4 → s.reg (0x24 + j) = (packId 3 (.std 0)).getD j 0 := fun j hj => by
    rw [mask1 j hj, packId_zero]
  have stdFilter : ∀ j, j < 4 → s.reg (0x08 + j) = (packId 3 (.std 0)).getD j 0 := fun j hj => by
    rw [(std j hj).1, packId_zero]
  obtain ⟨takesStd, takesExt⟩ := filterTakes_unmasked id
  have f0 := filterMatches_of_packed hd (n := 0) table mask0 id
  have f1 := filterMatches_of_packed hd (n := 1) signal mask0 id
  have f2 := (filterMatches_of_packed hd (n := 2) stdFilter unmasked id).trans takesStd
  have f3 := (filterMatches_of_packed hd (n := 3) (a := .std 0)
    (fun j hj => (std j hj).2.trans (packId_zero j).symm) unmasked id).trans takesStd
  have f4 := (filterMatches_of_packed hd (n := 4) (fun j hj => (ext j hj).1) unmasked id).trans takesExt
  rw [State.acceptHit, List.find?_cons, List.find?_cons, List.find?_cons, List.find?_cons, List.find?_cons, f0, f1, f2, f3, f4]
  cases filterTakes s.cfg.ctrlMask s.cfg.tableCtrlId id <;> cases filterTakes s.cfg.ctrlMask s.cfg.sigCtrlId id <;>
    cases id.isExt <;> rfl

end Sys2Proof.Machine
end

section
/-! CAN_RECEIVE (R113), and a frame that arrives and is received (R107, R108): what a full buffer shows stays through the gap
between the two transactions, and what it shows is the frame that was stored. -/

namespace Sys2Proof.Machine

/-- The gap inside a critical section leaves a buffer's registers alone where the buffer is full, or where no agent moves. -/
theorem reg_fgGap_of_stable {s : State} (hd : s.cfg.dev = .standard) (critical : s.gie = false) {b : Nat} (hb : b ≤ 1)
    (stable : s.rxFlag b = true ∨ Still s) {a : Nat} (lo : 0x61 + 16 * b ≤ a) (hi : a < 0x6E + 16 * b) :
    (fgGap s).reg a = s.reg a := by
  rcases stable with full | still
  · rw [fgGap_of_gie_false s critical]
    exact (envGap_full_buffer hd hb full).2 a lo hi
  · rw [fgGap_of_alone s ⟨critical, still⟩]

/-- The frame of a stable buffer is what receive answers. -/
theorem receive_of_stable {s : State} (hd : s.cfg.dev = .standard) (critical : s.gie = false) {b : Nat} (hb : b ≤ 1)
    (stable : s.rxFlag b = true ∨ Still s) : (receive fgGap b s).1 = s.bufferFrame b :=
  receive_fst hd hb fun a lo hi => by
    rw [readBlock, xfer, transact_canRead]
    exact reg_fgGap_of_stable (s := sample (s.endXfer _ _)) hd critical hb stable (Nat.le_trans (by omega) lo) hi

theorem exec_canReceive {b : Byte} (hb : b.toNat ≤ 1) (s : State) :
    exec (.canReceive b) s = .next (endCommand (.ok (encodeFrame (receive fgGap b.toNat (beginCommand s)).1),
      (receive fgGap b.toNat (beginCommand s)).2)) := by
  have known : ¬ b.toNat > 1 := Nat.not_lt.2 hb
  simp only [exec, execCanReceive, command, if_neg known]

/-- Settles O28: the buffer is stable through the gap between the two transactions; run alone, both only read. -/
theorem canReceive : Obligations.CanReceive := by
  intro s b hd critical hb stable
  have answer : (receive fgGap b.toNat (beginCommand s)).1 = s.bufferFrame b.toNat :=
    receive_of_stable (s := beginCommand s) hd critical hb stable
  refine ⟨_, exec_canReceive hb s, by rw [answer]; rfl, fun still ready => ?_⟩
  have ⟨sampled, _⟩ := ready
  have quiet : Quiet fgGap (beginCommand s) := quiet_fgGap (s := beginCommand s) ⟨critical, still⟩
  obtain ⟨issued, ev, reads, _⟩ := receive_quiet quiet sampled b.toNat
  rw [reads]
  obtain ⟨block, latch, controller, eeprom, world, free, _⟩ := endCommand_traced ready
    (.ok (encodeFrame (receive fgGap b.toNat (beginCommand s)).1)) issued ev
  exact ⟨block, latch, controller, eeprom, world, free⟩

/-! ### A frame that arrives (R107, R108) -/

/-- A frame of the bus in front of a controller that receives is a step of the environment (R104). -/
theorem envMove_receive_enabled {s : State} {f : BusFrame} {fs : List BusFrame} {h : Nat} (bus : s.busIn = f :: fs)
    (mode : s.inMode .normal = true ∨ s.inMode .listenOnly = true) (hit : s.acceptHit f.id = some h) :
    envMove s .receive = sample (State.storeFrame { s with busIn := fs } f h) := by
  have enabled : s.canMove .receive = true := by simpa [State.canMove, bus] using mode
  have hit' : State.acceptHit { s with busIn := fs } f.id = some h := hit
  rw [envMove, if_pos enabled, State.move, receiveStep_enabled bus mode, State.offerFrame, hit']

theorem storeFrame_busIn (s : State) (f : BusFrame) (h : Nat) : (s.storeFrame f h).busIn = s.busIn := by
  obtain ⟨_, _, _, stored⟩ := storeFrame_ctl_only s f h
  rw [stored]

/-- A frame stored in an empty buffer: the buffer holds it, and its flag says so. -/
theorem storeFrame_holds {s : State} {f : BusFrame} {h : Nat} (hd : s.cfg.dev = .standard)
    (empty : s.rxFlag (bufferOf h) = false) :
    (s.storeFrame f h).rxFlag (bufferOf h) = true ∧
      HoldsFrame (s.storeFrame f h) (0x61 + 16 * bufferOf h) ⟨f.id, f.rtr, f.dlcField, busData f⟩ := by
  have reg := fun a => (storeFrame_empty (f := f) hd empty a).1
  have hb := bufferOf_le h
  constructor
  · rw [rxFlag_standard (by rw [storeFrame_cfg, hd]), reg, if_pos rfl, bitOf_withBit_self _ _ _ (by omega)]
  · refine holdsFrame_of_loaded fun r lo hi => ?_
    simp only at hi
    rw [reg, if_neg (by omega), if_pos ⟨lo, by omega⟩]

/-- What a buffer holds is the frame CAN_RECEIVE answers, for a data frame of the length its DLC field says. -/
theorem bufferFrame_of_holds {s : State} {b : Nat} {f : BusFrame} (holds : HoldsFrame s (0x61 + 16 * b) f)
    (length : f.data.length = min f.dlcField.toNat maxDlc) : s.bufferFrame b = ⟨f.id, f.rtr, f.data⟩ := by
  have at_offset : ∀ j, 0x61 + j + 16 * b = 0x61 + 16 * b + j := fun j => by omega
  have dlc : s.reg (0x65 + 16 * b) = dlcByte 6 f.rtr f.dlcField := (congrArg s.reg (at_offset 4)).trans holds.dlc
  have data := holds.readData
  simp only [State.bufferFrame, dlc, dlcByte_fields, ← length]
  refine congrArg₂ (CanFrame.mk · f.rtr ·) ?_ ?_
  · rw [← holds.unpackId, ← at_offset 1, ← at_offset 2, ← at_offset 3]
  · rw [← at_offset 5] at data
    exact data

/-- The data of a data frame whose length is the one its DLC field says (R108). -/
theorem busData_of_length {f : BusFrame} (data : f.rtr = false) (length : f.data.length = min f.dlcField.toNat maxDlc) :
    busData f = f.data := by
  rw [busData, data, if_neg Bool.false_ne_true, ← length, List.take_length]

/-- Settles O29: the empty buffer stores the frame and holds it, and a full buffer is what CAN_RECEIVE reads stably; for a frame
that finds its buffer full only the bus changes. -/
theorem acceptedFrameIsReceived : Obligations.AcceptedFrameIsReceived := by
  intro s f fs h b hd critical bus mode hit data length hb
  have arrives := envMove_receive_enabled bus mode hit
  constructor <;> intro flag <;> rw [hb] at flag
  · obtain ⟨full, holds⟩ := storeFrame_holds (s := { s with busIn := fs }) (f := f) hd flag
    obtain ⟨_, lastHit, _⟩ := storeFrame_empty (s := { s with busIn := fs }) (f := f) hd flag 0
    have dev : (envMove s .receive).cfg.dev = .standard :=
      (congrArg (·.cfg.dev) (envMove_blockPart s .receive)).trans hd
    have gie : (envMove s .receive).gie = false := (congrArg BlockPart.gie (envMove_blockPart s .receive)).trans critical
    have in_buffer : (envMove s .receive).rxFlag b.toNat = true := by rw [arrives, hb]; exact full
    obtain ⟨t, next, result, _⟩ := canReceive (envMove s .receive) b dev gie (hb ▸ bufferOf_le h) (.inl in_buffer)
    refine ⟨in_buffer, by rw [arrives]; exact lastHit, by rw [arrives]; exact storeFrame_busIn _ f h, t, next, ?_⟩
    have answer : (envMove s .receive).bufferFrame b.toNat = ⟨f.id, false, f.data⟩ := by
      rw [busData_of_length data length, data] at holds
      rw [arrives, hb]
      exact (bufferFrame_of_holds holds length :)
    rw [result, answer]
  · rw [arrives, storeFrame_full (s := { s with busIn := fs }) flag]
    exact ⟨⟨fun _ => rfl, rfl, rfl⟩, rfl⟩

end Sys2Proof.Machine
end

section
/-! What a controller operation leaves as it was (R82, R104). A transaction that only reads and writes controller registers, and a
gap in which nothing is received, touch the registers written and nothing else but the marks of the transaction. Where neither
CANINTE nor CANINTF is among the registers, the interrupt line stays as it was. -/

namespace Sys2Proof.Machine

/-! ### The relation -/

/-- From s to t only controller registers with P have changed, and transactions have been issued: the interrupt line, the EEPROM,
the bus and the schedule are as they were. -/
structure Writes (P : Nat → Prop) (s t : State) : Prop where
  block : Marked s t
  eeprom : t.eePart = s.eePart
  edge : t.edgePart = s.edgePart
  line : t.intLine = s.intLine
  lastHit : t.lastHit = s.lastHit
  lastType : t.lastType = s.lastType
  busIn : t.busIn = s.busIn
  busOut : t.busOut = s.busOut
  sched : t.sched = s.sched
  regs : ∀ a, ¬ P a → t.reg a = s.reg a

theorem Writes.refl (P : Nat → Prop) (s : State) : Writes P s s :=
  ⟨.refl s, rfl, rfl, rfl, rfl, rfl, rfl, rfl, rfl, fun _ _ => rfl⟩

theorem Writes.trans {P : Nat → Prop} {s t u : State} (h1 : Writes P s t) (h2 : Writes P t u) : Writes P s u where
  block := h1.block.trans h2.block
  eeprom := h2.eeprom.trans h1.eeprom
  edge := h2.edge.trans h1.edge
  line := h2.line.trans h1.line
  lastHit := h2.lastHit.trans h1.lastHit
  lastType := h2.lastType.trans h1.lastType
  busIn := h2.busIn.trans h1.busIn
  busOut := h2.busOut.trans h1.busOut
  sched := h2.sched.trans h1.sched
  regs := fun a ha => (h2.regs a ha).trans (h1.regs a ha)

theorem Writes.mono {P Q : Nat → Prop} {s t : State} (h : Writes P s t) (hPQ : ∀ a, P a → Q a) : Writes Q s t :=
  { h with regs := fun a ha => h.regs a fun hp => ha (hPQ a hp) }

section
variable {P : Nat → Prop} {s t : State}

theorem Marked.modeFair (h : Marked s t) : t.modeFair = s.modeFair := by
  rcases h with h | h <;> exact congrArg BlockPart.modeFair h

theorem Marked.script (h : Marked s t) : t.script = s.script := by
  rcases h with h | h <;> exact congrArg BlockPart.script h

theorem Writes.cfg (h : Writes P s t) : t.cfg = s.cfg := h.block.cfg

theorem Writes.standard (h : Writes P s t) (hd : s.cfg.dev = .standard) : t.cfg.dev = .standard := by rw [h.cfg, hd]

theorem Writes.sampled (h : Writes P s t) (hs : Sampled s) : Sampled t :=
  (congrArg Prod.snd h.edge).trans (Eq.trans hs h.line.symm)

theorem Writes.still (h : Writes P s t) (hs : Still s) : Still t := ⟨h.sched.trans hs.1, h.block.modeFair.trans hs.2⟩

theorem Writes.alone (h : Writes P s t) (hs : Alone s) : Alone t := ⟨h.block.gie.trans hs.1, h.still hs.2⟩

/-- The mode reported is in CANSTAT. -/
theorem Writes.opmod (h : Writes P s t) (hd : s.cfg.dev = .standard) (spared : ¬ P 0x0E) : t.opmod = s.opmod := by
  rw [State.opmod, State.opmod, h.cfg, hd, show DevParams.standard.map.canstat = 0x0E from rfl, h.regs _ spared]

theorem Writes.inMode (h : Writes P s t) (hd : s.cfg.dev = .standard) (spared : ¬ P 0x0E) (m : Mode) :
    t.inMode m = s.inMode m := by
  rw [State.inMode, State.inMode, h.opmod hd spared, h.cfg]

end

/-- None of the registers is one of the two that the interrupt line is read from (R38). -/
def SparesLine (P : Nat → Prop) : Prop := ¬ P 0x2B ∧ ¬ P 0x2C

theorem sparesLine_of_ne {r : Nat} (h : r ≠ 0x2B ∧ r ≠ 0x2C) : SparesLine (· = r) := ⟨h.1.symm, h.2.symm⟩

theorem no_register_sparesLine : SparesLine fun _ => False := ⟨id, id⟩

theorem intLine_standard {s : State} (hd : s.cfg.dev = .standard) : s.intLine = (s.reg 0x2C &&& s.reg 0x2B != 0) := by
  rw [State.intLine, hd]
  rfl

/-- New values of registers with P. -/
theorem writes_of_ctl {P : Nat → Prop} {s : State} {c : Vector Byte 128} (hd : s.cfg.dev = .standard) (hP : SparesLine P)
    (regs : ∀ a, ¬ P a → State.reg { s with ctl := c } a = s.reg a) : Writes P s { s with ctl := c } where
  block := .refl s
  eeprom := rfl
  edge := rfl
  line := by
    obtain ⟨caninte, canintf⟩ := hP
    rw [intLine_standard (s := { s with ctl := c }) hd, intLine_standard hd, regs _ caninte, regs _ canintf]
  lastHit := rfl
  lastType := rfl
  busIn := rfl
  busOut := rfl
  sched := rfl
  regs := regs

theorem setReg_writes {P : Nat → Prop} {s : State} {a : Nat} (hd : s.cfg.dev = .standard) (hP : SparesLine P) (ha : P a)
    (v : Byte) : Writes P s (s.setReg a v) :=
  writes_of_ctl hd hP fun b hb => reg_setReg_ne s a b v fun h => hb (h ▸ ha)

/-! ### One transaction -/

/-- A transaction that reads controller registers, or writes some with P. -/
def WritesIn (P : Nat → Prop) : Xfer → Prop
  | .canRead _ _ => True
  | .canWrite a d => ∀ r, a ≤ r → r < a + d.length → P r
  | .canBitmod a _ _ => P a
  | .canReset | .canRxStatus | .eeWren | .eeRdsr | .eeRead _ _ | .eeWrite _ _ => False

theorem device_writes {P : Nat → Prop} {s : State} {x : Xfer} (hd : s.cfg.dev = .standard) (hP : SparesLine P)
    (hx : WritesIn P x) : Writes P s (s.device x).2 := by
  cases x with
  | canRead a n => exact .refl P s
  | canWrite a d =>
    obtain ⟨c, only_ctl⟩ := ctlWrites_ctl_only d s a
    have regs : ∀ b, ¬ P b → (s.ctlWrites a d).reg b = s.reg b := fun b hb => by
      rw [reg_ctlWrites, if_neg fun h => hb (hx b h.1 h.2.1)]
    rw [only_ctl] at regs
    rw [State.device, only_ctl]
    exact writes_of_ctl hd hP regs
  | canBitmod a m d =>
    obtain ⟨c, only_ctl⟩ := ctlWrite_ctl_only s a ((s.reg a &&& ~~~m) ||| (d &&& m))
    have regs : ∀ b, ¬ P b → (s.ctlBitmod a m d).reg b = s.reg b := fun b hb => by
      have other : a ≠ b := fun h => hb (h ▸ hx)
      rw [reg_ctlBitmod, if_neg fun h => other h.1]
    rw [State.ctlBitmod, only_ctl] at regs
    rw [State.device, State.ctlBitmod, only_ctl]
    exact writes_of_ctl hd hP regs
  | _ => exact hx.elim

theorem transact_writes {P : Nat → Prop} {s : State} {x : Xfer} (hd : s.cfg.dev = .standard) (hP : SparesLine P)
    (hx : WritesIn P x) : Writes P s (s.transact x).2 := by
  rw [transact_eq]
  exact (device_writes hd hP hx).trans
    ⟨.inr rfl, rfl, rfl, rfl, rfl, rfl, rfl, rfl, rfl, fun _ _ => rfl⟩

/-- A read leaves all as it was but the marks of its transaction. -/
theorem transact_canRead_writes {s : State} (hd : s.cfg.dev = .standard) (a n : Nat) :
    Writes (fun _ => False) s (s.transact (.canRead a n)).2 :=
  transact_writes hd no_register_sparesLine trivial

theorem transact_events {P : Nat → Prop} {s : State} {x : Xfer} (hx : WritesIn P x) :
    (s.transact x).2.events = s.events ++ [.xfer x.dev (x.out s.cfg) (s.transact x).1] := by
  have events : (s.device x).2.events = s.events := by
    cases x with
    | canRead a n => rfl
    | canWrite a d => obtain ⟨c, only_ctl⟩ := ctlWrites_ctl_only d s a; rw [State.device, only_ctl]
    | canBitmod a m d =>
      obtain ⟨c, only_ctl⟩ := ctlWrite_ctl_only s a ((s.reg a &&& ~~~m) ||| (d &&& m))
      rw [State.device, State.ctlBitmod, only_ctl]
    | _ => exact hx.elim
  rw [transact_eq, State.endXfer_events, events, device_cfg]

/-- A gap in which nothing happens, after a transaction that left the line as it was sampled. -/
theorem xfer_of_fgGap_eq {s : State} {x : Xfer} (sampled : Sampled (s.transact x).2)
    (gap : fgGap (s.transact x).2 = (s.transact x).2) : xfer fgGap x s = s.transact x := by
  rw [xfer, tick, sample_of_sampled sampled, gap]

/-- Such a transaction of a command that runs alone. -/
theorem xfer_alone {P : Nat → Prop} {s : State} {x : Xfer} (hd : s.cfg.dev = .standard) (hP : SparesLine P)
    (hx : WritesIn P x) (alone : Alone s) (sampled : Sampled s) : xfer fgGap x s = s.transact x :=
  have acted := transact_writes hd hP hx
  xfer_of_fgGap_eq (acted.sampled sampled) (fgGap_of_alone _ (acted.alone alone))

/-! ### The end of the command -/

/-- A command whose body wrote only registers with P leaves the other registers and all else as it was. -/
theorem Writes.endCommand {P : Nat → Prop} {s u : State} (h : Writes P (beginCommand s) u) (ready : Ready s)
    (r : Except Err (List Byte)) :
    RegistersOnly s (endCommand (r, u)) ∧ SameLatch s (endCommand (r, u)) ∧
      ∀ a, ¬ P a → (Machine.endCommand (r, u)).reg a = s.reg a := by
  have ⟨sampled, _⟩ := ready
  have latch : SameLatch s (Machine.endCommand (r, u)) := endCommand_sameLatch (h.sampled sampled) h.edge r
  have line : (Machine.endCommand (r, u)).intLine = s.intLine := h.line
  have world : SameWorld s (Machine.endCommand (r, u)) :=
    ⟨h.block.out, h.busIn, h.busOut, h.block.script, h.sched, h.block.modeFair⟩
  have edge : (Machine.endCommand (r, u)).latch =
      (s.latch || ((Machine.endCommand (r, u)).intLine && !s.intLine)) := by
    rw [line, Bool.and_not_self, Bool.or_false]
    exact latch.1
  exact ⟨⟨endCommand_sameBlock ready h.block r, h.lastHit, h.lastType, endCommand_sameEeprom h.block h.eeprom r, world,
    h.block.freeN, edge, rfl⟩, latch, h.regs⟩

end Sys2Proof.Machine
end

section
/-! CAN_SETBT, CAN_SETMASK and CAN_SETFILTER (R110 to R112): block writes of configuration registers, which take them in Config
mode and ignore them outside it (R105). -/

namespace Sys2Proof.Machine

/-- The configuration registers of the standard map (R105). -/
def ConfigReg (a : Nat) : Prop := DevParams.standard.map.isConfig a = true

theorem configReg_iff (a : Nat) :
    ConfigReg a ↔ a < 0x0C ∨ (0x10 ≤ a ∧ a < 0x1C) ∨ (0x20 ≤ a ∧ a < 0x2B) := by
  simp only [ConfigReg, RegMap.isConfig, inGroup, Bool.or_eq_true, Bool.and_eq_true, beq_iff_eq, decide_eq_true_eq]
  simp only [DevParams.standard, RegMap.mcp2515]
  omega

theorem configReg_sparesLine : SparesLine ConfigReg := by
  simp only [SparesLine, configReg_iff]
  omega

theorem not_configReg_canstat : ¬ ConfigReg 0x0E := by
  rw [configReg_iff]
  omega

/-- But for CANSTAT, TXB0CTRL and CANINTF a register takes the byte written (R83). -/
theorem writable_plain {s : State} (hd : s.cfg.dev = .standard) {a : Nat} (h : a ≠ 0x0E ∧ a ≠ 0x30 ∧ a ≠ 0x2C) (v : Byte) :
    s.writable a v = v := by
  obtain ⟨canstat, txb0ctrl, canintf⟩ := h
  rw [State.writable, hd]
  change (if a = 0x0E then _ else if a = 0x30 then _ else if a = 0x2C then _ else v) = v
  rw [if_neg canstat, if_neg txb0ctrl, if_neg canintf]

/-- A write of a configuration register is taken whole or not at all (R83, R105). -/
theorem reg_ctlWrites_config {s : State} (hd : s.cfg.dev = .standard) {a : Nat} {d : List Byte}
    (config : ∀ r, a ≤ r → r < a + d.length → ConfigReg r) (b : Nat) :
    (s.ctlWrites a d).reg b =
      if s.inMode .config = true ∧ a ≤ b ∧ b < a + d.length then d.getD (b - a) 0 else s.reg b := by
  rw [reg_ctlWrites]
  by_cases inside : a ≤ b ∧ b < a + d.length
  · have reg := config b inside.1 inside.2
    have low := (configReg_iff b).1 reg
    have locked : s.locked b = !s.inMode .config := by
      rw [State.locked, hd, show DevParams.standard.map.isConfig b = true from reg, Bool.true_and]
    rw [writable_plain hd (by omega), locked]
    exact if_congr ⟨fun h => ⟨by simpa using h.2.2.2, inside⟩, fun h => ⟨inside.1, inside.2, by omega, by simp [h.1]⟩⟩ rfl rfl
  · rw [if_neg fun h => inside ⟨h.1, h.2.1⟩, if_neg fun h => inside h.2]

/-- A block write of configuration registers, of a command that runs alone. -/
theorem writeBlock_config {s : State} (hd : s.cfg.dev = .standard) (alone : Alone s) (sampled : Sampled s) {a : Nat}
    {d : List Byte} (config : ∀ r, a ≤ r → r < a + d.length → ConfigReg r) :
    Writes ConfigReg s (writeBlock fgGap a d s) ∧
      (∀ b, (writeBlock fgGap a d s).reg b =
        if s.inMode .config = true ∧ a ≤ b ∧ b < a + d.length then d.getD (b - a) 0 else s.reg b) ∧
      (writeBlock fgGap a d s).events = s.events ++ [.xfer .can ([0x02, BitVec.ofNat 8 a] ++ d) []] := by
  have in_config : WritesIn ConfigReg (.canWrite a d) := config
  rw [writeBlock, xferOut, xfer_alone hd configReg_sparesLine in_config alone sampled]
  refine ⟨transact_writes hd configReg_sparesLine in_config, fun b => ?_, ?_⟩
  · rw [transact_canWrite]
    exact reg_ctlWrites_config hd config b
  · rw [transact_events in_config, Xfer.out, hd]
    rfl

/-! ### CAN_SETBT -/

theorem exec_canSetbt (c1 c2 c3 : Byte) (s : State) :
    exec (.canSetbt c1 c2 c3) s = .next (endCommand (.ok [], setBitTiming fgGap c1 c2 c3 (beginCommand s))) := rfl

/-- The write of one configuration register. -/
theorem writeReg_config {s : State} (hd : s.cfg.dev = .standard) (alone : Alone s) (sampled : Sampled s) {a : Nat}
    (config : ConfigReg a) (v : Byte) :
    Writes ConfigReg s (writeReg fgGap a v s) ∧
      (∀ b, (writeReg fgGap a v s).reg b = if s.inMode .config = true ∧ b = a then v else s.reg b) ∧
      (writeReg fgGap a v s).events = s.events ++ [.xfer .can [0x02, BitVec.ofNat 8 a, v] []] := by
  have only_a : ∀ r, a ≤ r ∧ r < a + 1 ↔ r = a := fun r => by omega
  obtain ⟨writes, regs, events⟩ := writeBlock_config hd alone sampled (a := a) (d := [v])
    fun r lo hi => (only_a r).1 ⟨lo, hi⟩ ▸ config
  refine ⟨writes, fun b => (regs b).trans ?_, events⟩
  simp only [List.length_singleton, only_a]
  split
  next h => rw [h.2, Nat.sub_self]; rfl
  next => rfl

/-- Settles O26: three writes one after another, none of which changes the mode that the next one meets. -/
theorem canSetbt : Obligations.CanSetbt := by
  intro s c1 c2 c3 hd alone ready
  have ⟨sampled, _⟩ := ready
  have config : ConfigReg 0x2A ∧ ConfigReg 0x29 ∧ ConfigReg 0x28 := by
    unfold ConfigReg
    decide
  have body : setBitTiming fgGap c1 c2 c3 (beginCommand s) =
      writeReg fgGap 0x28 c3 (writeReg fgGap 0x29 c2 (writeReg fgGap 0x2A c1 (beginCommand s))) := by
    rw [setBitTiming, beginCommand_cfg, hd]
    rfl
  obtain ⟨w1, r1, e1⟩ := writeReg_config (s := beginCommand s) hd alone sampled config.1 c1
  generalize writeReg fgGap 0x2A c1 (beginCommand s) = u1 at *
  obtain ⟨w2, r2, e2⟩ := writeReg_config (w1.standard hd) (w1.alone alone) (w1.sampled sampled) config.2.1 c2
  generalize writeReg fgGap 0x29 c2 u1 = u2 at *
  have w12 := w1.trans w2
  obtain ⟨w3, r3, e3⟩ := writeReg_config (w12.standard hd) (w12.alone alone) (w12.sampled sampled) config.2.2 c3
  generalize writeReg fgGap 0x28 c3 u2 = u3 at *
  have mode1 : u1.inMode .config = s.inMode .config := w1.inMode hd not_configReg_canstat _
  have mode2 : u2.inMode .config = s.inMode .config := w12.inMode hd not_configReg_canstat _
  refine ⟨_, exec_canSetbt c1 c2 c3 s, rfl, fun a => ?_, ?_, ?_⟩ <;> rw [body]
  · show u3.reg a = _
    rw [r3, r2, r1, mode2, mode1, beginCommand_inMode, beginCommand_reg]
    cases s.inMode .config
    · rfl
    · grind
  · exact ((w12.trans w3).endCommand ready (.ok [])).1
  · show u3.events = _
    rw [e3, e2, e1, List.append_assoc, List.append_assoc]
    rfl

/-! ### CAN_SETMASK and CAN_SETFILTER -/

/-- The four registers of each mask and filter are configuration registers. -/
theorem configReg_of_group {base : Nat} (h : base ∈ [0x20, 0x24, 0x00, 0x04, 0x08, 0x10, 0x14, 0x18]) :
    ∀ r, base ≤ r → r < base + 4 → ConfigReg r := by
  intro r lo hi
  rw [configReg_iff]
  simp only [List.mem_cons, List.not_mem_nil, or_false] at h
  omega

theorem exec_canSetmask {s : State} (hd : s.cfg.dev = .standard) {k : Byte} {base : Nat}
    (hk : [0x20, 0x24][k.toNat]? = some base) (id : CanId) :
    exec (.canSetmask k id) s = .next (endCommand (.ok [], writeBlock fgGap base (packId 3 id) (beginCommand s))) := by
  have known : k.toNat < 2 := (List.getElem?_eq_some_iff.1 hk).1
  have mask : DevParams.standard.map.mask k.toNat = base := by
    generalize k.toNat = n at *
    match n, known with
    | 0, _ | 1, _ => exact Option.some.inj hk
  simp only [exec, execCanSetmask, command, if_neg (Nat.not_lt.2 (Nat.le_of_lt_succ known)), setMask, beginCommand_cfg, hd, mask]
  rfl

theorem exec_canSetfilter {s : State} (hd : s.cfg.dev = .standard) {k : Byte} {base : Nat}
    (hk : [0x00, 0x04, 0x08, 0x10, 0x14, 0x18][k.toNat]? = some base) (id : CanId) :
    exec (.canSetfilter k id) s = .next (endCommand (.ok [], writeBlock fgGap base (packId 3 id) (beginCommand s))) := by
  have known : k.toNat < 6 := (List.getElem?_eq_some_iff.1 hk).1
  have filter : DevParams.standard.map.filter k.toNat = base := by
    generalize k.toNat = n at *
    match n, known with
    | 0, _ | 1, _ | 2, _ | 3, _ | 4, _ | 5, _ => exact Option.some.inj hk
  simp only [exec, execCanSetfilter, command, if_neg (Nat.not_lt.2 (Nat.le_of_lt_succ known)), setFilter, beginCommand_cfg, hd,
    filter]
  rfl

/-- Settles O27: either command is one block write of its group. -/
theorem canSetmaskAndSetfilter : Obligations.CanSetmaskAndSetfilter := by
  intro s i base id hd alone ready group
  have ⟨sampled, _⟩ := ready
  have one_write : exec i s = .next (endCommand (.ok [], writeBlock fgGap base (packId 3 id) (beginCommand s))) ∧
      base ∈ [0x20, 0x24, 0x00, 0x04, 0x08, 0x10, 0x14, 0x18] := by
    rcases group with ⟨k, rfl, hk⟩ | ⟨k, rfl, hk⟩
    · exact ⟨exec_canSetmask hd hk id, List.mem_append_left _ (List.mem_of_getElem? hk)⟩
    · exact ⟨exec_canSetfilter hd hk id, List.mem_append_right [0x20, 0x24] (List.mem_of_getElem? hk)⟩
  obtain ⟨next, base_of_group⟩ := one_write
  have config := configReg_of_group base_of_group
  rw [← packId_length 3 id] at config
  obtain ⟨writes, regs, events⟩ := writeBlock_config (s := beginCommand s) hd alone sampled config
  rw [packId_length] at regs
  exact ⟨_, next, rfl, regs, (writes.endCommand ready (.ok [])).1, events⟩

end Sys2Proof.Machine
end

section
/-! CAN_SETMODE (R109, R116, R182). The mode request is a write of REQOP; what ends the wait is the mode that the controller then
reports, and once it reports the mode requested no further mode change is enabled. -/

namespace Sys2Proof.Machine

/-- CANSTAT and CANCTRL (R36). -/
def ModeReg (a : Nat) : Prop := a = 0x0E ∨ a = 0x0F

theorem modeReg_sparesLine : SparesLine ModeReg := by
  unfold SparesLine ModeReg
  omega

/-- The mode operand is an index of the five modes (R68). -/
theorem modeOperand_of_index : ∀ m : Byte,
    modeOperand m = ([Mode.config, .normal, .sleep, .listenOnly, .loopback][m.toNat]?).elim (.error .badIndex) .ok := by
  decide

theorem inMode_iff {s : State} (hd : s.cfg.dev = .standard) (md : Mode) :
    s.inMode md = true ↔ s.opmod = modeCode DevParams.standard md := by
  rw [State.inMode, hd, beq_iff_eq]

/-! ### Gaps in which no mode change is enabled -/

/-- No handler is entered and nothing is scheduled, and a fair environment has no mode change to make. -/
structure ModeSettled (s : State) : Prop where
  gie : s.gie = false
  sched : s.sched = []
  fair : s.modeFair = true → s.opmod = s.reqop

theorem Alone.settled {s : State} (h : Alone s) : ModeSettled s where
  gie := h.1
  sched := h.2.1
  fair := fun fair => absurd (h.2.2.symm.trans fair) Bool.false_ne_true

theorem fgGap_of_settled {s : State} (h : ModeSettled s) : fgGap s = s := by
  rw [fgGap_of_gie_false s h.gie]
  cases fair : s.modeFair
  · exact envGap_of_still s ⟨h.sched, fair⟩
  · have disabled : s.canMove .modeChange = false := by simp [State.canMove, h.fair fair]
    rw [envGap_fair ⟨h.sched, fair⟩, envMove, if_neg (by simp [disabled])]

theorem ModeSettled.afterRead {s : State} (h : ModeSettled s) (hd : s.cfg.dev = .standard) (a n : Nat) :
    ModeSettled (s.transact (.canRead a n)).2 := by
  have reads := transact_canRead_writes hd a n (s := s)
  have reqop : (s.transact (.canRead a n)).2.reqop = s.reqop := by rw [transact_canRead]; rfl
  exact ⟨reads.block.gie.trans h.gie, reads.sched.trans h.sched,
    fun fair => (reads.opmod hd id).trans ((h.fair (reads.block.modeFair.symm.trans fair)).trans reqop.symm)⟩

/-- One poll in such a gap. -/
theorem readReg_canstat {s : State} (hd : s.cfg.dev = .standard) (settled : ModeSettled s) (sampled : Sampled s) :
    readReg fgGap s.cfg.dev.map.canstat s = (s.reg 0x0E, (s.transact (.canRead 0x0E 1)).2) := by
  have reads := transact_canRead_writes hd 0x0E 1 (s := s)
  rw [hd, show DevParams.standard.map.canstat = 0x0E from rfl, readReg,
    xfer_of_fgGap_eq (reads.sampled sampled) (fgGap_of_settled (settled.afterRead hd _ _)), transact_canRead]
  rfl

theorem modeBits_canstat {s : State} (hd : s.cfg.dev = .standard) : modeBits (s.reg 0x0E) = s.opmod := by
  rw [State.opmod, hd]
  rfl

/-- The first poll ends the wait where the mode is reported. -/
theorem modePoll_of_inMode {s : State} (hd : s.cfg.dev = .standard) (settled : ModeSettled s) (sampled : Sampled s) {md : Mode}
    (mode : s.inMode md = true) (n : Nat) : modePoll fgGap md (n + 1) s = some (s.transact (.canRead 0x0E 1)).2 := by
  have matched : modeBits (s.reg 0x0E) = modeCode s.cfg.dev md := by
    rw [modeBits_canstat hd, hd]
    exact (inMode_iff hd md).1 mode
  rw [modePoll, readReg_canstat hd settled sampled]
  exact if_pos matched

/-- No poll ends the wait where another mode is reported and none will be. -/
theorem modePoll_of_not_inMode {s : State} (hd : s.cfg.dev = .standard) (settled : ModeSettled s) (sampled : Sampled s) {md : Mode}
    (mode : s.inMode md = false) (n : Nat) : modePoll fgGap md n s = none := by
  induction n generalizing s with
  | zero => rfl
  | succ n ih =>
    have reads := transact_canRead_writes hd 0x0E 1 (s := s)
    have unmatched : modeBits (s.reg 0x0E) ≠ modeCode s.cfg.dev md := by
      rw [modeBits_canstat hd, hd]
      exact fun h => absurd ((inMode_iff hd md).2 h) (by simp [mode])
    rw [modePoll, readReg_canstat hd settled sampled]
    exact (if_neg unmatched).trans (ih (reads.standard hd) (settled.afterRead hd _ _) (reads.sampled sampled)
      ((reads.inMode hd id md).trans mode))

/-! ### The request -/

/-- The transaction of a mode request (R109). -/
def modeRequest (md : Mode) : Xfer := .canBitmod 0x0F 0xE0 (modeCode DevParams.standard md ++ 0#5)

theorem setModeOp_eq {s : State} (hd : s.cfg.dev = .standard) (md : Mode) :
    setModeOp fgGap md s = (modePoll fgGap md (modePollBound (xfer fgGap (modeRequest md) s).2)
      (xfer fgGap (modeRequest md) s).2).map fun t => { t with modeShadow := some md } := by
  rw [setModeOp, hd]
  rfl

theorem transact_modeRequest_writes {s : State} (hd : s.cfg.dev = .standard) (md : Mode) :
    Writes (· = 0x0F) s (s.transact (modeRequest md)).2 :=
  transact_writes hd (sparesLine_of_ne (by decide)) rfl

/-- A request in a gap without a move: the mode reported is the one before. -/
theorem modeRequest_still {s : State} (hd : s.cfg.dev = .standard) (alone : Alone s) (sampled : Sampled s) (md : Mode) :
    (xfer fgGap (modeRequest md) s).2 = (s.transact (modeRequest md)).2 :=
  have requested := transact_modeRequest_writes hd md
  congrArg Prod.snd (xfer_of_fgGap_eq (requested.sampled sampled) (fgGap_of_alone _ (requested.alone alone)))

theorem modeChange_writes {s : State} (hd : s.cfg.dev = .standard) : Writes (· = 0x0E) s s.modeChange := by
  unfold State.modeChange
  rw [hd]
  split
  · exact setReg_writes hd (sparesLine_of_ne (by decide)) rfl _
  · exact .refl _ s

/-- What the block has once its request is answered (R104, R109): it rests in the mode asked for. -/
structure ModeReached (s u : State) (md : Mode) : Prop where
  writes : Writes ModeReg s u
  settled : ModeSettled u
  mode : u.inMode md = true
  reqop : u.reqop = modeCode DevParams.standard md

theorem modeReached_of_reported {s : State} (hd : s.cfg.dev = .standard) (alone : Alone s) (sampled : Sampled s) {md : Mode}
    (mode : s.inMode md = true) : ModeReached s (xfer fgGap (modeRequest md) s).2 md := by
  have requested := transact_modeRequest_writes hd md
  rw [modeRequest_still hd alone sampled]
  exact ⟨requested.mono fun _ => .inr, (requested.alone alone).settled, (requested.inMode hd (by decide) md).trans mode,
    reqop_request s md hd⟩

/-- A request in a fair environment: the gap after it holds the controller's mode change. -/
theorem modeReached_of_fair {s : State} (hd : s.cfg.dev = .standard) (critical : s.gie = false) (fair : Fair s)
    (sampled : Sampled s) (md : Mode) : ModeReached s (xfer fgGap (modeRequest md) s).2 md := by
  have requested := transact_modeRequest_writes hd md
  have reqop : (s.transact (modeRequest md)).2.reqop = modeCode DevParams.standard md := reqop_request s md hd
  rw [xfer]
  generalize (s.transact (modeRequest md)).2 = v at *
  have dev := requested.standard hd
  have changed := modeChange_writes dev
  have gap : tick fgGap v = v.modeChange := by
    have fair_v : Fair v := ⟨requested.sched.trans fair.1, requested.block.modeFair.trans fair.2⟩
    have sampled_v := requested.sampled sampled
    rw [tick, sample_of_sampled sampled_v, fgGap_of_gie_false v (requested.block.gie.trans critical), envGap_fair fair_v,
      envMove_of_sampled sampled_v, State.move, sample_of_sampled (changed.sampled sampled_v)]
  have opmod : v.modeChange.opmod = v.reqop := by
    have answered := envMove_modeChange_opmod dev (by rw [dev, reqop]; exact isModeCode_modeCode md)
    rw [envMove_of_sampled (requested.sampled sampled)] at answered
    exact answered
  have kept : v.modeChange.reqop = v.reqop := by
    rw [State.reqop, State.reqop, changed.cfg, dev, changed.regs _ (by decide)]
  show ModeReached s (tick fgGap v) md
  rw [gap]
  exact ⟨(requested.mono fun _ => .inr).trans (changed.mono fun _ => .inl),
    ⟨changed.block.gie.trans (requested.block.gie.trans critical), changed.sched.trans (requested.sched.trans fair.1),
      fun _ => opmod.trans kept.symm⟩,
    (inMode_iff (changed.standard dev) md).2 (opmod.trans reqop), kept.trans reqop⟩

/-! ### The command -/

/-- The block remembers the mode (R30, R109). -/
def State.rememberMode (s : State) (md : Mode) : State := { s with modeShadow := some md }

theorem Marked.rememberMode {s t : State} (h : Marked s t) (md : Mode) : Marked (s.rememberMode md) (t.rememberMode md) := by
  rcases h with h | h
  · exact .inl (congrArg (fun p : BlockPart => { p with modeShadow := some md }) h)
  · exact .inr (congrArg (fun p : BlockPart => { p with modeShadow := some md }) h)

theorem Writes.rememberMode {P : Nat → Prop} {s t : State} (h : Writes P s t) (md : Mode) :
    Writes P (s.rememberMode md) (t.rememberMode md) :=
  ⟨h.block.rememberMode md, h.eeprom, h.edge, h.line, h.lastHit, h.lastType, h.busIn, h.busOut, h.sched, h.regs⟩

theorem exec_canSetmode {m : Byte} {md : Mode}
    (operand : [Mode.config, .normal, .sleep, .listenOnly, .loopback][m.toNat]? = some md) (s : State) :
    exec (.canSetmode m) s = (setModeOp fgGap md (beginCommand s)).elim (.fault .modeWaitHang)
      fun t => .next (endCommand (.ok [], t)) := by
  have known : modeOperand m = .ok md := by rw [modeOperand_of_index, operand]; rfl
  simp only [exec, execCanSetmode, known]
  cases setModeOp fgGap md (beginCommand s) <;> rfl

/-- With the mode reached the first poll ends the wait. -/
theorem setModeOp_of_reached {s : State} (hd : s.cfg.dev = .standard) (sampled : Sampled s) {md : Mode}
    (reached : ModeReached s (xfer fgGap (modeRequest md) s).2 md) :
    ∃ w, setModeOp fgGap md s = some (w.rememberMode md) ∧ Writes ModeReg s w ∧ w.inMode md = true ∧
      w.reqop = modeCode s.cfg.dev md := by
  have op := setModeOp_eq hd md
  generalize (xfer fgGap (modeRequest md) s).2 = u at *
  have dev : u.cfg.dev = .standard := reached.writes.standard hd
  have reads := transact_canRead_writes dev 0x0E 1
  have reqop : (u.transact (.canRead 0x0E 1)).2.reqop = modeCode s.cfg.dev md := by
    rw [transact_canRead, State.endXfer_reqop, reached.reqop, hd]
  rw [modePollBound, modePoll_of_inMode dev reached.settled (reached.writes.sampled sampled) reached.mode] at op
  exact ⟨_, op, reached.writes.trans (reads.mono fun _ => False.elim), (reads.inMode dev id md).trans reached.mode, reqop⟩

/-- With another mode reported and no move to come no poll ends it (R182). -/
theorem setModeOp_of_never {s : State} (hd : s.cfg.dev = .standard) (alone : Alone s) (sampled : Sampled s) {md : Mode}
    (mode : s.inMode md = false) : setModeOp fgGap md s = none := by
  have requested := transact_modeRequest_writes hd md
  have never := modePoll_of_not_inMode (requested.standard hd) (requested.alone alone).settled (requested.sampled sampled)
    ((requested.inMode hd (by decide) md).trans mode)
  rw [setModeOp_eq hd md, modeRequest_still hd alone sampled, never]
  rfl

/-- Settles O25: in a fair environment the gap after the request answers it; where no agent moves, the mode reported stays the one
before, and it ends the first poll or no poll. -/
theorem canSetmode : Obligations.CanSetmode := by
  intro s m md hd critical ready operand
  have ⟨sampled, _⟩ := ready
  rw [exec_canSetmode operand]
  refine ⟨fun environment => ?_, fun still mode => ?_⟩
  · have reached : ModeReached (beginCommand s) (xfer fgGap (modeRequest md) (beginCommand s)).2 md := by
      rcases environment with fair | ⟨still, mode⟩
      · exact modeReached_of_fair (s := beginCommand s) hd critical fair sampled md
      · exact modeReached_of_reported (s := beginCommand s) hd ⟨critical, still⟩ sampled mode
    obtain ⟨w, op, writes, mode, reqop⟩ := setModeOp_of_reached (s := beginCommand s) hd sampled reached
    obtain ⟨⟨block, lastHit, lastType, eeprom, world, free, _⟩, latch, regs⟩ :=
      (writes.rememberMode md).endCommand (s := s.rememberMode md) ready (.ok [])
    rw [op]
    exact ⟨_, rfl, rfl, rfl, mode, reqop, fun a not_canstat not_canctrl => regs a (not_or.2 ⟨not_canstat, not_canctrl⟩), block,
      latch, lastHit, lastType, eeprom, world, free⟩
  · rw [setModeOp_of_never (s := beginCommand s) hd ⟨critical, still⟩ sampled mode]
    rfl

end Sys2Proof.Machine
end

section
/-! CAN_TRANSMIT (R114, R104, R181). The transmit buffer is loaded and the request set; from there on only TXB0CTRL changes: the
controller's move in the gap after the request clears TXREQ or sets TXERR, and the polls see it. -/

namespace Sys2Proof.Machine

/-! ### TXB0 (R36) -/

/-- TXB0CTRL and the transmit buffer. -/
def TxReg (a : Nat) : Prop := 0x30 ≤ a ∧ a < 0x3E

theorem txReg_sparesLine : SparesLine TxReg := by
  unfold SparesLine TxReg
  omega

/-- The transmit buffer alone: the identifier, the DLC and the data registers. -/
def TxBufferReg (a : Nat) : Prop := 0x31 ≤ a ∧ a < 0x3E

theorem txBufferReg_sparesLine : SparesLine TxBufferReg := by
  unfold SparesLine TxBufferReg
  omega

theorem not_txBufferReg_txb0ctrl : ¬ TxBufferReg 0x30 := by
  unfold TxBufferReg
  omega

theorem txReg_of_txBufferReg (a : Nat) (h : TxBufferReg a) : TxReg a :=
  ⟨Nat.le_of_succ_le h.1, h.2⟩

theorem txReg_of_eq_txb0ctrl (a : Nat) (h : a = 0x30) : TxReg a := by
  subst h
  unfold TxReg
  omega

theorem not_txReg_canstat : ¬ TxReg 0x0E := by
  unfold TxReg
  omega

theorem txreq_standard {s : State} (hd : s.cfg.dev = .standard) : s.txreq = bitOf (s.reg 0x30) 3 := by
  rw [State.txreq, hd]
  rfl

theorem txerr_standard {s : State} (hd : s.cfg.dev = .standard) : s.txerr = bitOf (s.reg 0x30) 4 := by
  rw [State.txerr, hd]
  rfl

/-- TXB0CTRL after a BIT MODIFY of TXREQ: the bit is set, and TXERR stays but where TXREQ rises (R58, R104). -/
theorem txb0ctrl_modified : ∀ (old : Byte) (b : Bool),
    let v := (old &&& ~~~oneBit 3) ||| ((if b then oneBit 3 else 0) &&& oneBit 3)
    bitOf (withBit v 4 (bitOf old 4 && !(bitOf v 3 && !bitOf old 3))) 3 = b ∧
      bitOf (withBit v 4 (bitOf old 4 && !(bitOf v 3 && !bitOf old 3))) 4 = (bitOf old 4 && !(b && !bitOf old 3)) := by
  decide

/-- The transaction that sets TXREQ, or clears it (R114). -/
def txreqWrite (b : Bool) : Xfer := .canBitmod 0x30 (oneBit 3) (if b then oneBit 3 else 0)

theorem txreqWrite_writesIn (b : Bool) : WritesIn (· = 0x30) (txreqWrite b) := rfl

theorem txreqWrite_writes {s : State} (hd : s.cfg.dev = .standard) (b : Bool) :
    Writes (· = 0x30) s (s.transact (txreqWrite b)).2 :=
  transact_writes hd (sparesLine_of_ne (by decide)) (txreqWrite_writesIn b)

theorem txreqWrite_flags {s : State} (hd : s.cfg.dev = .standard) (b : Bool) :
    (s.transact (txreqWrite b)).2.txreq = b ∧
      (s.transact (txreqWrite b)).2.txerr = (s.txerr && !(b && !s.txreq)) := by
  have dev := (txreqWrite_writes hd b).standard hd
  have unlocked : s.locked 0x30 = false := by
    rw [State.locked, hd]
    rfl
  have reg : (s.transact (txreqWrite b)).2.reg 0x30 =
      s.writable 0x30 ((s.reg 0x30 &&& ~~~oneBit 3) ||| ((if b then oneBit 3 else 0) &&& oneBit 3)) := by
    rw [txreqWrite, transact_canBitmod, State.endXfer_reg, reg_ctlBitmod, if_pos ⟨rfl, by decide, unlocked⟩]
  rw [txreq_standard dev, txerr_standard dev, txreq_standard hd, txerr_standard hd, reg, State.writable, hd]
  exact txb0ctrl_modified (s.reg 0x30) b

/-! ### Loading the buffer -/

/-- The frame in the transmit buffer (R114). -/
def loadedFrame (f : CanFrame) : BusFrame := ⟨f.id, f.rtr, BitVec.ofNat 4 f.dlc, f.data⟩

/-- The transaction that loads the buffer. -/
def txLoad (f : CanFrame) : Xfer := .canWrite 0x31 (txBytes .standard f)

theorem txBytes_length (f : CanFrame) : (txBytes .standard f).length = 5 + f.data.length := by
  rw [txBytes, List.length_append, List.length_append, packId_length, List.length_singleton]

theorem txLoad_writesIn {f : CanFrame} (length : f.data.length ≤ 8) : WritesIn TxBufferReg (txLoad f) := by
  intro r lo hi
  rw [txBytes_length] at hi
  exact ⟨lo, by omega⟩

theorem txLoad_writes {s : State} (hd : s.cfg.dev = .standard) {f : CanFrame} (length : f.data.length ≤ 8) :
    Writes TxBufferReg s (s.transact (txLoad f)).2 :=
  transact_writes hd txBufferReg_sparesLine (txLoad_writesIn length)

theorem txLoad_holds {s : State} (hd : s.cfg.dev = .standard) {f : CanFrame} (length : f.data.length ≤ 8) :
    HoldsFrame (s.transact (txLoad f)).2 0x31 (loadedFrame f) := by
  refine holdsFrame_of_loaded fun r lo hi => ?_
  have inBuffer : 0x31 ≤ r ∧ r < 0x31 + (txBytes .standard f).length := by
    rw [txBytes_length]
    exact ⟨lo, hi.trans_eq (Nat.add_assoc _ _ _)⟩
  have top : r < 0x3E := (txLoad_writesIn length r inBuffer.1 inBuffer.2).2
  have unlocked : s.locked r = false := by
    have config : ¬ ConfigReg r := by
      rw [configReg_iff]
      omega
    rw [State.locked, hd, Bool.eq_false_iff.2 config, Bool.false_and]
  rw [txLoad, transact_canWrite, State.endXfer_reg, reg_ctlWrites,
    if_pos ⟨inBuffer.1, inBuffer.2, by omega, unlocked⟩, writable_plain hd (by omega)]
  rfl

/-! ### The request pending -/

/-- From s on the buffer has been loaded with f and the request set. -/
structure Requested (s u : State) (f : CanFrame) : Prop where
  writes : Writes TxReg s u
  holds : HoldsFrame u 0x31 (loadedFrame f)
  txreq : u.txreq = true
  txerr : u.txerr = false

/-- A request set in a loaded buffer, in which none was pending: TXERR is 0 (R104). -/
theorem requested_of_loaded {s u : State} {f : CanFrame} (hd : s.cfg.dev = .standard)
    (writes : Writes TxBufferReg s u) (holds : HoldsFrame u 0x31 (loadedFrame f)) (idle : s.txreq = false) :
    Requested s (u.transact (txreqWrite true)).2 f := by
  have dev := writes.standard hd
  have request := txreqWrite_writes dev true
  obtain ⟨txreq, txerr⟩ := txreqWrite_flags dev true
  have no_request : u.txreq = false := by
    rw [txreq_standard dev, writes.regs 0x30 not_txBufferReg_txb0ctrl, ← txreq_standard hd, idle]
  refine ⟨(writes.mono txReg_of_txBufferReg).trans (request.mono txReg_of_eq_txb0ctrl),
    holds.congr fun r hr => request.regs r (by omega), txreq, ?_⟩
  rw [txerr, no_request]
  exact Bool.and_false _

/-! ### The controller's move (R104) -/

/-- The frame on the bus: a remote frame has no data (log 19). -/
def sentFrame (f : CanFrame) : BusFrame :=
  ⟨f.id, f.rtr, BitVec.ofNat 4 f.dlc, if f.rtr then [] else f.data⟩

theorem txFrame_of_holds {u : State} {f : CanFrame} (hd : u.cfg.dev = .standard) (length : f.data.length ≤ 8)
    (holds : HoldsFrame u 0x31 (loadedFrame f)) : u.txFrame = sentFrame f := by
  have dlc : u.reg 0x35 = dlcByte 6 f.rtr (BitVec.ofNat 4 f.data.length) := holds.dlc
  have count : min (BitVec.ofNat 4 f.data.length).toNat maxDlc = f.data.length := by
    rw [BitVec.toNat_ofNat, Nat.mod_eq_of_lt (by omega)]
    exact Nat.min_eq_left length
  have id := holds.unpackId
  have data := holds.readData
  simp only [State.txFrame, hd]
  simp only [show DevParams.standard.map.txb0sidh = 0x31 from rfl, show DevParams.standard.rtrBit = 6 from rfl,
    show DevParams.standard.exideBit = 3 from rfl, show 0x31 + 4 = 0x35 from rfl, id, dlc, dlcByte_fields, count]
  rw [show (List.range f.data.length).map (fun j => u.reg (0x31 + 5 + j)) = f.data from data]
  rfl

/-- The bus output set. -/
def State.setBusOut (s : State) (b : List BusFrame) : State := { s with busOut := b }

theorem Writes.setBusOut {P : Nat → Prop} {s t : State} (h : Writes P s t) (b : List BusFrame) :
    Writes P (s.setBusOut b) (t.setBusOut b) :=
  ⟨h.block, h.eeprom, h.edge, h.line, h.lastHit, h.lastType, h.busIn, rfl, h.sched, h.regs⟩

theorem Writes.setSched {P : Nat → Prop} {s t : State} (h : Writes P s t) (q : List (List EnvMove)) :
    Writes P (s.setSched q) (t.setSched q) :=
  ⟨h.block, h.eeprom, h.edge, h.line, h.lastHit, h.lastType, h.busIn, h.busOut, rfl, h.regs⟩

/-- How the controller's move leaves a pending request: only TXB0CTRL has changed, and the bus output is b. -/
structure Answered (u w : State) (b : List BusFrame) (txreq txerr : Bool) : Prop where
  writes : Writes (· = 0x30) (u.setBusOut b) w
  txreq : w.txreq = txreq
  txerr : w.txerr = txerr

/-- A bit of TXB0CTRL set by the controller. -/
def State.setTxBit (s : State) (i : Nat) (b : Bool) : State := s.setReg 0x30 (withBit (s.reg 0x30) i b)

theorem setTxBit_writes {s : State} (hd : s.cfg.dev = .standard) (i : Nat) (b : Bool) : Writes (· = 0x30) s (s.setTxBit i b) :=
  setReg_writes hd (sparesLine_of_ne (by decide)) rfl _

theorem setTxBit_flags {s : State} (hd : s.cfg.dev = .standard) {i : Nat} (hi : i < 8) (b : Bool) :
    (s.setTxBit i b).txreq = (if 3 = i then b else s.txreq) ∧ (s.setTxBit i b).txerr = if 4 = i then b else s.txerr := by
  have dev := (setTxBit_writes hd i b).standard hd
  rw [txreq_standard dev, txerr_standard dev, txreq_standard hd, txerr_standard hd, State.setTxBit,
    reg_setReg_same _ _ _ (by decide), bitOf_withBit _ _ _ _ hi, bitOf_withBit _ _ _ _ hi]
  exact ⟨rfl, rfl⟩

theorem emit_writes (P : Nat → Prop) (s : State) (e : Event) : Writes P s (s.emit e) :=
  ⟨.inl rfl, rfl, rfl, rfl, rfl, rfl, rfl, rfl, rfl, fun _ _ => rfl⟩

/-- TxOk in Normal mode sends the frame and clears TXREQ. -/
theorem txOk_answered {u : State} (hd : u.cfg.dev = .standard) (mode : u.inMode .normal = true) (pending : u.txreq = true) :
    Answered u u.txOk (u.busOut ++ [u.txFrame]) false u.txerr := by
  have step : u.txOk = ((u.setBusOut (u.busOut ++ [u.txFrame])).emit (.tx u.txFrame)).setTxBit 3 false := by
    rw [State.txOk, if_pos pending, if_pos mode, State.clearTxreq]
    simp only [hd]
    rfl
  have sent := emit_writes (· = 0x30) (u.setBusOut (u.busOut ++ [u.txFrame])) (.tx u.txFrame)
  obtain ⟨txreq, txerr⟩ := setTxBit_flags (sent.standard hd) (i := 3) (by decide) false
  rw [step]
  exact ⟨sent.trans (setTxBit_writes (sent.standard hd) 3 false), txreq, txerr⟩

/-- TxErr sets TXERR and leaves TXREQ. -/
theorem txErr_answered {u : State} (hd : u.cfg.dev = .standard) (mode : u.inMode .normal = true) (pending : u.txreq = true) :
    Answered u u.txErr u.busOut true true := by
  have step : u.txErr = u.setTxBit 4 true := by
    rw [State.txErr, if_pos (by simp [mode, pending]), hd]
    rfl
  obtain ⟨txreq, txerr⟩ := setTxBit_flags hd (i := 4) (by decide) true
  rw [step]
  exact ⟨setTxBit_writes hd 4 true, txreq.trans pending, txerr⟩

/-- A gap with moves, inside a critical section, after a step that left the line as it was sampled. -/
theorem tick_fgGap_of_sched {u : State} (critical : u.gie = false) (sampled : Sampled u) {ms : List EnvMove}
    {rest : List (List EnvMove)} (moves : u.sched = ms :: rest) : tick fgGap u = ms.foldl envMove (u.setSched rest) := by
  rw [tick, sample_of_sampled sampled, fgGap_of_gie_false u critical, envGap, moves]
  rfl

/-! ### The polls -/

/-- One poll of a command that runs alone. -/
theorem txPoll_succ {s : State} (hd : s.cfg.dev = .standard) (alone : Alone s) (sampled : Sampled s) (n : Nat) :
    txPoll fgGap (n + 1) s =
      if s.txerr then (.error .txError, (xfer fgGap (txreqWrite false) (s.transact (.canRead 0x30 1)).2).2)
      else if s.txreq then txPoll fgGap n (s.transact (.canRead 0x30 1)).2
      else (.ok (), (s.transact (.canRead 0x30 1)).2) := by
  have poll : readReg fgGap 0x30 s = (s.reg 0x30, (s.transact (.canRead 0x30 1)).2) := by
    rw [readReg, xfer_alone hd no_register_sparesLine (x := .canRead 0x30 1) trivial alone sampled, transact_canRead]
    rfl
  rw [txerr_standard hd, txreq_standard hd, txPoll, hd]
  simp only [show DevParams.standard.map.txb0ctrl = 0x30 from rfl, poll]
  rfl

/-- n polls of a request that stays pending (R114). -/
theorem txPoll_pending {s : State} (hd : s.cfg.dev = .standard) (alone : Alone s) (sampled : Sampled s)
    (txreq : s.txreq = true) (txerr : s.txerr = false) (n : Nat) :
    (txPoll fgGap n s).1 = .error .retriesExhausted ∧ Writes (fun _ => False) s (txPoll fgGap n s).2 ∧
      (txPoll fgGap n s).2.events.length = s.events.length + n := by
  induction n generalizing s with
  | zero => exact ⟨rfl, .refl _ s, rfl⟩
  | succ n ih =>
    have reads := transact_canRead_writes hd 0x30 1
    have flags : (s.transact (.canRead 0x30 1)).2.txreq = true ∧ (s.transact (.canRead 0x30 1)).2.txerr = false := by
      rw [transact_canRead, State.endXfer_txreq, State.endXfer_txerr]
      exact ⟨txreq, txerr⟩
    have events : (s.transact (.canRead 0x30 1)).2.events.length = s.events.length + 1 := by
      rw [transact_canRead, State.endXfer_events, List.length_append, List.length_singleton]
    rw [txPoll_succ hd alone sampled, txerr, txreq]
    obtain ⟨result, writes, polls⟩ := ih (reads.standard hd) (reads.alone alone) (reads.sampled sampled) flags.1 flags.2
    exact ⟨result, reads.trans writes, by
      rw [events] at polls
      exact polls.trans (by omega)⟩

/-- The first poll finds the request served. -/
theorem txPoll_served {s : State} (hd : s.cfg.dev = .standard) (alone : Alone s) (sampled : Sampled s)
    (txreq : s.txreq = false) (txerr : s.txerr = false) (n : Nat) :
    (txPoll fgGap (n + 1) s).1 = .ok () ∧ Writes (fun _ => False) s (txPoll fgGap (n + 1) s).2 ∧
      (txPoll fgGap (n + 1) s).2.txreq = false := by
  rw [txPoll_succ hd alone sampled, txerr, txreq]
  refine ⟨rfl, transact_canRead_writes hd 0x30 1, ?_⟩
  show (s.transact (.canRead 0x30 1)).2.txreq = false
  rw [transact_canRead, State.endXfer_txreq, txreq]

/-- The first poll finds an error, and the request is cancelled. -/
theorem txPoll_failed {s : State} (hd : s.cfg.dev = .standard) (alone : Alone s) (sampled : Sampled s)
    (txerr : s.txerr = true) (n : Nat) :
    (txPoll fgGap (n + 1) s).1 = .error .txError ∧ Writes (· = 0x30) s (txPoll fgGap (n + 1) s).2 ∧
      (txPoll fgGap (n + 1) s).2.txreq = false ∧ (txPoll fgGap (n + 1) s).2.txerr = true := by
  have reads := transact_canRead_writes hd 0x30 1
  have dev := reads.standard hd
  have err : (s.transact (.canRead 0x30 1)).2.txerr = true := by rw [transact_canRead, State.endXfer_txerr, txerr]
  rw [txPoll_succ hd alone sampled, txerr, if_pos rfl]
  generalize (s.transact (.canRead 0x30 1)).2 = u at *
  obtain ⟨cleared, kept⟩ := txreqWrite_flags dev false
  have cancel : xfer fgGap (txreqWrite false) u = u.transact (txreqWrite false) :=
    xfer_alone dev (sparesLine_of_ne (by decide)) (txreqWrite_writesIn false) (reads.alone alone) (reads.sampled sampled)
  rw [cancel]
  exact ⟨rfl, (reads.mono fun _ => False.elim).trans (txreqWrite_writes dev false), cleared, by rw [kept, err]; rfl⟩

/-! ### The command -/

/-- What the operand checks let through (R66). -/
theorem frameOperand_eq_ok {frm : FrameArg} {f : CanFrame} (h : frameOperand frm = .ok f) :
    (frm.rtr = 0 ∨ frm.rtr = 1) ∧ frm.data.length ≤ 8 ∧ f = ⟨frm.id, frm.rtr = 1, frm.data⟩ := by
  unfold frameOperand at h
  split at h
  next rtr =>
    split at h
    next length => exact ⟨rtr, length, (Except.ok.inj h).symm⟩
    next => exact absurd h (by simp)
  next => exact absurd h (by simp)

theorem exec_canTransmit {frm : FrameArg} {f : CanFrame} (operand : frameOperand frm = .ok f) (s : State) :
    exec (.canTransmit frm) s = .next (endCommand (transmit fgGap f (beginCommand s)).unit) := by
  simp only [exec, execCanTransmit, command, operand]

theorem transmit_eq {s : State} (hd : s.cfg.dev = .standard) (f : CanFrame) :
    transmit fgGap f s = txPoll fgGap s.cfg.txRetries
      (xfer fgGap (txreqWrite true) (xfer fgGap (txLoad f) s).2).2 := by
  rw [transmit, hd]
  rfl

/-- What transmit leaves: the buffer loaded with f, the bus output b, the schedule used up, and all else as it was. -/
structure Transmitted (s u : State) (f : CanFrame) (b : List BusFrame) : Prop where
  writes : Writes TxReg ((s.setSched []).setBusOut b) u
  holds : HoldsFrame u 0x31 (loadedFrame f)

/-- What follows a pending request in TXB0CTRL leaves the buffer loaded. -/
theorem Requested.transmitted {s u w : State} {f : CanFrame} {b : List BusFrame} (h : Requested (s.setSched []) u f)
    (after : Writes (· = 0x30) (u.setBusOut b) w) : Transmitted s w f b :=
  ⟨(h.writes.setBusOut b).trans (after.mono txReg_of_eq_txb0ctrl), h.holds.congr fun r hr => after.regs r (by omega)⟩

/-- No move at all: the polls run out. -/
theorem transmit_alone {s : State} (hd : s.cfg.dev = .standard) (alone : Alone s) (sampled : Sampled s) {f : CanFrame}
    (length : f.data.length ≤ 8) (idle : s.txreq = false) :
    (transmit fgGap f s).1 = .error .retriesExhausted ∧ Transmitted s (transmit fgGap f s).2 f s.busOut ∧
      (transmit fgGap f s).2.txreq = true ∧
      (transmit fgGap f s).2.events.length = s.events.length + 2 + s.cfg.txRetries := by
  have in_buffer := txLoad_writesIn length
  have load := txLoad_writes hd length
  have requested := requested_of_loaded hd load (txLoad_holds hd length) idle
  have loaded : xfer fgGap (txLoad f) s = s.transact (txLoad f) :=
    xfer_alone hd txBufferReg_sparesLine in_buffer alone sampled
  have request : xfer fgGap (txreqWrite true) (s.transact (txLoad f)).2 =
      (s.transact (txLoad f)).2.transact (txreqWrite true) :=
    xfer_alone (load.standard hd) (sparesLine_of_ne (by decide)) (txreqWrite_writesIn true) (load.alone alone) (load.sampled sampled)
  have events : ((s.transact (txLoad f)).2.transact (txreqWrite true)).2.events.length = s.events.length + 2 := by
    rw [transact_events (txreqWrite_writesIn true), transact_events in_buffer]
    simp
  have unmoved : (s.setSched []).setBusOut s.busOut = s := by
    rw [← alone.2.1]
    rfl
  rw [transmit_eq hd, loaded, request]
  generalize ((s.transact (txLoad f)).2.transact (txreqWrite true)).2 = u at *
  have dev := requested.writes.standard hd
  obtain ⟨result, polls, count⟩ := txPoll_pending dev (requested.writes.alone alone) (requested.writes.sampled sampled)
    requested.txreq requested.txerr s.cfg.txRetries
  have kept := polls.mono (Q := (· = 0x30)) fun _ => False.elim
  refine ⟨result, ⟨?_, requested.holds.congr fun r hr => polls.regs r id⟩, ?_, by rw [count, events]⟩
  · rw [unmoved]
    exact requested.writes.trans (kept.mono txReg_of_eq_txb0ctrl)
  · rw [txreq_standard (polls.standard dev), polls.regs 0x30 id, ← txreq_standard dev]
    exact requested.txreq

theorem Requested.setSched {s u : State} {f : CanFrame} (h : Requested s u f) (q : List (List EnvMove)) :
    Requested (s.setSched q) (u.setSched q) f :=
  ⟨h.writes.setSched q, h.holds.congr fun _ _ => rfl, h.txreq, h.txerr⟩

/-- One move, in the gap after the request: it meets the loaded buffer with the request pending. -/
theorem transmit_of_move {s : State} (hd : s.cfg.dev = .standard) (critical : s.gie = false) (sampled : Sampled s)
    {f : CanFrame} (length : f.data.length ≤ 8) (idle : s.txreq = false) {m : EnvMove} (sched : s.sched = [[], [m]]) :
    ∃ u, Requested (s.setSched []) u f ∧ transmit fgGap f s = txPoll fgGap s.cfg.txRetries (envMove u m) := by
  have load := txLoad_writes hd length
  have loaded : (xfer fgGap (txLoad f) s).2 = (s.transact (txLoad f)).2.setSched [[m]] :=
    tick_fgGap_of_sched (load.block.gie.trans critical) (load.sampled sampled) (load.sched.trans sched)
  have requested := requested_of_loaded (s := s.setSched [[m]]) hd (load.setSched [[m]])
    ((txLoad_holds hd length).congr fun _ _ => rfl) idle
  have request := tick_fgGap_of_sched (requested.writes.block.gie.trans critical) (requested.writes.sampled sampled)
    requested.writes.sched
  refine ⟨_, requested.setSched [], ?_⟩
  rw [transmit_eq hd, loaded]
  exact congrArg (txPoll fgGap s.cfg.txRetries) request

/-- What the polls meet after the controller's move. -/
theorem Answered.meets {s u w : State} {f : CanFrame} {b : List BusFrame} {txreq txerr : Bool}
    (h : Answered u w b txreq txerr) (requested : Requested (s.setSched []) u f) (hd : s.cfg.dev = .standard)
    (critical : s.gie = false) (unfair : s.modeFair = false) (sampled : Sampled s) :
    w.cfg.dev = .standard ∧ Alone w ∧ Sampled w := by
  have writes := (requested.writes.setBusOut b).trans (h.writes.mono txReg_of_eq_txb0ctrl)
  exact ⟨writes.standard hd, writes.alone ⟨critical, rfl, unfair⟩, writes.sampled sampled⟩

/-- TxOk before the first poll: the frame is on the bus, and the poll finds the request served. -/
theorem transmit_txOk {s : State} (hd : s.cfg.dev = .standard) (critical : s.gie = false) (unfair : s.modeFair = false)
    (sampled : Sampled s) {f : CanFrame} (length : f.data.length ≤ 8) (idle : s.txreq = false) (polls : 1 ≤ s.cfg.txRetries)
    (mode : s.inMode .normal = true) (sched : s.sched = [[], [.txOk]]) :
    (transmit fgGap f s).1 = .ok () ∧ Transmitted s (transmit fgGap f s).2 f (s.busOut ++ [sentFrame f]) ∧
      (transmit fgGap f s).2.txreq = false := by
  obtain ⟨u, requested, transmits⟩ := transmit_of_move hd critical sampled length idle sched
  have dev := requested.writes.standard hd
  have answered := txOk_answered dev ((requested.writes.inMode hd not_txReg_canstat _).trans mode) requested.txreq
  rw [txFrame_of_holds dev length requested.holds, requested.writes.busOut, requested.txerr] at answered
  obtain ⟨dev_w, alone_w, sampled_w⟩ := answered.meets requested hd critical unfair sampled
  obtain ⟨n, count⟩ := Nat.exists_eq_add_of_le' polls
  obtain ⟨result, reads, txreq⟩ := txPoll_served dev_w alone_w sampled_w answered.txreq answered.txerr n
  rw [transmits, envMove_of_sampled (requested.writes.sampled sampled), State.move, sample_of_sampled sampled_w, count]
  exact ⟨result, requested.transmitted (answered.writes.trans (reads.mono fun _ => False.elim)), txreq⟩

/-- TxErr before the first poll: the poll finds the error and cancels the request. -/
theorem transmit_txErr {s : State} (hd : s.cfg.dev = .standard) (critical : s.gie = false) (unfair : s.modeFair = false)
    (sampled : Sampled s) {f : CanFrame} (length : f.data.length ≤ 8) (idle : s.txreq = false) (polls : 1 ≤ s.cfg.txRetries)
    (mode : s.inMode .normal = true) (sched : s.sched = [[], [.txErr]]) :
    (transmit fgGap f s).1 = .error .txError ∧ Transmitted s (transmit fgGap f s).2 f s.busOut ∧
      (transmit fgGap f s).2.txreq = false ∧ (transmit fgGap f s).2.txerr = true := by
  obtain ⟨u, requested, transmits⟩ := transmit_of_move hd critical sampled length idle sched
  have dev := requested.writes.standard hd
  have answered := txErr_answered dev ((requested.writes.inMode hd not_txReg_canstat _).trans mode) requested.txreq
  rw [requested.writes.busOut] at answered
  obtain ⟨dev_w, alone_w, sampled_w⟩ := answered.meets requested hd critical unfair sampled
  obtain ⟨n, count⟩ := Nat.exists_eq_add_of_le' polls
  obtain ⟨result, cancels, txreq, txerr⟩ := txPoll_failed dev_w alone_w sampled_w answered.txerr n
  rw [transmits, envMove_of_sampled (requested.writes.sampled sampled), State.move, sample_of_sampled sampled_w, count]
  exact ⟨result, requested.transmitted (answered.writes.trans cancels), txreq, txerr⟩

/-- A DLC register as a number: RTR in bit 6, the length below. -/
theorem dlcByte_toNat : ∀ n, n ≤ 8 → ∀ rtr : Bool, (dlcByte 6 rtr (BitVec.ofNat 4 n)).toNat = 64 * rtr.toNat + n := by
  decide

/-- What the end of the command leaves in each schedule, beside the part `answer` that the schedule decides. -/
theorem Transmitted.endCommand {s u : State} {frm : FrameArg} {f : CanFrame} {b : List BusFrame} {answer : Prop}
    (h : Transmitted (beginCommand s) u f b) (operand : frameOperand frm = .ok f) (ready : Ready s)
    (r : Except Err (List Byte)) (decided : answer) :
    let t := Machine.endCommand (r, u)
    SameBlock s t ∧ SameLatch s t ∧ SameEeprom s t ∧ t.out = s.out ∧ t.busIn = s.busIn ∧ t.script = s.script ∧
      t.freeN = s.freeN ∧ t.lastHit = s.lastHit ∧ t.lastType = s.lastType ∧ (∀ a, a < 0x30 ∨ 0x3E ≤ a → t.reg a = s.reg a) ∧
      (∀ j, j < 4 → t.reg (0x31 + j) = (packId 3 frm.id).getD j 0) ∧
      (t.reg 0x35).toNat = 64 * frm.rtr.toNat + frm.data.length ∧
      (∀ j, j < frm.data.length → t.reg (0x36 + j) = frm.data.getD j 0) ∧ answer := by
  obtain ⟨rtr, length, rfl⟩ := frameOperand_eq_ok operand
  obtain ⟨⟨block, lastHit, lastType, eeprom, ⟨out, busIn, _, script, _⟩, free, _⟩, latch, regs⟩ :=
    h.writes.endCommand (s := (s.setSched []).setBusOut b) ready r
  have dlc : (u.reg 0x35).toNat = 64 * frm.rtr.toNat + frm.data.length := by
    have holds : u.reg 0x35 = dlcByte 6 (decide (frm.rtr = 1)) (BitVec.ofNat 4 frm.data.length) := h.holds.dlc
    rw [holds, dlcByte_toNat _ length]
    rcases rtr with rtr | rtr <;> rw [rtr] <;> rfl
  exact ⟨block, latch, eeprom, out, busIn, script, free, lastHit, lastType,
    fun a outside => regs a fun inside => by unfold TxReg at inside; omega, h.holds.id, dlc, h.holds.data, decided⟩

/-- Settles O31: the three schedules, each with the end of the command. -/
theorem canTransmit : Obligations.CanTransmit := by
  intro s frm hd critical ready check idle unfair polls schedule
  have ⟨sampled, _⟩ := ready
  obtain ⟨f, operand⟩ := frameOperand_of_check check
  obtain ⟨_, operand_length, frame⟩ := frameOperand_eq_ok operand
  have length : f.data.length ≤ 8 := by rw [frame]; exact operand_length
  rw [exec_canTransmit operand]
  refine ⟨_, rfl, ?_⟩
  rcases schedule with sched | ⟨mode, sched | sched⟩
  · obtain ⟨result, transmitted, txreq, events⟩ :=
      transmit_alone (s := beginCommand s) hd ⟨critical, sched, unfair⟩ sampled length idle
    generalize transmit fgGap f (beginCommand s) = out at *
    obtain ⟨r, u⟩ := out
    obtain rfl : r = .error .retriesExhausted := result
    exact transmitted.endCommand operand ready _ ⟨fun other => absurd (sched.symm.trans other) (by simp),
      fun other => absurd (sched.symm.trans other) (by simp), fun _ => ⟨rfl, txreq, transmitted.writes.busOut, events⟩⟩
  · obtain ⟨result, transmitted, txreq⟩ :=
      transmit_txOk (s := beginCommand s) hd critical unfair sampled length idle polls mode sched
    generalize transmit fgGap f (beginCommand s) = out at *
    obtain ⟨r, u⟩ := out
    obtain rfl : r = .ok () := result
    refine transmitted.endCommand operand ready _ ⟨fun _ => ⟨rfl, txreq, ?_⟩,
      fun other => absurd (sched.symm.trans other) (by simp), fun other => absurd (sched.symm.trans other) (by simp)⟩
    exact transmitted.writes.busOut.trans (by simp [State.setBusOut, sentFrame, frame])
  · obtain ⟨result, transmitted, txreq, txerr⟩ :=
      transmit_txErr (s := beginCommand s) hd critical unfair sampled length idle polls mode sched
    generalize transmit fgGap f (beginCommand s) = out at *
    obtain ⟨r, u⟩ := out
    obtain rfl : r = .error .txError := result
    exact transmitted.endCommand operand ready _ ⟨fun other => absurd (sched.symm.trans other) (by simp),
      fun _ => ⟨rfl, txreq, txerr, transmitted.writes.busOut⟩, fun other => absurd (sched.symm.trans other) (by simp)⟩

end Sys2Proof.Machine
end

section
/-! The bit-field extractor (R119, R122). The field is cut into the bytes it touches; extract joins the cuts and insert writes
them, both from the low bits of the number upward: bytes ascending for little-endian, descending for big-endian. -/

namespace Sys2Proof.Machine

/-! ### The cuts of a field -/

/-- The payload bit, inside the field, from which on the bits are in byte i or in a later byte. -/
def cut (start size i : Nat) : Nat := max start (min (start + size) (8 * i))

/-- Byte i holds some bits of the field. -/
def Touches (start size i : Nat) : Prop := startByte start ≤ i ∧ i ≤ endByte start size

section
variable {start size : Nat}

theorem mem_segBytes {i : Nat} (h : i ∈ segBytes start size) : Touches start size i := by
  obtain ⟨low, high⟩ := List.mem_range'_1.1 h
  exact ⟨low, by omega⟩

theorem segLo_eq_cut_sub {i : Nat} (pos : 1 ≤ size) (h : Touches start size i) :
    segLo start i = cut start size i - 8 * i := by
  obtain ⟨low, high⟩ := h
  by_cases first : i = startByte start
  · rw [segLo, if_pos first]
    simp only [cut, startByte] at *
    omega
  · rw [segLo, if_neg first]
    simp only [cut, startByte] at *
    omega

theorem segWidth_eq_cut_sub {i : Nat} (pos : 1 ≤ size) (h : Touches start size i) :
    segWidth start size i = cut start size (i + 1) - cut start size i := by
  rw [segWidth, segLo_eq_cut_sub pos h]
  obtain ⟨low, high⟩ := h
  by_cases last : i = endByte start size
  · rw [if_pos last]
    simp only [cut, startByte, endByte] at *
    omega
  · rw [if_neg last]
    simp only [cut, startByte, endByte] at *
    omega

theorem cut_mem_byte {i : Nat} (pos : 1 ≤ size) (h : Touches start size i) :
    8 * i ≤ cut start size i ∧ cut start size i ≤ cut start size (i + 1) ∧ cut start size (i + 1) ≤ 8 * i + 8 := by
  obtain ⟨low, high⟩ := h
  simp only [cut, startByte, endByte] at *
  omega

theorem seg_fits_byte {i : Nat} (pos : 1 ≤ size) (h : Touches start size i) :
    segLo start i + segWidth start size i ≤ 8 := by
  have := cut_mem_byte pos h
  rw [segLo_eq_cut_sub pos h, segWidth_eq_cut_sub pos h]
  omega

/-- The bits of a field in consecutive bytes lie between two cuts. -/
theorem sum_segWidth_range' (pos : 1 ≤ size) (a n : Nat) (low : startByte start ≤ a)
    (high : a + n ≤ endByte start size + 1) :
    ((List.range' a n).map (segWidth start size)).sum = cut start size (a + n) - cut start size a := by
  induction n generalizing a with
  | zero => simp
  | succ n ih =>
    have touched : Touches start size a := ⟨low, by omega⟩
    have first := cut_mem_byte pos touched
    have mono : cut start size (a + 1) ≤ cut start size (a + 1 + n) := by simp only [cut]; omega
    have next : a + (n + 1) = a + 1 + n := by omega
    rw [List.range'_succ, List.map_cons, List.sum_cons, ih (a + 1) (by omega) (by omega), segWidth_eq_cut_sub pos touched, next]
    omega

/-! ### The order of the cuts -/

/-- The bytes of a field, the one with the lowest bits of the number first. -/
def fieldOrder (start size : Nat) (be : Bool) : List Nat :=
  if be then (segBytes start size).reverse else segBytes start size

theorem mem_fieldOrder {i : Nat} {be : Bool} (h : i ∈ fieldOrder start size be) : Touches start size i := by
  cases be
  · exact mem_segBytes h
  · exact mem_segBytes (List.mem_reverse.1 h)

theorem fieldOrder_nodup (be : Bool) : (fieldOrder start size be).Nodup := by
  cases be
  · exact List.nodup_range'
  · exact List.nodup_reverse.2 List.nodup_range'

/-- How many bits of the field the bytes of a list hold. -/
def totalWidth (start size : Nat) (l : List Nat) : Nat := (l.map (segWidth start size)).sum

theorem totalWidth_cons (i : Nat) (is : List Nat) :
    totalWidth start size (i :: is) = segWidth start size i + totalWidth start size is := by
  simp only [totalWidth, List.map_cons, List.sum_cons]

theorem totalWidth_reverse (l : List Nat) : totalWidth start size l.reverse = totalWidth start size l := by
  rw [totalWidth, List.map_reverse, List.sum_reverse, totalWidth]

theorem totalWidth_segBytes (pos : 1 ≤ size) : totalWidth start size (segBytes start size) = size := by
  have ends : startByte start ≤ endByte start size := by simp only [startByte, endByte]; omega
  rw [totalWidth, segBytes, sum_segWidth_range' pos _ _ (Nat.le_refl _) (by omega)]
  simp only [cut, startByte, endByte] at *
  omega

theorem totalWidth_fieldOrder (pos : 1 ≤ size) (be : Bool) : totalWidth start size (fieldOrder start size be) = size := by
  cases be
  · exact totalWidth_segBytes pos
  · exact (totalWidth_reverse _).trans (totalWidth_segBytes pos)

/-- The bits of the number below those of byte i (R119): little-endian, the field's bits in the bytes before it; big-endian, those
in the bytes after it. -/
def offset (start size : Nat) (be : Bool) (i : Nat) : Nat :=
  if be then start + size - cut start size (i + 1) else cut start size i - start

/-- The bytes before byte i in the order hold the bits below its own. -/
theorem fieldOrder_split {i : Nat} (pos : 1 ≤ size) (h : Touches start size i) (be : Bool) :
    ∃ pre post, fieldOrder start size be = pre ++ i :: post ∧ totalWidth start size pre = offset start size be i := by
  obtain ⟨low, high⟩ := id h
  have split : segBytes start size = List.range' (startByte start) (i - startByte start) ++
      i :: List.range' (i + 1) (endByte start size - i) := by
    have count : endByte start size + 1 - startByte start = (i - startByte start) + (endByte start size - i + 1) := by omega
    rw [segBytes, count, ← List.range'_append_1, Nat.add_sub_cancel' low, List.range'_succ]
  cases be
  · refine ⟨_, _, split, ?_⟩
    rw [totalWidth, sum_segWidth_range' pos _ _ (Nat.le_refl _) (by omega), Nat.add_sub_cancel' low]
    simp only [offset, cut, startByte, Bool.false_eq_true, if_false] at *
    omega
  · refine ⟨(List.range' (i + 1) (endByte start size - i)).reverse,
      (List.range' (startByte start) (i - startByte start)).reverse, ?_, ?_⟩
    · simp [fieldOrder, split]
    · rw [totalWidth_reverse, totalWidth, sum_segWidth_range' pos _ _ (by omega) (by omega)]
      simp only [offset, cut, endByte, if_true] at *
      omega

end

/-! ### extract joins the fields (R119) -/

/-- The number whose bits are, from the lowest up, the fields of the bytes of a list. -/
def joined (data : List Byte) (start size : Nat) : List Nat → Nat
  | [] => 0
  | i :: is => segField data start size i ||| joined data start size is <<< segWidth start size i

section
variable {data : List Byte} {start size : Nat}

theorem segField_lt (i : Nat) : segField data start size i < 2 ^ segWidth start size i := Nat.mod_lt _ (Nat.two_pow_pos _)

theorem joined_append (l l' : List Nat) :
    joined data start size (l ++ l') = joined data start size l ||| joined data start size l' <<< totalWidth start size l := by
  induction l with
  | nil => simp [joined, totalWidth]
  | cons i is ih =>
    simp only [List.cons_append, joined, ih, totalWidth_cons, Nat.shiftLeft_or_distrib,
      ← Nat.shiftLeft_add, Nat.or_assoc, Nat.add_comm]

theorem joined_lt (l : List Nat) : joined data start size l < 2 ^ totalWidth start size l := by
  induction l with
  | nil => simp [joined, totalWidth]
  | cons i is ih =>
    rw [totalWidth_cons]
    have shifted : joined data start size is <<< segWidth start size i <
        2 ^ (segWidth start size i + totalWidth start size is) := by
      rw [Nat.shiftLeft_eq, Nat.mul_comm, Nat.pow_add]
      exact Nat.mul_lt_mul_of_pos_left ih (Nat.two_pow_pos _)
    exact Nat.or_lt_two_pow (Nat.lt_of_lt_of_le (segField_lt i) (Nat.pow_le_pow_right (by decide) (Nat.le_add_right _ _))) shifted

/-- The little-endian loop puts each field above the bits it has (R119). -/
theorem foldl_extractStep_little (l : List Nat) (acc width : Nat) :
    (l.foldl (extractStep data start size false) (acc, width)).1 = acc ||| joined data start size l <<< width := by
  induction l generalizing acc width with
  | nil => simp [joined]
  | cons i is ih =>
    simp only [List.foldl_cons, extractStep, Bool.false_eq_true, if_false, ih, joined, Nat.shiftLeft_or_distrib, Nat.or_assoc,
      ← Nat.shiftLeft_add, Nat.add_comm]

/-- The big-endian loop puts each field below the bits it has (R119). -/
theorem foldl_extractStep_big (l : List Nat) (acc width : Nat) :
    (l.foldl (extractStep data start size true) (acc, width)).1 =
      joined data start size l.reverse ||| acc <<< totalWidth start size l := by
  induction l generalizing acc width with
  | nil => simp [joined, totalWidth]
  | cons i is ih =>
    simp only [List.foldl_cons, extractStep, if_true, ih, List.reverse_cons, joined_append, joined, totalWidth_reverse,
      totalWidth_cons, Nat.shiftLeft_or_distrib, ← Nat.shiftLeft_add, Nat.zero_shiftLeft, Nat.or_zero, Nat.or_assoc]
    rw [Nat.or_comm (acc <<< _)]

theorem extract_eq_joined (be : Bool) :
    extract data start size be = joined data start size (fieldOrder start size be) := by
  cases be
  · simp [extract, foldl_extractStep_little, fieldOrder]
  · simp [extract, foldl_extractStep_big, fieldOrder]

theorem extract_lt (pos : 1 ≤ size) (be : Bool) : extract data start size be < 2 ^ size := by
  have below := joined_lt (data := data) (start := start) (size := size) (fieldOrder start size be)
  rwa [totalWidth_fieldOrder pos, ← extract_eq_joined] at below

theorem testBit_segField (i j : Nat) (inside : j < segWidth start size i) :
    (segField data start size i).testBit j = bitOf (data.getD i 0) (segLo start i + j) := by
  simp [segField, bitOf, Nat.testBit_mod_two_pow, Nat.testBit_shiftRight, inside, BitVec.testBit_toNat]

/-- Each field stands in the number at its offset. -/
theorem testBit_extract (pos : 1 ≤ size) {i : Nat} (h : Touches start size i) (be : Bool) {j : Nat}
    (inside : j < segWidth start size i) :
    (extract data start size be).testBit (j + offset start size be i) = bitOf (data.getD i 0) (segLo start i + j) := by
  obtain ⟨pre, post, order, width⟩ := fieldOrder_split pos h be
  have below : joined data start size pre < 2 ^ (j + offset start size be i) :=
    Nat.lt_of_lt_of_le (joined_lt pre) (Nat.pow_le_pow_right (by decide) (by omega))
  rw [extract_eq_joined, order, joined_append, width, Nat.testBit_or, Nat.testBit_lt_two_pow below, Nat.testBit_shiftLeft,
    joined, Nat.add_sub_cancel, Nat.testBit_or, Nat.testBit_shiftLeft, testBit_segField i j inside]
  simp [Nat.not_le.2 inside]

end

/-- The byte of a field bit, and its place in the byte's share of the field. -/
theorem field_bit {start size k : Nat} (low : start ≤ k) (high : k < start + size) :
    Touches start size (k / 8) ∧ k - cut start size (k / 8) < segWidth start size (k / 8) ∧
      segLo start (k / 8) + (k - cut start size (k / 8)) = k % 8 ∧ cut start size (k / 8) = max start (8 * (k / 8)) ∧
      cut start size (k / 8 + 1) = min (start + size) (8 * (k / 8) + 8) := by
  have pos : 1 ≤ size := by omega
  have touched : Touches start size (k / 8) := by simp only [Touches, startByte, endByte]; omega
  have first : cut start size (k / 8) = max start (8 * (k / 8)) := by simp only [cut]; omega
  have last : cut start size (k / 8 + 1) = min (start + size) (8 * (k / 8) + 8) := by simp only [cut]; omega
  rw [segWidth_eq_cut_sub pos touched, segLo_eq_cut_sub pos touched]
  refine ⟨touched, ?_, ?_, first, last⟩ <;> omega

/-- Settles O6: a field bit is in the share of its byte, and that share stands in the number at the byte's offset. -/
theorem extractTakesTheFieldBits : Obligations.ExtractTakesTheFieldBits := by
  intro data start size pos _
  refine ⟨extract_lt pos false, extract_lt pos true, fun k low high => ?_⟩
  obtain ⟨touched, inside, place, first, last⟩ := field_bit low high
  have bit := fun be => testBit_extract (data := data) pos touched be inside
  simp only [place] at bit
  constructor
  · have little : k - cut start size (k / 8) + offset start size false (k / 8) = k - start := by
      simp only [offset, Bool.false_eq_true, if_false]; omega
    rw [← little, bit]
  · have big : offset start size true (k / 8) = start + size - min (start + size) (8 * (k / 8) + 8) := by
      simp only [offset, if_true, last]
    rw [← first, ← big, bit]

/-! ### insert writes the fields (R122) -/

/-- The low bits of r, moved to the share that starts at lo. -/
theorem bitOf_share (r lo w j : Nat) (byte : j < 8) :
    bitOf (BitVec.ofNat 8 ((r % 2 ^ w) <<< lo)) j = (decide (lo ≤ j ∧ j < lo + w) && r.testBit (j - lo)) := by
  have inside : (lo ≤ j ∧ j - lo < w) ↔ (lo ≤ j ∧ j < lo + w) := by omega
  rw [bitOf, BitVec.getLsbD_ofNat, decide_eq_true byte, Bool.true_and, Nat.testBit_shiftLeft, Nat.testBit_mod_two_pow,
    ← Bool.and_assoc, ← Bool.decide_and, decide_eq_decide.2 inside]

/-- insert's byte: the low bits of r in the share, the old byte's bits elsewhere. -/
theorem bitOf_insert (old : Byte) (r lo w j : Nat) (byte : j < 8) :
    bitOf ((old &&& ~~~(BitVec.ofNat 8 ((2 ^ w - 1) <<< lo))) ||| BitVec.ofNat 8 ((r % 2 ^ w) <<< lo)) j =
      if lo ≤ j ∧ j < lo + w then r.testBit (j - lo) else bitOf old j := by
  have mask := bitOf_share (2 ^ w - 1) lo w j byte
  have share := bitOf_share r lo w j byte
  rw [Nat.mod_eq_of_lt (Nat.sub_one_lt (Nat.two_pow_pos w).ne'), Nat.testBit_two_pow_sub_one] at mask
  rw [bitOf] at mask share ⊢
  rw [BitVec.getLsbD_or, BitVec.getLsbD_and, BitVec.getLsbD_not, mask, share, decide_eq_true byte, Bool.true_and]
  by_cases inside : lo ≤ j ∧ j < lo + w
  · have low_bit : j - lo < w := by omega
    simp [inside, low_bit]
  · simp [inside, bitOf]

section
variable {start size : Nat}

theorem insertStep_length (a : List Byte × Nat) (i : Nat) : (insertStep start size a i).1.length = a.1.length := by
  simp [insertStep]

theorem foldl_insertStep_length (l : List Nat) (a : List Byte × Nat) :
    (l.foldl (insertStep start size) a).1.length = a.1.length := by
  induction l generalizing a with
  | nil => rfl
  | cons i is ih => rw [List.foldl_cons, ih, insertStep_length]

/-- One round writes its byte's share of the field, and no other bit. -/
theorem bitOf_insertStep (a : List Byte × Nat) (i b j : Nat) (room : i < a.1.length) (byte : j < 8) :
    bitOf ((insertStep start size a i).1.getD b 0) j =
      if b = i ∧ segLo start i ≤ j ∧ j < segLo start i + segWidth start size i then a.2.testBit (j - segLo start i)
      else bitOf (a.1.getD b 0) j := by
  by_cases same : b = i
  · subst same
    simp only [insertStep, List.getD_eq_getElem?_getD, List.getElem?_set_self room, Option.getD_some, bitOf_insert _ _ _ _ _ byte,
      true_and]
  · rw [if_neg fun h => same h.1]
    simp only [insertStep, List.getD_eq_getElem?_getD, List.getElem?_set_ne (Ne.symm same)]

/-- A bit in no share of the listed bytes is left alone. -/
theorem bitOf_foldl_insertStep (l : List Nat) (a : List Byte × Nat) (b j : Nat) (room : ∀ i ∈ l, i < a.1.length)
    (byte : j < 8) (outside : b ∈ l → ¬ (segLo start b ≤ j ∧ j < segLo start b + segWidth start size b)) :
    bitOf ((l.foldl (insertStep start size) a).1.getD b 0) j = bitOf (a.1.getD b 0) j := by
  induction l generalizing a with
  | nil => rfl
  | cons i is ih =>
    have spared : ¬ (b = i ∧ segLo start i ≤ j ∧ j < segLo start i + segWidth start size i) := by
      rintro ⟨rfl, share⟩
      exact outside List.mem_cons_self share
    rw [List.foldl_cons, ih, bitOf_insertStep a i b j (room i List.mem_cons_self) byte, if_neg spared]
    · intro k hk
      rw [insertStep_length]
      exact room k (List.mem_cons_of_mem i hk)
    · exact fun later => outside (List.mem_cons_of_mem i later)

/-- A field depends on the bits of its byte's share only. -/
theorem segField_eq_of_bits {data : List Byte} {i v : Nat}
    (bits : ∀ j, j < segWidth start size i → bitOf (data.getD i 0) (segLo start i + j) = v.testBit j) :
    segField data start size i = v % 2 ^ segWidth start size i := by
  apply Nat.eq_of_testBit_eq
  intro j
  by_cases inside : j < segWidth start size i
  · rw [testBit_segField i j inside, bits j inside, Nat.testBit_mod_two_pow, decide_eq_true inside, Bool.true_and]
  · have high := Nat.pow_le_pow_right (n := 2) (by decide) (Nat.le_of_not_lt inside)
    rw [Nat.testBit_lt_two_pow (Nat.lt_of_lt_of_le (segField_lt i) high),
      Nat.testBit_lt_two_pow (Nat.lt_of_lt_of_le (Nat.mod_lt _ (Nat.two_pow_pos _)) high)]

/-- The low bits of a number above its lowest. -/
theorem mod_or_shiftRight_mod (r w n : Nat) : r % 2 ^ w ||| (r >>> w % 2 ^ n) <<< w = r % 2 ^ (w + n) := by
  apply Nat.eq_of_testBit_eq
  intro j
  by_cases low : j < w
  · simp [Nat.testBit_mod_two_pow, low, Nat.lt_add_right n low]
  · have place : w + (j - w) = j := by omega
    have count : j - w < n ↔ j < w + n := by omega
    simp [Nat.testBit_mod_two_pow, Nat.testBit_shiftRight, low, Nat.le_of_not_lt low, place, count]

/-- The fields that the rounds of insert write, joined, are the low bits of the number they took them from. -/
theorem joined_foldl_insertStep (pos : 1 ≤ size) (l : List Nat) (distinct : l.Nodup)
    (touched : ∀ i ∈ l, Touches start size i) (a : List Byte × Nat) (room : ∀ i ∈ l, i < a.1.length) :
    joined (l.foldl (insertStep start size) a).1 start size l = a.2 % 2 ^ totalWidth start size l := by
  induction l generalizing a with
  | nil => simp [joined, totalWidth, Nat.mod_one]
  | cons i is ih =>
    obtain ⟨fresh, distinct⟩ := List.nodup_cons.1 distinct
    obtain ⟨here, touched⟩ := List.forall_mem_cons.1 touched
    obtain ⟨now, later⟩ := List.forall_mem_cons.1 room
    have room' : ∀ k ∈ is, k < (insertStep start size a i).1.length := fun k hk => by
      rw [insertStep_length]
      exact later k hk
    have first : segField (is.foldl (insertStep start size) (insertStep start size a i)).1 start size i =
        a.2 % 2 ^ segWidth start size i := by
      refine segField_eq_of_bits fun j inside => ?_
      have byte : segLo start i + j < 8 := by have := seg_fits_byte pos here; omega
      rw [bitOf_foldl_insertStep is _ _ _ room' byte fun member => absurd member fresh,
        bitOf_insertStep a i i _ now byte, if_pos ⟨rfl, by omega, by omega⟩, Nat.add_sub_cancel_left]
    rw [List.foldl_cons, joined, first, ih distinct touched _ room']
    exact mod_or_shiftRight_mod _ _ _

theorem insert_eq_foldl (data : List Byte) (be : Bool) (raw : Nat) :
    insert data start size be raw = ((fieldOrder start size be).foldl (insertStep start size) (data, raw)).1 := rfl

/-- A bit in a byte's share of the field is a bit of the field. -/
theorem field_bit_of_share {i j : Nat} (pos : 1 ≤ size) (h : Touches start size i) (low : segLo start i ≤ j)
    (high : j < segLo start i + segWidth start size i) : start ≤ 8 * i + j ∧ 8 * i + j < start + size := by
  have bounds := cut_mem_byte pos h
  rw [segLo_eq_cut_sub pos h] at low high
  rw [segWidth_eq_cut_sub pos h] at high
  have inside : start ≤ cut start size i ∧ cut start size (i + 1) ≤ start + size := by simp only [cut]; omega
  omega

end

/-- Settles O7: insert and extract go through the bytes in one order, and each round writes its own share only. -/
theorem extractUndoesInsert : Obligations.ExtractUndoesInsert := by
  intro data start size raw be pos fits
  have room : ∀ i ∈ fieldOrder start size be, i < data.length := fun i member => by
    obtain ⟨_, last⟩ := mem_fieldOrder member
    simp only [endByte] at last
    omega
  refine ⟨?_, ?_, fun k outside => ?_⟩
  · rw [extract_eq_joined, insert_eq_foldl,
      joined_foldl_insertStep pos _ (fieldOrder_nodup be) (fun _ => mem_fieldOrder) (data, raw) room, totalWidth_fieldOrder pos]
  · rw [insert_eq_foldl, foldl_insertStep_length]
  · rw [insert_eq_foldl]
    refine bitOf_foldl_insertStep _ (data, raw) _ _ room (Nat.mod_lt _ (by decide)) fun member share => ?_
    obtain ⟨low, high⟩ := share
    have inside := field_bit_of_share pos (mem_fieldOrder member) low high
    omega

end Sys2Proof.Machine
end

section
/-! SIG_PLUCK (R120, R121): the container of a field and its value, and the checks of the command in their order. -/

namespace Sys2Proof.Machine

/-! ### The container (R120) -/

/-- The value of a field read as two's complement. -/
def signedValue (raw size : Nat) : Int := if 2 ^ (size - 1) ≤ raw then (raw : Int) - 2 ^ size else raw

section
variable {raw size : Nat}

/-- The sign bit of a field is its highest. -/
theorem testBit_sign_iff (pos : 1 ≤ size) (fits : raw < 2 ^ size) :
    raw.testBit (size - 1) = true ↔ 2 ^ (size - 1) ≤ raw := by
  have double : 2 ^ size = 2 * 2 ^ (size - 1) := by rw [← Nat.pow_succ', Nat.succ_eq_add_one, Nat.sub_add_cancel pos]
  constructor
  · exact Nat.ge_two_pow_of_testBit
  · intro high
    have quotient : raw / 2 ^ (size - 1) = 1 := Nat.div_eq_of_lt_le (by omega) (by omega)
    rw [Nat.testBit_eq_decide_div_mod_eq, quotient]
    rfl

theorem narrow_eq (pos : 1 ≤ size) (fits : raw < 2 ^ size) (sg : Bool) :
    narrow raw size sg =
      if size ≤ 8 then (if sg then .i8 (BitVec.ofInt 8 (signedValue raw size)) else .u8 (BitVec.ofNat 8 raw))
      else if size ≤ 16 then (if sg then .i16 (BitVec.ofInt 16 (signedValue raw size)) else .u16 (BitVec.ofNat 16 raw))
      else (if sg then .i32 (BitVec.ofInt 32 (signedValue raw size)) else .u32 (BitVec.ofNat 32 raw)) := by
  simp only [narrow, signedValue, testBit_sign_iff pos fits]

/-- An unsigned field is its own value in any container it fits. -/
theorem toNat_ofNat_of_fits {width : Nat} (fits : raw < 2 ^ size) (room : size ≤ width) :
    (BitVec.ofNat width raw).toNat = raw :=
  (BitVec.toNat_ofNat raw width).trans (Nat.mod_eq_of_lt (Nat.lt_of_lt_of_le fits (Nat.pow_le_pow_right (by decide) room)))

/-- A signed field keeps its value in any container it fits. -/
theorem toInt_ofInt_signedValue {width : Nat} (pos : 1 ≤ size) (fits : raw < 2 ^ size) (room : size ≤ width) :
    (BitVec.ofInt width (signedValue raw size)).toInt = signedValue raw size := by
  have double : (2 : Int) ^ size = 2 * 2 ^ (size - 1) := by rw [← Int.pow_succ', Nat.sub_add_cancel pos]
  have wider : (2 : Int) ^ (size - 1) ≤ 2 ^ (width - 1) := pow_le_pow_right₀ (by decide) (by omega)
  have below : (raw : Int) < 2 ^ size := by exact_mod_cast fits
  have sign : (2 ^ (size - 1) ≤ raw) ↔ (2 : Int) ^ (size - 1) ≤ raw := by exact_mod_cast Iff.rfl
  refine BitVec.toInt_ofInt_eq_self (by omega) ?_ ?_ <;> simp only [signedValue, sign] <;> split <;> omega

end

/-- Settles O8: the container fits the field, so it holds the field's value, signed or not. -/
theorem narrowKeepsTheValue : Obligations.NarrowKeepsTheValue := by
  intro raw size sg pos size_le fits
  have signed : (if sg = true ∧ 2 ^ (size - 1) ≤ raw then (raw : Int) - 2 ^ size else (raw : Int)) =
      if sg then signedValue raw size else raw := by
    cases sg <;> simp [signedValue]
  rw [signed, narrow_eq pos fits]
  by_cases byte : size ≤ 8
  · cases sg
    · simp [byte, keyVal, encodeNumber, toNat_ofNat_of_fits fits byte]
    · simp [byte, keyVal, encodeNumber, toInt_ofInt_signedValue pos fits byte]
  · by_cases half : size ≤ 16
    · cases sg
      · simp [byte, half, keyVal, encodeNumber, toNat_ofNat_of_fits fits half]
      · simp [byte, half, keyVal, encodeNumber, toInt_ofInt_signedValue pos fits half]
    · cases sg
      · simp [byte, half, keyVal, encodeNumber, toNat_ofNat_of_fits fits size_le]
      · simp [byte, half, keyVal, encodeNumber, toInt_ofInt_signedValue pos fits size_le]

/-! ### SIG_PLUCK (R66, R121) -/

/-- A command whose body changes nothing changes nothing but the result (R145). -/
theorem endCommand_onlyResult {s : State} (sampled : Sampled s) (r : Except Err (List Byte)) :
    OnlyResult s (endCommand (r, beginCommand s)) :=
  ⟨⟨rfl, rfl, rfl, rfl, rfl, rfl, rfl, rfl, rfl, rfl, rfl⟩, endCommand_sameLatch (u := beginCommand s) sampled rfl r,
    beginCommand_sameController s, beginCommand_sameEeprom s, beginCommand_sameWorld s, rfl, rfl⟩

/-- What SIG_PLUCK answers. -/
def pluckAnswer (fmt : SigFmt) (frm : FrameArg) : Except Err (List Byte) :=
  (frameOperand frm).bind fun f => (pluck fmt f).map encodeNumber

theorem exec_sigPluck (fmt : SigFmt) (frm : FrameArg) (s : State) :
    exec (.sigPluck fmt frm) s = .next (endCommand (pluckAnswer fmt frm, beginCommand s)) := by
  simp only [exec, execSigPluck, command, pluckAnswer]
  rcases frameOperand frm with e | f
  · rfl
  · simp only [Except.bind]
    rcases pluck fmt f with e | n <;> rfl

/-- The checks of a frame operand, as comparisons (R66). -/
theorem frameOperand_eq (frm : FrameArg) :
    frameOperand frm = if frm.rtr.toNat > 1 then .error .badValue else if frm.data.length > 8 then .error .badLength
      else .ok ⟨frm.id, frm.rtr = 1, frm.data⟩ := by
  have rtr : (frm.rtr = 0 ∨ frm.rtr = 1) ↔ ¬ frm.rtr.toNat > 1 := by bv_omega
  have dlc : frm.data.length ≤ maxDlc ↔ ¬ frm.data.length > 8 := by simp only [maxDlc]; omega
  simp only [frameOperand, rtr, dlc, ite_not]

/-- The checks of pluck, as comparisons (R121). -/
theorem pluck_eq (fmt : SigFmt) (fr : CanFrame) :
    pluck fmt fr = if fmt.flags.toNat ≥ 4 then .error .order
      else if fmt.size = 0 ∨ fmt.size.toNat > 32 then .error .size
      else if fmt.start.toNat + fmt.size.toNat > 8 * fr.dlc then .error .span
      else .ok (narrow (extract fr.data fmt.start.toNat fmt.size.toNat (bitOf fmt.flags 0)) fmt.size.toNat
        (bitOf fmt.flags 1)) := by
  have order : ∀ flags : Byte, flags.extractLsb' 2 6 ≠ 0 ↔ flags.toNat ≥ 4 := by decide
  have size : fmt.size.toNat = 0 ↔ fmt.size = 0 := (BitVec.toNat_eq (x := fmt.size) (y := 0)).symm
  simp only [pluck, order, size, flagOrder, flagSigned]
  by_cases unordered : fmt.flags.toNat ≥ 4
  · simp only [if_pos unordered]
  by_cases sizeless : fmt.size = 0 ∨ fmt.size.toNat > 32
  · simp only [if_neg unordered, if_pos sizeless]
  have span : (fmt.start.toNat ≥ 8 * fr.dlc ∨ fmt.start.toNat + fmt.size.toNat > 8 * fr.dlc) ↔
      fmt.start.toNat + fmt.size.toNat > 8 * fr.dlc := by
    rw [← size] at sizeless
    omega
  simp only [if_neg unordered, if_neg sizeless, span]

/-- Settles O9: the command answers its checks in order, and its body changes nothing. -/
theorem sigPluck : Obligations.SigPluck := by
  intro s fmt frm sampled
  refine ⟨_, exec_sigPluck fmt frm s, endCommand_onlyResult sampled _, ?_⟩
  have answered : (endCommand (pluckAnswer fmt frm, beginCommand s)).lastResult = some (encodeResult (pluckAnswer fmt frm)) := rfl
  rw [answered, pluckAnswer, frameOperand_eq]
  by_cases rtr : frm.rtr.toNat > 1
  · simp only [if_pos rtr]; rfl
  by_cases dlc : frm.data.length > 8
  · simp only [if_neg rtr, if_pos dlc]; rfl
  simp only [if_neg rtr, if_neg dlc, Except.bind, pluck_eq, CanFrame.dlc]
  by_cases order : fmt.flags.toNat ≥ 4
  · simp only [if_pos order]; rfl
  by_cases size : fmt.size = 0 ∨ fmt.size.toNat > 32
  · simp only [if_neg order, if_pos size]; rfl
  by_cases span : fmt.start.toNat + fmt.size.toNat > 8 * frm.data.length
  · simp only [if_neg order, if_neg size, if_pos span]; rfl
  · simp only [if_neg order, if_neg size, if_neg span]; rfl

end Sys2Proof.Machine
end

section
/-! The slot commands SIG_LOAD, SIG_STORE and SIG_GET (R125 to R127): SIG_LOAD and SIG_STORE are one storage access and then a
mirror write with its gap, SIG_GET is four mirror reads with their gaps. The names of the three settled
statements are the model's names of these operations, so they stand under `SlotCommands`. -/

namespace Sys2Proof.Machine

/-! ### The mirror write and its gap (R144) -/

theorem setMirror_blockPart (s : State) (k : Nat) (f : SigFmt) :
    (s.setMirror k f).blockPart = { s.blockPart with mirror := s.blockPart.mirror.setIfInBounds k (some f) } := rfl

theorem Marked.setMirror {s t : State} (h : Marked s t) (k : Nat) (f : SigFmt) :
    Marked (s.setMirror k f) (t.setMirror k f) := by
  simp only [Marked, setMirror_blockPart]
  rcases h with same | issued
  · exact .inl (by rw [same])
  · exact .inr (by rw [issued]; rfl)

theorem Marked.tick {s t : State} (h : Marked s t) : Marked s (Machine.tick envGap t) := by
  rw [Marked, tick_envGap_blockPart]
  exact h

/-- What a command leaves of the block when its body wrote mirror[k] and issued transactions: the slot, and nothing else. -/
structure WroteSlot (s t : State) (k : Nat) (f : SigFmt) : Prop where
  slot : t.mirrorAt k = some f
  others : ∀ j, j ≠ k → t.mirrorAt j = s.mirrorAt j
  block : SameBlock { s with mirror := t.mirror } t

theorem wroteSlot_of_marked {s u : State} (ready : Ready s) {k : Nat} (slot : k < 16) {f : SigFmt}
    (marked : Marked ((beginCommand s).setMirror k f) u) (r : Except Err (List Byte)) :
    WroteSlot s (endCommand (r, u)) k f := by
  obtain ⟨_, can, ee⟩ := ready
  have mirror : ∀ j, (endCommand (r, u)).mirrorAt j = if k = j ∧ j < 16 then some f else s.mirrorAt j := fun j => by
    rw [← beginCommand_mirrorAt, ← mirrorAt_setMirror]
    exact congrArg (fun m : Vector (Option SigFmt) 16 => (m[j]?).getD none) marked.mirror
  obtain ⟨cfg, phase, boot, _, gie, ctx, csCan, csEe, shadow, hErr, faults⟩ := marked.sameBlock can ee
  refine ⟨(mirror k).trans (if_pos ⟨rfl, slot⟩), fun j other => (mirror j).trans (if_neg fun h => other h.1.symm), ?_⟩
  exact ⟨cfg, phase, boot, rfl, gie, ctx, csCan, csEe, shadow, hErr, faults⟩

/-! ### SIG_LOAD (R125) -/

theorem exec_sigLoad {s : State} {k : Byte} (slot : k.toNat < s.cfg.numSignals) :
    exec (.sigLoad k) s = .next (endCommand (sigLoad fgGap k.toNat (beginCommand s)).unit) := by
  have noError : ¬ k.toNat ≥ (beginCommand s).cfg.numSignals := Nat.not_le.2 slot
  simp only [exec, execSigLoad, command, if_neg noError]

/-- SIG_LOAD in a still environment: two transactions, the mirror write, and a gap without a move. -/
theorem sigLoad_alone {s : State} (alone : Alone s) (ready : Ready s) (reachable : EepromReady s) {k : Nat}
    (slot : k < s.cfg.numSignals) :
    ∃ issued ev, sigLoad fgGap k s = (.ok (), (s.traced issued ev).setMirror k
      (deserRec s.cfg.idRecOrder (s.eeBytes (s.cfg.sigAddr k) sigRecBytes))) := by
  obtain ⟨idle, bits, fits, accepted⟩ := reachable
  obtain ⟨sampled, _⟩ := id ready
  obtain ⟨issued, reads⟩ := eeReadOp_quiet (quiet_fgGap alone) ready bits fits (valid_bailout accepted) idle
    (s.cfg.sigAddr k) sigRecBytes (valid_record accepted slot)
  generalize (if sigRecBytes = 0 then ([] : List Event) else _) = ev at reads
  refine ⟨issued, ev, ?_⟩
  have gap (f : SigFmt) : tick fgGap ((s.traced issued ev).setMirror k f) = (s.traced issued ev).setMirror k f :=
    (tick_fgGap_of_alone ((s.traced issued ev).setMirror k f) alone).trans
      (sample_of_sampled (s := (s.traced issued ev).setMirror k f) sampled)
  rw [sigLoad, reads]
  exact congrArg (Prod.mk _) (gap _)

/-- Settles O32: the record is read as it stands in the array, and what follows the mirror write changes neither. -/
theorem SlotCommands.sigLoad : Obligations.SigLoad := by
  intro s k critical ready reachable slot
  obtain ⟨idle, _, _, accepted⟩ := id reachable
  have calm : Calm fgGap (beginCommand s) := calm_fgGap (s := beginCommand s) critical
  obtain ⟨u, marked, same, loads⟩ := sigLoad_calm (s := beginCommand s) calm reachable slot
  generalize format : deserRec (beginCommand s).cfg.idRecOrder
    ((beginCommand s).eeBytes ((beginCommand s).cfg.sigAddr k.toNat) sigRecBytes) = f at loads
  rw [calm.tick (u.setMirror k.toNat f) marked.gie] at loads
  have kept : (tick envGap (u.setMirror k.toNat f)).eePart = s.eePart :=
    ((tick_envGap_eeEvolves (u.setMirror k.toNat f)).idle ((wip_of_eePart same).trans idle)).trans same
  have loaded : Marked ((beginCommand s).setMirror k.toNat f) (tick envGap (u.setMirror k.toNat f)) :=
    (marked.setMirror k.toNat f).tick
  have wrote := wroteSlot_of_marked ready (Nat.lt_of_lt_of_le slot (valid_slots accepted)) loaded (.ok [])
  refine ⟨_, (exec_sigLoad slot).trans (by rw [loads]; rfl), rfl, wrote.slot.trans (congrArg some format.symm), wrote.others,
    wrote.block, ⟨fun a => congrArg (Memory.read · a) (ee_of_eePart kept), wip_of_eePart kept, wel_of_eePart kept,
      pageBuf_of_eePart kept, loaded.eeProtect⟩, fun still => ?_⟩
  obtain ⟨issued, ev, stillLoads⟩ := sigLoad_alone (s := beginCommand s) ⟨critical, still⟩ ready reachable slot
  obtain ⟨sampled, _⟩ := ready
  rw [format] at stillLoads
  have ends : tick envGap (u.setMirror k.toNat f) = ((beginCommand s).traced issued ev).setMirror k.toNat f :=
    congrArg Prod.snd (loads.symm.trans stillLoads)
  rw [ends]
  exact ⟨endCommand_sameLatch (u := ((beginCommand s).traced issued ev).setMirror k.toNat f) sampled rfl _,
    beginCommand_sameController s, beginCommand_sameWorld s, rfl⟩

/-! ### SIG_STORE (R126) -/

theorem exec_sigStore (k : Byte) (f : SigFmt) (s : State) :
    exec (.sigStore k f) s = .next (endCommand (sigStore fgGap k.toNat f (beginCommand s)).unit) := rfl

/-- The mirror write with a gap that could end a write cycle, and none running. -/
theorem tick_setMirror_prompt {s u : State} {rest : List (List EnvMove)} (kept : Kept s u ([EnvMove.cycleEnd] :: rest)) (k : Nat)
    (f : SigFmt) : Kept s (tick envGap (u.setMirror k f)) rest := by
  have idle : ((u.setMirror k f).setSched rest).wip = false := kept.wip
  rw [tick_cycleEnd (s := u.setMirror k f) kept.sampled kept.sched, State.cycleEnd, if_neg (by simp [idle])]
  exact ⟨kept.wip, rfl, kept.ctl, kept.edge, kept.busIn, kept.busOut, kept.sampled⟩

/-- A record is one burst with its four gaps (R126); the fifth gap follows the mirror write. -/
theorem sigStore_prompt {g : Pause} {s : State} (calm : Calm g s) (sampled : Sampled s) (bits : StatusBits s.cfg)
    (fits : AddressFits s.cfg) (accepted : s.cfg.valid = true) (wf : s.ee.wf = true) (idle : s.wip = false)
    (writable : s.eeProtect = false) {k : Nat} (slot : k < s.cfg.numSignals) (f : SigFmt) {rest : List (List EnvMove)}
    (prompt : s.sched = List.replicate 5 [EnvMove.cycleEnd] ++ rest) :
    (sigStore g k f s).1 = .ok () ∧ Kept s (sigStore g k f s).2 rest := by
  have length := serRec_length s.cfg.idRecOrder f
  have moves : s.sched = List.replicate (4 * (chunks (s.cfg.sigAddr k) (serRec s.cfg.idRecOrder f).length).length)
      [EnvMove.cycleEnd] ++ ([EnvMove.cycleEnd] :: rest) := by
    rw [length, chunks_record accepted, prompt]
    rfl
  obtain ⟨ok, kept, marked, _⟩ := eeWriteOp_prompt calm sampled bits fits wf (valid_bailout accepted) idle writable
    (s.cfg.sigAddr k) (serRec s.cfg.idRecOrder f) (by rw [length]; exact valid_record accepted slot) moves
  rcases written : eeWriteOp g (s.cfg.sigAddr k) (serRec s.cfg.idRecOrder f) s with ⟨r, u⟩
  rw [written] at ok kept marked
  obtain rfl : r = .ok () := ok
  rw [sigStore, if_neg (Nat.not_le.2 slot), written, Res.bind, calm.tick (u.setMirror k f) marked.gie]
  exact ⟨rfl, tick_setMirror_prompt kept k f⟩

/-- The settled array is not the mirror's. -/
theorem settled_tick_setMirror (u : State) (k : Nat) (f : SigFmt) : (tick envGap (u.setMirror k f)).settled = u.settled :=
  ((tick_envGap_eeEvolves (u.setMirror k f)).settled (congrArg BlockPart.cfg (tick_envGap_blockPart _))).trans
    (settled_of_eePart rfl rfl)

/-- Settles O33: the mirror write comes after the record's write answered Ok, and never else. -/
theorem SlotCommands.sigStore : Obligations.SigStore := by
  intro s k f critical ready bits fits accepted wf slot
  obtain ⟨sampled, _⟩ := id ready
  have calm : Calm fgGap (beginCommand s) := calm_fgGap (s := beginCommand s) critical
  have promptly (idle : s.wip = false) (writable : s.eeProtect = false) (prompt : Prompt 9 s) :
      ∃ rest, (Machine.sigStore fgGap k.toNat f (beginCommand s)).1 = .ok () ∧
        Kept (beginCommand s) (Machine.sigStore fgGap k.toNat f (beginCommand s)).2 rest := by
    obtain ⟨rest, moves⟩ := prompt
    exact ⟨_, sigStore_prompt (s := beginCommand s) calm sampled bits fits accepted wf idle writable slot f
      (rest := List.replicate 4 [EnvMove.cycleEnd] ++ rest) moves⟩
  obtain ⟨u, marked, _, outcome⟩ := sigStore_calm (s := beginCommand s) calm bits fits wf slot f
  rcases outcome with ⟨stores, stored, _⟩ | ⟨e, stores, _⟩
  · rw [calm.tick (u.setMirror k.toNat f) marked.gie] at stores
    have settled := settled_tick_setMirror u k.toNat f
    have loaded : Marked ((beginCommand s).setMirror k.toNat f) (tick envGap (u.setMirror k.toNat f)) :=
      (marked.setMirror k.toNat f).tick
    generalize tick envGap (u.setMirror k.toNat f) = v at stores settled loaded
    have wrote := wroteSlot_of_marked ready (Nat.lt_of_lt_of_le slot (valid_slots accepted)) loaded (.ok [])
    refine ⟨endCommand (.ok [], v), (exec_sigStore k f s).trans (by rw [stores]; rfl), wrote.block, wrote.others,
      fun _ => ⟨wrote.slot, ?_⟩, fun failed => absurd rfl failed, fun idle writable prompt => ?_⟩
    · rw [endCommand_settled, settled]
      exact stored_beginCommand.1 stored
    · obtain ⟨_, _, kept⟩ := promptly idle writable prompt
      rw [stores] at kept
      exact ⟨rfl, kept.wip, endCommand_sameLatch kept.sampled kept.edge _, sameController_of_ctlPart kept.ctl, loaded.out,
        kept.busIn, kept.busOut⟩
  · have failed : (endCommand (.error e, u)).lastResult ≠ some [0x00, 0x00] := fun h => code_ne_ok e (Option.some.inj h)
    have mirror : (endCommand (.error e, u)).mirror = s.mirror := marked.mirror
    have block : SameBlock s (endCommand (.error e, u)) := endCommand_sameBlock ready marked _
    refine ⟨endCommand (.error e, u), (exec_sigStore k f s).trans (by rw [stores]; rfl), by rw [mirror]; exact block,
      fun j _ => congrArg (fun m : Vector (Option SigFmt) 16 => (m[j]?).getD none) mirror, fun ok => absurd ok failed,
      fun _ => mirror, fun idle writable prompt => ?_⟩
    obtain ⟨_, ok, _⟩ := promptly idle writable prompt
    rw [stores] at ok
    exact nomatch ok

/-! ### SIG_GET (R127) -/

theorem exec_sigGet (k : Byte) (s : State) :
    exec (.sigGet k) s = .next (endCommand (sigGet fgGap k.toNat (beginCommand s))) := rfl

theorem readMirror_of_some {s : State} {k : Nat} {f : SigFmt} (loaded : s.mirrorAt k = some f) : readMirror k s = (f, s) := by
  rw [readMirror, loaded]

theorem readMirror_of_none {s : State} {k : Nat} (invalid : s.mirrorAt k = none) :
    readMirror k s = (deserWire (s.freeBytes sigWireBytes), (s.takeFree sigWireBytes).addUnloadedMirror) := by
  rw [readMirror, invalid]

theorem mirrorAt_of_blockPart {s t : State} (h : t.blockPart = s.blockPart) (k : Nat) : t.mirrorAt k = s.mirrorAt k :=
  congrArg (fun part : BlockPart => (part.mirror[k]?).getD none) h

theorem gie_of_blockPart {s t : State} (h : t.blockPart = s.blockPart) : t.gie = s.gie := congrArg BlockPart.gie h

/-- Of a loaded slot the four reads answer the format, and only their gaps can change the state. -/
theorem sigGet_loaded {g : Pause} {s : State} (calm : Calm g s) {k : Nat} (slot : k < s.cfg.numSignals) {f : SigFmt}
    (loaded : s.mirrorAt k = some f) :
    ∃ u, sigGet g k s = (.ok (serWire f), u) ∧ u.blockPart = s.blockPart ∧ (tick g s = s → u = s) := by
  have gap {u : State} (same : u.blockPart = s.blockPart) : (tick g u).blockPart = s.blockPart := by
    rw [calm.tick u (gie_of_blockPart same), tick_envGap_blockPart, same]
  have reads {u : State} (same : u.blockPart = s.blockPart) : readMirror k u = (f, u) :=
    readMirror_of_some ((mirrorAt_of_blockPart same k).trans loaded)
  refine ⟨tick g (tick g (tick g (tick g s))), ?_, gap (gap (gap (gap rfl))), fun nothing => by simp only [nothing]⟩
  rw [sigGet, if_neg (Nat.not_le.2 slot), reads rfl]
  simp only [reads (gap rfl), reads (gap (gap rfl)), reads (gap (gap (gap rfl)))]

/-- A state after reads of an Invalid slot: free values taken, the fault recorded, and nothing else the block sees. -/
def Unloaded (s t : State) : Prop := ∃ n, t.blockPart = (s.takeFree n).addUnloadedMirror.blockPart

theorem Unloaded.tick {g : Pause} {s t : State} (calm : Calm g s) (h : Unloaded s t) : Unloaded s (Machine.tick g t) := by
  obtain ⟨n, same⟩ := h
  refine ⟨n, ?_⟩
  rw [calm.tick t (gie_of_blockPart (s := (s.takeFree n).addUnloadedMirror) same), tick_envGap_blockPart]
  exact same

theorem addUnloadedMirror_blockPart (s : State) (n : Nat) : (s.takeFree n).addUnloadedMirror.blockPart =
    { s.blockPart with freeN := s.blockPart.freeN + n, faults := { s.blockPart.faults with unloadedMirror := true } } := rfl

theorem unloaded_of_readMirror {s : State} {k : Nat} (invalid : s.mirrorAt k = none) : Unloaded s (readMirror k s).2 := by
  rw [readMirror_of_none invalid]
  exact ⟨sigWireBytes, rfl⟩

theorem Unloaded.readMirror {s t : State} (h : Unloaded s t) {k : Nat} (invalid : s.mirrorAt k = none) :
    Unloaded s (Machine.readMirror k t).2 := by
  obtain ⟨n, same⟩ := h
  have still : t.mirrorAt k = none := (mirrorAt_of_blockPart (s := (s.takeFree n).addUnloadedMirror) same k).trans invalid
  refine ⟨n + sigWireBytes, ?_⟩
  rw [readMirror_of_none still, addUnloadedMirror_blockPart, same]
  simp only [addUnloadedMirror_blockPart, Nat.add_assoc]

theorem serWire_length (f : SigFmt) : (serWire f).length = 7 := rfl

/-- Of an Invalid slot the four reads answer some format, and each records the fault. -/
theorem sigGet_unloaded {g : Pause} {s : State} (calm : Calm g s) {k : Nat} (slot : k < s.cfg.numSignals)
    (invalid : s.mirrorAt k = none) : ∃ f u, sigGet g k s = (.ok (serWire f), u) ∧ Unloaded s u := by
  have again {t : State} (h : Unloaded s t) : Unloaded s (readMirror k (tick g t)).2 := (h.tick calm).readMirror invalid
  rw [sigGet, if_neg (Nat.not_le.2 slot)]
  exact ⟨_, _, rfl, (again (again (again (unloaded_of_readMirror invalid)))).tick calm⟩

/-- Settles O34: no gap of a critical section changes the mirror, so the four reads are of one format. -/
theorem SlotCommands.sigGet : Obligations.SigGet := by
  intro s k critical slot
  have calm : Calm fgGap (beginCommand s) := calm_fgGap (s := beginCommand s) critical
  refine ⟨fun f loaded => ?_, fun invalid => ?_⟩
  · obtain ⟨u, gets, same, unmoved⟩ := sigGet_loaded (s := beginCommand s) calm slot loaded
    have block : SameBlock (beginCommand s) u := sameBlock_of_blockPart same
    refine ⟨endCommand (.ok (serWire f), u), (exec_sigGet k s).trans (by rw [gets]), rfl, block, fun still sampled => ?_⟩
    have nothing : tick fgGap (beginCommand s) = beginCommand s :=
      (tick_fgGap_of_alone (beginCommand s) ⟨critical, still⟩).trans (sample_of_sampled (s := beginCommand s) sampled)
    rw [unmoved nothing]
    exact endCommand_onlyResult sampled _
  · obtain ⟨f, u, gets, n, after⟩ := sigGet_unloaded (s := beginCommand s) calm slot invalid
    have block : SameBlock ((beginCommand s).takeFree n).addUnloadedMirror u := sameBlock_of_blockPart after
    have faults : u.faults = { s.faults with unloadedMirror := true } := congrArg BlockPart.faults after
    refine ⟨endCommand (.ok (serWire f), u), serWire f, (exec_sigGet k s).trans (by rw [gets]), rfl, serWire_length f,
      faults, ?_⟩
    obtain ⟨cfg, phase, boot, mirror, gie, ctx, csCan, csEe, shadow, hErr, _⟩ := block
    exact ⟨cfg, phase, boot, mirror, gie, ctx, csCan, csEe, shadow, hErr, rfl⟩

end Sys2Proof.Machine
end

section
/-! The interpolated value of R132: between the values of its two rows, and growing with the key where the values do. -/

namespace Sys2Proof.Machine

/-- The value added to the lower row's is between 0 and the difference of the two rows. -/
theorem interpolate_between {k1 k2 x : Int} (v1 v2 : Int) (lower : k1 < x) (upper : x < k2) :
    min v1 v2 ≤ interpolate k1 v1 k2 v2 x ∧ interpolate k1 v1 k2 v2 x ≤ max v1 v2 := by
  have part := tdiv_between (v2 - v1) (x - k1) (k2 - k1) (by omega) (by omega)
  simp only [interpolate]
  omega

/-- Between rows whose values do not decrease, no numerator is negative, so rounding toward zero is rounding down. -/
theorem interpolate_mono {k1 v1 k2 v2 x1 x2 : Int} (values : v1 ≤ v2) (lower : k1 < x1) (keys : x1 ≤ x2) (rows : k1 < k2) :
    interpolate k1 v1 k2 v2 x1 ≤ interpolate k1 v1 k2 v2 x2 := by
  have grows : (v2 - v1) * (x1 - k1) ≤ (v2 - v1) * (x2 - k1) := Int.mul_le_mul_of_nonneg_left (by omega) (by omega)
  have first : 0 ≤ (v2 - v1) * (x1 - k1) := Int.mul_nonneg (by omega) (by omega)
  have quotients := Int.ediv_le_ediv (Int.sub_pos.2 rows) grows
  rw [interpolate, interpolate, Int.tdiv_eq_ediv_of_nonneg first, Int.tdiv_eq_ediv_of_nonneg (first.trans grows)]
  exact Int.add_le_add_left quotients v1

/-- Settles O38: two values of 16 bits have only such values between them. -/
theorem interpolationStaysBetween : Obligations.InterpolationStaysBetween := by
  intro k1 k2 x v1 v2 lower upper
  obtain ⟨least, greatest⟩ := interpolate_between v1.toNat v2.toNat lower upper
  have fits1 := v1.isLt
  have fits2 := v2.isLt
  exact ⟨least, greatest, ofInt16_toNat _ (by omega) (by omega)⟩

end Sys2Proof.Machine
end

section
/-! The commands of the calibration table (R128 to R132): ROW_WRITE is one storage write, ROW_READ one storage read, and TAB_LOOKUP
a scan of such reads. -/

namespace Sys2Proof.Machine

/-! ### ROW_WRITE (R129) -/

/-- A row's write is the write of its six bytes (R128). -/
theorem writeRow_eq (g : Pause) {s : State} {t i : Nat} (table : t < s.cfg.numSignals) (row : i < tableRows) (key : U32)
    (value : U16) : writeRow g t i key value s = eeWriteOp g (s.cfg.rowAddr t i) (serRow key value) s := by
  rw [writeRow, if_neg (Nat.not_le.2 table), if_neg (Nat.not_le.2 row)]

/-- A row lies in one page or straddles two (R97), so eight prompt gaps are enough for its bursts. -/
theorem prompt_row {s : State} (prompt : Prompt 8 s) (a : Nat) :
    ∃ rest, s.sched = List.replicate (4 * (chunks a rowBytes).length) [EnvMove.cycleEnd] ++ rest := by
  obtain ⟨rest, moves⟩ := prompt
  have bursts : (chunks a rowBytes).length = 1 ∨ (chunks a rowBytes).length = 2 := by
    rw [chunks_count, if_neg (by decide)]
    simp only [rowBytes]
    omega
  rcases bursts with one | two
  · exact ⟨List.replicate 4 [EnvMove.cycleEnd] ++ rest, by rw [one, moves]; rfl⟩
  · exact ⟨rest, by rw [two, moves]⟩

theorem exec_rowWrite (t i : Byte) (key : U32) (value : U16) (s : State) :
    exec (.rowWrite t i key value) s =
      .next (endCommand (writeRow fgGap t.toNat i.toNat key value (beginCommand s)).unit) := rfl

/-- Settles O35: the row's bytes are stored by one storage write, whose bursts have their gaps. -/
theorem rowWrite : Obligations.RowWrite := by
  intro s t i key value critical ready reachable wf writable table row prompt
  obtain ⟨idle, bits, fits, accepted⟩ := reachable
  obtain ⟨sampled, _⟩ := id ready
  have calm : Calm fgGap (beginCommand s) := calm_fgGap (s := beginCommand s) critical
  obtain ⟨rest, moves⟩ := prompt_row prompt (s.cfg.rowAddr t.toNat i.toNat)
  obtain ⟨ok, kept, marked, stored⟩ := eeWriteOp_prompt (s := beginCommand s) calm sampled bits fits wf
    (valid_bailout accepted) idle writable _ (serRow key value) (valid_row accepted table row) moves
  have writes := writeRow_eq fgGap (s := beginCommand s) table row key value
  rcases written : eeWriteOp fgGap (s.cfg.rowAddr t.toNat i.toNat) (serRow key value) (beginCommand s) with ⟨r, u⟩
  rw [written] at ok kept marked stored
  obtain rfl : r = .ok () := ok
  exact ⟨endCommand (.ok [], u), (exec_rowWrite t i key value s).trans (by rw [writes.trans written]; rfl), rfl,
    stored_beginCommand.1 stored, kept.wip, endCommand_sameBlock ready marked _, endCommand_sameLatch kept.sampled kept.edge _,
    sameController_of_ctlPart kept.ctl, marked.out, kept.busIn, kept.busOut⟩

/-! ### What a command that only reads the array leaves -/

/-- In any environment such a command leaves the block and the EEPROM as they were, and in a still one everything. -/
theorem endCommand_reading {s u : State} (ready : Ready s) (marked : Marked (beginCommand s) u) (same : u.eePart = s.eePart)
    (alone : Still s → ∃ issued ev, u = (beginCommand s).traced issued ev) (r : Except Err (List Byte)) :
    SameBlock s (endCommand (r, u)) ∧ SameEeprom s (endCommand (r, u)) ∧
      (Still s → SameLatch s (endCommand (r, u)) ∧ SameController s (endCommand (r, u)) ∧
        SameWorld s (endCommand (r, u)) ∧ (endCommand (r, u)).freeN = s.freeN) := by
  refine ⟨endCommand_sameBlock ready marked r, endCommand_sameEeprom marked same r, fun still => ?_⟩
  obtain ⟨issued, ev, rfl⟩ := alone still
  obtain ⟨_, latch, controller, _, world, free, _⟩ := endCommand_traced ready r issued ev
  exact ⟨latch, controller, world, free⟩

/-! ### ROW_READ (R130) -/

theorem exec_rowRead (t i : Byte) (s : State) :
    exec (.rowRead t i) s = .next (endCommand (Res.bind (readRow fgGap t.toNat i.toNat (beginCommand s))
      fun r u => (.ok (serRow r.1 r.2), u))) := rfl

/-- Settles O36: the answer is the row that the read found, written out again (R128). -/
theorem rowRead : Obligations.RowRead := by
  intro s t i critical ready reachable table row
  have calm : Calm fgGap (beginCommand s) := calm_fgGap (s := beginCommand s) critical
  obtain ⟨ok, marked, same⟩ := readRow_calm (s := beginCommand s) calm reachable table row
  have alone (still : Still s) :
      ∃ issued ev, (readRow fgGap t.toNat i.toNat (beginCommand s)).2 = (beginCommand s).traced issued ev := by
    obtain ⟨issued, ev, reads, _⟩ :=
      readRow_quiet (s := beginCommand s) (quiet_fgGap (s := beginCommand s) ⟨critical, still⟩) ready reachable table row
    exact ⟨issued, ev, congrArg Prod.snd reads⟩
  rcases reads : readRow fgGap t.toNat i.toNat (beginCommand s) with ⟨r, u⟩
  rw [reads] at ok marked same alone
  obtain rfl : r = .ok (s.rowOf t.toNat i.toNat) := ok
  exact ⟨_, (exec_rowRead t i s).trans (by rw [reads]; rfl), rfl, endCommand_reading ready marked same alone _⟩

/-! ### TAB_LOOKUP (R132) -/

theorem exec_tabLookup {t tag : Byte} {w : U32} {key : Number} (decoded : numberOperand tag w = .ok key) (s : State) :
    exec (.tabLookup t tag w) s = .next (endCommand (Res.bind (lookup fgGap t.toNat key (beginCommand s))
      fun v u => (.ok (beBytes16 v), u))) := by
  simp only [exec, execTabLookup, command_eq, decoded]

/-- Settles O37: no gap of a critical section changes the array, so the scan reads the rows of one table. -/
theorem tabLookup : Obligations.TabLookup := by
  intro s t tag w key critical ready reachable table decoded
  have calm : Calm fgGap (beginCommand s) := calm_fgGap (s := beginCommand s) critical
  obtain ⟨⟨v, ok, answer⟩, marked, same⟩ := lookup_calm (s := beginCommand s) calm reachable table key
  have alone (still : Still s) :
      ∃ issued ev, (lookup fgGap t.toNat key (beginCommand s)).2 = (beginCommand s).traced issued ev := by
    obtain ⟨_, issued, ev, looks, _⟩ := lookup_quiet (s := beginCommand s)
      (quiet_fgGap (s := beginCommand s) ⟨critical, still⟩) still ready reachable table key calm
    exact ⟨issued, ev, congrArg Prod.snd looks⟩
  rcases looks : lookup fgGap t.toNat key (beginCommand s) with ⟨r, u⟩
  rw [looks] at ok marked same alone
  obtain rfl : r = .ok v := ok
  exact ⟨_, v, (exec_tabLookup decoded s).trans (by rw [looks]; rfl), rfl, (tableAnswer_congr rfl rfl t.toNat key v).1 answer,
    endCommand_reading ready marked same alone _⟩

end Sys2Proof.Machine
end

section
/-! Over a table that does not decrease, R132 is monotone: a row whose key lies from the smaller key on and below the greater
separates the two values, and two keys that no row separates are answered by the same interpolation or clamp. -/

namespace Sys2Proof.Machine

/-- The value of R132 at x over any keys k and values y, each of its four cases as an expression in them. -/
inductive CurveValue (k y : Nat → Int) (x : Int) : Int → Prop
  | row (j : Nat) (inTable : j < tableRows) (below : ∀ i, i < j → k i < x) (equal : k j = x) : CurveValue k y x (y j)
  | low (above : x < k 0) : CurveValue k y x (y 0)
  | between (j : Nat) (inTable : j + 1 < tableRows) (below : ∀ i, i ≤ j → k i < x) (above : x < k (j + 1)) :
      CurveValue k y x (interpolate (k j) (y j) (k (j + 1)) (y (j + 1)) x)
  | high (below : ∀ i, i < tableRows → k i < x) : CurveValue k y x (y 31)

/-- The answer of TAB_LOOKUP is the value over the rows of the table. -/
theorem TableAnswer.curveValue {s : State} {t : Nat} {key : Number} {v : U16} (h : TableAnswer s t key v) :
    CurveValue (fun i => rowVal (s.rowOf t i).1 key) (fun i => (s.rowOf t i).2.toNat) (keyVal key) v.toNat := by
  obtain ⟨j, inTable, below, equal, rfl⟩ | ⟨above, rfl⟩ | ⟨j, inTable, below, above, value⟩ | ⟨below, rfl⟩ := h
  · exact .row j inTable below equal
  · exact .low above
  · rw [value]
    exact .between j inTable below above
  · exact .high below

/-- Only the signedness of a key's type matters for how it is compared (R131). -/
theorem rowVal_congr {key1 key2 : Number} (h : Number.isUnsigned key1 = Number.isUnsigned key2) (k : U32) :
    rowVal k key1 = rowVal k key2 := by
  rw [rowVal, rowVal, h]

/-- What does not decrease from row to row does not decrease over the table. -/
theorem rows_le {f : Nat → Int} (grows : ∀ i, i + 1 < tableRows → f i ≤ f (i + 1)) {i j : Nat} (order : i ≤ j)
    (inTable : j < tableRows) : f i ≤ f j :=
  monotoneOn_of_le_add_one Set.ordConnected_Iio (fun a _ _ next => grows a next) (order.trans_lt inTable) inTable order

section
variable {k y : Nat → Int} {x v : Int}

/-- A row whose key is not below x bounds the value at x, and so does the last row. -/
theorem CurveValue.le_row (h : CurveValue k y x v) (values : ∀ i, i + 1 < tableRows → y i ≤ y (i + 1)) {j : Nat}
    (inTable : j < tableRows) (bound : x ≤ k j ∨ j = 31) : v ≤ y j := by
  have from_row {m : Nat} (small : m ≤ j) : y m ≤ y j := rows_le values small inTable
  have not_before {m : Nat} (inside : m < tableRows) (below : ∀ i, i < m → k i < x) : m ≤ j := by
    by_contra before
    have := below j (Nat.lt_of_not_le before)
    simp only [tableRows] at inside
    omega
  cases h with
  | row m inside below equal => exact from_row (not_before inside below)
  | low above => exact from_row (Nat.zero_le j)
  | between m inside below above =>
    have upper : m + 1 ≤ j := not_before inside fun i hi => below i (Nat.le_of_lt_succ hi)
    have := interpolate_between (y m) (y (m + 1)) (below m (Nat.le_refl m)) above
    have := values m inside
    have := from_row upper
    omega
  | high below => exact from_row (not_before (by decide) fun i hi => below i (hi.trans (by decide)))

/-- The value between two rows is theirs interpolated. -/
theorem CurveValue.eq_interpolate (h : CurveValue k y x v) (keys : ∀ i, i + 1 < tableRows → k i ≤ k (i + 1)) {j : Nat}
    (inTable : j + 1 < tableRows) (lower : k j < x) (upper : x < k (j + 1)) :
    v = interpolate (k j) (y j) (k (j + 1)) (y (j + 1)) x := by
  have beyond {m : Nat} (inside : m < tableRows) (reaches : x ≤ k m) : j + 1 ≤ m := by
    by_contra before
    have := rows_le keys (Nat.le_of_not_lt before) (Nat.lt_of_succ_lt inTable)
    omega
  cases h with
  | row m inside below equal =>
    have := rows_le keys (beyond inside equal.ge) inside
    omega
  | low above => exact absurd (beyond (by decide) above.le) (Nat.not_succ_le_zero j)
  | between m inside below above =>
    have after : j ≤ m := Nat.le_of_succ_le_succ (beyond inside above.le)
    have before : m ≤ j := by
      by_contra later
      have := below (j + 1) (Nat.lt_of_not_le later)
      omega
    obtain rfl := Nat.le_antisymm after before
    rfl
  | high below =>
    have := below (j + 1) inTable
    omega

end

/-- R132 is monotone over a table that does not decrease. -/
theorem CurveValue.mono {k y : Nat → Int} {x1 x2 v1 v2 : Int} (h1 : CurveValue k y x1 v1) (h2 : CurveValue k y x2 v2)
    (keys : ∀ i, i + 1 < tableRows → k i ≤ k (i + 1)) (values : ∀ i, i + 1 < tableRows → y i ≤ y (i + 1))
    (order : x1 < x2) : v1 ≤ v2 := by
  cases h2 with
  | row j inTable below equal => exact h1.le_row values inTable (.inl (by omega))
  | low above => exact h1.le_row values (by decide) (.inl (by omega))
  | between j inTable below above =>
    have lower := below j (Nat.le_refl j)
    have grows := values j inTable
    rcases Int.lt_or_le (k j) x1 with same | separated
    · rw [h1.eq_interpolate keys inTable same (order.trans above)]
      exact interpolate_mono grows same order.le (lower.trans above)
    · have := h1.le_row values (Nat.lt_of_succ_lt inTable) (.inl separated)
      have := interpolate_between (y j) (y (j + 1)) lower above
      omega
  | high below => exact h1.le_row values (by decide) (.inr rfl)

theorem beBytes16_inj {v w : U16} (h : beBytes16 v = beBytes16 w) : v = w := by
  obtain ⟨high, low⟩ : v.extractLsb' 8 8 = w.extractLsb' 8 8 ∧ v.extractLsb' 0 8 = w.extractLsb' 0 8 := by
    simpa [beBytes16] using h
  rw [← be16_beBytes16 v, high, low, be16_beBytes16]

/-- What TAB_LOOKUP answered with Ok is the value of R132. -/
theorem tableAnswer_of_exec {s u : State} {t tag : Byte} {w : U32} {key : Number} {v : U16} (critical : s.gie = false)
    (ready : Ready s) (reachable : EepromReady s) (table : t.toNat < s.cfg.numSignals)
    (decoded : numberOperand tag w = .ok key) (next : exec (.tabLookup t tag w) s = .next u)
    (result : u.lastResult = some ([0x00, 0x00] ++ beBytes16 v)) : TableAnswer s t.toNat key v := by
  obtain ⟨u', v', next', result', answer, _⟩ := tabLookup s t tag w key critical ready reachable table decoded
  obtain rfl := Host.Outcome.next.inj (next.symm.trans next')
  obtain rfl := beBytes16_inj (List.append_cancel_left (Option.some.inj (result.symm.trans result')))
  exact answer

/-- Settles O39: both keys are compared alike, so both answers are values over the same rows. -/
theorem lookupIsMonotone : Obligations.LookupIsMonotone := by
  intro s u1 u2 t tag1 tag2 w1 w2 key1 key2 v1 v2 critical ready reachable table decoded1 decoded2 alike order grows next1 next2
    result1 result2
  have curve1 := (tableAnswer_of_exec critical ready reachable table decoded1 next1 result1).curveValue
  have curve2 := (tableAnswer_of_exec critical ready reachable table decoded2 next2 result2).curveValue
  simp only [← rowVal_congr alike] at curve2
  exact Int.ofNat_le.1 (curve1.mono curve2 (fun i inTable => (grows i inTable).1)
    (fun i inTable => Int.ofNat_le.2 (grows i inTable).2) order)

end Sys2Proof.Machine
end

section
/-! The checks of the class rules (R135 to R138, R140): each control frame is either malformed, and sets hErr, or served. -/

namespace Sys2Proof.Machine

/-- The handler's error flag set (R31, R140). -/
def State.setHErr (s : State) (b : Bool) : State := { s with hErr := b }

/-- A rule with a length check and an index check. -/
theorem checked_eq {α : Type} {length index : Prop} [Decidable length] [Decidable index] (s : State) (r : Res α) :
    (if length then failClass (α := Unit) (.error .badLength, s)
      else if index then failClass (α := Unit) (.error .badIndex, s) else failClass r) =
      if (decide length || decide index) = true then s.setHErr true else failClass r := by
  by_cases hl : length
  · simp only [hl, decide_true, Bool.true_or, if_true]
    rfl
  · by_cases hi : index
    · simp only [hl, hi, decide_true, Bool.or_true, if_true, if_false]
      rfl
    · simp [hl, hi]

theorem tblRd_eq (fr : CanFrame) (s : State) :
    tblRd fr s = if malformed s.cfg (.tblRd fr) = true then s.setHErr true else
      failClass (Res.bind (readRow envGap (ctrlTable fr.id) (ctrlRow fr.id) s) fun r u =>
        transmit envGap ⟨fr.id, false, serRow r.1 r.2⟩ u) := checked_eq s _

theorem tblWr_eq (fr : CanFrame) (s : State) :
    tblWr fr s = if malformed s.cfg (.tblWr fr) = true then s.setHErr true else
      failClass (writeRow envGap (ctrlTable fr.id) (ctrlRow fr.id) (deserRow fr.data).1 (deserRow fr.data).2 s) :=
  checked_eq s _

theorem sigRd_eq (fr : CanFrame) (s : State) :
    sigRd fr s = if malformed s.cfg (.sigRd fr) = true then s.setHErr true else
      failClass (transmit envGap ⟨fr.id, false, serWire (readMirror (ctrlSlot fr.id) s).1⟩
        (readMirror (ctrlSlot fr.id) s).2) := checked_eq s _

/-- The index check of SIG_WR is the store's (R126). -/
theorem sigWr_eq (fr : CanFrame) (s : State) :
    sigWr fr s = if malformed s.cfg (.sigWr fr) = true then s.setHErr true else
      failClass (sigStore envGap (ctrlSlot fr.id) (deserWire fr.data) s) := by
  refine Eq.trans ?_ (checked_eq s _)
  unfold sigWr
  by_cases slot : ctrlSlot fr.id ≥ s.cfg.numSignals
  · rw [sigStore, if_pos slot]
    congr 1
    exact (if_pos slot).symm
  · congr 1
    exact (if_neg slot).symm

/-- What the two checks let through. -/
theorem checks_passed {length bytes index count : Nat} (h : (decide (length ≠ bytes) || decide (index ≥ count)) = false) :
    length = bytes ∧ index < count := by
  simpa using h

theorem tblRd_wellFormed {p : Params} {fr : CanFrame} (h : malformed p (.tblRd fr) = false) :
    fr.dlc = p.rtrDlcTable ∧ ctrlTable fr.id < p.numSignals :=
  checks_passed h

theorem tblWr_wellFormed {p : Params} {fr : CanFrame} (h : malformed p (.tblWr fr) = false) :
    fr.dlc = 6 ∧ ctrlTable fr.id < p.numSignals :=
  checks_passed h

theorem sigRd_wellFormed {p : Params} {fr : CanFrame} (h : malformed p (.sigRd fr) = false) :
    fr.dlc = p.rtrDlcSignal ∧ ctrlSlot fr.id < p.numSignals :=
  checks_passed h

theorem sigWr_wellFormed {p : Params} {fr : CanFrame} (h : malformed p (.sigWr fr) = false) :
    fr.dlc = 7 ∧ ctrlSlot fr.id < p.numSignals :=
  checks_passed h

theorem exec_tblRd_wellFormed {s : State} {fr : CanFrame} (h : malformed s.cfg (.tblRd fr) = false) :
    exec (.tblRd fr) s = .next (failClass (Res.bind (readRow envGap (ctrlTable fr.id) (ctrlRow fr.id) s) fun r u =>
      transmit envGap ⟨fr.id, false, serRow r.1 r.2⟩ u)) :=
  congrArg Host.Outcome.next ((tblRd_eq fr s).trans (if_neg (Bool.eq_false_iff.1 h)))

theorem exec_tblWr_wellFormed {s : State} {fr : CanFrame} (h : malformed s.cfg (.tblWr fr) = false) :
    exec (.tblWr fr) s = .next (failClass
      (writeRow envGap (ctrlTable fr.id) (ctrlRow fr.id) (deserRow fr.data).1 (deserRow fr.data).2 s)) :=
  congrArg Host.Outcome.next ((tblWr_eq fr s).trans (if_neg (Bool.eq_false_iff.1 h)))

theorem exec_sigRd_wellFormed {s : State} {fr : CanFrame} (h : malformed s.cfg (.sigRd fr) = false) :
    exec (.sigRd fr) s = .next (failClass (transmit envGap ⟨fr.id, false, serWire (readMirror (ctrlSlot fr.id) s).1⟩
      (readMirror (ctrlSlot fr.id) s).2)) :=
  congrArg Host.Outcome.next ((sigRd_eq fr s).trans (if_neg (Bool.eq_false_iff.1 h)))

theorem exec_sigWr_wellFormed {s : State} {fr : CanFrame} (h : malformed s.cfg (.sigWr fr) = false) :
    exec (.sigWr fr) s = .next (failClass (sigStore envGap (ctrlSlot fr.id) (deserWire fr.data) s)) :=
  congrArg Host.Outcome.next ((sigWr_eq fr s).trans (if_neg (Bool.eq_false_iff.1 h)))

/-- The row field has five bits (R73). -/
theorem ctrlRow_lt (id : CanId) : ctrlRow id < tableRows := (id.val.extractLsb' 0 5).isLt

/-- Settles O46: a malformed frame takes the failing branch of its rule, which does nothing but set hErr. -/
theorem malformedControlFrames : Obligations.MalformedControlFrames := by
  intro s i bad
  cases i
  case tblRd fr => exact congrArg Host.Outcome.next ((tblRd_eq fr s).trans (if_pos bad))
  case tblWr fr => exact congrArg Host.Outcome.next ((tblWr_eq fr s).trans (if_pos bad))
  case sigRd fr => exact congrArg Host.Outcome.next ((sigRd_eq fr s).trans (if_pos bad))
  case sigWr fr => exact congrArg Host.Outcome.next ((sigWr_eq fr s).trans (if_pos bad))
  all_goals exact absurd bad Bool.false_ne_true

end Sys2Proof.Machine
end

section
/-! The handler's fetch in a still environment (R133, R134): the hit that the controller reports, and the frame of its buffer. -/

namespace Sys2Proof.Machine

/-- The hit is the low bits of the status byte (R71). -/
theorem hitOf_rxStatusByte (s : State) : hitOf s.rxStatusByte = s.lastHit := by
  have low : ∀ (f1 f0 : Bool) (t : BitVec 2) (h : BitVec 3),
      hitOf (BitVec.ofBool f1 ++ BitVec.ofBool f0 ++ 0#1 ++ t ++ h) = h := by decide
  exact low _ _ _ _

theorem hitBuffer_le (h : BitVec 3) : hitBuffer h ≤ 1 := by
  unfold hitBuffer
  split <;> decide

/-- The handler's first transaction only reads; the line is sampled after it, if it was not before. -/
theorem rxStatus_still {s : State} (still : Still s) :
    ∃ issued ev, rxStatus envGap s = (s.rxStatusByte, (sample s).traced issued ev) := by
  refine ⟨s.cmdIssued || (s.cmdBusy && s.ctx == .foreground), [.xfer .can [s.cfg.dev.opRxStatus] [s.rxStatusByte]], ?_⟩
  rw [rxStatus, xfer, transact_canRxStatus,
    tick_envGap_of_still (s.endXfer .canRxStatus [s.rxStatusByte]) still]
  rfl

/-- receive reads the buffer's frame, and leaves its transactions only. -/
theorem receive_still {s : State} (hd : s.cfg.dev = .standard) (still : Still s) (sampled : Sampled s) {b : Nat}
    (hb : b ≤ 1) : ∃ issued ev, receive envGap b s = (s.bufferFrame b, s.traced issued ev) := by
  have frame : (receive envGap b s).1 = s.bufferFrame b := by
    refine receive_fst hd hb fun a _ _ => ?_
    rw [readBlock, xfer, transact_canRead, tick_envGap_of_still (s.endXfer _ _) still]
    rfl
  obtain ⟨issued, ev, leaves, _⟩ := receive_quiet (quiet_envGap still) sampled b
  exact ⟨issued, ev, Prod.ext frame leaves⟩

/-- What the handler has fetched: the reported hit and the frame of its buffer (R133). -/
def State.fetched (s : State) : Fetched := ⟨s.lastHit, s.bufferFrame (hitBuffer s.lastHit)⟩

theorem handlerFetch_still {s : State} (hd : s.cfg.dev = .standard) (still : Still s) :
    ∃ issued ev, handlerFetch s = (s.fetched, (sample (s.setHErr false)).traced issued ev) := by
  obtain ⟨i, e, status⟩ := rxStatus_still (s := s.setHErr false) still
  obtain ⟨j, f, frame⟩ := receive_still (s := (sample (s.setHErr false)).traced i e) hd still
    (sample_sampled (s.setHErr false)) (hitBuffer_le s.lastHit)
  have hit : hitOf (s.setHErr false).rxStatusByte = s.lastHit := hitOf_rxStatusByte (s.setHErr false)
  refine ⟨j, e ++ f, ?_⟩
  rw [← traced_traced _ i j]
  rw [handlerFetch, show rxStatus envGap { s with hErr := false } = _ from status]
  simp only [hit, frame]
  rfl

/-- In phase Run and the handler's context the step is the handler (R133). -/
theorem step_handler {s : State} (accepted : s.cfg.valid = true) (run : s.phase = .run) (handler : s.ctx = .handler) :
    step s = handlerStep s := by
  rw [step, if_pos accepted, run, handler]

theorem bufferFrame_ok (s : State) (b : Nat) : (s.bufferFrame b).ok = true := by
  simp only [CanFrame.ok, State.bufferFrame, List.length_map, List.length_range]
  exact decide_eq_true (Nat.min_le_right _ _)

/-- Settles O53: the fetch only reads, and its frame has at most eight data bytes. -/
theorem stepRunsTheFrame : Obligations.StepRunsTheFrame := by
  intro s accepted hd run handler still
  obtain ⟨issued, ev, fetch⟩ := handlerFetch_still hd still
  refine ⟨(sample (s.setHErr false)).traced issued ev, ?_, rfl, ⟨fun _ => rfl, rfl, rfl⟩, ⟨fun _ => rfl, rfl, rfl, rfl, rfl⟩,
    ⟨rfl, rfl, rfl, rfl, rfl, rfl⟩, rfl, rfl, decode_encodeClass _ (bufferFrame_ok s _)⟩
  rw [step_handler accepted run handler, handlerStep, fetch]
  rfl

end Sys2Proof.Machine
end

section
/-! The class rules as runs of a few kinds of step (R135 to R139): transactions, the mirror's reads and writes, hErr, Actuate. What
each kind leaves alone, every class rule does, whatever the frame. -/

namespace Sys2Proof.Machine

/-! ### The steps of a class rule -/

/-- The transactions of the class rules: reads, the EEPROM's, and the writes of transmit to TXB0 (R114). -/
def ClassXfer (m : RegMap) : Xfer → Prop
  | .canRead _ _ | .eeWren | .eeRdsr | .eeRead _ _ | .eeWrite _ _ => True
  | .canWrite a _ => a = m.txb0sidh
  | .canBitmod a _ _ => a = m.txb0ctrl
  | .canReset | .canRxStatus => False

/-- From s to t by steps of the class rules. -/
inductive ClassRun : State → State → Prop where
  | refl (s : State) : ClassRun s s
  | trans {s t u : State} : ClassRun s t → ClassRun t u → ClassRun s u
  | xfer {s : State} {x : Xfer} (h : ClassXfer s.cfg.dev.map x) : ClassRun s (xfer envGap x s).2
  | readMirror (k : Nat) (s : State) : ClassRun s (readMirror k s).2
  | setMirror (k : Nat) (f : SigFmt) (s : State) : ClassRun s (tick envGap (s.setMirror k f))
  | setHErr (b : Bool) (s : State) : ClassRun s (s.setHErr b)
  | actuate (ch : Nat) (v : U16) (s : State) : ClassRun s (actuate envGap ch v s)

theorem ClassRun.bind {α β : Type} {s : State} {r : Res α} {k : α → State → Res β} (first : ClassRun s r.2)
    (next : ∀ a u, ClassRun u (k a u).2) : ClassRun s (r.bind k).2 := by
  rcases r with ⟨_ | a, u⟩
  · exact first
  · exact first.trans (next a u)

theorem ClassRun.failClass {α : Type} {s : State} {r : Res α} (h : ClassRun s r.2) : ClassRun s (Machine.failClass r) := by
  rcases r with ⟨_ | a, u⟩
  · exact h.trans (.setHErr true u)
  · exact h

/-! ### The EEPROM's operations (R96 to R101) -/

theorem rdsr_classRun (s : State) : ClassRun s (xfer envGap .eeRdsr s).2 := .xfer trivial

theorem waitIdle_classRun (s : State) : ClassRun s (waitIdle envGap s).2 := by
  have polls : ∀ n s, ClassRun s (waitIdleLoop envGap n s).2 := by
    intro n
    induction n with
    | zero => exact .refl
    | succ n ih =>
      intro s
      simp only [waitIdleLoop, readStatus_eq, delay]
      split
      · exact (rdsr_classRun s).trans (ih _)
      · exact rdsr_classRun s
  exact polls _ s

theorem writeEnable_classRun (s : State) : ClassRun s (writeEnable envGap s).2 := by
  have both : ClassRun s (readStatus envGap (xferOut envGap .eeWren s)).2 :=
    (show ClassRun s (xfer envGap .eeWren s).2 from .xfer trivial).trans (rdsr_classRun _)
  simp only [writeEnable]
  split <;> exact both

theorem writeChunks_classRun (cs : List (Nat × Nat)) (d : List Byte) (s : State) :
    ClassRun s (writeChunks envGap cs d s).2 := by
  induction cs generalizing d s with
  | nil => exact .refl s
  | cons c cs ih =>
    have chunk : ClassRun s (writeChunk envGap c.1 (d.take c.2) s).2 :=
      (waitIdle_classRun s).bind fun _ u => (writeEnable_classRun u).bind fun _ v => .xfer trivial
    exact chunk.bind fun _ u => ih _ u

theorem eeWriteOp_classRun (addr : Nat) (d : List Byte) (s : State) : ClassRun s (eeWriteOp envGap addr d s).2 := by
  unfold eeWriteOp
  split
  · exact writeChunks_classRun _ d s
  · exact .refl s

theorem eeReadOp_classRun (addr n : Nat) (s : State) : ClassRun s (eeReadOp envGap addr n s).2 := by
  unfold eeReadOp
  split
  · split
    · exact .refl s
    · exact (waitIdle_classRun s).bind fun _ u => .xfer trivial
  · exact .refl s

/-! ### The operations above them (R114, R126, R129, R130, R132) -/

theorem txPoll_classRun (n : Nat) (s : State) : ClassRun s (txPoll envGap n s).2 := by
  induction n generalizing s with
  | zero => exact .refl s
  | succ n ih =>
    have poll (a : Nat) : ClassRun s (readReg envGap a s).2 := .xfer trivial
    have cfg (a : Nat) : (readReg envGap a s).2.cfg = s.cfg := (xfer_keeps good_envGap _ s).cfg
    simp only [txPoll, delay]
    split
    · exact (poll _).trans (.xfer (by rw [cfg]; exact rfl))
    · split
      · exact (poll _).trans (ih _)
      · exact poll _

theorem transmit_classRun (f : CanFrame) (s : State) : ClassRun s (transmit envGap f s).2 := by
  have load : ClassRun s (writeBlock envGap s.cfg.dev.map.txb0sidh (txBytes s.cfg.dev f) s) := .xfer rfl
  have cfg : (writeBlock envGap s.cfg.dev.map.txb0sidh (txBytes s.cfg.dev f) s).cfg = s.cfg :=
    (xfer_keeps good_envGap _ s).cfg
  exact load.trans ((ClassRun.xfer (by rw [cfg]; exact rfl)).trans (txPoll_classRun _ _))

theorem writeRow_classRun (t i : Nat) (key : U32) (value : U16) (s : State) :
    ClassRun s (writeRow envGap t i key value s).2 := by
  unfold writeRow
  split
  · exact .refl s
  · split
    · exact .refl s
    · exact eeWriteOp_classRun _ _ s

theorem readRow_classRun (t i : Nat) (s : State) : ClassRun s (readRow envGap t i s).2 := by
  unfold readRow
  split
  · exact .refl s
  · split
    · exact .refl s
    · exact (eeReadOp_classRun _ _ s).bind fun _ u => .refl u

theorem lookup_classRun (t : Nat) (key : Number) (s : State) : ClassRun s (lookup envGap t key s).2 := by
  have scan : ∀ n i prev s, ClassRun s (lookupLoop envGap t key n i prev s).2 := by
    intro n
    induction n with
    | zero => exact fun _ _ s => .refl s
    | succ n ih =>
      refine fun i prev s => (readRow_classRun t i s).bind fun r u => ?_
      split
      · exact .refl u
      · exact ih _ _ u
  unfold lookup
  split
  · exact .refl s
  · exact scan _ _ _ s

theorem sigStore_classRun (k : Nat) (f : SigFmt) (s : State) : ClassRun s (sigStore envGap k f s).2 := by
  unfold sigStore
  split
  · exact .refl s
  · exact (eeWriteOp_classRun _ _ s).bind fun _ u => .setMirror k f u

/-! ### The five rules -/

theorem signalSlot_classRun (fr : CanFrame) (k : Nat) (s : State) : ClassRun s (signalSlot fr k s) := by
  refine (ClassRun.readMirror k s).trans ?_
  unfold signalSlot
  simp only
  generalize readMirror k s = r
  split
  · split
    · exact .setHErr true _
    · rename_i key _
      have scan := lookup_classRun k key r.2
      split <;> rename_i looked <;> rw [looked] at scan
      · exact scan.trans (.setHErr true _)
      · exact scan.trans (.actuate k _ _)
  · exact .refl _

theorem runClass_classRun (c : FrameClass) (fr : CanFrame) (s : State) : ClassRun s (runClass c fr s) := by
  cases c with
  | tblRd =>
    rw [runClass, tblRd_eq]
    split
    · exact .setHErr true s
    · exact ((readRow_classRun _ _ s).bind fun _ u => transmit_classRun _ u).failClass
  | tblWr =>
    rw [runClass, tblWr_eq]
    split
    · exact .setHErr true s
    · exact (writeRow_classRun _ _ _ _ s).failClass
  | sigRd =>
    rw [runClass, sigRd_eq]
    split
    · exact .setHErr true s
    · exact ((ClassRun.readMirror _ s).trans (transmit_classRun _ _)).failClass
  | sigWr =>
    rw [runClass, sigWr_eq]
    split
    · exact .setHErr true s
    · exact (sigStore_classRun _ _ s).failClass
  | sigFrame =>
    rw [runClass, sigFrame]
    generalize List.range s.cfg.numSignals = slots
    induction slots generalizing s with
    | nil => exact .refl s
    | cons k slots ih => exact (signalSlot_classRun fr k s).trans (ih _)

end Sys2Proof.Machine
end

section
/-! The end of the handler (R133, R141, R159), in a still environment and whatever the frame: no class rule touches the receive
flags, so the clear finds them as they were when the handler was entered. -/

namespace Sys2Proof.Machine

/-! ### What the steps of a class rule leave alone -/

/-- No agent moves, and the interrupt flags are as they were. -/
structure SparesFlags (s t : State) : Prop where
  cfg : t.cfg = s.cfg
  still : Still t
  flags : t.reg 0x2C = s.reg 0x2C

/-- The transactions of the class rules with the controller write no register below TXB0's. -/
theorem classXfer_writesIn {x : Xfer} (can : x.dev = .can) (h : ClassXfer DevParams.standard.map x) :
    WritesIn (0x30 ≤ ·) x := by
  cases x with
  | canRead a n => trivial
  | canWrite a d => exact fun r lo _ => Nat.le_trans (by rw [show a = 0x31 from h]; decide) lo
  | canBitmod a m d => exact (show a = 0x30 from h).ge
  | canReset => exact h.elim
  | canRxStatus => exact h.elim
  | _ => exact nomatch can

/-- The EEPROM acts on neither the controller nor the environment (R95). -/
theorem device_ee_apart {x : Xfer} (ee : x.dev = .ee) (s : State) :
    (s.device x).2.ctl = s.ctl ∧ (s.device x).2.sched = s.sched ∧ (s.device x).2.modeFair = s.modeFair := by
  cases x with
  | eeWren =>
    rw [State.device, State.eeWrenCmd]
    split <;> exact ⟨rfl, rfl, rfl⟩
  | eeRdsr => exact ⟨rfl, rfl, rfl⟩
  | eeRead a n =>
    rw [State.device, State.eeReadCmd]
    split <;> exact ⟨rfl, rfl, rfl⟩
  | eeWrite a d =>
    rw [State.device, State.eeWriteCmd]
    split
    · exact ⟨rfl, rfl, rfl⟩
    · split <;> exact ⟨rfl, rfl, rfl⟩
  | _ => exact nomatch ee

theorem reg_of_ctl {s t : State} (h : t.ctl = s.ctl) (a : Nat) : t.reg a = s.reg a := by
  rw [State.reg, State.reg, h]

theorem transact_sparesFlags {s : State} {x : Xfer} (hd : s.cfg.dev = .standard) (still : Still s)
    (h : ClassXfer s.cfg.dev.map x) : SparesFlags s (s.transact x).2 := by
  cases side : x.dev with
  | can =>
    rw [hd] at h
    have writes := transact_writes hd ⟨by decide, by decide⟩ (classXfer_writesIn side h)
    exact ⟨writes.cfg, writes.still still, writes.regs 0x2C (by decide)⟩
  | ee =>
    obtain ⟨ctl, sched, fair⟩ := device_ee_apart side s
    rw [transact_eq]
    exact ⟨device_cfg s x, ⟨sched.trans still.1, fair.trans still.2⟩,
      reg_of_ctl ctl 0x2C⟩

/-- A step of the block and a gap in which no agent moves. -/
theorem SparesFlags.tick {s t : State} (h : SparesFlags s t) : SparesFlags s (Machine.tick envGap t) := by
  obtain ⟨cfg, still, flags⟩ := h
  rw [tick_envGap_of_still t still]
  exact ⟨cfg, still, flags⟩

theorem ClassRun.sparesFlags {s t : State} (run : ClassRun s t) (hd : s.cfg.dev = .standard) (still : Still s) :
    SparesFlags s t := by
  induction run with
  | refl s => exact ⟨rfl, still, rfl⟩
  | trans _ _ ih1 ih2 =>
    have first := ih1 hd still
    have second := ih2 (by rw [first.cfg, hd]) first.still
    exact ⟨second.cfg.trans first.cfg, second.still, second.flags.trans first.flags⟩
  | xfer h => exact (transact_sparesFlags hd still h).tick
  | readMirror k s =>
    rw [Machine.readMirror]
    split <;> exact ⟨rfl, still, rfl⟩
  | setMirror k f s => exact SparesFlags.tick ⟨rfl, still, rfl⟩
  | setHErr b s => exact ⟨rfl, still, rfl⟩
  | actuate ch v s => exact SparesFlags.tick ⟨rfl, still, rfl⟩

/-! ### The clear (R141) -/

/-- The served flag and the latch cleared, before the edge detector samples the line. -/
def State.served (s : State) (buf : Nat) : State :=
  { (s.transact (.canBitmod s.cfg.dev.map.canintf (oneBit buf) 0)).2 with latch := false }

theorem served_blockPart (s : State) (buf : Nat) : (s.served buf).blockPart = s.blockPart.issued :=
  transact_blockPart s _ nofun (.inr (.inl rfl))

/-- BIT MODIFY writes one register. -/
theorem served_sched_intPrev (s : State) (buf : Nat) :
    (s.served buf).sched = s.sched ∧ (s.served buf).intPrev = s.intPrev := by
  obtain ⟨c, only_ctl⟩ := ctlWrite_ctl_only s s.cfg.dev.map.canintf
    ((s.reg s.cfg.dev.map.canintf &&& ~~~oneBit buf) ||| (0 &&& oneBit buf))
  rw [State.served, transact_canBitmod, State.ctlBitmod, only_ctl]
  exact ⟨rfl, rfl⟩

theorem served_still {s : State} (still : Still s) (buf : Nat) : Still (s.served buf) :=
  ⟨(served_sched_intPrev s buf).1.trans still.1, (congrArg BlockPart.modeFair (served_blockPart s buf)).trans still.2⟩

theorem served_standard {s : State} (hd : s.cfg.dev = .standard) (buf : Nat) : (s.served buf).cfg.dev = .standard :=
  (congrArg (·.cfg.dev) (served_blockPart s buf)).trans hd

theorem served_reg {s : State} (hd : s.cfg.dev = .standard) (buf a : Nat) :
    (s.served buf).reg a = if a = 0x2C then (s.reg 0x2C &&& ~~~oneBit buf) &&& (s.reg 0x2C ||| 0xFC) else s.reg a := by
  have unlocked : s.locked 0x2C = false := by
    rw [State.locked, hd]
    rfl
  show (s.transact (.canBitmod s.cfg.dev.map.canintf (oneBit buf) 0)).2.reg a = _
  rw [transact_canBitmod, State.endXfer_reg, hd, show DevParams.standard.map.canintf = 0x2C from rfl, reg_ctlBitmod,
    State.writable, hd]
  by_cases canintf : a = 0x2C
  · subst canintf
    rw [if_pos ⟨rfl, by decide, unlocked⟩, if_pos rfl,
      show 0 &&& oneBit buf = 0#8 from BitVec.zero_and, BitVec.or_zero]
    rfl
  · rw [if_neg fun h => canintf h.1.symm, if_neg canintf]

theorem bitOf_oneBit {buf i : Nat} (hb : buf ≤ 1) (hi : i < 8) : bitOf (oneBit buf) i = decide (i = buf) := by
  have bits : ∀ b ≤ 1, ∀ i < 8, bitOf (oneBit b) i = decide (i = b) := by decide
  exact bits buf hb i hi

/-- The clear changes the served flag only. -/
theorem served_flags {s : State} (hd : s.cfg.dev = .standard) {buf : Nat} (hb : buf ≤ 1) {i : Nat} (hi : i < 8) :
    bitOf ((s.served buf).reg 0x2C) i = (bitOf (s.reg 0x2C) i && !decide (i = buf)) := by
  have kept : bitOf (s.reg 0x2C &&& ~~~oneBit buf) i = (bitOf (s.reg 0x2C) i && !decide (i = buf)) := by
    rw [← bitOf_oneBit hb hi]
    simp [bitOf, hi]
  rw [served_reg hd, if_pos rfl, bitOf_and_rxFlags _ _ hi, kept]
  cases bitOf (s.reg 0x2C) i <;> simp

/-- No flag appears, so the line is not asserted where it was not. -/
theorem served_intLine {s : State} (hd : s.cfg.dev = .standard) (buf : Nat) (low : s.intLine = false) :
    (s.served buf).intLine = false := by
  rw [intLine_standard hd, bne_eq_false_iff_eq] at low
  rw [intLine_standard (served_standard hd buf), bne_eq_false_iff_eq, served_reg hd, served_reg hd, if_pos rfl,
    if_neg (by decide)]
  calc (s.reg 0x2C &&& ~~~oneBit buf) &&& (s.reg 0x2C ||| 0xFC) &&& s.reg 0x2B
      = (s.reg 0x2C &&& s.reg 0x2B) &&& (~~~oneBit buf &&& (s.reg 0x2C ||| 0xFC)) := by ac_rfl
    _ = 0 := by rw [low]; exact BitVec.zero_and

/-- With the line sampled before it, the clear makes no edge. -/
theorem sample_served_latch {s : State} (hd : s.cfg.dev = .standard) (sampled : Sampled s) (buf : Nat) :
    (sample (s.served buf)).latch = false := by
  have prev : (s.served buf).intPrev = s.intLine := (served_sched_intPrev s buf).2.trans sampled
  show (false || ((s.served buf).intLine && !(s.served buf).intPrev)) = false
  rw [prev]
  cases low : s.intLine
  · rw [served_intLine hd buf low]
    rfl
  · rw [Bool.not_true, Bool.and_false, Bool.or_false]

/-! ### The handler's end -/

/-- The clear, IrqDone and the return, with nothing between them. -/
theorem handlerTail_still {s : State} (still : Still s) (buf : Nat) :
    handlerTail buf s =
      ((sample (s.served buf)).emit (.irqDone (sample (s.served buf)).hErr)).setCtx .foreground := by
  have clear : clearStep buf s = sample (s.served buf) := tick_envGap_of_still (s.served buf) (served_still still buf)
  have sampled := sample_sampled (s.served buf)
  have still' := sample_still (served_still still buf)
  rw [handlerTail, clear]
  generalize sample (s.served buf) = u at *
  have done : tick envGap (u.emit (.irqDone u.hErr)) = u.emit (.irqDone u.hErr) :=
    (tick_envGap_of_still (u.emit _) still').trans (sample_of_sampled (s := u.emit _) sampled)
  simp only [done]
  exact leaveHandler_eq (s := u.emit _) sampled

/-- What the end of the handler leaves of the state v that the class rule left. -/
structure HandlerEnds (v t : State) (buf : Nat) : Prop where
  block : t.blockPart = { v.blockPart.issued with ctx := .foreground }
  still : Still t
  latch : t.latch = false
  flags : ∀ i, i < 8 → bitOf (t.reg 0x2C) i = (bitOf (v.reg 0x2C) i && !decide (i = buf))
  last : t.events.getLast? = some (.irqDone t.hErr)

theorem handlerTail_ends {v : State} (hd : v.cfg.dev = .standard) (still : Still v) (sampled : Sampled v) {buf : Nat}
    (hb : buf ≤ 1) : HandlerEnds v (handlerTail buf v) buf := by
  have block := served_blockPart v buf
  have still' := served_still still buf
  have latch := sample_served_latch hd sampled buf
  have flags := fun i (hi : i < 8) => served_flags hd hb hi
  rw [handlerTail_still still]
  generalize v.served buf = u at *
  exact ⟨congrArg (fun p : BlockPart => { p with ctx := .foreground }) block, still', latch, flags, List.getLast?_concat⟩

/-- Settles O49: the class rule leaves the flags alone, and the tail clears one of them. -/
theorem handlerClearsAndReturns : Obligations.HandlerClearsAndReturns := by
  intro s accepted hd run handler ready still
  obtain ⟨sampled, _⟩ := ready
  obtain ⟨issued, ev, fetch⟩ := handlerFetch_still hd still
  have steps : step s = .next (envGap (handlerTail (hitBuffer s.lastHit)
      (runClass (classify s.lastHit s.fetched.frame.rtr) s.fetched.frame (handlerFetch s).2))) := by
    rw [step_handler accepted run handler, handlerStep]
    simp only [Fetched.instr, exec_frameInstr, andThen, fetch]
    rfl
  have fetches := handlerFetch_keeps s
  have keeps := fetches.trans (runClass_keeps (classify s.lastHit s.fetched.frame.rtr) s.fetched.frame _)
  have spares := (runClass_classRun (classify s.lastHit s.fetched.frame.rtr) s.fetched.frame (handlerFetch s).2).sparesFlags
    (by rw [fetches.cfg, hd]) (by rw [fetch]; exact still)
  have flags : (handlerFetch s).2.reg 0x2C = s.reg 0x2C := by
    rw [fetch]
    rfl
  generalize runClass _ _ (handlerFetch s).2 = v at *
  have ends := handlerTail_ends (by rw [keeps.cfg, hd]) spares.still (keeps.sampled sampled) (hitBuffer_le s.lastHit)
  rw [envGap_of_still _ ends.still] at steps
  refine ⟨_, steps, congrArg BlockPart.ctx ends.block, ends.latch, (congrArg BlockPart.gie ends.block).trans keeps.gie,
    (congrArg BlockPart.phase ends.block).trans (keeps.phase.trans run), fun i hi => ?_, ends.last,
    (congrArg BlockPart.cmdBusy ends.block).trans keeps.cmdBusy, (congrArg BlockPart.script ends.block).trans keeps.script⟩
  rw [ends.flags i hi, spares.flags, flags]

end Sys2Proof.Machine
end

section
/-! TBL_WR and SIG_WR (R136, R138): the storage writes of ROW_WRITE and SIG_STORE, in the handler's gaps. The settled statements
have the model's names of the rules, so here and below they stand under `FrameRules`. -/

namespace Sys2Proof.Machine

theorem sameLatch_of_edgePart {s t : State} (h : t.edgePart = s.edgePart) : SameLatch s t :=
  ⟨congrArg Prod.fst h, congrArg Prod.snd h⟩

/-- What a prompt write in the handler leaves as it was. -/
theorem Kept.frame {s t : State} {rest : List (List EnvMove)} (kept : Kept s t rest) :
    SameLatch s t ∧ SameController s t ∧ t.busIn = s.busIn ∧ t.busOut = s.busOut :=
  ⟨sameLatch_of_edgePart kept.edge, sameController_of_ctlPart kept.ctl, kept.busIn, kept.busOut⟩

/-- Settles O42: the payload is the row's bytes, which one storage write stores. -/
theorem FrameRules.tblWr : Obligations.TblWr := by
  intro s fr ready reachable wf writable prompt formed
  obtain ⟨sampled, can, ee⟩ := ready
  obtain ⟨idle, bits, fits, accepted⟩ := reachable
  obtain ⟨length, table⟩ := tblWr_wellFormed formed
  obtain ⟨rest, moves⟩ := prompt_row prompt (s.cfg.rowAddr (ctrlTable fr.id) (ctrlRow fr.id))
  obtain ⟨ok, kept, marked, stored⟩ := eeWriteOp_prompt (calm_envGap s) sampled bits fits wf (valid_bailout accepted) idle
    writable _ (serRow (deserRow fr.data).1 (deserRow fr.data).2) (valid_row accepted table (ctrlRow_lt fr.id)) moves
  have writes := writeRow_eq envGap table (ctrlRow_lt fr.id) (deserRow fr.data).1 (deserRow fr.data).2
  rw [serRow_deserRow fr.data length] at ok kept marked stored writes
  refine ⟨_, exec_tblWr_wellFormed formed, ?_⟩
  rw [writes]
  generalize eeWriteOp envGap _ fr.data s = out at *
  obtain ⟨r, u⟩ := out
  obtain rfl : r = .ok () := ok
  obtain ⟨latch, controller, busIn, busOut⟩ := kept.frame
  exact ⟨stored, kept.wip, marked.sameBlock can ee, latch, controller, marked.out, busIn, busOut⟩

/-- A mirror write among transactions changes its slot and nothing else of the block. -/
theorem wroteSlot_of_setMirror {s t : State} (ready : Ready s) {k : Nat} (slot : k < 16) {f : SigFmt}
    (marked : Marked (s.setMirror k f) t) : WroteSlot s t k f := by
  obtain ⟨_, can, ee⟩ := ready
  have mirror : ∀ j, t.mirrorAt j = if k = j ∧ j < 16 then some f else s.mirrorAt j := fun j => by
    rw [← mirrorAt_setMirror, State.mirrorAt, marked.mirror]
    rfl
  obtain ⟨cfg, phase, boot, _, rest⟩ := marked.sameBlock (s := s.setMirror k f) can ee
  exact ⟨(mirror k).trans (if_pos ⟨rfl, slot⟩), fun j other => (mirror j).trans (if_neg fun h => other h.1.symm),
    cfg, phase, boot, rfl, rest⟩

/-- Settles O44: the record's one burst is stored promptly, so the mirror is written. -/
theorem FrameRules.sigWr : Obligations.SigWr := by
  intro s fr ready reachable wf writable prompt formed
  obtain ⟨sampled, _⟩ := id ready
  obtain ⟨idle, bits, fits, accepted⟩ := reachable
  obtain ⟨_, slot⟩ := sigWr_wellFormed formed
  obtain ⟨rest, moves⟩ := prompt
  obtain ⟨ok, kept⟩ := sigStore_prompt (calm_envGap s) sampled bits fits accepted wf idle writable slot (deserWire fr.data)
    (rest := List.replicate 4 [EnvMove.cycleEnd] ++ rest) moves
  obtain ⟨u, marked, _, ⟨stores, stored, _⟩ | ⟨e, fails, _⟩⟩ :=
    sigStore_calm (calm_envGap s) bits fits wf slot (deserWire fr.data)
  · have settled := settled_tick_setMirror u (ctrlSlot fr.id) (deserWire fr.data)
    have wrote := wroteSlot_of_setMirror ready (Nat.lt_of_lt_of_le slot (valid_slots accepted))
      (marked.setMirror (ctrlSlot fr.id) (deserWire fr.data)).tick
    have out := (marked.setMirror (ctrlSlot fr.id) (deserWire fr.data)).tick.out
    refine ⟨_, exec_sigWr_wellFormed formed, ?_⟩
    rw [stores] at kept ⊢
    obtain ⟨latch, controller, busIn, busOut⟩ := kept.frame
    refine ⟨wrote.slot, wrote.others, ?_, kept.wip, wrote.block, latch, controller, out, busIn, busOut⟩
    rw [settled_eq, kept.wip] at settled
    exact fun x => (congrArg (Memory.read · x) settled).trans (stored x)
  · rw [fails] at ok
    exact nomatch ok

end Sys2Proof.Machine
end

section
/-! transmit in the handler (R114, R135, R137). The interrupt enable is read by handler entry only (R158), so in the handler's
gaps transmit does the same whatever it is, and with it 0 it does what CAN_TRANSMIT does inside a critical section. -/

namespace Sys2Proof.Machine

/-! ### The interrupt enable and the devices -/

section
variable (s : State) (b : Bool)

theorem setRegs_setGie (d : List Byte) (a : Nat) : (s.setGie b).setRegs a d = (s.setRegs a d).setGie b := by
  induction d generalizing s a with
  | nil => rfl
  | cons v d ih => exact ih (s.setReg a v) (a + 1)

theorem ctlWrite_setGie (a : Nat) (v : Byte) : (s.setGie b).ctlWrite a v = (s.ctlWrite a v).setGie b :=
  (apply_ite (State.setGie · b) _ s (s.setReg a (s.writable a v))).symm

theorem ctlWrites_setGie (d : List Byte) (a : Nat) : (s.setGie b).ctlWrites a d = (s.ctlWrites a d).setGie b := by
  induction d generalizing s a with
  | nil => rfl
  | cons v d ih => rw [State.ctlWrites, ctlWrite_setGie, ih, State.ctlWrites]

/-- The controller acts the same on the reads and writes of its registers. -/
theorem transact_setGie {P : Nat → Prop} {x : Xfer} (h : WritesIn P x) :
    (s.setGie b).transact x = ((s.transact x).1, (s.transact x).2.setGie b) := by
  cases x with
  | canRead a n => rfl
  | canWrite a d => rw [transact_canWrite, transact_canWrite, ctlWrites_setGie]; rfl
  | canBitmod a m d => rw [transact_canBitmod, transact_canBitmod, State.ctlBitmod, ctlWrite_setGie]; rfl
  | _ => exact h.elim

/-! ### The interrupt enable and the other agents -/

theorem storeFrame_setGie (f : BusFrame) (h : Nat) : (s.setGie b).storeFrame f h = (s.storeFrame f h).setGie b := by
  cases full : s.rxFlag (bufferOf h) with
  | true => rw [storeFrame_full full, storeFrame_full (s := s.setGie b) full]
  | false =>
    have empty : (s.setGie b).rxFlag (bufferOf h) = false := full
    unfold State.storeFrame
    simp only [full, empty, Bool.false_eq_true, if_false, setRegs_setGie]
    rfl

theorem offerFrame_setGie (f : BusFrame) : (s.setGie b).offerFrame f = (s.offerFrame f).setGie b := by
  have hit : (s.setGie b).acceptHit f.id = s.acceptHit f.id := rfl
  unfold State.offerFrame
  rw [hit]
  cases s.acceptHit f.id with
  | none => rfl
  | some h => exact storeFrame_setGie s b f h

theorem receiveStep_setGie : (s.setGie b).receiveStep = s.receiveStep.setGie b := by
  have bus : (s.setGie b).busIn = s.busIn := rfl
  unfold State.receiveStep
  rw [bus]
  cases s.busIn with
  | nil => rfl
  | cons f fs =>
    exact (congrArg (ite _ · _) (offerFrame_setGie { s with busIn := fs } b f)).trans
      (apply_ite (State.setGie · b) _ _ s).symm

theorem discardStep_setGie : (s.setGie b).discardStep = s.discardStep.setGie b := by
  have bus : (s.setGie b).busIn = s.busIn := rfl
  unfold State.discardStep
  rw [bus]
  cases s.busIn with
  | nil => rfl
  | cons f fs => exact (apply_ite (State.setGie · b) _ { s with busIn := fs } s).symm

theorem txOk_setGie : (s.setGie b).txOk = s.txOk.setGie b := by
  have offer : (s.setGie b).offerFrame (s.setGie b).txFrame = (s.offerFrame s.txFrame).setGie b :=
    offerFrame_setGie s b s.txFrame
  unfold State.txOk
  rw [offer]
  simp only [apply_ite (State.setGie · b)]
  rfl

theorem canMove_setGie (m : EnvMove) : (s.setGie b).canMove m = s.canMove m := by cases m <;> rfl

/-- A move that is one update where it is enabled. -/
theorem move_setGie_of_enabled {m : EnvMove} {update : State → State}
    (moves : ∀ u : State, u.move m = if u.canMove m = true then update u else u)
    (commutes : update (s.setGie b) = (update s).setGie b) : (s.setGie b).move m = (s.move m).setGie b := by
  rw [moves, moves, canMove_setGie, commutes]
  exact (apply_ite (State.setGie · b) _ (update s) s).symm

theorem move_setGie (m : EnvMove) : (s.setGie b).move m = (s.move m).setGie b := by
  cases m with
  | modeChange => exact move_setGie_of_enabled s b (fun _ => rfl) rfl
  | receive => exact receiveStep_setGie s b
  | discard => exact discardStep_setGie s b
  | txOk => exact txOk_setGie s b
  | txErr => exact move_setGie_of_enabled s b (fun _ => rfl) rfl
  | cycleEnd => exact move_setGie_of_enabled s b (fun _ => rfl) rfl
  | busAppend f => rfl
  | busConsume => rfl

theorem envMove_setGie (m : EnvMove) : envMove (s.setGie b) m = (envMove s m).setGie b := by
  unfold envMove
  rw [canMove_setGie, move_setGie]
  exact (apply_ite (State.setGie · b) _ (sample (s.move m)) s).symm

theorem envGap_setGie : envGap (s.setGie b) = (envGap s).setGie b := by
  have moves : ∀ (ms : List EnvMove) (u : State), ms.foldl envMove (u.setGie b) = (ms.foldl envMove u).setGie b := by
    intro ms
    induction ms with
    | nil => exact fun _ => rfl
    | cons m ms ih => exact fun u => by rw [List.foldl_cons, envMove_setGie, ih, List.foldl_cons]
  have sched : (s.setGie b).sched = s.sched := rfl
  unfold envGap
  rw [sched]
  cases s.sched with
  | nil =>
    exact (congrArg (ite _ · _) (envMove_setGie s b .modeChange)).trans (apply_ite (State.setGie · b) _ _ s).symm
  | cons ms rest => exact moves ms (s.setSched rest)

end

/-! ### The interrupt enable and transmit -/

/-- A transaction of the controller with a foreground gap inside a critical section, and with the handler's gap. -/
theorem xfer_critical {P : Nat → Prop} {x : Xfer} (h : WritesIn P x) (s : State) :
    xfer fgGap x (s.setGie false) = ((xfer envGap x s).1, (xfer envGap x s).2.setGie false) := by
  rw [xfer, transact_setGie s false h]
  refine congrArg (Prod.mk _) ?_
  exact (tick_fgGap_of_gie_false _ rfl).trans (envGap_setGie (sample (s.transact x).2) false)

theorem txPoll_critical (n : Nat) (s : State) :
    txPoll fgGap n (s.setGie false) = ((txPoll envGap n s).1, (txPoll envGap n s).2.setGie false) := by
  induction n generalizing s with
  | zero => rfl
  | succ n ih =>
    have same : (s.setGie false).cfg = s.cfg := rfl
    have poll : readReg fgGap s.cfg.dev.map.txb0ctrl (s.setGie false) =
        ((readReg envGap s.cfg.dev.map.txb0ctrl s).1, (readReg envGap s.cfg.dev.map.txb0ctrl s).2.setGie false) := by
      rw [readReg, xfer_critical (P := fun _ => False) (x := .canRead _ 1) trivial]
      rfl
    simp only [txPoll, delay, same, poll]
    generalize readReg envGap s.cfg.dev.map.txb0ctrl s = r
    split
    · exact congrArg (Prod.mk _) (congrArg Prod.snd (xfer_critical (P := fun _ => True) (x := .canBitmod _ _ _) trivial r.2))
    · split
      · exact ih r.2
      · rfl

/-- transmit in the handler, and as CAN_TRANSMIT runs it inside a critical section. -/
theorem transmit_critical (f : CanFrame) (s : State) :
    transmit fgGap f (s.setGie false) = ((transmit envGap f s).1, (transmit envGap f s).2.setGie false) := by
  have same : (s.setGie false).cfg = s.cfg := rfl
  simp only [transmit, same, writeBlock, bitModify, xferOut]
  rw [xfer_critical (P := fun _ => True) (x := .canWrite _ _) fun _ _ _ => trivial]
  simp only
  rw [xfer_critical (P := fun _ => True) (x := .canBitmod _ _ _) trivial]
  exact txPoll_critical _ _

/-! ### What transmit leaves in the handler -/

/-- The outcome of an operation that sends a frame. With no move to come the controller never sends it, and the polls run out
(R114); else it is sent. Beside the transmit registers and the bus nothing has changed. -/
structure Sends (s : State) (out : Res Unit) (frame : BusFrame) : Prop where
  block : SameBlock s out.2
  latch : SameLatch s out.2
  eeprom : SameEeprom s out.2
  regs : ∀ a, a < 0x30 ∨ 0x3E ≤ a → out.2.reg a = s.reg a
  lastHit : out.2.lastHit = s.lastHit
  lastType : out.2.lastType = s.lastType
  outputs : out.2.out = s.out
  busIn : out.2.busIn = s.busIn
  sent : s.sched ≠ [] → out.1 = .ok () ∧ out.2.txreq = false ∧ out.2.busOut = s.busOut ++ [frame]
  pending : s.sched = [] → out.1 = .error .retriesExhausted ∧ out.2.txreq = true ∧ out.2.busOut = s.busOut

/-- From what CAN_TRANSMIT leaves inside a critical section. -/
theorem sends_of_transmitted {s u : State} {r : Except Err Unit} {f : CanFrame} {b : List BusFrame} {frame : BusFrame}
    (h : Transmitted (s.setGie false) (u.setGie false) f b) (ready : Ready s) (gie : u.gie = s.gie)
    (sent : s.sched ≠ [] → r = .ok () ∧ u.txreq = false ∧ u.busOut = s.busOut ++ [frame])
    (pending : s.sched = [] → r = .error .retriesExhausted ∧ u.txreq = true ∧ u.busOut = s.busOut) :
    Sends s (r, u) frame := by
  obtain ⟨_, can, ee⟩ := ready
  have writes := h.writes
  obtain ⟨cfg, phase, boot, mirror, _, rest⟩ := writes.block.sameBlock can ee
  have eeprom : u.eePart = s.eePart := writes.eeprom
  exact {
    block := ⟨cfg, phase, boot, mirror, gie, rest⟩
    latch := sameLatch_of_edgePart writes.edge
    eeprom := ⟨fun a => congrArg (Memory.read · a) (ee_of_eePart eeprom), wip_of_eePart eeprom, wel_of_eePart eeprom,
      pageBuf_of_eePart eeprom, writes.block.eeProtect⟩
    regs := fun a outside => writes.regs a fun inside => by unfold TxReg at inside; omega
    lastHit := writes.lastHit
    lastType := writes.lastType
    outputs := writes.block.out
    busIn := writes.busIn
    sent := sent
    pending := pending }

theorem transmit_sends {s : State} (hd : s.cfg.dev = .standard) (ready : Ready s) (idle : s.txreq = false)
    (unfair : s.modeFair = false) (polls : 1 ≤ s.cfg.txRetries) {f : CanFrame} (length : f.data.length ≤ 8)
    (schedule : s.sched = [] ∨ s.inMode .normal = true ∧ s.sched = [[], [.txOk]]) :
    Sends s (transmit envGap f s) (sentFrame f) := by
  have ⟨sampled, _⟩ := ready
  have gie := (transmit_keeps good_envGap f s).gie
  have critical := transmit_critical f s
  generalize transmit envGap f s = out at *
  obtain ⟨r, u⟩ := out
  rcases schedule with sched | ⟨mode, sched⟩
  · obtain ⟨result, transmitted, txreq, _⟩ :=
      transmit_alone (s := s.setGie false) hd ⟨rfl, sched, unfair⟩ sampled length idle
    rw [critical] at result transmitted txreq
    exact sends_of_transmitted transmitted ready gie (fun other => absurd sched other)
      fun _ => ⟨result, txreq, transmitted.writes.busOut⟩
  · obtain ⟨result, transmitted, txreq⟩ :=
      transmit_txOk (s := s.setGie false) hd rfl unfair sampled length idle polls mode sched
    rw [critical] at result transmitted txreq
    exact sends_of_transmitted transmitted ready gie (fun _ => ⟨result, txreq, transmitted.writes.busOut⟩)
      fun other => absurd (sched.symm.trans other) (by simp)

end Sys2Proof.Machine
end

section
/-! TBL_RD and SIG_RD (R135, R137): the answer is made of a row of the array, or of a slot of the mirror, and sent. -/

namespace Sys2Proof.Machine

/-! ### The reply -/

/-- What a class rule that replies leaves: the frame sent, or hErr set and the request pending. -/
def Replies (s t : State) (frame : BusFrame) : Prop :=
  SameEeprom s t ∧ SameLatch s t ∧ SameBlock { s with hErr := t.hErr } t ∧
    (∀ a, a < 0x30 ∨ 0x3E ≤ a → t.reg a = s.reg a) ∧ t.lastHit = s.lastHit ∧ t.lastType = s.lastType ∧ t.out = s.out ∧
    t.busIn = s.busIn ∧ (s.sched ≠ [] → t.hErr = s.hErr ∧ t.txreq = false ∧ t.busOut = s.busOut ++ [frame]) ∧
    (s.sched = [] → t.hErr = true ∧ t.txreq = true ∧ t.busOut = s.busOut)

/-- An error of transmit sets hErr (R140). -/
theorem Sends.replies {s : State} {out : Res Unit} {frame : BusFrame} (h : Sends s out frame) :
    Replies s (failClass out) frame := by
  obtain ⟨r, u⟩ := out
  obtain ⟨⟨cfg, phase, boot, mirror, gie, ctx, csCan, csEe, shadow, err, faults⟩, latch, eeprom, regs, lastHit, lastType,
    outputs, busIn, sent, pending⟩ := h
  by_cases last : s.sched = []
  · obtain ⟨result, txreq, busOut⟩ := pending last
    obtain rfl : r = .error .retriesExhausted := result
    exact ⟨eeprom, latch, ⟨cfg, phase, boot, mirror, gie, ctx, csCan, csEe, shadow, rfl, faults⟩, regs, lastHit, lastType,
      outputs, busIn, fun more => absurd last more, fun _ => ⟨rfl, txreq, busOut⟩⟩
  · obtain ⟨result, txreq, busOut⟩ := sent last
    obtain rfl : r = .ok () := result
    exact ⟨eeprom, latch, ⟨cfg, phase, boot, mirror, gie, ctx, csCan, csEe, shadow, rfl, faults⟩, regs, lastHit, lastType,
      outputs, busIn, fun _ => ⟨err, txreq, busOut⟩, fun other => absurd other last⟩

/-- Settles O43: a loaded slot is read in no step, and its format sent. -/
theorem FrameRules.sigRd : Obligations.SigRd := by
  intro s fr f hd ready idle unfair polls formed loaded schedule
  refine ⟨_, exec_sigRd_wellFormed formed, ?_⟩
  rw [readMirror_of_some loaded]
  have sends := transmit_sends hd ready idle unfair polls (f := ⟨fr.id, false, serWire f⟩) (by rw [serWire_length]; decide)
    schedule
  exact sends.replies

/-! ### A read of the array with no move in its gaps -/

/-- A gap that has no move, or comes after the last one in an environment that is not fair. -/
theorem tick_envGap_of_no_move {s : State} (sampled : Sampled s) (unfair : s.modeFair = false)
    (no_move : s.sched.headD [] = []) : tick envGap s = s.setSched s.sched.tail := by
  rw [tick, sample_of_sampled sampled]
  cases sched : s.sched with
  | nil =>
    have same : s = s.setSched [] := congrArg s.setSched sched
    exact (envGap_of_still s ⟨sched, unfair⟩).trans same
  | cons ms rest =>
    obtain rfl : ms = [] := by simpa [sched] using no_move
    rw [envGap, sched]
    rfl

/-- A transaction that leaves its device as it was, and such a gap. -/
theorem xfer_no_move {s : State} (sampled : Sampled s) (unfair : s.modeFair = false) (no_move : s.sched.headD [] = [])
    {x : Xfer} {inp : List Byte} (reads : s.device x = (inp, s)) :
    ∃ issued ev, xfer envGap x s = (inp, (s.traced issued ev).setSched s.sched.tail) := by
  refine ⟨s.cmdIssued || (s.cmdBusy && s.ctx == .foreground), [.xfer x.dev (x.out s.cfg) inp], ?_⟩
  rw [xfer, transact_eq, reads]
  exact congrArg (Prod.mk _) (tick_envGap_of_no_move (s := s.endXfer x inp) sampled unfair no_move)

/-- A row is read by two transactions, a status read and a burst (R101, R130). -/
theorem readRow_no_move {s : State} (sampled : Sampled s) (unfair : s.modeFair = false)
    (first : s.sched.headD [] = []) (second : s.sched.tail.headD [] = []) (reachable : EepromReady s) {t i : Nat}
    (table : t < s.cfg.numSignals) (row : i < tableRows) :
    ∃ issued ev, readRow envGap t i s = (.ok (s.rowOf t i), (s.traced issued ev).setSched s.sched.tail.tail) := by
  obtain ⟨idle, bits, fits, accepted⟩ := reachable
  have inside := valid_row accepted table row
  obtain ⟨j, e, status⟩ := xfer_no_move sampled unfair first (x := .eeRdsr) rfl
  have burst : State.device ((s.traced j e).setSched s.sched.tail) (.eeRead (s.cfg.rowAddr t i) rowBytes) =
      (s.eeBytes (s.cfg.rowAddr t i) rowBytes, (s.traced j e).setSched s.sched.tail) := by
    have at_rest : ((s.traced j e).setSched s.sched.tail).wip = false := idle
    rw [State.device, State.eeReadCmd, at_rest]
    exact congrArg (·, _) (readBytes_eq s _ _ fits inside)
  obtain ⟨k, v, bytes⟩ := xfer_no_move (s := (s.traced j e).setSched s.sched.tail) sampled unfair second burst
  refine ⟨k, e ++ v, ?_⟩
  rw [readRow, if_neg (Nat.not_le.2 table), if_neg (Nat.not_le.2 row), eeReadOp, if_pos (by simpa [eeInRange] using inside),
    if_neg (by decide), waitIdle_idle envGap s bits idle (valid_bailout accepted), status, ← traced_traced s j]
  simp only [Res.bind, bytes]
  rfl

/-! ### TBL_RD -/

/-- Transactions that only read, before the frame is sent. -/
theorem Sends.of_traced {s : State} {issued : Bool} {ev : List Event} {q : List (List EnvMove)} {out : Res Unit}
    {frame : BusFrame} (h : Sends ((s.traced issued ev).setSched q) out frame) (ready : Ready s)
    (moves : q = [] ↔ s.sched = []) : Sends s out frame := by
  obtain ⟨_, can, ee⟩ := ready
  obtain ⟨⟨cfg, phase, boot, mirror, gie, ctx, csCan, csEe, rest⟩, latch, eeprom, regs, lastHit, lastType, outputs, busIn,
    sent, pending⟩ := h
  exact ⟨⟨cfg, phase, boot, mirror, gie, ctx, csCan.trans can.symm, csEe.trans ee.symm, rest⟩, latch, eeprom, regs, lastHit,
    lastType, outputs, busIn, fun more => sent fun last => more (moves.1 last), fun last => pending (moves.2 last)⟩

/-- Settles O41: the row is read in two gaps without a move, and sent. -/
theorem FrameRules.tblRd : Obligations.TblRd := by
  intro s fr hd ready reachable idle unfair formed schedule
  obtain ⟨sampled, _⟩ := id ready
  obtain ⟨_, _, _, accepted⟩ := id reachable
  obtain ⟨_, table⟩ := tblRd_wellFormed formed
  have quiet : s.sched.headD [] = [] ∧ s.sched.tail.headD [] = [] ∧ (s.sched.tail.tail = [] ↔ s.sched = []) := by
    rcases schedule with sched | ⟨_, sched⟩ <;> simp [sched]
  obtain ⟨first, second, moves⟩ := quiet
  obtain ⟨issued, ev, reads⟩ := readRow_no_move sampled unfair first second reachable table (ctrlRow_lt fr.id)
  refine ⟨_, exec_tblRd_wellFormed formed, ?_⟩
  rw [reads]
  generalize s.rowOf (ctrlTable fr.id) (ctrlRow fr.id) = r
  have sends := transmit_sends (s := (s.traced issued ev).setSched s.sched.tail.tail) hd (traced_ready sampled issued ev) idle
    unfair (valid_retries accepted) (f := ⟨fr.id, false, serRow r.1 r.2⟩) (by rw [serRow_length]; decide)
    (schedule.imp (fun sched => congrArg (·.tail.tail) sched) fun ⟨mode, sched⟩ => ⟨mode, congrArg (·.tail.tail) sched⟩)
  exact (sends.of_traced ready moves).replies

end Sys2Proof.Machine
end

section
/-! SIG_FRAME in a still environment (R139, R140, R142). One slot is skipped, or fails, or drives its actuator; an induction over
the slots in their order says what the loop has done after the first n. -/

namespace Sys2Proof.Machine

/-! ### One slot -/

theorem exec_sigFrameMid (h : BitVec 1) (fr : CanFrame) (s : State) :
    exec (.sigFrameMid h fr) s = .next (sigFrame fr s) := rfl

theorem exec_sigFrameHigh (h : BitVec 2) (fr : CanFrame) (s : State) :
    exec (.sigFrameHigh h fr) s = .next (sigFrame fr s) := rfl

section
variable {s : State} {fr : CanFrame} {k : Nat} {f : SigFmt}

/-- A slot of another identifier is skipped. -/
theorem signalSlot_of_other (loaded : s.mirrorAt k = some f) (other : f.id ≠ fr.id) : signalSlot fr k s = s := by
  simp only [signalSlot, readMirror_of_some loaded, if_neg other]

/-- A slot whose field is not in the payload sets hErr. -/
theorem signalSlot_of_error (loaded : s.mirrorAt k = some f) (same : f.id = fr.id) {e : Err} (bad : pluck f fr = .error e) :
    signalSlot fr k s = s.setHErr true := by
  simp only [signalSlot, readMirror_of_some loaded, if_pos same, bad]
  rfl

/-- Actuate(k, v), without its gap (R142). -/
def State.actuated (s : State) (k : Nat) (v : U16) : State := (s.setChannel k v).emit (.actuate k v)

/-- A slot whose field is in the payload looks its value up and drives its actuator with what the table answers. -/
theorem signalSlot_of_key (still : Still s) (ready : Ready s) (reachable : EepromReady s) (slot : k < s.cfg.numSignals)
    (loaded : s.mirrorAt k = some f) (same : f.id = fr.id) {key : Number} (plucked : pluck f fr = .ok key) :
    ∃ v issued ev, signalSlot fr k s = (s.traced issued ev).actuated k v ∧ actuations ev = [] ∧ TableAnswer s k key v := by
  obtain ⟨v, issued, ev, looks, silent, answer⟩ :=
    lookup_quiet (quiet_envGap still) still ready reachable slot key (calm_envGap s)
  refine ⟨v, issued, ev, ?_, silent, answer⟩
  obtain ⟨sampled, _⟩ := ready
  simp only [signalSlot, readMirror_of_some loaded, if_pos same, plucked, looks]
  exact (tick_envGap_of_still ((s.traced issued ev).actuated k v) still).trans
    (sample_of_sampled (s := (s.traced issued ev).actuated k v) sampled)

theorem drives_eq (loaded : s.mirrorAt k = some f) : s.drives fr k = (f.id == fr.id && (pluck f fr).isOk) := by
  rw [State.drives, loaded]

theorem failsOn_eq (loaded : s.mirrorAt k = some f) : s.failsOn fr k = (f.id == fr.id && !(pluck f fr).isOk) := by
  rw [State.failsOn, loaded]

end

/-! ### The loop -/

/-- Transactions have been issued and the outputs and hErr set; nothing else has changed. -/
def Drove (s t : State) : Prop :=
  ∃ issued ev out err, t = { s.traced issued ev with out := out, hErr := err }

/-- What the loop has done after the slots below n (R139). -/
structure SlotsServed (s t : State) (fr : CanFrame) (n : Nat) : Prop where
  drove : Drove s t
  answers : ∀ k f key, k < n → s.mirrorAt k = some f → f.id = fr.id → pluck f fr = .ok key →
    TableAnswer s k key (t.outAt k)
  others : ∀ k, ¬ (k < n ∧ s.drives fr k = true) → t.outAt k = s.outAt k
  err : t.hErr = true ↔ s.hErr = true ∨ ∃ k, k < n ∧ s.failsOn fr k = true
  calls : actuations t.events = actuations s.events ++
    ((List.range n).filter (s.drives fr)).map fun k => (k, t.outAt k)

theorem slotsServed_zero {s : State} (ready : Ready s) (fr : CanFrame) : SlotsServed s s fr 0 where
  drove := ⟨s.cmdIssued, [], s.out, s.hErr, (traced_nil ready).symm⟩
  answers := nofun
  others := fun _ _ => rfl
  err := by simp
  calls := by simp

section
variable {s t : State} {fr : CanFrame} {n : Nat} {f : SigFmt}

/-- A slot that drives nothing leaves the outputs and their calls. -/
theorem SlotsServed.undriven (h : SlotsServed s t fr n) (quiet : s.drives fr n = false) {u : State} (drove : Drove s u)
    (out : u.out = t.out) (events : u.events = t.events)
    (err : u.hErr = true ↔ t.hErr = true ∨ s.failsOn fr n = true) : SlotsServed s u fr (n + 1) := by
  have outAt : ∀ k, u.outAt k = t.outAt k := fun k => by rw [State.outAt, State.outAt, out]
  refine ⟨drove, fun k f key below loaded same plucked => ?_, fun k idle => ?_, ?_, ?_⟩
  · have driven : s.drives fr k = true := by
      rw [drives_eq loaded, same, plucked, beq_self_eq_true]
      rfl
    have earlier : k ≠ n := fun last => by rw [last, quiet] at driven; exact nomatch driven
    rw [outAt]
    exact h.answers k f key (by omega) loaded same plucked
  · rw [outAt]
    exact h.others k fun driven => idle ⟨Nat.lt_succ_of_lt driven.1, driven.2⟩
  · rw [err, h.err, or_assoc]
    simp only [Nat.lt_succ_iff_lt_or_eq, or_and_right, exists_or, exists_eq_left]
  · simp only [events, h.calls, outAt, List.range_succ, List.filter_append, List.filter_cons, quiet, List.filter_nil,
      Bool.false_eq_true, if_false, List.append_nil]

/-- A slot that drives its actuator sets its own output and adds its call. -/
theorem SlotsServed.driven (h : SlotsServed s t fr n) (room : n < 16) (loaded : s.mirrorAt n = some f)
    (same : f.id = fr.id) {key : Number} (plucked : pluck f fr = .ok key) {v : U16} {issued : Bool} {ev : List Event}
    (silent : actuations ev = []) (answer : TableAnswer s n key v) :
    SlotsServed s ((t.traced issued ev).actuated n v) fr (n + 1) := by
  have driven : s.drives fr n = true := by
    rw [drives_eq loaded, same, plucked, beq_self_eq_true]
    rfl
  have fine : s.failsOn fr n = false := by
    rw [failsOn_eq loaded, same, plucked, beq_self_eq_true]
    rfl
  have outAt : ∀ k, ((t.traced issued ev).actuated n v).outAt k = if k = n then v else t.outAt k := fun k => by
    rw [State.actuated, State.emit_outAt, outAt_setChannel]
    by_cases last : k = n
    · rw [if_pos ⟨last.symm, last ▸ room⟩, if_pos last]
    · rw [if_neg fun h => last h.1.symm, if_neg last]
      rfl
  refine ⟨?_, fun k f' key' below loaded' same' plucked' => ?_, fun k idle => ?_, ?_, ?_⟩
  · obtain ⟨issued', ev', out, err, rfl⟩ := h.drove
    exact ⟨issued, ev' ++ ev ++ [.actuate n v], out.setIfInBounds n v, err, by
      simp [State.traced, State.actuated, State.setChannel, State.emit]⟩
  · rw [outAt]
    by_cases last : k = n
    · subst last
      obtain rfl : f = f' := Option.some.inj (loaded.symm.trans loaded')
      obtain rfl : key = key' := Except.ok.inj (plucked.symm.trans plucked')
      rw [if_pos rfl]
      exact answer
    · rw [if_neg last]
      exact h.answers k f' key' (by omega) loaded' same' plucked'
  · have earlier : k ≠ n := fun last => idle ⟨by omega, last ▸ driven⟩
    rw [outAt, if_neg earlier]
    exact h.others k fun below => idle ⟨Nat.lt_succ_of_lt below.1, below.2⟩
  · refine h.err.trans (or_congr_right ⟨fun ⟨k, below, fails⟩ => ⟨k, Nat.lt_succ_of_lt below, fails⟩, ?_⟩)
    rintro ⟨k, below, fails⟩
    have earlier : k ≠ n := fun last => by rw [last, fine] at fails; exact nomatch fails
    exact ⟨k, by omega, fails⟩
  · have before : ((List.range n).filter (s.drives fr)).map (fun k => (k, ((t.traced issued ev).actuated n v).outAt k)) =
        ((List.range n).filter (s.drives fr)).map fun k => (k, t.outAt k) := by
      refine List.map_congr_left fun k inside => ?_
      have below : k < n := List.mem_range.1 (List.mem_filter.1 inside).1
      rw [outAt, if_neg (Nat.ne_of_lt below)]
    have calls : actuations ((t.traced issued ev).actuated n v).events = actuations t.events ++ [(n, v)] := by
      show actuations (t.events ++ ev ++ [.actuate n v]) = _
      rw [actuations_append, actuations_append, silent, List.append_nil]
      rfl
    rw [calls, h.calls, List.range_succ, List.filter_append, List.map_append, before, List.append_assoc]
    simp [driven, outAt]

/-- The loop's next slot. -/
theorem SlotsServed.next (h : SlotsServed s t fr n) (still : Still s) (ready : Ready s) (reachable : EepromReady s)
    (slot : n < s.cfg.numSignals) (loaded : s.mirrorAt n = some f) : SlotsServed s (signalSlot fr n t) fr (n + 1) := by
  obtain ⟨sampled, _⟩ := ready
  obtain ⟨_, _, _, accepted⟩ := id reachable
  have drives := drives_eq (fr := fr) loaded
  have fails := failsOn_eq (fr := fr) loaded
  have at_t : t.mirrorAt n = some f ∧ Still t ∧ Ready t ∧ EepromReady t ∧ t.cfg = s.cfg ∧ t.ee = s.ee := by
    obtain ⟨issued, ev, out, err, rfl⟩ := h.drove
    exact ⟨loaded, still, ⟨sampled, rfl, rfl⟩, reachable, rfl, rfl⟩
  obtain ⟨loaded_t, still_t, ready_t, reachable_t, cfg, ee⟩ := at_t
  by_cases same : f.id = fr.id
  · cases plucked : pluck f fr with
    | ok key =>
      obtain ⟨v, issued, ev, serves, silent, answer⟩ :=
        signalSlot_of_key still_t ready_t reachable_t (by rw [cfg]; exact slot) loaded_t same plucked
      rw [serves]
      exact h.driven (Nat.lt_of_lt_of_le slot (valid_slots accepted)) loaded same plucked silent
        ((tableAnswer_congr cfg ee n key v).1 answer)
    | error e =>
      rw [same, plucked, beq_self_eq_true] at drives fails
      rw [signalSlot_of_error loaded_t same plucked]
      refine h.undriven drives ?_ rfl rfl (iff_of_true rfl (.inr fails))
      obtain ⟨issued, ev, out, err, rfl⟩ := h.drove
      exact ⟨issued, ev, out, true, rfl⟩
  · rw [beq_eq_false_iff_ne.2 same] at drives fails
    rw [signalSlot_of_other loaded_t same]
    exact h.undriven drives h.drove rfl rfl (by rw [fails]; simp)

end

/-- The slots in their order. -/
theorem slotsServed_foldl {s : State} (still : Still s) (ready : Ready s) (reachable : EepromReady s) (fr : CanFrame) (n : Nat)
    (slots : n ≤ s.cfg.numSignals) (loaded : LoadedTo s n) :
    SlotsServed s ((List.range n).foldl (fun t k => signalSlot fr k t) s) fr n := by
  induction n with
  | zero => exact slotsServed_zero ready fr
  | succ n ih =>
    obtain ⟨f, slot⟩ := Option.ne_none_iff_exists'.1 (loaded n (Nat.lt_succ_self n))
    rw [List.range_succ, List.foldl_append]
    exact (ih (by omega) fun k below => loaded k (Nat.lt_succ_of_lt below)).next still ready reachable (by omega) slot

/-- Settles O45: both rows run the loop over all slots, none of which ends it. -/
theorem FrameRules.sigFrame : Obligations.SigFrame := by
  intro s fr h1 h2 still ready reachable loaded
  have served := slotsServed_foldl still ready reachable fr s.cfg.numSignals (Nat.le_refl _) loaded
  obtain ⟨_, can, ee⟩ := ready
  refine ⟨_, exec_sigFrameMid h1 fr s, exec_sigFrameHigh h2 fr s, ?_⟩
  rw [Machine.sigFrame]
  generalize (List.range s.cfg.numSignals).foldl _ s = t at *
  obtain ⟨drove, answers, others, err, calls⟩ := served
  refine ⟨answers, others, err, calls, ?_⟩
  obtain ⟨issued, ev, out, hErr, rfl⟩ := drove
  exact ⟨⟨rfl, rfl, rfl, rfl, rfl, rfl, can.symm, ee.symm, rfl, rfl, rfl⟩, ⟨rfl, rfl⟩, ⟨fun _ => rfl, rfl, rfl⟩,
    ⟨fun _ => rfl, rfl, rfl, rfl, rfl⟩, rfl, rfl, rfl⟩

end Sys2Proof.Machine
end

section
/-! The machine runs a command (R145), and the critical section (R146, R147): the body of CRIT_ENTER and of CRIT_EXIT is one
assignment of the interrupt enable with no gap around it, so no other agent has a part in the command. -/

namespace Sys2Proof.Machine

/-! ### The command presented (R145) -/

theorem presentStep_of_decoded {cmd : List Byte} {i : Instr} (decoded : decode .port cmd = .ok i) (s : State) :
    presentStep cmd s = andThen (exec i s) envGap := by
  unfold presentStep
  rw [decoded]

/-- Settles O52: with no entry enabled the command is presented, and it is one that is decoded. -/
theorem stepRunsTheCommand : Obligations.StepRunsTheCommand := by
  intro s cmd rest i valid run foreground noEntry presented decoded
  rw [step_eq_presentStep valid run foreground noEntry presented, presentStep_of_decoded decoded]

/-! ### The critical section (R146, R147) -/

theorem exec_critEnter (s : State) :
    exec .critEnter s = .next (endCommand (.ok [if s.gie then 1 else 0], beginCommand (s.setGie false))) := rfl

/-- CRIT_EXIT of a saved bit sets the interrupt enable to it (R147). -/
theorem exec_critExit_of_bit {saved : Byte} (bit : saved = 0 ∨ saved = 1) (s : State) :
    exec (.critExit saved) s = .next (endCommand (.ok [], beginCommand (s.setGie (saved = 1)))) := by
  simp only [exec, execCritExit, command_eq, if_pos bit]
  rfl

/-- CRIT_EXIT refuses any other operand (R147). -/
theorem exec_critExit_of_not_bit {saved : Byte} (other : ¬ (saved = 0 ∨ saved = 1)) (s : State) :
    exec (.critExit saved) s = .next (endCommand (.error .badValue, beginCommand s)) := by
  simp only [exec, execCritExit, command_eq, if_neg other]

/-- Settles O40: a command that does nothing but record its result, begun with the new interrupt enable; the edge detector does
not read that bit, so the line is sampled there too. -/
theorem criticalSection : Obligations.CriticalSection := by
  intro s sampled
  have sampled_setGie : ∀ b, Sampled (s.setGie b) := fun _ => sampled
  refine ⟨?enter, ?exit, ?refused⟩
  case enter => exact ⟨_, exec_critEnter s, rfl, endCommand_onlyResult (sampled_setGie false) _⟩
  case exit =>
    intro saved bit
    exact ⟨_, exec_critExit_of_bit bit s, rfl, endCommand_onlyResult (sampled_setGie _) _⟩
  case refused =>
    intro saved zero one
    exact ⟨_, exec_critExit_of_not_bit (not_or.2 ⟨zero, one⟩) s, endCommand_error sampled .badValue⟩

end Sys2Proof.Machine
end

section
/-! The operand checks of the command port (R66, R153): an operand that fails its check is found before the command's first
transaction, so the body answers the error in the state that it began in. -/

namespace Sys2Proof.Machine

/-! ### A check is one comparison, or one and then another -/

section
variable {c d : Prop} [Decidable c] [Decidable d] {e e₁ e₂ : Err}

theorem eq_of_check (h : (if c then some e₁ else none) = some e) : c ∧ e₁ = e := by
  by_cases fails : c
  · exact ⟨fails, Option.some.inj ((if_pos fails).symm.trans h)⟩
  · exact nomatch (if_neg fails).symm.trans h

/-- Two checks in their order. -/
theorem eq_of_checks (h : (if c then some e₁ else if d then some e₂ else none) = some e) :
    c ∧ e₁ = e ∨ ¬ c ∧ d ∧ e₂ = e := by
  by_cases fails : c
  · exact .inl ⟨fails, Option.some.inj ((if_pos fails).symm.trans h)⟩
  · exact .inr ⟨fails, eq_of_check ((if_neg fails).symm.trans h)⟩

/-- An operation with two checks answers the error of the first that fails. -/
theorem checks_answer {α : Type} {s : State} {k : Res α}
    (h : (if c then some e₁ else if d then some e₂ else none) = some e) :
    (if c then (.error e₁, s) else if d then (.error e₂, s) else k) = (.error e, s) := by
  rcases eq_of_checks h with ⟨first, rfl⟩ | ⟨first, second, rfl⟩
  · exact if_pos first
  · rw [if_neg first, if_pos second]

theorem check_answers {α : Type} {s : State} {k : Res α} (h : (if c then some e₁ else none) = some e) :
    (if c then (.error e₁, s) else k) = (.error e, s) := by
  obtain ⟨fails, rfl⟩ := eq_of_check h
  exact if_pos fails

end

/-! ### The operands that are decoded first (R66 to R68) -/

theorem frameOperand_of_check_some {f : FrameArg} {e : Err} (h : frameCheck f = some e) : frameOperand f = .error e := by
  rw [frameOperand_eq]
  rcases eq_of_checks h with ⟨rtr, rfl⟩ | ⟨rtr, dlc, rfl⟩
  · exact if_pos rtr
  · rw [if_neg rtr, if_pos dlc]

theorem modeOperand_of_large {m : Byte} (large : m.toNat > 4) : modeOperand m = .error .badIndex := by
  rw [modeOperand_of_index, List.getElem?_eq_none large]
  rfl

theorem numberOperand_of_large {tag : Byte} (large : tag.toNat > 5) (w : U32) : numberOperand tag w = .error .badValue := by
  unfold numberOperand
  split
  case h_7 => rfl
  all_goals exact absurd large (by decide)

/-- Past its end the array is not reached (R96). -/
theorem eeInRange_of_past {p : Params} {a n : Nat} (past : a + n > p.eeSize) : eeInRange p a n = false :=
  decide_eq_false (Nat.not_le.2 past)

theorem eeReadOp_of_past {g : Pause} {s : State} {a n : Nat} (past : a + n > s.cfg.eeSize) :
    eeReadOp g a n s = (.error .badAddress, s) := by
  rw [eeReadOp, eeInRange_of_past past]
  rfl

theorem eeWriteOp_of_past {g : Pause} {s : State} {a : Nat} {d : List Byte} (past : a + d.length > s.cfg.eeSize) :
    eeWriteOp g a d s = (.error .badAddress, s) := by
  rw [eeWriteOp, eeInRange_of_past past]
  rfl

/-! ### The commands (R153) -/

/-- A command whose body answers an error. -/
theorem next_of_body {r : Res (List Byte)} {s : State} {e : Err} (h : r = (.error e, s)) :
    (.next (endCommand r) : Host.Outcome State Fault Refusal) = .next (endCommand (.error e, s)) := by rw [h]

/-- An error passes through what follows in the body (R155). -/
theorem next_of_operation {α : Type} {r : Res α} {k : α → State → Res (List Byte)} {s : State} {e : Err}
    (h : r = (.error e, s)) :
    (.next (endCommand (r.bind k)) : Host.Outcome State Fault Refusal) = .next (endCommand (.error e, s)) := by
  rw [h, Res.bind]

/-- A command with an operand that fails its check ends before it has done anything. -/
theorem exec_of_portCheck {s : State} {i : Instr} {e : Err} (check : portCheck s.cfg i = some e) :
    exec i s = .next (endCommand (.error e, beginCommand s)) := by
  cases i with
  | spRead a => exact next_of_body (check_answers check)
  | spWrite a d => exact next_of_body (check_answers check)
  | spBitmod a m d => exact next_of_body (check_answers check)
  | spReadblk a n => exact next_of_body (checks_answer check)
  | spWriteblk a d =>
    simp only [portCheck, ← List.length_eq_zero_iff (l := d)] at check
    exact next_of_body (checks_answer check)
  | epRead a n => exact next_of_body (checks_answer check)
  | epWrite a d =>
    simp only [portCheck, ← List.length_eq_zero_iff (l := d)] at check
    refine next_of_body ?_
    rcases eq_of_checks check with ⟨length, rfl⟩ | ⟨length, address, rfl⟩
    · exact if_pos length
    · exact (if_neg length).trans ((ite_or ..).symm.trans (if_pos address))
  | eeWrite a d =>
    obtain ⟨past, rfl⟩ := eq_of_check check
    exact next_of_operation (eeWriteOp_of_past (s := beginCommand s) past)
  | eeRead a n =>
    obtain ⟨past, rfl⟩ := eq_of_check check
    exact next_of_body (eeReadOp_of_past (s := beginCommand s) past)
  | canSetmode m =>
    obtain ⟨large, rfl⟩ := eq_of_check check
    rw [exec, execCanSetmode, modeOperand_of_large large]
    rfl
  | canSetmask k id => exact next_of_body (check_answers check)
  | canSetfilter f id => exact next_of_body (check_answers check)
  | canReceive b => exact next_of_body (check_answers check)
  | canTransmit f =>
    refine next_of_body ?_
    rw [frameOperand_of_check_some check]
  | sigPluck m f =>
    refine next_of_body ?_
    rw [frameOperand_of_check_some check]
  | sigLoad k => exact next_of_body (check_answers check)
  | sigStore k f => exact next_of_operation (check_answers check)
  | sigGet k => exact next_of_body (check_answers check)
  | rowWrite t i k v =>
    obtain ⟨outside, rfl⟩ := eq_of_check check
    exact next_of_operation ((ite_or ..).symm.trans (if_pos outside))
  | rowRead t i =>
    obtain ⟨outside, rfl⟩ := eq_of_check check
    exact next_of_operation ((ite_or ..).symm.trans (if_pos outside))
  | tabLookup t tag w =>
    rcases eq_of_checks check with ⟨large, rfl⟩ | ⟨known, table, rfl⟩
    · refine next_of_body ?_
      rw [numberOperand_of_large large]
    · obtain ⟨key, decoded⟩ := numberOperand_of_tag (Nat.le_of_not_lt known) w
      refine next_of_body ?_
      have looks : lookup fgGap t.toNat key (beginCommand s) = (.error .badIndex, beginCommand s) := if_pos table
      simp only [decoded, looks, Res.bind]
  | critExit v =>
    obtain ⟨large, rfl⟩ := eq_of_check check
    exact exec_critExit_of_not_bit (by bv_omega) s
  | _ => exact nomatch check

/-- Settles O15: such a command's body changes nothing. -/
theorem portChecks : Obligations.PortChecks := by
  intro s i e sampled check
  exact ⟨_, exec_of_portCheck check, endCommand_error sampled e⟩

end Sys2Proof.Machine
end

section
/-! The handler is entered (R158), and the interrupt it can strand (R161, R176). -/

namespace Sys2Proof.Machine

/-! ### Handler entry (R158) -/

/-- With entry enabled the foreground presents no command (R158). -/
theorem step_of_entryEnabled {s : State} (accepted : s.cfg.valid = true) (run : s.phase = .run) (foreground : s.ctx = .foreground)
    (enabled : entryEnabled s = true) : step s = .next (envGap (enterHandler s)) := by
  rw [step, if_pos accepted, run, foreground]
  exact if_pos enabled

/-- Settles O48: with no command in progress and the line sampled, entry changes the context only, and the gap after it is
empty. -/
theorem handlerEntry : Obligations.HandlerEntry := by
  intro s accepted run foreground latched interruptible ready still idle
  have ⟨sampled, _⟩ := ready
  have enabled : entryEnabled s = true := by
    rw [entryEnabled, latched, interruptible, foreground, run]
    rfl
  have entered : envGap (enterHandler s) = s.setCtx .handler := by
    rw [enterHandler_eq sampled, idle]
    exact envGap_of_still (s.setCtx .handler) still
  refine ⟨s.setCtx .handler, ?_, rfl, ?_⟩
  · rw [step_of_entryEnabled accepted run foreground enabled, entered]
  · exact ⟨⟨rfl, rfl, rfl, rfl, rfl, rfl, rfl, rfl, rfl, rfl, rfl⟩, ⟨rfl, rfl⟩, ⟨fun _ => rfl, rfl, rfl⟩,
      ⟨fun _ => rfl, rfl, rfl, rfl, rfl⟩, ⟨rfl, rfl, rfl, rfl, rfl, rfl⟩, rfl, rfl⟩

/-! ### No other agent writes CANINTE (R34, R104) -/

/-- The registers that a move of another agent can change: CANSTAT, CANINTF, TXB0CTRL and the receive buffers. -/
def EnvReg (a : Nat) : Prop := a = 0x0E ∨ a = 0x2C ∨ a = 0x30 ∨ 0x61 ≤ a

theorem not_envReg_caninte : ¬ EnvReg 0x2B := by
  unfold EnvReg
  omega

theorem storeFrame_reg {s : State} (hd : s.cfg.dev = .standard) (f : BusFrame) (h : Nat) {a : Nat} (other : ¬ EnvReg a) :
    (s.storeFrame f h).reg a = s.reg a := by
  unfold EnvReg at other
  cases full : s.rxFlag (bufferOf h) with
  | true => rw [storeFrame_full full]
  | false => rw [(storeFrame_empty hd full a).1, if_neg (by omega), if_neg (by omega)]

theorem offerFrame_reg {s : State} (hd : s.cfg.dev = .standard) (f : BusFrame) {a : Nat} (other : ¬ EnvReg a) :
    (s.offerFrame f).reg a = s.reg a := by
  unfold State.offerFrame
  split
  · exact storeFrame_reg hd f _ other
  · rfl

theorem setReg_reg_of_envReg (s : State) {r a : Nat} (v : Byte) (env : EnvReg r) (other : ¬ EnvReg a) :
    (s.setReg r v).reg a = s.reg a :=
  reg_setReg_ne s r a v fun same => other (same ▸ env)

theorem move_reg {s : State} (hd : s.cfg.dev = .standard) (m : EnvMove) {a : Nat} (other : ¬ EnvReg a) :
    (s.move m).reg a = s.reg a := by
  cases m with
  | modeChange =>
    rw [State.move, State.modeChange, hd]
    split
    · exact setReg_reg_of_envReg s _ (.inl rfl) other
    · rfl
  | receive =>
    rw [State.move, State.receiveStep]
    split
    · split
      next f fs _ _ => exact offerFrame_reg (s := { s with busIn := fs }) hd f other
      next => rfl
    · rfl
  | discard =>
    rw [State.move, State.discardStep]
    split
    · split <;> rfl
    · rfl
  | txOk =>
    have cleared (u : State) (dev : u.cfg.dev = .standard) : u.clearTxreq.reg a = u.reg a := by
      rw [State.clearTxreq, dev]
      exact setReg_reg_of_envReg u _ (.inr (.inr (.inl rfl))) other
    have offered : (s.offerFrame s.txFrame).cfg.dev = .standard := by
      obtain ⟨_, _, _, only⟩ := offerFrame_ctl_only s s.txFrame
      rw [only, hd]
    rw [State.move, State.txOk]
    split
    · split
      · exact cleared _ hd
      · split
        · exact (cleared _ offered).trans (offerFrame_reg hd _ other)
        · rfl
    · rfl
  | txErr =>
    rw [State.move, State.txErr, hd]
    split
    · exact setReg_reg_of_envReg s _ (.inr (.inr (.inl rfl))) other
    · rfl
  | cycleEnd =>
    rw [State.move, State.cycleEnd]
    split <;> rfl
  | busAppend f => rfl
  | busConsume => rfl

/-- Only the edge detector writes the latch and its memory of the line (R26, R27). -/
theorem move_edgePart (s : State) (m : EnvMove) : (s.move m).edgePart = s.edgePart := by
  rcases move_cases s m with ⟨_, cycle⟩ | ⟨_, _, _, _, _, _, moved⟩
  · rw [cycle, State.cycleEnd]
    split <;> rfl
  · rw [moved]
    rfl

/-! ### The handler and CANINTE -/

/-- The class rules write no register below TXB0's (R114, R135 to R139). -/
theorem transact_reg_low {s : State} {x : Xfer} (hd : s.cfg.dev = .standard) (h : ClassXfer s.cfg.dev.map x) {a : Nat}
    (low : a < 0x30) : (s.transact x).2.reg a = s.reg a := by
  cases side : x.dev with
  | can =>
    rw [hd] at h
    exact (transact_writes hd ⟨by decide, by decide⟩ (classXfer_writesIn side h)).regs a (Nat.not_le.2 low)
  | ee =>
    obtain ⟨ctl, _⟩ := device_ee_apart side s
    rw [transact_eq]
    exact reg_of_ctl ctl a

theorem ClassRun.reg_low {s t : State} (run : ClassRun s t) (hd : s.cfg.dev = .standard) (still : Still s) {a : Nat}
    (low : a < 0x30) : t.reg a = s.reg a := by
  induction run with
  | refl s => rfl
  | trans first _ ih1 ih2 =>
    obtain ⟨cfg, still', _⟩ := first.sparesFlags hd still
    exact (ih2 (by rw [cfg, hd]) still').trans (ih1 hd still)
  | @xfer s x h =>
    have gap : (Machine.xfer envGap x s).2 = sample (s.transact x).2 :=
      tick_envGap_of_still _ (transact_sparesFlags hd still h).still
    rw [gap]
    exact transact_reg_low hd h low
  | readMirror k s =>
    rw [Machine.readMirror]
    split <;> rfl
  | setMirror k f s => rw [tick_envGap_of_still (s.setMirror k f) still]; rfl
  | setHErr b s => rfl
  | actuate ch v s => rw [Machine.actuate, tick_envGap_of_still ((s.setChannel ch v).emit _) still]; rfl

/-- The handler's step in a still environment: the class rule of the frame fetched, and the handler's end. -/
theorem step_handler_still {s : State} (accepted : s.cfg.valid = true) (hd : s.cfg.dev = .standard) (run : s.phase = .run)
    (handler : s.ctx = .handler) (still : Still s) :
    step s = .next (envGap (handlerTail (hitBuffer s.lastHit)
      (runClass (classify s.lastHit s.fetched.frame.rtr) s.fetched.frame (handlerFetch s).2))) := by
  obtain ⟨issued, ev, fetch⟩ := handlerFetch_still hd still
  rw [step_handler accepted run handler, handlerStep]
  simp only [Fetched.instr, exec_frameInstr, andThen, fetch]
  rfl

/-- What that step leaves beside what the handler's end does (R133): the line sampled, and CANINTE. -/
theorem step_handler_caninte {s t : State} (accepted : s.cfg.valid = true) (hd : s.cfg.dev = .standard) (run : s.phase = .run)
    (handler : s.ctx = .handler) (still : Still s) (next : step s = .next t) : Sampled t ∧ t.reg 0x2B = s.reg 0x2B := by
  obtain ⟨issued, ev, fetch⟩ := handlerFetch_still hd still
  have fetched : (handlerFetch s).2.cfg.dev = .standard ∧ Still (handlerFetch s).2 ∧
      (handlerFetch s).2.reg 0x2B = s.reg 0x2B := by
    rw [fetch]
    exact ⟨hd, still, rfl⟩
  rw [step_handler_still accepted hd run handler still] at next
  generalize (handlerFetch s).2 = u at *
  obtain ⟨dev_u, still_u, caninte_u⟩ := fetched
  have class_run := runClass_classRun (classify s.lastHit s.fetched.frame.rtr) s.fetched.frame u
  generalize runClass _ _ u = v at *
  have spares := class_run.sparesFlags dev_u still_u
  have caninte := class_run.reg_low dev_u still_u (a := 0x2B) (by decide)
  have dev : v.cfg.dev = .standard := by rw [spares.cfg, dev_u]
  have ended := handlerTail_still spares.still (hitBuffer s.lastHit)
  have still_served := served_still spares.still (hitBuffer s.lastHit)
  have caninte_served := served_reg dev (hitBuffer s.lastHit) 0x2B
  rw [if_neg (by decide)] at caninte_served
  generalize v.served (hitBuffer s.lastHit) = w at *
  have still_t : Still (handlerTail (hitBuffer s.lastHit) v) := by
    rw [ended]
    exact still_served
  rw [envGap_of_still _ still_t, ended] at next
  obtain rfl := Host.Outcome.next.inj next
  exact ⟨sample_sampled w, caninte_served.trans (caninte.trans caninte_u)⟩

/-! ### A stranded interrupt (R176) -/

/-- A full buffer holds the line asserted, and the edge it made is gone: the foreground of phase Run waits for an edge that no one
can make. -/
structure Stranded (t : State) (b : Nat) : Prop where
  standard : t.cfg.dev = .standard
  run : t.phase = .run
  foreground : t.ctx = .foreground
  idle : t.cmdBusy = false
  latch : t.latch = false
  sampled : Sampled t
  enabled : t.reg 0x2B = 0x03
  buffer : b ≤ 1
  full : t.rxFlag b = true

theorem Stranded.line {t : State} {b : Nat} (h : Stranded t b) : t.intLine = true := by
  have one : b = 0 ∨ b = 1 := by have := h.buffer; omega
  rw [intLine_eq_rxFlags h.standard h.enabled]
  rcases one with rfl | rfl <;> simp [h.full]

theorem Stranded.stuck {t : State} {b : Nat} (h : Stranded t b) : t.stuck := by
  have no_entry : entryEnabled t = false := by simp [entryEnabled, h.latch]
  exact ⟨h.run, h.foreground, h.idle, no_entry, .inl h.line⟩

/-- Another agent's step leaves the buffer full, so the line makes no edge. -/
theorem Stranded.envMove {t : State} {b : Nat} (h : Stranded t b) (m : EnvMove) : Stranded (Machine.envMove t m) b := by
  have block := envMove_blockPart t m
  have moved := envMove_of_sampled h.sampled m
  have standard : (Machine.envMove t m).cfg.dev = .standard := (congrArg (·.cfg.dev) block).trans h.standard
  have enabled : (Machine.envMove t m).reg 0x2B = 0x03 := by
    rw [moved]
    exact (move_reg h.standard m not_envReg_caninte).trans h.enabled
  have full : (Machine.envMove t m).rxFlag b = true := by
    rw [moved]
    exact (move_full_buffer h.standard h.buffer h.full m).1
  have latch : (Machine.envMove t m).latch = false := by
    have before := move_edgePart t m
    have prev : (t.move m).intPrev = true := (congrArg Prod.snd before).trans (h.sampled.trans h.line)
    have kept : (t.move m).latch = false := (congrArg Prod.fst before).trans h.latch
    rw [moved, sample_latch, kept, prev, Bool.not_true, Bool.and_false]
    rfl
  exact ⟨standard, (congrArg BlockPart.phase block).trans h.run, (congrArg BlockPart.ctx block).trans h.foreground,
    (congrArg BlockPart.cmdBusy block).trans h.idle, latch, envMove_sampled h.sampled m, enabled, h.buffer, full⟩

theorem Stranded.envMoves {t : State} {b : Nat} (h : Stranded t b) (ms : List EnvMove) :
    Stranded (ms.foldl Machine.envMove t) b := by
  induction ms generalizing t with
  | nil => exact h
  | cons m ms ih => exact ih (h.envMove m)

/-- Settles O50: the handler clears the flag of the buffer that it served and the latch, and the other buffer is full. -/
theorem strandedInterrupt : Obligations.StrandedInterrupt := by
  intro s accepted hd run handler idle ready still enabled full0 full1
  obtain ⟨t, next, foreground, latch, _, run', flags, _, busy, _⟩ :=
    handlerClearsAndReturns s accepted hd run handler ready still
  obtain ⟨cfg, _⟩ := faultsAreKept s t next
  obtain ⟨sampled, caninte⟩ := step_handler_caninte accepted hd run handler still next
  have dev : t.cfg.dev = .standard := by rw [cfg, hd]
  obtain ⟨b, buffer, other, full⟩ : ∃ b ≤ 1, b ≠ hitBuffer s.lastHit ∧ s.rxFlag b = true := by
    by_cases served : hitBuffer s.lastHit = 0
    · exact ⟨1, by decide, by omega, full1⟩
    · exact ⟨0, by decide, by omega, full0⟩
  have still_full : t.rxFlag b = true := by
    rw [rxFlag_standard hd] at full
    rw [rxFlag_standard dev, flags b (by omega), full, decide_eq_false other]
    rfl
  have stranded : Stranded t b :=
    ⟨dev, run', foreground, busy.trans idle, latch, sampled, caninte.trans enabled, buffer, still_full⟩
  exact ⟨t, next, stranded.stuck, fun ms => ⟨(stranded.envMoves ms).stuck, (stranded.envMoves ms).line⟩⟩

end Sys2Proof.Machine
end

section
/-! A boot that fails, and a boot that ends (R44, R163, R172). The steps here have gaps without a move, and each but the last
transaction leaves the line as it was sampled. -/

namespace Sys2Proof.Machine

/-! ### Steps of the boot sequence -/

theorem step_boot {s : State} (accepted : s.cfg.valid = true) (boot : s.phase = .boot) : step s = bootStep s := by
  rw [step, if_pos accepted, boot]

theorem step_resetDelay {s : State} (accepted : s.cfg.valid = true) (waits : s.phase = .resetDelay) :
    step s = .next (resetDelayStep s) := by
  rw [step, if_pos accepted, waits]

/-- A step of the block that leaves the line as it was sampled, and a gap without a move, change nothing. -/
theorem tick_envGap_of_rest {s : State} (still : Still s) (sampled : Sampled s) : tick envGap s = s :=
  (tick_envGap_of_still s still).trans (sample_of_sampled sampled)

/-! ### A boot load that fails (R163) -/

/-- The sequencer in a phase (R23). -/
def State.setPhase (s : State) (p : Phase) : State := { s with phase := p }

/-- A load that finds a write cycle running gives up after its polls and escalates (R98, R163). -/
theorem step_load_busy {s : State} {k : Nat} (accepted : s.cfg.valid = true) (bits : StatusBits s.cfg) (boot : s.phase = .boot)
    (line : s.boot = .load k) (slot : k < s.cfg.numSignals) (busy : s.wip = true) (ready : Ready s) (still : Still s) :
    ∃ issued ev, step s = .next ((s.traced issued ev).setPhase .resetDelay) := by
  have ⟨sampled, _⟩ := ready
  obtain ⟨issued, fails⟩ := eeReadOp_quiet_busy (quiet_envGap still) ready bits busy (s.cfg.sigAddr k) sigRecBytes
    (valid_record accepted slot) (by decide)
  generalize List.replicate s.cfg.eeBailout _ = ev at fails
  refine ⟨issued, ev, ?_⟩
  rw [step_boot accepted boot, bootStep, line]
  simp only [bootLoad, if_pos slot, sigLoad_of_error fails]
  exact congrArg _ (tick_envGap_of_rest (s := (s.traced issued ev).setPhase .resetDelay) still sampled)

/-- The wait changes nothing, and the device reset is followed by the edge detector (R144, R163). -/
theorem resetDelayStep_still {s : State} (still : Still s) (sampled : Sampled s) :
    resetDelayStep s = sample (deviceReset s) := by
  rw [resetDelayStep, delay, tick_envGap_of_rest still sampled]
  exact tick_envGap_of_still (deviceReset s) still

/-- Settles O57: after the reset the line has not been sampled yet, so if it is asserted the edge detector sees an edge. -/
theorem bootFailureResets : Obligations.BootFailureResets := by
  intro s k accepted bits boot line slot busy ready still
  have ⟨sampled, _⟩ := ready
  obtain ⟨issued, ev, fails⟩ := step_load_busy accepted bits boot line slot busy ready still
  have resets := (step_resetDelay (s := (s.traced issued ev).setPhase .resetDelay) accepted rfl).trans
    (congrArg _ (resetDelayStep_still still sampled))
  have edge : (sample (deviceReset ((s.traced issued ev).setPhase .resetDelay))).latch =
      (sample (deviceReset ((s.traced issued ev).setPhase .resetDelay))).intLine := Bool.and_true _
  exact ⟨_, _, fails, rfl, rfl, resets, rfl, rfl, rfl, rfl, rfl, rfl, rfl, rfl, rfl, rfl, edge, rfl, rfl, rfl,
    ⟨fun _ => rfl, rfl, rfl⟩, ⟨fun _ => rfl, rfl, rfl, rfl, rfl⟩, rfl⟩

/-! ### The end of the boot (R172, lines 12 to 14) -/

/-- The latch cleared. -/
def State.clearLatch (s : State) : State := { s with latch := false }

theorem bootStep_clearLatch {s : State} (line : s.boot = .clearLatch) :
    bootStep s = bootLine .enableInt (tick envGap s.clearLatch) := by
  cases s
  cases line
  rfl

theorem bootStep_enterRun {s : State} (line : s.boot = .enterRun) :
    bootStep s = .next (tick envGap ((s.setPhase .run).setGie true)) := by
  cases s
  cases line
  rfl

/-- Line 12 where the line is as it was sampled: the latch stays clear. -/
theorem step_clearLatch {s : State} (accepted : s.cfg.valid = true) (boot : s.phase = .boot) (line : s.boot = .clearLatch)
    (sampled : Sampled s) (still : Still s) : step s = .next (s.clearLatch.at .enableInt) := by
  rw [step_boot accepted boot, bootStep_clearLatch line, tick_envGap_of_rest (s := s.clearLatch) still sampled, bootLine]

/-- CANINTE written by one transaction. -/
def State.enableReceive (s : State) : State := (s.setReg 0x2B 0x03).endXfer (.canWrite 0x2B [0x03]) []

/-- Line 13: CANINTE is written, and the edge detector samples the line that it may have asserted. -/
theorem step_enableInt {s : State} (accepted : s.cfg.valid = true) (hd : s.cfg.dev = .standard) (boot : s.phase = .boot)
    (line : s.boot = .enableInt) (still : Still s) :
    step s = .next ((sample s.enableReceive).at .enterRun) := by
  have unlocked : (s.cfg.dev.map.isConfig 0x2B && !s.inMode .config) = false := by
    rw [hd]
    rfl
  have written : s.ctlWrites 0x2B [0x03] = s.setReg 0x2B 0x03 := by
    rw [State.ctlWrites, State.ctlWrites, State.ctlWrite, unlocked, writable_plain hd (by decide)]
    rfl
  rw [step_boot accepted boot, bootStep, line]
  simp only [hd, show DevParams.standard.map.caninte = 0x2B from rfl]
  rw [writeReg, xferOut, xfer, transact_canWrite, written]
  exact congrArg (fun t : State => bootLine .enterRun t)
    (tick_envGap_of_still s.enableReceive still)

/-- Line 14. -/
theorem step_enterRun {s : State} (accepted : s.cfg.valid = true) (boot : s.phase = .boot) (line : s.boot = .enterRun)
    (sampled : Sampled s) (still : Still s) : step s = .next ((s.setPhase .run).setGie true) := by
  rw [step_boot accepted boot, bootStep_enterRun line,
    tick_envGap_of_rest (s := (s.setPhase .run).setGie true) still sampled]

/-- Settles O56: with CANINTE 0 the line was deasserted, so it rises at line 13 exactly if a frame is buffered. -/
theorem bootEntersRun : Obligations.BootEntersRun := by
  intro s accepted hd boot line ready still disabled
  have ⟨sampled, _⟩ := ready
  have deasserted : s.intPrev = false := by
    rw [sampled, intLine_standard hd, disabled]
    exact bne_eq_false_iff_eq.2 BitVec.and_zero
  have written : ∀ a, (s.setReg 0x2B 0x03).reg a = if a = 0x2B then 0x03 else s.reg a := fun a => by
    rw [reg_setReg]
    exact if_congr ⟨fun h => h.1.symm, fun h => ⟨h.symm, by omega⟩⟩ rfl rfl
  have rises : (s.setReg 0x2B 0x03).intLine = (s.rxFlag 0 || s.rxFlag 1) := by
    rw [intLine_eq_rxFlags (s := s.setReg 0x2B 0x03) hd (written 0x2B), rxFlag_standard (s := s.setReg 0x2B 0x03) hd,
      rxFlag_standard (s := s.setReg 0x2B 0x03) hd, written, rxFlag_standard hd, rxFlag_standard hd]
    rfl
  have step12 := step_clearLatch accepted boot line sampled still
  have step13 := step_enableInt (s := s.clearLatch.at .enableInt) accepted hd boot rfl still
  have step14 := step_enterRun (s := (sample (s.clearLatch.at .enableInt).enableReceive).at .enterRun) accepted boot rfl
    (sample_sampled (s.clearLatch.at .enableInt).enableReceive) still
  refine ⟨_, (steps_succ step12 2).trans ((steps_succ step13 1).trans (steps_succ step14 0)), rfl, rfl, written 0x2B, ?_,
    fun a other => (written a).trans (if_neg other), rfl, fun _ => rfl, rfl, rfl, rfl, rfl⟩
  show (false || ((s.setReg 0x2B 0x03).intLine && !s.intPrev)) = _
  rw [rises, deasserted, Bool.not_false, Bool.and_true, Bool.false_or]

end Sys2Proof.Machine
end

section
/-! The boot programs the controller (R172, lines 3 to 9): in Config mode each line is a few block writes of configuration
registers, and no two of the writes of the seven lines meet in a register. -/

namespace Sys2Proof.Machine

/-! ### The interrupt enable is no matter of the boot (R158) -/

theorem Marked.of_setGie {s t : State} {b : Bool} (h : Marked (s.setGie b) (t.setGie b)) (gie : t.gie = s.gie) :
    Marked s t := by
  have forget : ∀ {p q : BlockPart}, { p with gie := b } = { q with gie := b } → p.gie = q.gie → p = q := by
    intro p q same gie
    cases p
    cases q
    simp only [BlockPart.mk.injEq] at same gie ⊢
    simp only [same, gie, and_self]
  rcases h with same | issued
  · exact .inl (forget same gie)
  · exact .inr (forget issued gie)

theorem Writes.of_setGie {P : Nat → Prop} {s t : State} {b : Bool} (h : Writes P (s.setGie b) (t.setGie b))
    (gie : t.gie = s.gie) : Writes P s t :=
  ⟨h.block.of_setGie gie, h.eeprom, h.edge, h.line, h.lastHit, h.lastType, h.busIn, h.busOut, h.sched, h.regs⟩

theorem setGie_setGie_gie (s : State) (b : Bool) : (s.setGie b).setGie s.gie = s := rfl

theorem sameEeprom_of_eePart {s t : State} (same : t.eePart = s.eePart) (protect : t.eeProtect = s.eeProtect) :
    SameEeprom s t :=
  ⟨fun a => congrArg (Memory.read · a) (ee_of_eePart same), wip_of_eePart same, wel_of_eePart same, pageBuf_of_eePart same,
    protect⟩

theorem Marked.phase {s t : State} (h : Marked s t) : t.phase = s.phase := by
  rcases h with h | h <;> exact congrArg BlockPart.phase h

theorem Marked.at {s t : State} (h : Marked s t) (p : BootPos) : Marked (s.at p) (t.at p) := by
  rcases h with same | issued
  · exact .inl (congrArg (fun b : BlockPart => { b with boot := p }) same)
  · exact .inr (congrArg (fun b : BlockPart => { b with boot := p }) issued)

theorem Writes.at {P : Nat → Prop} {s t : State} (h : Writes P s t) (p : BootPos) : Writes P (s.at p) (t.at p) :=
  ⟨h.block.at p, h.eeprom, h.edge, h.line, h.lastHit, h.lastType, h.busIn, h.busOut, h.sched, h.regs⟩

/-- A block write of configuration registers in the boot, as in a command that runs alone. -/
theorem writeBlock_still {s : State} (hd : s.cfg.dev = .standard) (still : Still s) (sampled : Sampled s) {a : Nat}
    {d : List Byte} (config : ∀ r, a ≤ r → r < a + d.length → ConfigReg r) :
    Writes ConfigReg s (writeBlock envGap a d s) ∧
      ∀ b, (writeBlock envGap a d s).reg b =
        if s.inMode .config = true ∧ a ≤ b ∧ b < a + d.length then d.getD (b - a) 0 else s.reg b := by
  have in_config : WritesIn ConfigReg (.canWrite a d) := config
  obtain ⟨writes, regs, _⟩ := writeBlock_config (s := s.setGie false) hd ⟨rfl, still⟩ sampled config
  rw [writeBlock, xferOut, xfer_critical in_config s] at writes regs
  exact ⟨writes.of_setGie (xfer_keeps good_envGap _ s).gie, regs⟩

/-! ### Block writes one after another -/

/-- The block writes of a boot line, each the first register and the bytes. -/
def blockWrites (ws : List (Nat × List Byte)) (s : State) : State :=
  ws.foldl (fun u w => writeBlock envGap w.1 w.2 u) s

/-- What registers hold after bytes have been written over what they held. -/
def overwrite (r : Nat → Byte) (w : Nat × List Byte) (b : Nat) : Byte :=
  if w.1 ≤ b ∧ b < w.1 + w.2.length then w.2.getD (b - w.1) 0 else r b

/-- What registers hold after such writes in their order. -/
def written (ws : List (Nat × List Byte)) (r : Nat → Byte) : Nat → Byte := ws.foldl overwrite r

theorem written_cons (w : Nat × List Byte) (ws : List (Nat × List Byte)) (r : Nat → Byte) :
    written (w :: ws) r = written ws (overwrite r w) := rfl

theorem written_append (ws vs : List (Nat × List Byte)) (r : Nat → Byte) :
    written (ws ++ vs) r = written vs (written ws r) := List.foldl_append

theorem overwrite_inside (r : Nat → Byte) (w : Nat × List Byte) {j : Nat} (inside : j < w.2.length) :
    overwrite r w (w.1 + j) = w.2.getD j 0 := by
  rw [overwrite, if_pos (by omega), Nat.add_sub_cancel_left]

theorem written_of_outside {ws : List (Nat × List Byte)} {r : Nat → Byte} {b : Nat}
    (outside : ∀ w ∈ ws, b < w.1 ∨ w.1 + w.2.length ≤ b) : written ws r b = r b := by
  induction ws generalizing r with
  | nil => rfl
  | cons w ws ih =>
    have first := outside w List.mem_cons_self
    rw [written_cons, ih fun v hv => outside v (List.mem_cons_of_mem w hv), overwrite, if_neg (by omega)]

/-- No two of the writes meet in a register. -/
def Apart (ws : List (Nat × List Byte)) : Prop :=
  ws.Pairwise fun v w => v.1 + v.2.length ≤ w.1 ∨ w.1 + w.2.length ≤ v.1

/-- Of writes that do not meet each one lasts. -/
theorem written_of_mem {ws : List (Nat × List Byte)} (apart : Apart ws) {w : Nat × List Byte} (mem : w ∈ ws) {j : Nat}
    (inside : j < w.2.length) (r : Nat → Byte) : written ws r (w.1 + j) = w.2.getD j 0 := by
  induction ws generalizing r with
  | nil => exact nomatch mem
  | cons v ws ih =>
    obtain ⟨first, rest⟩ := List.pairwise_cons.1 apart
    rw [written_cons]
    rcases List.mem_cons.1 mem with rfl | later
    · have outside : ∀ u ∈ ws, w.1 + j < u.1 ∨ u.1 + u.2.length ≤ w.1 + j := fun u hu => by
        have := first u hu
        omega
      rw [written_of_outside outside, overwrite_inside r w inside]
    · exact ih rest later _

/-- From s to t the writes have been made, and configuration registers are all that has changed. -/
structure Programs (ws : List (Nat × List Byte)) (s t : State) : Prop where
  writes : Writes ConfigReg s t
  regs : ∀ b, t.reg b = written ws s.reg b

theorem Programs.trans {ws vs : List (Nat × List Byte)} {s t u : State} (h1 : Programs ws s t) (h2 : Programs vs t u) :
    Programs (ws ++ vs) s u where
  writes := h1.writes.trans h2.writes
  regs b := by
    rw [h2.regs, show t.reg = written ws s.reg from funext h1.regs, written_append]

/-- The writes are to configuration registers. -/
def InConfig (ws : List (Nat × List Byte)) : Prop := ∀ w ∈ ws, ∀ r, w.1 ≤ r → r < w.1 + w.2.length → ConfigReg r

/-- What the lines 3 to 9 need: the boot in Config mode with no move of another agent to come. -/
structure Programmable (s : State) : Prop where
  accepted : s.cfg.valid = true
  standard : s.cfg.dev = .standard
  boot : s.phase = .boot
  sampled : Sampled s
  still : Still s
  config : s.inMode .config = true

theorem Writes.programmable {s t : State} (h : Writes ConfigReg s t) (start : Programmable s) : Programmable t where
  accepted := by rw [h.cfg, start.accepted]
  standard := h.standard start.standard
  boot := h.block.phase.trans start.boot
  sampled := h.sampled start.sampled
  still := h.still start.still
  config := (h.inMode start.standard not_configReg_canstat _).trans start.config

theorem blockWrites_programs {ws : List (Nat × List Byte)} (in_config : InConfig ws) {s : State} (start : Programmable s) :
    Programs ws s (blockWrites ws s) := by
  induction ws generalizing s with
  | nil => exact ⟨.refl _ s, fun _ => rfl⟩
  | cons w ws ih =>
    obtain ⟨writes, regs⟩ := writeBlock_still start.standard start.still start.sampled (in_config w List.mem_cons_self)
    have first : Programs [w] s (writeBlock envGap w.1 w.2 s) :=
      ⟨writes, fun b => (regs b).trans (if_congr (and_iff_right start.config) rfl rfl)⟩
    exact first.trans (ih (fun v hv => in_config v (List.mem_cons_of_mem w hv)) (writes.programmable start))

/-! ### The lines 3 to 9 -/

/-- A boot line made of block writes: the position after it, and the writes (R172). -/
def programLine (p : Params) : BootPos → Option (BootPos × List (Nat × List Byte))
  | .bitTiming => some (.mask0, [(0x2A, [p.cnf1]), (0x29, [p.cnf2]), (0x28, [p.cnf3])])
  | .mask0 => some (.mask1, [(0x20, packId 3 p.ctrlMask)])
  | .mask1 => some (.filter0, [(0x24, packId 3 (.std 0))])
  | .filter0 => some (.filter1, [(0x00, packId 3 p.tableCtrlId)])
  | .filter1 => some (.stdFilters, [(0x04, packId 3 p.sigCtrlId)])
  | .stdFilters => some (.extFilters, [(0x08, packId 3 (.std 0)), (0x10, packId 3 (.std 0))])
  | .extFilters => some (.setNormal, [(0x14, packId 3 (.ext 0)), (0x18, packId 3 (.ext 0))])
  | _ => none

theorem setMask_eq {s : State} (hd : s.cfg.dev = .standard) (k : Nat) (id : CanId) :
    setMask envGap k id s = blockWrites [(DevParams.standard.map.mask k, packId 3 id)] s := by
  rw [setMask, hd]
  rfl

theorem setFilter_eq {s : State} (hd : s.cfg.dev = .standard) (n : Nat) (id : CanId) :
    setFilter envGap n id s = blockWrites [(DevParams.standard.map.filter n, packId 3 id)] s := by
  rw [setFilter, hd]
  rfl

theorem setFilter_setFilter_eq {s : State} (hd : s.cfg.dev = .standard) (n m : Nat) (id : CanId) :
    setFilter envGap m id (setFilter envGap n id s) =
      blockWrites [(DevParams.standard.map.filter n, packId 3 id), (DevParams.standard.map.filter m, packId 3 id)] s := by
  have dev : (setFilter envGap n id s).cfg.dev = .standard :=
    (congrArg Params.dev (xfer_keeps good_envGap _ s).cfg).trans hd
  rw [setFilter_eq dev, setFilter_eq hd]
  rfl

theorem bootStep_programLine {s : State} (hd : s.cfg.dev = .standard) {q : BootPos} {ws : List (Nat × List Byte)}
    (line : programLine s.cfg s.boot = some (q, ws)) : bootStep s = bootLine q (blockWrites ws s) := by
  rw [bootStep]
  cases pos : s.boot <;> rw [pos] at line
  case bitTiming =>
    obtain ⟨rfl, rfl⟩ := Prod.mk.inj (Option.some.inj line)
    simp only [setBitTiming, hd]
    rfl
  case mask0 =>
    obtain ⟨rfl, rfl⟩ := Prod.mk.inj (Option.some.inj line)
    exact congrArg (bootLine .mask1) (setMask_eq hd 0 _)
  case mask1 =>
    obtain ⟨rfl, rfl⟩ := Prod.mk.inj (Option.some.inj line)
    exact congrArg (bootLine .filter0) (setMask_eq hd 1 _)
  case filter0 =>
    obtain ⟨rfl, rfl⟩ := Prod.mk.inj (Option.some.inj line)
    exact congrArg (bootLine .filter1) (setFilter_eq hd 0 _)
  case filter1 =>
    obtain ⟨rfl, rfl⟩ := Prod.mk.inj (Option.some.inj line)
    exact congrArg (bootLine .stdFilters) (setFilter_eq hd 1 _)
  case stdFilters =>
    obtain ⟨rfl, rfl⟩ := Prod.mk.inj (Option.some.inj line)
    exact congrArg (bootLine .extFilters) (setFilter_setFilter_eq hd 2 3 _)
  case extFilters =>
    obtain ⟨rfl, rfl⟩ := Prod.mk.inj (Option.some.inj line)
    exact congrArg (bootLine .setNormal) (setFilter_setFilter_eq hd 4 5 _)
  all_goals exact nomatch line

/-- Each line writes configuration registers only (R105). -/
theorem programLine_inConfig {p : Params} {at_line next : BootPos} {ws : List (Nat × List Byte)}
    (line : programLine p at_line = some (next, ws)) : InConfig ws := by
  have bound : ∀ w ∈ ws,
      w.1 + w.2.length ≤ 0x0C ∨ 0x10 ≤ w.1 ∧ w.1 + w.2.length ≤ 0x1C ∨ 0x20 ≤ w.1 ∧ w.1 + w.2.length ≤ 0x2B := by
    cases at_line <;> simp only [programLine, Option.some.injEq, Prod.mk.injEq, reduceCtorEq] at line
    all_goals
      obtain ⟨rfl, rfl⟩ := line
      simp [packId_length]
  intro w mem r lo hi
  have := bound w mem
  rw [configReg_iff]
  omega

/-! ### The seven lines one after another -/

/-- The boot is at a position n steps after s, with the writes made on the way. -/
structure Programming (s t : State) (n : Nat) (p : BootPos) (ws : List (Nat × List Byte)) : Prop where
  reached : steps n s = .next t
  boot : t.boot = p
  programs : Programs ws (s.at p) t

theorem Programs.at {ws : List (Nat × List Byte)} {s t : State} (h : Programs ws s t) (p : BootPos) :
    Programs ws (s.at p) (t.at p) :=
  ⟨h.writes.at p, h.regs⟩

theorem programming_zero (s : State) : Programming s s 0 s.boot [] :=
  ⟨rfl, rfl, .refl _ s, fun _ => rfl⟩

/-- One line more. -/
theorem Programming.line {s t : State} {n : Nat} {p q : BootPos} {ws vs : List (Nat × List Byte)}
    (h : Programming s t n p ws) (start : Programmable s) (line : programLine s.cfg p = some (q, vs)) :
    ∃ u, Programming s u (n + 1) q (ws ++ vs) := by
  have here : Programmable t := h.programs.writes.programmable (s := s.at p) ⟨start.accepted, start.standard, start.boot,
    start.sampled, start.still, start.config⟩
  have cfg : t.cfg = s.cfg := h.programs.writes.cfg
  have next : step t = .next ((blockWrites vs t).at q) := by
    rw [step_boot here.accepted here.boot, bootStep_programLine here.standard (by rw [cfg, h.boot, line]), bootLine]
  refine ⟨(blockWrites vs t).at q, ?_, rfl, ?_⟩
  · rw [steps_add n 1 s t h.reached, steps_succ next]
    rfl
  · exact (h.programs.at q).trans ((blockWrites_programs (programLine_inConfig line) here).at q)

/-- The writes of the seven lines (R172). -/
def bootProgram (p : Params) : List (Nat × List Byte) :=
  [(0x2A, [p.cnf1]), (0x29, [p.cnf2]), (0x28, [p.cnf3]), (0x20, packId 3 p.ctrlMask), (0x24, packId 3 (.std 0)),
    (0x00, packId 3 p.tableCtrlId), (0x04, packId 3 p.sigCtrlId), (0x08, packId 3 (.std 0)), (0x10, packId 3 (.std 0)),
    (0x14, packId 3 (.ext 0)), (0x18, packId 3 (.ext 0))]

theorem bootProgram_apart (p : Params) : Apart (bootProgram p) := by
  simp [Apart, bootProgram, packId_length]

theorem steps_bootProgram {s : State} (start : Programmable s) (line : s.boot = .bitTiming) :
    ∃ t, Programming s t 7 .setNormal (bootProgram s.cfg) := by
  have none_yet := programming_zero s
  rw [line] at none_yet
  obtain ⟨_, bit_timing⟩ := none_yet.line start rfl
  obtain ⟨_, mask0⟩ := bit_timing.line start rfl
  obtain ⟨_, mask1⟩ := mask0.line start rfl
  obtain ⟨_, filter0⟩ := mask1.line start rfl
  obtain ⟨_, filter1⟩ := filter0.line start rfl
  obtain ⟨_, std_filters⟩ := filter1.line start rfl
  exact std_filters.line start rfl

/-- Settles O55: the registers hold what the writes of the seven lines put there. -/
theorem bootProgramsTheController : Obligations.BootProgramsTheController := by
  intro s accepted hd boot line ready still config
  have ⟨sampled, can, ee⟩ := ready
  obtain ⟨t, reached, at_setNormal, writes, regs⟩ := steps_bootProgram ⟨accepted, hd, boot, sampled, still, config⟩ line
  have wrote {w : Nat × List Byte} (mem : w ∈ bootProgram s.cfg) (j : Nat) (inside : j < w.2.length) :
      t.reg (w.1 + j) = w.2.getD j 0 :=
    (regs _).trans (written_of_mem (bootProgram_apart s.cfg) mem inside _)
  have group {base : Nat} {id : CanId} (mem : (base, packId 3 id) ∈ bootProgram s.cfg) (j : Nat) (inside : j < 4) :
      t.reg (base + j) = (packId 3 id).getD j 0 :=
    wrote mem j (by rw [packId_length]; exact inside)
  have cfg : t.cfg = s.cfg := writes.cfg
  have programmed : Programmed t := by
    rw [Programmed, cfg]
    refine ⟨hd, group (by simp [bootProgram]), fun j hj => ?_, group (by simp [bootProgram]), group (by simp [bootProgram]),
      fun j hj => ⟨?_, ?_⟩, fun j hj => ⟨group (by simp [bootProgram]) j hj, group (by simp [bootProgram]) j hj⟩⟩
    all_goals rw [group (id := .std 0) (by simp [bootProgram]) j hj, packId_zero]
  exact ⟨t, reached, at_setNormal, programmed,
    wrote (w := (0x2A, [s.cfg.cnf1])) (by simp [bootProgram]) 0 Nat.one_pos,
    wrote (w := (0x29, [s.cfg.cnf2])) (by simp [bootProgram]) 0 Nat.one_pos,
    wrote (w := (0x28, [s.cfg.cnf3])) (by simp [bootProgram]) 0 Nat.one_pos,
    writes.block.sameBlock can ee, sameEeprom_of_eePart writes.eeprom writes.block.eeProtect⟩

end Sys2Proof.Machine
end

section
/-! The boot resets the controller, sets the modes and loads the mirror (R172, lines 1, 2, 10 and 11). setMode in the boot is what
it is in a critical section, since no handler is entered in either (R158). -/

namespace Sys2Proof.Machine

/-! ### The interrupt enable and setMode -/

theorem readReg_critical (a : Nat) (s : State) :
    readReg fgGap a (s.setGie false) = ((readReg envGap a s).1, (readReg envGap a s).2.setGie false) := by
  rw [readReg, xfer_critical (P := fun _ => False) (x := .canRead a 1) trivial]
  rfl

theorem modePoll_critical (md : Mode) (n : Nat) (s : State) :
    modePoll fgGap md n (s.setGie false) = (modePoll envGap md n s).map (State.setGie · false) := by
  induction n generalizing s with
  | zero => rfl
  | succ n ih =>
    have same : (s.setGie false).cfg = s.cfg := rfl
    simp only [modePoll, same, readReg_critical]
    split
    · rfl
    · exact ih _

theorem setModeOp_critical (md : Mode) (s : State) :
    setModeOp fgGap md (s.setGie false) = (setModeOp envGap md s).map (State.setGie · false) := by
  have same : (s.setGie false).cfg = s.cfg := rfl
  simp only [setModeOp, same, bitModify, xferOut]
  rw [xfer_critical (P := fun _ => True) (x := .canBitmod _ _ _) trivial]
  generalize (xfer envGap (.canBitmod s.cfg.dev.map.canctrl s.cfg.dev.modeMask (modeCode s.cfg.dev md ++ 0#5)) s).2 = u
  have bound : modePollBound (u.setGie false) = modePollBound u := rfl
  simp only [bound, modePoll_critical, Option.map_map]
  rfl

theorem Writes.setGie {P : Nat → Prop} {s t : State} (h : Writes P s t) (b : Bool) :
    Writes P (s.setGie b) (t.setGie b) := by
  obtain ⟨block, eeprom, edge, line, lastHit, lastType, busIn, busOut, sched, kept⟩ := h
  have moved : Marked (s.setGie b) (t.setGie b) := by
    rcases block with same | issued
    · exact .inl (congrArg (fun p : BlockPart => { p with gie := b }) same)
    · exact .inr (congrArg (fun p : BlockPart => { p with gie := b }) issued)
  exact ⟨moved, eeprom, edge, line, lastHit, lastType, busIn, busOut, sched, kept⟩

/-- A setMode that ends in a critical section ends in the boot, with the same writes. -/
theorem setModeOp_of_critical {P : Nat → Prop} {s w : State} {md : Mode}
    (op : setModeOp fgGap md (s.setGie false) = some (w.rememberMode md)) (writes : Writes P (s.setGie false) w) :
    setModeOp envGap md s = some ((w.setGie s.gie).rememberMode md) ∧ Writes P s (w.setGie s.gie) := by
  obtain ⟨t, op_boot, same⟩ := Option.map_eq_some_iff.1 ((setModeOp_critical md s).symm.trans op)
  have gie : t.gie = s.gie := (setModeOp_keeps good_envGap md s t op_boot).gie
  refine ⟨op_boot.trans (congrArg some ?_), writes.setGie s.gie⟩
  calc t = (t.setGie false).setGie s.gie := by rw [← gie, setGie_setGie_gie]
    _ = (w.rememberMode md).setGie s.gie := by rw [same]

theorem bootMode_of_some {md : Mode} {p : BootPos} {s t : State} (op : setModeOp envGap md s = some t) :
    bootMode md p s = .next (t.at p) := by
  rw [bootMode, op]

/-! ### Line 10: Normal mode -/

/-- setMode in the boot, with the mode reported or the environment fair. -/
theorem setModeOp_boot {s : State} (hd : s.cfg.dev = .standard) (sampled : Sampled s) {md : Mode}
    (environment : Fair s ∨ Still s ∧ s.inMode md = true) :
    ∃ w, setModeOp envGap md s = some (w.rememberMode md) ∧ Writes ModeReg s w ∧ w.inMode md = true ∧
      w.reqop = modeCode s.cfg.dev md := by
  have reached : ModeReached (s.setGie false) (xfer fgGap (modeRequest md) (s.setGie false)).2 md := by
    rcases environment with fair | ⟨still, mode⟩
    · exact modeReached_of_fair (s := s.setGie false) hd rfl fair sampled md
    · exact modeReached_of_reported (s := s.setGie false) hd ⟨rfl, still⟩ sampled mode
  obtain ⟨w, op, writes, mode, reqop⟩ := setModeOp_of_reached (s := s.setGie false) hd sampled reached
  obtain ⟨op_boot, writes_boot⟩ := setModeOp_of_critical op writes
  exact ⟨_, op_boot, writes_boot, mode, reqop⟩

/-- With another mode reported and no move to come the wait never ends (R182). The edge detector has seen the line by the first
poll. -/
theorem setModeOp_boot_never {s : State} (hd : s.cfg.dev = .standard) (still : Still s) {md : Mode}
    (mode : s.inMode md = false) : setModeOp envGap md s = none := by
  have requested := transact_modeRequest_writes (s := s.setGie false) hd md
  have alone := requested.alone ⟨rfl, still⟩
  have reported := (requested.inMode hd (by decide) md).trans mode
  have request : (xfer fgGap (modeRequest md) (s.setGie false)).2 =
      sample ((s.setGie false).transact (modeRequest md)).2 :=
    tick_fgGap_of_alone _ alone
  have never := setModeOp_eq (s := s.setGie false) hd md
  rw [request] at never
  have standard := requested.standard hd
  generalize ((s.setGie false).transact (modeRequest md)).2 = u at *
  rw [modePoll_of_not_inMode (s := sample u) standard (sample_alone alone).settled (sample_sampled u) reported,
    setModeOp_critical] at never
  exact Option.map_eq_none_iff.1 never

/-! ### Line 1: the controller is reset -/

/-- The gap at launch, with no move scheduled: the controller may change its mode, and the edge detector samples the line. -/
theorem envGap_of_unscheduled {s : State} (sched : s.sched = []) :
    ∃ c latch prev, envGap s = { s with ctl := c, latch := latch, intPrev := prev } := by
  rcases Bool.eq_false_or_eq_true s.modeFair with fair | fair
  · rw [envGap_fair ⟨sched, fair⟩, envMove, State.move, State.modeChange]
    split
    · split <;> exact ⟨_, _, _, rfl⟩
    · exact ⟨_, _, _, rfl⟩
  · exact ⟨_, _, _, envGap_of_still s ⟨sched, fair⟩⟩

/-- A gap in which the controller has no mode to change. -/
theorem envGap_of_settled {s : State} (sched : s.sched = []) (settled : s.opmod = s.reqop) : envGap s = s := by
  have gap : fgGap (s.setGie false) = s.setGie false := fgGap_of_settled ⟨rfl, sched, fun _ => settled⟩
  rw [fgGap_of_gie_false _ rfl, envGap_setGie] at gap
  have gie : (envGap s).gie = s.gie := congrArg BlockPart.gie (envGap_blockPart s)
  calc envGap s = ((envGap s).setGie false).setGie s.gie := by rw [← gie, setGie_setGie_gie]
    _ = s := by rw [gap, setGie_setGie_gie]

/-- What the boot finds before line 2. -/
structure BootReset (s t : State) : Prop where
  reads : ReadsReset t
  sampled : Sampled t
  block : SameBlock { s with boot := .setConfig, modeShadow := none } t
  lastHit : t.lastHit = s.lastHit
  lastType : t.lastType = s.lastType
  eeprom : SameEeprom s t
  world : SameWorld s t
  events : t.events = s.events ++ [.xfer .can [0xC0] []]

/-- The transaction of line 1 and the edge detector. -/
theorem bootReset_of_unscheduled {s : State} (hd : s.cfg.dev = .standard) (sched : s.sched = []) (can : s.csCan = false)
    (ee : s.csEe = false) : ∃ t, resetOp envGap s = t ∧ BootReset s (t.at .setConfig) := by
  have reads := controllerReset_reads hd
  have block := controllerReset_sameBlock s
  have eeprom := controllerReset_sameEeprom s
  have world := controllerReset_sameWorld s
  have hit := s.controllerReset_lastHit
  have type := s.controllerReset_lastType
  have events := s.controllerReset_events
  rw [resetOp_eq, tick]
  generalize s.controllerReset = v at *
  obtain ⟨opmod, reqop, caninte, canintf, txb0ctrl, txreq, txerr, line⟩ := reads
  obtain ⟨cfg, phase, boot, mirror, gie, ctx, _, _, _, err, faults⟩ := block
  have dev : v.cfg.dev = .standard := by rw [cfg, hd]
  have settled : v.opmod = v.reqop := ((inMode_iff dev .config).1 opmod).trans reqop.symm
  obtain ⟨out, busIn, busOut, script, no_sched, fair⟩ := world
  have gap : envGap (sample (v.forgetMode.endXfer .canReset [])) = sample (v.forgetMode.endXfer .canReset []) :=
    envGap_of_settled (no_sched.trans sched) settled
  have event : Event.xfer .can (Xfer.canReset.out v.cfg) [] = .xfer .can [0xC0] [] := by rw [Xfer.out, dev]; rfl
  rw [gap]
  exact ⟨_, rfl, ⟨opmod, reqop, caninte, canintf, txb0ctrl, txreq, txerr, line⟩, sample_sampled _,
    ⟨cfg, phase, rfl, mirror, gie, ctx, can.symm, ee.symm, rfl, err, faults⟩, hit, type, eeprom,
    ⟨out, busIn, busOut, script, no_sched, fair⟩, congr (congrArg _ events) (congrArg (fun e => [e]) event)⟩

/-- Line 1, after the gap at launch. -/
theorem step_reset {s : State} (accepted : s.cfg.valid = true) (hd : s.cfg.dev = .standard) (boot : s.phase = .boot)
    (line : s.boot = .reset) (sched : s.sched = []) (can : s.csCan = false) (ee : s.csEe = false) :
    ∃ t, step s = .next t ∧ BootReset s t := by
  obtain ⟨c, latch, prev, gap⟩ := envGap_of_unscheduled sched
  obtain ⟨t, op, reads, sampled, block, hit, type, eeprom, world, events⟩ :=
    bootReset_of_unscheduled (s := { s with ctl := c, latch := latch, intPrev := prev }) hd sched can ee
  refine ⟨t.at .setConfig, ?_, reads, sampled, block, hit, type, eeprom, world, events⟩
  rw [step_boot accepted boot, bootStep, line]
  simp only [gap, op, bootLine]

/-! ### Line 2: Config mode, which the controller reports already -/

/-- Where the mode is reported, setMode is its request and one poll. -/
theorem setModeOp_of_reported {s : State} (hd : s.cfg.dev = .standard) (critical : s.gie = false) (sched : s.sched = [])
    (sampled : Sampled s) {md : Mode} (mode : s.inMode md = true) :
    setModeOp fgGap md s =
      some (((s.transact (modeRequest md)).2.transact (.canRead 0x0E 1)).2.rememberMode md) := by
  have requested := transact_modeRequest_writes hd md
  have standard := requested.standard hd
  have reported := (requested.inMode hd (by decide) md).trans mode
  have settled : ModeSettled (s.transact (modeRequest md)).2 :=
    ⟨requested.block.gie.trans critical, requested.sched.trans sched,
      fun _ => ((inMode_iff standard md).1 reported).trans (reqop_request s md hd).symm⟩
  have request : (xfer fgGap (modeRequest md) s).2 = (s.transact (modeRequest md)).2 :=
    congrArg Prod.snd (xfer_of_fgGap_eq (requested.sampled sampled) (fgGap_of_settled settled))
  rw [setModeOp_eq hd md, request, modePollBound,
    modePoll_of_inMode standard settled (requested.sampled sampled) reported]
  rfl

/-- The two transactions of line 2. -/
theorem setModeOp_boot_config {s : State} (hd : s.cfg.dev = .standard) (sched : s.sched = []) (sampled : Sampled s)
    (mode : s.inMode .config = true) :
    ∃ w b, setModeOp envGap .config s = some (w.rememberMode .config) ∧ Writes ModeReg s w ∧
      w.reqop = 0b100 ∧ w.inMode .config = true ∧
      w.events = s.events ++ [.xfer .can [0x05, 0x0F, 0xE0, 0x80] [], .xfer .can [0x03, 0x0E] [b]] := by
  have op := setModeOp_of_reported (s := s.setGie false) hd rfl sched sampled mode
  have requested := transact_modeRequest_writes (s := s.setGie false) hd .config
  have request_event := transact_events (P := fun _ => True) (s := s.setGie false) (x := modeRequest .config) trivial
  have reqop : ((s.setGie false).transact (modeRequest .config)).2.reqop = 0b100 := reqop_request (s.setGie false) .config hd
  have answer : ((s.setGie false).transact (modeRequest .config)).1 = [] := by rw [transact_eq]; rfl
  have request_bytes : (modeRequest .config).out s.cfg = [0x05, 0x0F, 0xE0, 0x80] := by
    rw [modeRequest, Xfer.out, hd]
    rfl
  rw [answer, show (s.setGie false).cfg = s.cfg from rfl, request_bytes] at request_event
  have standard := requested.standard hd
  generalize ((s.setGie false).transact (modeRequest .config)).2 = u at *
  have polled := transact_canRead_writes standard 0x0E 1 (s := u)
  have poll_event := transact_events (P := fun _ => True) (s := u) (x := .canRead 0x0E 1) trivial
  have poll_bytes : (Xfer.canRead 0x0E 1).out u.cfg = [0x03, 0x0E] := by
    rw [Xfer.out, standard]
    rfl
  have reported := (polled.inMode standard id .config).trans ((requested.inMode hd (by decide) .config).trans mode)
  have kept : (u.transact (.canRead 0x0E 1)).2.reqop = u.reqop := by rw [transact_canRead, State.endXfer_reqop]
  rw [poll_bytes, request_event] at poll_event
  obtain ⟨op_boot, writes⟩ := setModeOp_of_critical op
    ((requested.mono fun _ => .inr).trans (polled.mono fun _ => False.elim) : Writes ModeReg _ _)
  refine ⟨_, u.reg 0x0E, op_boot, writes, kept.trans reqop, reported, poll_event.trans ?_⟩
  rw [List.append_assoc, transact_canRead]
  rfl

/-! ### What setMode leaves of a boot line -/

/-- A line that sets a mode has written mode registers, and goes on. -/
structure SetsMode (s t : State) (md : Mode) (p : BootPos) : Prop where
  regs : ∀ a, a ≠ 0x0E → a ≠ 0x0F → t.reg a = s.reg a
  block : SameBlock { s with boot := p, modeShadow := some md } t
  latch : SameLatch s t
  lastHit : t.lastHit = s.lastHit
  lastType : t.lastType = s.lastType
  eeprom : SameEeprom s t
  world : SameWorld s t
  free : t.freeN = s.freeN

theorem Writes.setsMode {s w : State} (h : Writes ModeReg s w) (can : s.csCan = false) (ee : s.csEe = false) (md : Mode)
    (p : BootPos) : SetsMode s ((w.rememberMode md).at p) md p where
  regs a not_canstat not_canctrl := h.regs a (not_or.2 ⟨not_canstat, not_canctrl⟩)
  block := ((h.block.rememberMode md).at p).sameBlock can ee
  latch := sameLatch_of_edgePart h.edge
  lastHit := h.lastHit
  lastType := h.lastType
  eeprom := sameEeprom_of_eePart h.eeprom h.block.eeProtect
  world := ⟨h.block.out, h.busIn, h.busOut, h.block.script, h.sched, h.block.modeFair⟩
  free := h.block.freeN

theorem SameEeprom.trans {s t u : State} (h1 : SameEeprom s t) (h2 : SameEeprom t u) : SameEeprom s u := by
  obtain ⟨array1, wip1, wel1, pageBuf1, protect1⟩ := h1
  obtain ⟨array2, wip2, wel2, pageBuf2, protect2⟩ := h2
  exact ⟨fun a => (array2 a).trans (array1 a), wip2.trans wip1, wel2.trans wel1, pageBuf2.trans pageBuf1,
    protect2.trans protect1⟩

theorem SameWorld.trans {s t u : State} (h1 : SameWorld s t) (h2 : SameWorld t u) : SameWorld s u := by
  obtain ⟨out1, busIn1, busOut1, script1, sched1, fair1⟩ := h1
  obtain ⟨out2, busIn2, busOut2, script2, sched2, fair2⟩ := h2
  exact ⟨out2.trans out1, busIn2.trans busIn1, busOut2.trans busOut1, script2.trans script1, sched2.trans sched1,
    fair2.trans fair1⟩

/-- A line that sets a mode leaves no trace of the position and the mode before it. -/
theorem SameBlock.line_trans {s t u : State} {p q : BootPos} {m n : Option Mode}
    (h1 : SameBlock { s with boot := p, modeShadow := m } t) (h2 : SameBlock { t with boot := q, modeShadow := n } u) :
    SameBlock { s with boot := q, modeShadow := n } u := by
  obtain ⟨cfg1, phase1, _, mirror1, gie1, ctx1, can1, ee1, _, err1, faults1⟩ := h1
  obtain ⟨cfg2, phase2, boot2, mirror2, gie2, ctx2, can2, ee2, shadow2, err2, faults2⟩ := h2
  exact ⟨cfg2.trans cfg1, phase2.trans phase1, boot2, mirror2.trans mirror1, gie2.trans gie1, ctx2.trans ctx1, can2.trans can1,
    ee2.trans ee1, shadow2, err2.trans err1, faults2.trans faults1⟩

/-- Lines 1 and 2. -/
theorem steps_reset_setConfig {s : State} (accepted : s.cfg.valid = true) (hd : s.cfg.dev = .standard) (boot : s.phase = .boot)
    (line : s.boot = .reset) (sched : s.sched = []) (can : s.csCan = false) (ee : s.csEe = false) :
    ∃ t b, steps 2 s = .next t ∧ t.inMode .config = true ∧ t.reqop = 0b100 ∧ t.reg 0x2B = 0 ∧ t.reg 0x2C = 0 ∧
      t.reg 0x30 = 0 ∧ t.intPrev = false ∧ SameBlock { s with boot := .bitTiming, modeShadow := some .config } t ∧
      t.lastHit = s.lastHit ∧ t.lastType = s.lastType ∧ SameEeprom s t ∧ SameWorld s t ∧
      t.events = s.events ++ [.xfer .can [0xC0] [], .xfer .can [0x05, 0x0F, 0xE0, 0x80] [], .xfer .can [0x03, 0x0E] [b]] := by
  obtain ⟨u, step1, reads, sampled, block, hit, type, eeprom, world, events⟩ := step_reset accepted hd boot line sched can ee
  have ⟨cfg, phase, at_line, _, _, _, can_u, ee_u, _⟩ := block
  have ⟨_, _, _, _, sched_u, _⟩ := world
  have dev : u.cfg.dev = .standard := (congrArg Params.dev cfg).trans hd
  obtain ⟨w, b, op, writes, reqop, mode, events_w⟩ := setModeOp_boot_config dev (sched_u.trans sched) sampled reads.opmod
  have sets := writes.setsMode (can_u.trans can) (ee_u.trans ee) .config .bitTiming
  have step2 : step u = .next ((w.rememberMode .config).at .bitTiming) := by
    rw [step_boot ((congrArg Params.valid cfg).trans accepted) (phase.trans boot), bootStep, at_line]
    exact bootMode_of_some op
  have cleared {a : Nat} (reset : u.reg a = 0) (other : a ≠ 0x0E ∧ a ≠ 0x0F) :
      ((w.rememberMode .config).at .bitTiming).reg a = 0 :=
    (sets.regs a other.1 other.2).trans reset
  have ⟨_, prev⟩ := sets.latch
  refine ⟨_, b, (steps_succ step1 1).trans (steps_succ step2 0), mode, reqop, cleared reads.caninte (by decide),
    cleared reads.canintf (by decide), cleared reads.txb0ctrl (by decide), prev.trans (sampled.trans reads.line),
    block.line_trans sets.block, sets.lastHit.trans hit, sets.lastType.trans type, eeprom.trans sets.eeprom,
    world.trans sets.world, ?_⟩
  rw [show ((w.rememberMode .config).at .bitTiming).events = w.events from rfl, events_w, events, List.append_assoc]
  rfl

/-- Line 10. -/
theorem step_setNormal {s : State} (accepted : s.cfg.valid = true) (hd : s.cfg.dev = .standard) (boot : s.phase = .boot)
    (line : s.boot = .setNormal) (can : s.csCan = false) (ee : s.csEe = false) (sampled : Sampled s)
    (environment : Fair s ∨ Still s ∧ s.inMode .normal = true) :
    ∃ t, step s = .next t ∧ t.inMode .normal = true ∧ t.reqop = 0b000 ∧ SetsMode s t .normal (.load 0) := by
  obtain ⟨w, op, writes, mode, reqop⟩ := setModeOp_boot hd sampled environment
  have step10 : step s = .next ((w.rememberMode .normal).at (.load 0)) := by
    rw [step_boot accepted boot, bootStep, line]
    exact bootMode_of_some op
  rw [hd] at reqop
  exact ⟨_, step10, mode, reqop, writes.setsMode can ee .normal (.load 0)⟩

theorem step_setNormal_never {s : State} (accepted : s.cfg.valid = true) (hd : s.cfg.dev = .standard) (boot : s.phase = .boot)
    (line : s.boot = .setNormal) (still : Still s) (mode : s.inMode .normal = false) : s.modeHang := by
  rw [State.modeHang, step_boot accepted boot, bootStep, line]
  simp only [bootMode, setModeOp_boot_never hd still mode]

/-! ### Line 11: the slots -/

/-- A load in a still environment: two transactions, the mirror write, and a gap without a move. -/
theorem sigLoad_quiet {g : Pause} {s : State} (quiet : Quiet g s) (ready : Ready s) (reachable : EepromReady s) {k : Nat}
    (slot : k < s.cfg.numSignals) :
    ∃ issued ev, sigLoad g k s = (.ok (), (s.traced issued ev).setMirror k
      (deserRec s.cfg.idRecOrder (s.eeBytes (s.cfg.sigAddr k) sigRecBytes))) := by
  obtain ⟨idle, bits, fits, accepted⟩ := reachable
  have ⟨sampled, _⟩ := ready
  obtain ⟨issued, reads⟩ := eeReadOp_quiet quiet ready bits fits (valid_bailout accepted) idle (s.cfg.sigAddr k) sigRecBytes
    (valid_record accepted slot)
  generalize (if sigRecBytes = 0 then ([] : List Event) else _) = ev at reads
  refine ⟨issued, ev, ?_⟩
  have gap (f : SigFmt) : tick g ((s.traced issued ev).setMirror k f) = (s.traced issued ev).setMirror k f :=
    (quiet.tick ((s.traced issued ev).setMirror k f) rfl rfl rfl).trans
      (sample_of_sampled (s := (s.traced issued ev).setMirror k f) sampled)
  rw [sigLoad, reads]
  exact congrArg (Prod.mk _) (gap _)

/-- Line 11 at a slot there is. -/
theorem step_load {s t : State} {k : Nat} (accepted : s.cfg.valid = true) (boot : s.phase = .boot) (line : s.boot = .load k)
    (slot : k < s.cfg.numSignals) (loads : sigLoad envGap k s = (.ok (), t)) : step s = .next (t.at (.load (k + 1))) := by
  rw [step_boot accepted boot, bootStep, line]
  simp only [bootLoad, if_pos slot, loads]

/-- Line 11 with every slot loaded. -/
theorem step_load_done {s : State} {k : Nat} (accepted : s.cfg.valid = true) (boot : s.phase = .boot) (line : s.boot = .load k)
    (done : s.cfg.numSignals ≤ k) : step s = .next (s.at .clearLatch) := by
  rw [step_boot accepted boot, bootStep, line]
  simp only [bootLoad, if_neg (Nat.not_lt.2 done)]

/-- What a load leaves. -/
theorem step_load_ready {s : State} {k : Nat} (accepted : s.cfg.valid = true) (boot : s.phase = .boot) (line : s.boot = .load k)
    (can : s.csCan = false) (ee : s.csEe = false) (slot : k < s.cfg.numSignals) (reachable : EepromReady s) :
    ∃ t, step s = .next t ∧
      t.mirrorAt k = some (deserRec s.cfg.idRecOrder (s.eeBytes (s.cfg.sigAddr k) sigRecBytes)) ∧
      (∀ j, j ≠ k → t.mirrorAt j = s.mirrorAt j) ∧ SameBlock { s with boot := .load (k + 1), mirror := t.mirror } t ∧
      SameEeprom s t ∧
      (Still s → Sampled s → SameLatch s t ∧ SameController s t ∧ SameWorld s t ∧ t.freeN = s.freeN) := by
  obtain ⟨u, marked, same, loads⟩ := sigLoad_calm (calm_envGap s) reachable slot
  have in_mirror : k < 16 := Nat.lt_of_lt_of_le slot (valid_slots accepted)
  have still_loads (still : Still s) (sampled : Sampled s) :=
    sigLoad_quiet (quiet_envGap still) ⟨sampled, can, ee⟩ reachable slot
  generalize deserRec s.cfg.idRecOrder (s.eeBytes (s.cfg.sigAddr k) sigRecBytes) = f at loads still_loads
  obtain ⟨idle, _⟩ := reachable
  have loaded : Marked (s.setMirror k f) (tick envGap (u.setMirror k f)) := (marked.setMirror k f).tick
  have kept : (tick envGap (u.setMirror k f)).eePart = s.eePart :=
    ((tick_envGap_eeEvolves (u.setMirror k f)).idle ((wip_of_eePart same).trans idle)).trans same
  generalize tick envGap (u.setMirror k f) = t at *
  have mirror (j : Nat) : (t.at (.load (k + 1))).mirrorAt j = if k = j ∧ j < 16 then some f else s.mirrorAt j := by
    rw [← mirrorAt_setMirror]
    exact congrArg (fun m : Vector (Option SigFmt) 16 => (m[j]?).getD none) loaded.mirror
  have block : SameBlock { s with boot := .load (k + 1), mirror := t.mirror } (t.at (.load (k + 1))) := by
    obtain ⟨cfg, phase, at_next, _, gie, ctx, csCan, csEe, shadow, err, faults⟩ :=
      (loaded.at (.load (k + 1))).sameBlock can ee
    exact ⟨cfg, phase, at_next, rfl, gie, ctx, csCan, csEe, shadow, err, faults⟩
  refine ⟨t.at (.load (k + 1)), step_load accepted boot line slot loads, (mirror k).trans (if_pos ⟨rfl, in_mirror⟩),
    fun j other => (mirror j).trans (if_neg fun h => other h.1.symm), block, sameEeprom_of_eePart kept loaded.eeProtect,
    fun still sampled => ?_⟩
  obtain ⟨issued, ev, quiet_loads⟩ := still_loads still sampled
  obtain rfl : t = (s.traced issued ev).setMirror k f := congrArg Prod.snd (loads.symm.trans quiet_loads)
  exact ⟨⟨rfl, rfl⟩, ⟨fun _ => rfl, rfl, rfl⟩, ⟨rfl, rfl, rfl, rfl, rfl, rfl⟩, rfl⟩

/-- Settles O54: each line of the boot is one of the steps above. -/
theorem bootSetsModesAndLoads : Obligations.BootSetsModesAndLoads := by
  intro s accepted hd boot can ee
  refine ⟨fun line sched => steps_reset_setConfig accepted hd boot line sched can ee, fun line sampled environment => ?_,
    fun line still mode => step_setNormal_never accepted hd boot line still mode,
    fun k line slot reachable => step_load_ready accepted boot line can ee slot reachable,
    fun k line done => step_load_done accepted boot line done⟩
  obtain ⟨t, next, mode, reqop, sets⟩ := step_setNormal accepted hd boot line can ee sampled environment
  exact ⟨t, next, mode, reqop, sets.regs, sets.block, sets.latch, sets.lastHit, sets.lastType,
    sets.eeprom, sets.world, sets.free⟩

end Sys2Proof.Machine
end
